-- ==== Sys2Proof/Word.lean ====
section
/-! DEFINITION. Words and bytes of the bus. -/
namespace Sys2Proof

/-- A bus word (00 section 7, "Words"). -/
abbrev Word := BitVec 32

/-- A byte of the buffer memory. -/
abbrev Byte := BitVec 8

end Sys2Proof
end

