-- ==== Sys2Proof/Syntax.lean ====
section
/-! DEFINITION. The commands: one constructor for each row of the table of operations and events. -/
namespace Sys2Proof

/-- The two bus ports (R129). -/
inductive Port where
  | p
  | d
deriving DecidableEq, Repr

/-- The level of TRAY (08 section 8.1). -/
inductive TrayLevel where
  | opened
  | closed
deriving DecidableEq, Repr

/-- One beat of a write: data, byte enables and ERS (R129). ERS acts at port D only. -/
structure BusBeat where
  data : Word
  enables : BitVec 4
  ers : Bool
deriving DecidableEq, Repr

/-- Direction and length of a request (R129). -/
inductive Transfer where
  | read (words : Nat)
  | write (beats : List BusBeat)
deriving DecidableEq, Repr

/-- A port request (R129). -/
structure PortRequest where
  port : Port
  addr : BitVec 24
  transfer : Transfer
deriving DecidableEq, Repr

/-- The commands. A frame argument, a fingerprint and a command code are 32-bit words as software
writes them; supply levels are whole millivolts (log 22). -/
inductive Instr where
  | start (x : Word)
  | load (f x : Word)
  | eject
  | pause
  | play
  | apply
  | forget (f : Word)
  | badCommand (code : Word)
  | parameterWordWrite (offset : BitVec 10) (data : Word) (enables : BitVec 4)
  | enableWordWrite (data : Word) (enables : BitVec 4)
  | acknowledgeWordWrite (data : Word) (enables : BitVec 4)
  | captureFirstWordRead
  | captureLastWordRead
  | portRequestArrive (r : PortRequest)
  | memoryGrant
  | protectedBeat (port : Port) (isWrite : Bool) (addr : BitVec 24)
  | intakeHeader (word : Word) (enables : BitVec 4)
  | intakeFrame (index : Nat) (word : Word) (enables : BitVec 4) (ers : Bool)
  | intakeUnusedBeat (offset : Nat)
  | blockReport
  | shockEvent
  | shkFall
  | trackLostEvent
  | trackRegainedEvent
  | tailCaptureEnd
  | blockPeriodBoundary
  | deadlineExpiry
  | evaluationEnd
  | spliceRetry
  | bridgeRetry
  | alignmentEnd
  | mergeFramesWritten
  | mergeFlagMapWritten
  | burstTake
  | burstComplete
  | tick (tray : TrayLevel)
  | trayOpen
  | trayClose
  | snapshotWriteEnd
  | supplyFallTaken (vmain : Nat)
  | supplyRiseTaken (vmain : Nat)
  | firstSupplyCompare (vmain : Nat)
  | powerOnThresholdFall (vmain vbak : Nat)
  | powerOnDelayEnd (vmain : Nat) (straps : BitVec 2)
  | vbakLow (vbak : Nat)
  | rstnAssert
  | rstnRelease (straps : BitVec 2)
deriving DecidableEq, Repr

end Sys2Proof
end

