-- ==== Sys2Proof/Decode.lean ====
section
/-! DEFINITION. The command a word spells by the table's bits. No row of the table of operations and
events gives bits, so no word spells one. -/
namespace Sys2Proof

/-- None of the 47 rows has an encoding: commands come from outside, not from words. -/
def decodeTableWord (_nbits _w : Nat) : Option Instr := none

end Sys2Proof
end

