-- ==== Sys2Proof/Config.lean ====
section
/-! DEFINITION. The fixed numbers of the part, and the values the spec leaves open. -/
namespace Sys2Proof.Config

/-- Frames in a block (00 section 5.1). -/
abbrev frames : Nat := 588

/-- Bytes from one slot to the next (R2). -/
abbrev stride : Nat := 2432

/-- Offset of the flag map in a slot (R2). -/
abbrev flagMapOffset : Nat := 2352

/-- Labels are below this (00 section 5.2). -/
abbrev labelCount : Nat := 450000

/-- Highest disc frame address (00 section 5.3). -/
abbrev lastFrame : Nat := 264599999

/-- Bytes of the address space (R129). -/
abbrev addressSpace : Nat := 16777216

/-- Most live segments (R11). -/
abbrev maxSegments : Nat := 16

/-- Most Gap Table entries (R91). -/
abbrev maxGaps : Nat := 8

/-- REFCLK cycles of a block period (R1). -/
abbrev blockPeriodCycles : Nat := 451584

/-- REFCLK cycles of a tick (R1). -/
abbrev tickCycles : Nat := 32768

/-- What the 8-bit field of the status area shows for a completed command code of 256 or more.
R175 writes "the command's code" and R186 gives it 8 bits; no rule says what a wider code shows.
DESIGN CHOICE (log 21): a free value. -/
opaque wideCodeField : Word → BitVec 8

/-- What is recorded as the label of an untrusted block when the label above the last one is past
449,999. R4 says a label field never holds 450,000 or above; no rule says which label such a block is
given. DESIGN CHOICE (log 24): a free value, below 450,000 as R4 requires. -/
opaque labelPastEnd : Nat → Fin 450000

/-- The label the Recovery Controller gives a block (R4): the label called for, or past the end of the
disc a free value. -/
def assignedLabel (l : Nat) : Nat := if l < labelCount then l else (labelPastEnd l).val

end Sys2Proof.Config
end

