-- ==== Sys2Proof/Machine/State.lean ====
section
/-! DEFINITION. The state of the JX-7206 as plain data: each block's registers, counters and buffers,
with the values after power-on and RSTn that the block's own chapter gives. -/
namespace Sys2Proof.Machine

/-! ### Parameters (10 section 10.2) -/

/-- The in-effect set: one number for each parameter, in the order of R186. -/
structure Params where
  ringBase : Nat
  ringSlots : Nat
  intakeBase : Nat
  playBase : Nat
  lowWater : Nat
  holdMargin : Nat
  distrust : Nat
  matchLen : Nat
  span : Nat
  tol : Nat
  preroll : Nat
  seekTimeout : Nat
  retryLimit : Nat
  gapLimit : Nat
  gapLead : Nat
  gapOrder : Nat
  interpMax : Nat
  shkFilter : Nat
  deb : Nat
  supplyLevel : Nat
  supplyFilter : Nat
deriving DecidableEq, Repr

/-- The parameter block base that the straps select (R130). -/
def blockBase (straps : BitVec 2) : Nat :=
  match straps.toNat with
  | 0 => 0xFFF000
  | 1 => 0xBFF000
  | 2 => 0x7FF000
  | _ => 0x3FF000

/-- The defaults of R173, with the window bases below the sampled block base (R130). -/
def Params.defaults (straps : BitVec 2) : Params :=
  { ringBase := 0, ringSlots := 512
    intakeBase := blockBase straps - 0x1000, playBase := blockBase straps - 0x2000
    lowWater := 20, holdMargin := 4, distrust := 1, matchLen := 16, span := 588, tol := 4
    preroll := 3, seekTimeout := 60, retryLimit := 3, gapLimit := 12, gapLead := 40
    gapOrder := 0, interpMax := 8, shkFilter := 2, deb := 24, supplyLevel := 2, supplyFilter := 1 }

/-- The parameters in the order of their words (R186). -/
def Params.toList (p : Params) : List Nat :=
  [p.ringBase, p.ringSlots, p.intakeBase, p.playBase, p.lowWater, p.holdMargin, p.distrust,
   p.matchLen, p.span, p.tol, p.preroll, p.seekTimeout, p.retryLimit, p.gapLimit, p.gapLead,
   p.gapOrder, p.interpMax, p.shkFilter, p.deb, p.supplyLevel, p.supplyFilter]

/-! ### Stream Map (01) -/

/-- What a slot is used for (R4). -/
inductive SlotState where
  | free
  | filling
  | staged
  | linked
deriving DecidableEq, Repr

/-- How a block came to be read (R4, R5). -/
inductive Arrival where
  | stream
  | reread
  | gapFetch
deriving DecidableEq, Repr

/-- A slot descriptor (R4), with the merging mark of R87. -/
structure SlotDesc where
  state : SlotState
  label : Option Nat
  trusted : Bool
  owner : Option Nat
  written : Nat
  erasures : Nat
  arrival : Arrival
  gapMark : Bool
  stale : Bool
  merging : Bool
deriving DecidableEq, Repr

/-- The FREE values of R4. -/
def SlotDesc.free : SlotDesc :=
  { state := .free, label := none, trusted := false, owner := none, written := 0, erasures := 0
    arrival := .stream, gapMark := false, stale := false, merging := false }

/-- How a segment's first position was reached (R10). -/
inductive HeadKind where
  | start
  | matched
  | bridged
  | resumed
  | nominal
deriving DecidableEq, Repr

/-- A segment record (R10). -/
structure Segment where
  id : Nat
  start : Nat
  length : Nat
  shift : Int
  kind : HeadKind
  isOpen : Bool
deriving DecidableEq, Repr

/-- The Slot Table, the Segment List and what goes with them (01). `below` is the LEAD_LOW latch
(R21); `retireReport` is a retirement report not yet used (R12). -/
structure StreamMap where
  slots : List SlotDesc
  allocPtr : Nat
  segs : List Segment
  nextId : Nat
  below : Bool
  retireReport : Bool
deriving DecidableEq, Repr

/-- R23, for a ring of `n` slots. -/
def StreamMap.reset (n : Nat) : StreamMap :=
  { slots := List.replicate n SlotDesc.free, allocPtr := 0, segs := [], nextId := 0
    below := true, retireReport := false }

/-! ### Reads of frames, engine writes -/

/-- A frame that some block reads, at the location a lookup answered (R16): the slot, where that slot
begins in memory under the RING_BASE of the lookup, and the index; its word and its flag-map bit, once
they are read. -/
structure FetchItem where
  slot : Nat
  base : Nat
  index : Nat
  word : Option Word
  mark : Option Bool
deriving DecidableEq, Repr

/-- An engine write: consecutive words from an address (R141). -/
structure WriteJob where
  addr : Nat
  words : List Word
deriving DecidableEq, Repr

/-- A staged block: its slot and its label. -/
structure StagedBlock where
  slot : Nat
  label : Nat
deriving DecidableEq, Repr

/-! ### Intake Unit (02) -/

/-- The intake states of R26. -/
inductive IntakePhase where
  | none
  | filling
  | refused
  | handingOver
deriving DecidableEq, Repr

/-- A port D write beat in the intake window (R24). -/
inductive IntakeBeat where
  | header (word : Word) (enables : BitVec 4)
  | frame (index : Nat) (word : Word) (enables : BitVec 4) (ers : Bool)
  | unused
deriving DecidableEq, Repr

/-- The Intake Unit (02 section 2.2), its flag-map requests and the HOLD line. -/
structure Intake where
  phase : IntakePhase
  slot : Option Nat
  written : BitVec 588
  marks : BitVec 588
  held : List IntakeBeat
  staleHeld : Bool
  flagJobs : List WriteJob
  hold : Bool
deriving DecidableEq, Repr

/-- R42. -/
def Intake.reset : Intake :=
  { phase := .none, slot := none, written := 0, marks := 0, held := [], staleHeld := false
    flagJobs := [], hold := false }

/-! ### Recovery Controller (03) -/

/-- The recovery states (03 section 3.2). -/
inductive RecoveryPhase where
  | parked
  | starting
  | streaming
  | holding
  | lost
  | seeking
  | matching
  | bridging
  | gapFetch
deriving DecidableEq, Repr

/-- Causes of a break or return, and sequence origins (03 section 3.2). -/
inductive Cause where
  | shock
  | trackLost
  | discontinuity
  | holdReturn
  | gapReturn
  | resume
deriving DecidableEq, Repr

/-- What the Controller waits for beyond its state: the list-full wait of R59 with its decision, the
start wait of R81 with its decision, or the held bridge head of R62. -/
inductive Wait where
  | none
  | splice (d : Int)
  | start (d : Int)
  | bridge
deriving DecidableEq, Repr

/-- A frame of the tail store (R52). -/
structure TailFrame where
  word : Word
  erased : Bool
deriving DecidableEq, Repr

/-- A tail position being captured (R52): where the ring holds it, if it is to be read there, and
its frame once gathered. -/
structure CaptureItem where
  pos : Int
  source : Option FetchItem
  value : Option TailFrame
deriving DecidableEq, Repr

/-- A tail capture in progress (R52). `returns` is set for a hold return or a gap return, which
publishes and enters SEEKING at the end. -/
structure Capture where
  items : List CaptureItem
  returns : Bool
deriving DecidableEq, Repr

/-- What is taken while the capture runs and acted on after it (R52). -/
inductive Deferred where
  | report
  | shock
  | trackLost
deriving DecidableEq, Repr

/-- The capture record (R66, R67); cause `none` is NONE. -/
structure CaptureRecord where
  cause : Option Cause
  p : Nat
  lead : Nat
  retries : Nat
  pending : Bool
  renewed : Bool
  held : Bool
deriving DecidableEq, Repr

/-- The empty record of R67. -/
def CaptureRecord.empty : CaptureRecord :=
  { cause := none, p := 0, lead := 0, retries := 0, pending := false, renewed := false, held := false }

/-- The Recovery Controller (03 section 3.2). -/
structure Recovery where
  phase : RecoveryPhase
  origin : Option Cause
  cause : Option Cause
  p : Nat
  retry : Nat
  bridgePending : Bool
  seqBroken : Bool
  deadline : Nat
  target : Nat
  rrq : Bool
  rrqEdges : Nat
  tail : List TailFrame
  kEff : Nat
  span : Nat
  expected : Option Nat
  run : List StagedBlock
  wait : Wait
  startFrame : Nat
  startKind : HeadKind
  capture : Option Capture
  deferred : List Deferred
  loaded : Option Word
  started : Bool
  record : CaptureRecord
deriving DecidableEq, Repr

/-- R70. -/
def Recovery.reset : Recovery :=
  { phase := .parked, origin := none, cause := none, p := 0, retry := 0, bridgePending := false
    seqBroken := false, deadline := 0, target := 0, rrq := false, rrqEdges := 0, tail := []
    kEff := 0, span := 0, expected := none, run := [], wait := .none, startFrame := 0
    startKind := .start, capture := none, deferred := [], loaded := none, started := false
    record := CaptureRecord.empty }

/-! ### Match Engine (04) -/

/-- The activity (04 section 4.1). -/
inductive Activity where
  | idle
  | scoring
  | aligning
  | merging
deriving DecidableEq, Repr

/-- The winning candidate so far: offset, mean and count (R71). -/
structure Best where
  offset : Int
  mean : Nat
  count : Nat
deriving DecidableEq, Repr

/-- The attempt context (R71). `scoredTo` is the labelled end E of the last evaluation begun (R73). -/
structure Attempt where
  p : Nat
  kEff : Nat
  span : Nat
  runStart : Nat
  lowest : Option Int
  next : Int
  best : Option Best
  scoredTo : Option Nat
deriving DecidableEq, Repr

/-- Where an alignment or merge stands (R83 to R87). -/
inductive AlignStage where
  | readFlags
  | readReference
  | score
  | scored
  | mergeMarks
  | mergeRead
  | mergeWrite
  | flagMap
deriving DecidableEq, Repr

/-- An alignment and merge in progress (R83 to R87): RING_BASE as its slots lie, the scratched slot and
its label, the staged blocks, K, S' and TOL as read, the scratched slot's marks, the reference, the
candidates' scores, the offset taken without scoring (R84), the replaced indexes and the frame writes
still to make. -/
structure Align where
  stage : AlignStage
  ring : Nat
  label : Nat
  slot : Nat
  blocks : List StagedBlock
  k : Nat
  span : Nat
  tol : Nat
  marks : BitVec 588
  first : Nat
  reference : List TailFrame
  next : Int
  best : Option Best
  unscored : Bool
  targets : List Nat
  replaced : Nat
  writes : List (Nat × Word)
  newMarks : BitVec 588
  jobs : List WriteJob
deriving DecidableEq, Repr

/-- The Match Engine (04 section 4.1). -/
structure MatchEngine where
  activity : Activity
  attempt : Option Attempt
  fetch : List FetchItem
  align : Option Align
  orphans : List WriteJob
deriving DecidableEq, Repr

/-- R89. -/
def MatchEngine.reset : MatchEngine :=
  { activity := .idle, attempt := none, fetch := [], align := none, orphans := [] }

/-! ### Gap Scheduler and Quality Monitor (05) -/

/-- A Gap Table entry; its creation order is its place in the table (R91). -/
structure GapEntry where
  label : Nat
  slot : Nat
  retries : Nat
deriving DecidableEq, Repr

/-- The fetch phases besides NONE (05 section 5.4). -/
inductive FetchPhase where
  | fetching
  | merging
deriving DecidableEq, Repr

/-- The fetch record (R96); `abandoned` is set by R101 while a granted merge runs on. -/
structure FetchRecord where
  phase : FetchPhase
  label : Nat
  slot : Nat
  staged : List StagedBlock
  late : Bool
  abandoned : Bool
deriving DecidableEq, Repr

/-- The Gap Scheduler; fetch phase NONE is `fetch = none`. -/
structure GapScheduler where
  entries : List GapEntry
  fetch : Option FetchRecord
deriving DecidableEq, Repr

/-- R109. -/
def GapScheduler.reset : GapScheduler := { entries := [], fetch := none }

/-- The quality states (05 section 5.6). -/
inductive QualityLevel where
  | normal
  | warned
  | degraded
  | abandon
deriving DecidableEq, Repr

/-- The Quality Monitor (05 section 5.6). -/
structure Quality where
  counter : Nat
  level : QualityLevel
  cleanRun : Nat
  rated : Word
deriving DecidableEq, Repr

/-- R109. -/
def Quality.reset : Quality := { counter := 0, level := .normal, cleanRun := 0, rated := 0 }

/-! ### Play Server (06) -/

/-- The play states (06 section 6.1). -/
inductive PlayMode where
  | stopped
  | playing
  | paused
deriving DecidableEq, Repr

/-- What the last word was (06 section 6.4). -/
inductive LastKind where
  | real (pos seg : Nat)
  | concealed
  | fill
  | pause
  | zero
deriving DecidableEq, Repr

/-- The concealment run (R116 to R118): the position that continues it and its segment; for an
interpolated run the bounds a and b, the length n and the step i of the next frame. -/
inductive ConcealRun where
  | none
  | interp (a b : Word) (n i next seg : Nat)
  | fade (next seg : Nat)
deriving DecidableEq, Repr

/-- The fade-out state (R118). -/
structure Fade where
  source : Word
  step : Nat
deriving DecidableEq, Repr

/-- A history entry (R123): no value while it is reserved; `erased` is the mark CONCEALED. -/
structure HistoryEntry where
  pos : Nat
  value : Option TailFrame
deriving DecidableEq, Repr

/-- A planned word of a burst (R114). A serve records its position, its segment's id, stream start
and head kind, the INTERP_MAX in effect, and the frame to read (none: not buffered). -/
inductive BurstWord where
  | serve (pos seg segStart : Nat) (kind : HeadKind) (interpMax : Nat) (item : Option FetchItem)
  | fill
  | pause
  | zero
deriving DecidableEq, Repr

/-- What a look-ahead lookup answered (R116): outside the segment, a position whose slot the segment
does not own, or a frame to be read. -/
inductive AheadPlace where
  | outside
  | missing
  | frame (item : FetchItem)
deriving DecidableEq, Repr

/-- A look-ahead position of the completion, with its segment's id (R116, R138). -/
structure AheadItem where
  pos : Nat
  seg : Nat
  place : AheadPlace
deriving DecidableEq, Repr

/-- The burst in flight (06 section 6.3): the play state at its take, the words still to be planned,
the words planned, and the look-ahead positions the completion has added. -/
structure Burst where
  mode : PlayMode
  todo : Nat
  words : List BurstWord
  ahead : List AheadItem := []
deriving DecidableEq, Repr

/-- The Play Server (06). -/
structure PlayServer where
  mode : PlayMode
  cursor : Nat
  history : List HistoryEntry
  lastWord : Word
  lastKind : LastKind
  run : ConcealRun
  endRun : Bool
  fadeOut : Option Fade
  fadeIn : Nat
  underrun : Bool
  burst : Option Burst
deriving DecidableEq, Repr

/-- R128. -/
def PlayServer.reset : PlayServer :=
  { mode := .stopped, cursor := 0, history := [], lastWord := 0, lastKind := .zero, run := .none
    endRun := false, fadeOut := some { source := 0, step := 64 }, fadeIn := 1, underrun := false
    burst := none }

/-! ### Port Router and Memory Arbiter (07) -/

/-- The regions of R130. -/
inductive Region where
  | ring
  | play
  | intake
  | parameter
  | status
  | elsewhere
deriving DecidableEq, Repr

/-- A beat as classified at arrival (R130): its place in the request, its address and its data. -/
structure Beat where
  place : Nat
  addr : Nat
  region : Region
  data : BusBeat
deriving DecidableEq, Repr

/-- A request being served (07 section 7.1): the beats of its main piece still to take, the burst
assembly buffer (one word for each beat), the places of its play beats, whether it has a write beat
in the intake window, whether a hand-off holds it (R35, R133), and whether the header beat taken when a
hand-off ended still waits for its new main piece to be granted (`opening`; R133, log 8). -/
structure ActiveRequest where
  isWrite : Bool
  main : List Beat
  buffer : List Word
  plays : List Nat
  touchesIntake : Bool
  held : Bool
  opening : Bool := false
deriving DecidableEq, Repr

/-- The Port Router: sampled straps, the requests of the two ports, requests the masters hold, and
the words last returned at each port (log 25). -/
structure Router where
  pblk : BitVec 2
  reqP : Option ActiveRequest
  reqD : Option ActiveRequest
  waiting : List PortRequest
  returnP : List Word
  returnD : List Word
deriving DecidableEq, Repr

/-- R144. -/
def Router.reset (straps : BitVec 2) : Router :=
  { pblk := straps, reqP := none, reqD := none, waiting := [], returnP := [], returnD := [] }

/-- The engine clients, in their cyclic order (R141). -/
inductive EngineClient where
  | intake
  | recovery
  | matcher
  | control
deriving DecidableEq, Repr

/-- The Memory Arbiter (R140, R141). -/
structure Arbiter where
  waitCount : Nat
  last : EngineClient
deriving DecidableEq, Repr

/-- R140, R141, R144. -/
def Arbiter.reset : Arbiter := { waitCount := 0, last := .control }

/-! ### Line Monitor (03 section 3.1, 08 section 8.1) -/

/-- The Line Monitor: filtered levels, filter timers in REFCLK cycles, and the tray logic. -/
structure Lines where
  shk : Bool
  tlost : Bool
  shkTimer : Nat
  tlostTimer : Nat
  taken : TrayLevel
  sampled : Bool
  debounce : Nat
  quiet : Nat
  riseLatch : Bool
  edge : Option TrayLevel
deriving DecidableEq, Repr

/-- R43, R44, R148. -/
def Lines.reset : Lines :=
  { shk := false, tlost := false, shkTimer := 0, tlostTimer := 0, taken := .opened, sampled := false
    debounce := 0, quiet := 64, riseLatch := false, edge := none }

/-! ### Resume Store (08 section 8.3) -/

/-- A Resume Table entry (R152). -/
structure ResumeEntry where
  valid : Bool
  fingerprint : Word
  frame : Nat
  tailCount : Nat
  tail : List TailFrame
  age : Nat
deriving DecidableEq, Repr

/-- An entry that nothing has written (log 27). -/
def ResumeEntry.blank : ResumeEntry :=
  { valid := false, fingerprint := 0, frame := 0, tailCount := 0
    tail := List.replicate 32 { word := 0, erased := false }, age := 0 }

/-- A snapshot in flight (R153 to R156): the gathered contents, with positions still reserved in the
history (no value), the entry being written, and the time since the write began in REFCLK cycles. -/
structure Snapshot where
  fingerprint : Word
  frame : Nat
  tail : List HistoryEntry
  target : Option Nat
  timer : Nat
deriving DecidableEq, Repr

/-- The Resume Store and the retained domain (R152, R167, R168). -/
structure ResumeStore where
  entries : List ResumeEntry
  latch : Bool
  onVbak : Bool
  snap : Option Snapshot
deriving DecidableEq, Repr

/-- What the power-on sequence of the first power-up leaves: the latch comes up clear, so the check
empties the table and sets the latch (R169). -/
def ResumeStore.first : ResumeStore :=
  { entries := List.replicate 6 ResumeEntry.blank, latch := true, onVbak := false, snap := none }

/-! ### Supply Monitor (09) -/

/-- The raw conditions of R161. -/
inductive SupplyCondition where
  | below
  | between
  | above
deriving DecidableEq, Repr

/-- The Supply Monitor: held reset and power-on delay (R165, R166), live low indication,
first-compare indication and filter timer (09 section 9.1), and the condition the timer is timing. -/
structure Supply where
  held : Bool
  delay : Nat
  low : Bool
  first : Bool
  timer : Nat
  seen : SupplyCondition
deriving DecidableEq, Repr

/-- R170. `seen`, the condition last timed, starts as "above": the model's choice (log 40). -/
def Supply.reset : Supply :=
  { held := false, delay := 0, low := false, first := true, timer := 0, seen := .above }

/-! ### Control Unit (10) -/

/-- The results of R175. -/
inductive CmdResult where
  | done
  | refusedState
  | refusedConfig
  | badCommand
  | notFound
deriving DecidableEq, Repr

/-- The apply indication of R177. -/
inductive ApplyInd where
  | none
  | pending
  | done
  | refusedConfig
deriving DecidableEq, Repr

/-- The twelve counters of R183. -/
structure Counters where
  framesServed : Word
  concealed : Word
  fill : Word
  breaks : Word
  rejoins : Word
  bridges : Word
  gapsFilled : Word
  gapsLate : Word
  gapRefused : Word
  droppedBlocks : Word
  intakeDiscards : Word
  accessDrops : Word
deriving DecidableEq, Repr

/-- All counters 0 (R184). -/
def Counters.zero : Counters :=
  { framesServed := 0, concealed := 0, fill := 0, breaks := 0, rejoins := 0, bridges := 0
    gapsFilled := 0, gapsLate := 0, gapRefused := 0, droppedBlocks := 0, intakeDiscards := 0
    accessDrops := 0 }

/-- The Control Unit (10). `busy` is the command unit state EXECUTING; `forgetWait` is the
fingerprint of a FORGET held for a snapshot write (R160). -/
structure Control where
  staged : List Word
  params : Params
  latch : Word
  arg0 : Word
  arg1 : Word
  arg2 : Word
  busy : Bool
  lastCode : Word
  lastResult : CmdResult
  applyInd : ApplyInd
  applyPending : Bool
  zeroWrite : Bool
  forgetWait : Option Word
  flags : BitVec 16
  enable : Word
  counters : Counters
deriving DecidableEq, Repr

/-- R184, with the bases from the sampled straps. -/
def Control.reset (straps : BitVec 2) : Control :=
  { staged := (Params.defaults straps).toList.map (BitVec.ofNat 32), params := Params.defaults straps
    latch := 0, arg0 := 0, arg1 := 0, arg2 := 0, busy := false, lastCode := 0, lastResult := .done
    applyInd := .none, applyPending := false, zeroWrite := false, forgetWait := none, flags := 0
    enable := 0, counters := Counters.zero }

/-- An eject action waiting for its snapshot (R150); `byCommand` when an EJECT command began or
joined it. -/
structure EjectAction where
  byCommand : Bool
deriving DecidableEq, Repr

/-! ### Pins and clock -/

/-- The levels the outside drives on the input pins (R187), the supplies in whole millivolts (log 22). -/
structure Pins where
  shk : Bool
  tlost : Bool
  tray : TrayLevel
  pblk : BitVec 2
  rstn : Bool
  vmain : Nat
  vbak : Nat
deriving DecidableEq, Repr

/-- DESIGN CHOICE (log 5): quiet lines, TRAY open, straps 0, RSTn not asserted, supplies nominal.
`rstn = true` is RSTn asserted. -/
def Pins.quiet : Pins :=
  { shk := false, tlost := false, tray := .opened, pblk := 0, rstn := false, vmain := 5000, vbak := 3000 }

/-- The free-running dividers of R1. -/
structure Clock where
  blockDiv : Nat
  tickDiv : Nat
deriving DecidableEq, Repr

/-- R1. -/
def Clock.reset : Clock := { blockDiv := 0, tickDiv := 0 }

/-! ### The whole -/

/-- The state of the part, the buffer memory behind it, its pins, and the queue of commands waiting. -/
structure State where
  pending : List Instr
  pins : Pins
  clock : Clock
  mem : List Host.Cell
  router : Router
  arb : Arbiter
  intake : Intake
  map : StreamMap
  rc : Recovery
  me : MatchEngine
  gaps : GapScheduler
  quality : Quality
  play : PlayServer
  lines : Lines
  resume : ResumeStore
  supply : Supply
  ctl : Control
  eject : Option EjectAction
deriving DecidableEq, Repr

/-! ### One update for each block

`s.onX f` changes block `X` by `f` and nothing else (Laws/State.lean says so field by field). -/

/-- Change `pins` only. -/
def State.onPins (s : State) (f : Pins → Pins) : State := { s with pins := f s.pins }

/-- Change `clock` only. -/
def State.onClock (s : State) (f : Clock → Clock) : State := { s with clock := f s.clock }

/-- Change `mem` only. -/
def State.onMem (s : State) (f : List Host.Cell → List Host.Cell) : State := { s with mem := f s.mem }

/-- Change `router` only. -/
def State.onRouter (s : State) (f : Router → Router) : State := { s with router := f s.router }

/-- Change `arb` only. -/
def State.onArb (s : State) (f : Arbiter → Arbiter) : State := { s with arb := f s.arb }

/-- Change `intake` only. -/
def State.onIntake (s : State) (f : Intake → Intake) : State := { s with intake := f s.intake }

/-- Change `map` only. -/
def State.onMap (s : State) (f : StreamMap → StreamMap) : State := { s with map := f s.map }

/-- Change `rc` only. -/
def State.onRc (s : State) (f : Recovery → Recovery) : State := { s with rc := f s.rc }

/-- Change `me` only. -/
def State.onMe (s : State) (f : MatchEngine → MatchEngine) : State := { s with me := f s.me }

/-- Change `gaps` only. -/
def State.onGaps (s : State) (f : GapScheduler → GapScheduler) : State := { s with gaps := f s.gaps }

/-- Change `quality` only. -/
def State.onQuality (s : State) (f : Quality → Quality) : State := { s with quality := f s.quality }

/-- Change `play` only. -/
def State.onPlay (s : State) (f : PlayServer → PlayServer) : State := { s with play := f s.play }

/-- Change `lines` only. -/
def State.onLines (s : State) (f : Lines → Lines) : State := { s with lines := f s.lines }

/-- Change `resume` only. -/
def State.onResume (s : State) (f : ResumeStore → ResumeStore) : State := { s with resume := f s.resume }

/-- Change `supply` only. -/
def State.onSupply (s : State) (f : Supply → Supply) : State := { s with supply := f s.supply }

/-- Change `ctl` only. -/
def State.onCtl (s : State) (f : Control → Control) : State := { s with ctl := f s.ctl }

/-- Change `eject` only. -/
def State.onEject (s : State) (f : Option EjectAction → Option EjectAction) : State := { s with eject := f s.eject }

/-- Why the part would stop: the spec names nothing that stops it (misuse raises flags and counts),
so no reason exists. Nobody raises one; safe. -/
inductive Fault where
deriving DecidableEq, Repr

/-- Why a command has no meaning. -/
inductive Refusal where
  /-- Raised by an arm of `exec` whose row has no meaning yet; no arm does. Safe. -/
  | notModelled (mnemonic : String)
deriving DecidableEq, Repr

/-- Right after the power-on sequence of the first power-up (R166): every block at its power-on
values, the retention check having found the latch clear (R169), so RETAIN_LOST (bit 15) is set. -/
def State.reset : State :=
  { pending := [], pins := Pins.quiet, clock := Clock.reset, mem := [], router := Router.reset 0
    arb := Arbiter.reset, intake := Intake.reset, map := StreamMap.reset 512, rc := Recovery.reset
    me := MatchEngine.reset, gaps := GapScheduler.reset, quality := Quality.reset
    play := PlayServer.reset, lines := Lines.reset, resume := ResumeStore.first
    supply := Supply.reset, ctl := { Control.reset 0 with flags := 0x8000 }, eject := none }

end Sys2Proof.Machine
end

