-- ==== Sys2Proof/Machine/Operands.lean ====
section
/-! DEFINITION. The fields of words: bytes and byte lanes, header words, samples, flag-map words,
parameter clamping, and the integer arithmetic of fades and interpolation. -/
namespace Sys2Proof.Machine

/-! ### Bytes and byte enables (R185) -/

/-- Byte `i` of a word: bits 8i + 7 to 8i (R185). -/
def byteOf (w : Word) (i : Nat) : Byte := w.extractLsb' (8 * i) 8

/-- The word of the bytes at four consecutive addresses (R185). -/
def wordOfBytes (b0 b1 b2 b3 : Byte) : Word := b3 ++ b2 ++ b1 ++ b0

/-- The bytes of `new` whose enables are set, the others of `old` (R134, R172). -/
def mergeBytes (old new : Word) (enables : BitVec 4) : Word :=
  let pick (i : Nat) : Byte := if enables.getLsbD i then byteOf new i else byteOf old i
  wordOfBytes (pick 0) (pick 1) (pick 2) (pick 3)

/-- All four byte enables. -/
def allEnables : BitVec 4 := 15

/-! ### Header words (R25, R185) -/

/-- The label value: bits 18:0. -/
def headerValue (w : Word) : Nat := (w.extractLsb' 0 19).toNat

/-- Address-valid: bit 31. -/
def headerValid (w : Word) : Bool := w.getLsbD 31

/-- The label recorded: a value of 450,000 or more is clamped to 449,999 (R25). -/
def headerLabel (w : Word) : Nat :=
  if headerValue w < Config.labelCount then headerValue w else Config.labelCount - 1

/-- A label is trusted when address-valid is set and the value is below 450,000 (R25). -/
def headerTrusted (w : Word) : Bool := headerValid w && headerValue w < Config.labelCount

/-! ### Frame words (R185) -/

/-- The left sample, bits 31:16, signed. -/
def leftOf (w : Word) : Int := (w.extractLsb' 16 16).toInt

/-- The right sample, bits 15:0, signed. -/
def rightOf (w : Word) : Int := (w.extractLsb' 0 16).toInt

/-- The frame word of two samples. -/
def frameOf (l r : Int) : Word := (BitVec.ofInt 16 l : BitVec 16) ++ (BitVec.ofInt 16 r : BitVec 16)

/-- Apply one function to each sample of a frame. -/
def mapFrame (f : Int → Int) (w : Word) : Word := frameOf (f (leftOf w)) (f (rightOf w))

/-- Fade-out value at step k: trunc(v × (64 − k) ÷ 64), and 0 from k = 64 on (R118). -/
def fadeOutFrame (source : Word) (k : Nat) : Word :=
  if k < 64 then mapFrame (fun v => (v * (64 - (k : Int))).tdiv 64) source else 0

/-- Fade-in value at step k: trunc(x × k ÷ 64), and unscaled with no fade running, k = 0 (R119). -/
def fadeInFrame (x : Word) (k : Nat) : Word :=
  if k = 0 then x else mapFrame (fun v => (v * (k : Int)).tdiv 64) x

/-- Interpolated sample i of a run of n: a + trunc((b − a) × i ÷ (n + 1)) (R117). -/
def interpSample (a b : Int) (n i : Nat) : Int := a + ((b - a) * (i : Int)).tdiv ((n : Int) + 1)

/-- Interpolated frame i of a run of n, each channel separately (R117). -/
def interpFrame (a b : Word) (n i : Nat) : Word :=
  frameOf (interpSample (leftOf a) (leftOf b) n i) (interpSample (rightOf a) (rightOf b) n i)

/-- The per-frame term |ΔL| + |ΔR| (R75). -/
def frameTerm (x y : Word) : Nat :=
  (leftOf x - leftOf y).natAbs + (rightOf x - rightOf y).natAbs

/-! ### Flag maps (R2, R185) -/

/-- Flag-map word m of a set of marks: bit i mod 32 holds the mark of frame i, for i from 32m on;
bits beyond frame 587 are 0 (R2, R185). -/
def flagMapWord (marks : BitVec 588) (m : Nat) : Word := (marks >>> (32 * m)).setWidth 32

/-- The erasure bit of frame i in its flag-map word (R185). -/
def markIn (flagWord : Word) (i : Nat) : Bool := flagWord.getLsbD (i % 32)

/-- Set or clear the bit of frame i. -/
def setMark (marks : BitVec 588) (i : Nat) (b : Bool) : BitVec 588 :=
  if b then marks ||| BitVec.twoPow 588 i else marks &&& ~~~(BitVec.twoPow 588 i)

/-- How many bits are set, counting from bit `n - 1` down. -/
def countBits (bits : Nat) : Nat → Nat
  | 0 => 0
  | n + 1 => (if bits.testBit n then 1 else 0) + countBits bits n

/-- How many frames are marked. -/
def countMarks (marks : BitVec 588) : Nat := countBits marks.toNat 588

/-! ### Blocks and positions (00 section 5.3) -/

/-- block(x) = floor(x ÷ 588). -/
def blockOf (x : Nat) : Nat := x / Config.frames

/-- First labelled frame of a block. -/
def blockStart (label : Nat) : Nat := label * Config.frames

/-- Last labelled frame of a block. -/
def blockLast (label : Nat) : Nat := label * Config.frames + 587

/-! ### Parameters (R173) -/

/-- Raise to the low end, lower to the high end (R173). -/
def clampTo (lo hi v : Nat) : Nat := if v < lo then lo else if hi < v then hi else v

/-- A base: low twelve bits taken as zero, a base above 0xFFF000 becoming 0xFFF000 (R173). -/
def clampBase (v : Nat) : Nat := clampTo 0 0xFFF000 (v / 4096 * 4096)

/-- The in-effect values a staged set converts into (R173). -/
def clampParams (staged : List Word) : Params :=
  let v (i : Nat) : Nat := (staged.getD i 0).toNat
  { ringBase := clampBase (v 0), ringSlots := clampTo 64 1024 (v 1)
    intakeBase := clampBase (v 2), playBase := clampBase (v 3)
    lowWater := clampTo 1 255 (v 4), holdMargin := clampTo 2 32 (v 5)
    distrust := clampTo 0 7 (v 6), matchLen := clampTo 8 64 (v 7)
    span := clampTo 0 1176 (v 8), tol := clampTo 0 1023 (v 9)
    preroll := clampTo 1 15 (v 10), seekTimeout := clampTo 2 255 (v 11)
    retryLimit := clampTo 0 7 (v 12), gapLimit := clampTo 0 588 (v 13)
    gapLead := clampTo 8 255 (v 14), gapOrder := clampTo 0 1 (v 15)
    interpMax := clampTo 0 16 (v 16), shkFilter := clampTo 0 3 (v 17)
    deb := clampTo 4 64 (v 18), supplyLevel := clampTo 0 7 (v 19)
    supplyFilter := clampTo 0 3 (v 20) }

/-- SHK_FILTER in microseconds by its code (R173). -/
def shkFilterTime (code : Nat) : Nat :=
  match code with
  | 0 => 0
  | 1 => 2
  | 2 => 8
  | _ => 32

/-- SUPPLY_FILTER in microseconds by its code (R173). -/
def supplyFilterTime (code : Nat) : Nat :=
  match code with
  | 0 => 1
  | 1 => 4
  | 2 => 16
  | _ => 64

/-- A frame argument is lowered to 264,599,999 when the command is taken (R175). -/
def frameArgument (x : Word) : Nat := min x.toNat Config.lastFrame

/-! ### Supply levels (R161), in millivolts -/

/-- 4.30 V + 0.05 V × SUPPLY_LEVEL. -/
def fallLevel (p : Params) : Nat := 4300 + 50 * p.supplyLevel

/-- 50 mV above the fall level. -/
def releaseLevel (p : Params) : Nat := fallLevel p + 50

/-- The raw condition of R161. -/
def supplyCondition (p : Params) (vmain : Nat) : SupplyCondition :=
  if vmain < fallLevel p then .below else if releaseLevel p ≤ vmain then .above else .between

/-- The power-on threshold, 3.9 V (R165). -/
abbrev powerOnLevel : Nat := 3900

/-- The retention level of VBAK, 2.0 V (R168). -/
abbrev retentionLevel : Nat := 2000

end Sys2Proof.Machine
end

