-- ==== Sys2Proof/Machine/Flags.lean ====
section
/-! DEFINITION. Event flags, ATTN and the twelve counters (10 sections 10.5 and 10.6). -/
namespace Sys2Proof.Machine

/-- The sixteen event flags (R179). -/
inductive EventFlag where
  | breakTaken
  | rejoin
  | bridge
  | underrun
  | leadLow
  | overflow
  | gapFilled
  | gapLate
  | quality
  | tray
  | resume
  | supply
  | cmdDone
  | access
  | config
  | retainLost
deriving DecidableEq, Repr

/-- A flag's bit in the flags word (R186). -/
def EventFlag.bit : EventFlag → Nat
  | .breakTaken => 0
  | .rejoin => 1
  | .bridge => 2
  | .underrun => 3
  | .leadLow => 4
  | .overflow => 5
  | .gapFilled => 6
  | .gapLate => 7
  | .quality => 8
  | .tray => 9
  | .resume => 10
  | .supply => 11
  | .cmdDone => 12
  | .access => 13
  | .config => 14
  | .retainLost => 15

/-- Is the flag set? -/
def State.flag (s : State) (f : EventFlag) : Bool := s.ctl.flags.getLsbD f.bit

/-- Raise a flag: it is set and stays set until acknowledged (R179, R180). -/
def raiseFlag (f : EventFlag) (s : State) : State :=
  s.onCtl fun c => { c with flags := c.flags ||| BitVec.twoPow 16 f.bit }

/-- Clear each flag whose bit is 1 (R180). -/
def clearFlags (bits : BitVec 16) (s : State) : State :=
  s.onCtl fun c => { c with flags := c.flags &&& ~~~bits }

/-- ATTN: some set flag is enabled (R181). -/
def State.attn (s : State) : Bool := s.ctl.flags &&& s.ctl.enable.setWidth 16 != 0

/-- The twelve counters by name (R183). -/
inductive Counter where
  | framesServed
  | concealed
  | fill
  | breaks
  | rejoins
  | bridges
  | gapsFilled
  | gapsLate
  | gapRefused
  | droppedBlocks
  | intakeDiscards
  | accessDrops
deriving DecidableEq, Repr

/-- A counter's value. -/
def State.count (s : State) : Counter → Word
  | .framesServed => s.ctl.counters.framesServed
  | .concealed => s.ctl.counters.concealed
  | .fill => s.ctl.counters.fill
  | .breaks => s.ctl.counters.breaks
  | .rejoins => s.ctl.counters.rejoins
  | .bridges => s.ctl.counters.bridges
  | .gapsFilled => s.ctl.counters.gapsFilled
  | .gapsLate => s.ctl.counters.gapsLate
  | .gapRefused => s.ctl.counters.gapRefused
  | .droppedBlocks => s.ctl.counters.droppedBlocks
  | .intakeDiscards => s.ctl.counters.intakeDiscards
  | .accessDrops => s.ctl.counters.accessDrops

/-- Add one to a counter; it returns to 0 after 4,294,967,295 (R183). -/
def bumpCounters (k : Counters) : Counter → Counters
  | .framesServed => { k with framesServed := k.framesServed + 1 }
  | .concealed => { k with concealed := k.concealed + 1 }
  | .fill => { k with fill := k.fill + 1 }
  | .breaks => { k with breaks := k.breaks + 1 }
  | .rejoins => { k with rejoins := k.rejoins + 1 }
  | .bridges => { k with bridges := k.bridges + 1 }
  | .gapsFilled => { k with gapsFilled := k.gapsFilled + 1 }
  | .gapsLate => { k with gapsLate := k.gapsLate + 1 }
  | .gapRefused => { k with gapRefused := k.gapRefused + 1 }
  | .droppedBlocks => { k with droppedBlocks := k.droppedBlocks + 1 }
  | .intakeDiscards => { k with intakeDiscards := k.intakeDiscards + 1 }
  | .accessDrops => { k with accessDrops := k.accessDrops + 1 }

/-- Count one (R183). -/
def bump (c : Counter) (s : State) : State :=
  s.onCtl fun k => { k with counters := bumpCounters k.counters c }

/-- A protected or misused beat: ACCESS is raised and one access drop counted (R24, R25, R137). -/
def accessDrop (s : State) : State := bump .accessDrops (raiseFlag .access s)

end Sys2Proof.Machine
end

