-- ==== Sys2Proof/Machine/Ops.lean ====
section
/-! DEFINITION. The buffer memory, ring addresses, reads of frames and engine writes, and the reset
condition: operations the blocks share. -/
namespace Sys2Proof.Machine

/-! ### Buffer memory (R134, R185) -/

/-- What a byte that nothing has written reads as. DESIGN CHOICE (log 4): the spec gives ring memory
no contents at power-on (R2, R23). -/
def unlistedByte : Byte := 0

/-- Read a byte. -/
def Memory.read : List Host.Cell → Nat → Byte
  | [], _ => unlistedByte
  | (x, b) :: rest, a => if x = a then b else Memory.read rest a

/-- Write a byte, keeping addresses rising and no entry equal to the unlisted byte. -/
def Memory.write : List Host.Cell → Nat → Byte → List Host.Cell
  | [], a, v => if v = unlistedByte then [] else [(a, v)]
  | (x, b) :: rest, a, v =>
    if a < x then (if v = unlistedByte then (x, b) :: rest else (a, v) :: (x, b) :: rest)
    else if a = x then (if v = unlistedByte then rest else (a, v) :: rest)
    else (x, b) :: Memory.write rest a v

/-- The canonical form: addresses strictly rising, no entry equal to the unlisted byte. -/
def Memory.wf : List Host.Cell → Bool
  | [] => true
  | [(_, b)] => b != unlistedByte
  | (x, b) :: (y, c) :: rest => b != unlistedByte && decide (x < y) && Memory.wf ((y, c) :: rest)

/-- Read the word at a word address (R185). -/
def Memory.readWord (m : List Host.Cell) (a : Nat) : Word :=
  wordOfBytes (Memory.read m a) (Memory.read m (a + 1)) (Memory.read m (a + 2)) (Memory.read m (a + 3))

/-- Write byte `i` of a word if its enable is set. -/
def Memory.writeLane (m : List Host.Cell) (a : Nat) (w : Word) (enables : BitVec 4) (i : Nat) :
    List Host.Cell :=
  if enables.getLsbD i then Memory.write m (a + i) (byteOf w i) else m

/-- Write the enabled bytes of a word; with no enable set memory is unchanged (R134). -/
def Memory.writeWord (m : List Host.Cell) (a : Nat) (w : Word) (enables : BitVec 4) : List Host.Cell :=
  let m := Memory.writeLane m a w enables 0
  let m := Memory.writeLane m a w enables 1
  let m := Memory.writeLane m a w enables 2
  Memory.writeLane m a w enables 3

/-- Write consecutive whole words. -/
def Memory.writeWords : List Host.Cell → Nat → List Word → List Host.Cell
  | m, _, [] => m
  | m, a, w :: ws => Memory.writeWords (Memory.writeWord m a w allEnables) (a + 4) ws

/-- Perform an engine write (R141). -/
def performJob (j : WriteJob) (s : State) : State :=
  s.onMem fun m => Memory.writeWords m j.addr j.words

/-! ### Ring addresses (R2) -/

/-- Where slot n of a ring begins (R2). -/
def slotBegin (ring n : Nat) : Nat := ring + n * Config.stride

/-- Slot n begins at RING_BASE + n × 2,432. -/
def slotBase (s : State) (n : Nat) : Nat := slotBegin s.ctl.params.ringBase n

/-- The word of frame index i of slot n. -/
def frameAddr (s : State) (n i : Nat) : Nat := slotBase s n + 4 * i

/-- Flag-map word m of slot n. -/
def flagAddr (s : State) (n m : Nat) : Nat := slotBase s n + Config.flagMapOffset + 4 * m

/-- The word of frame i of a slot that begins at `base`, in memory. -/
def readFrame (mem : List Host.Cell) (base i : Nat) : Word := Memory.readWord mem (base + 4 * i)

/-- The erasure bit of frame i of a slot that begins at `base`, in memory. -/
def readMark (mem : List Host.Cell) (base i : Nat) : Bool :=
  markIn (Memory.readWord mem (base + Config.flagMapOffset + 4 * (i / 32))) i

/-- The engine requests that write a slot's flag map: words 0 to 7, 8 to 15 and 16 to 19 (R33). -/
def flagMapJobs (s : State) (n : Nat) (marks : BitVec 588) : List WriteJob :=
  let words (first count : Nat) : List Word :=
    (List.range count).map fun k => flagMapWord marks (first + k)
  [{ addr := flagAddr s n 0, words := words 0 8 },
   { addr := flagAddr s n 8, words := words 8 8 },
   { addr := flagAddr s n 16, words := words 16 4 }]

/-! ### Reading frames in pieces (R74, R115, R141) -/

/-- One read piece: consecutive frame words of a slot, or consecutive flag-map words of a slot. -/
inductive ReadPiece where
  | frames (slot index count : Nat)
  | flags (slot word count : Nat)
deriving DecidableEq, Repr

/-- How many of the items that follow go on in the same slot at the next index, at most `room`. -/
def consecutive (slot index : Nat) : Nat → List FetchItem → Nat
  | 0, _ => 0
  | _, [] => 0
  | room + 1, it :: rest =>
    if it.slot = slot ∧ it.index = index ∧ it.word = none then 1 + consecutive slot (index + 1) room rest
    else 0

/-- The frame piece due: the first unread frame and those that follow it, up to 8 words of one slot. -/
def nextFramePiece : List FetchItem → Option ReadPiece
  | [] => none
  | it :: rest =>
    if it.word = none then
      some (.frames it.slot it.index (1 + consecutive it.slot (it.index + 1) 7 rest))
    else nextFramePiece rest

/-- The flag piece due: from the first unread mark's flag-map word, up to 8 words of one flag map. -/
def nextFlagPiece (items : List FetchItem) : Option ReadPiece :=
  match items.find? (fun it => it.mark = none) with
  | none => none
  | some it =>
    let m := it.index / 32
    let top := items.foldl (fun t (x : FetchItem) =>
      if x.slot = it.slot ∧ x.mark = none ∧ x.index / 32 < m + 8 then max t (x.index / 32) else t) m
    some (.flags it.slot m (top - m + 1))

/-- The next read piece: frame words in ascending order, then the flag-map words (R74). -/
def nextPiece (items : List FetchItem) : Option ReadPiece :=
  match nextFramePiece items with
  | some p => some p
  | none => nextFlagPiece items

/-- Fill in what a piece reads from memory, at the location the item's lookup answered (R16). -/
def fillItem (s : State) (p : ReadPiece) (it : FetchItem) : FetchItem :=
  match p with
  | .frames slot index count =>
    if it.slot = slot ∧ index ≤ it.index ∧ it.index < index + count ∧ it.word = none then
      { it with word := some (readFrame s.mem it.base it.index) } else it
  | .flags slot word count =>
    if it.slot = slot ∧ word ≤ it.index / 32 ∧ it.index / 32 < word + count ∧ it.mark = none then
      { it with mark := some (readMark s.mem it.base it.index) } else it

/-- Perform the next piece on a list of items; nothing to read leaves them as they are. -/
def performPiece (s : State) (items : List FetchItem) : List FetchItem :=
  match nextPiece items with
  | some p => items.map (fillItem s p)
  | none => items

/-- A frame to be read whole, its word and its mark, in a ring that begins at `ring`. -/
def frameItem (ring slot index : Nat) : FetchItem :=
  { slot := slot, base := slotBegin ring slot, index := index, word := none, mark := none }

/-- A frame of which only the mark is to be read. -/
def markItem (ring slot index : Nat) : FetchItem :=
  { slot := slot, base := slotBegin ring slot, index := index, word := some 0, mark := none }

/-- A frame of which only the word is to be read. -/
def wordItem (ring slot index : Nat) : FetchItem :=
  { slot := slot, base := slotBegin ring slot, index := index, word := none, mark := some false }

/-- What an item read: its word and whether it is erased. -/
def itemFrame (it : FetchItem) : TailFrame :=
  { word := it.word.getD 0, erased := it.mark.getD true }

/-! ### Reset -/

/-- The part is held in reset by the Supply Monitor or by RSTn (R143, R165). -/
def inReset (s : State) : Bool := s.supply.held || s.pins.rstn

/-- Out of reset a step acts; in reset every block stays in its reset state (R165). -/
def live (f : State → State) (s : State) : State := if inReset s then s else f s

end Sys2Proof.Machine
end

