-- ==== Sys2Proof/Machine/StreamMap.lean ====
section
/-! DEFINITION. The Stream Map: slot transitions, lookup, lead, and the creation, extension,
truncation, closing and retirement of segments (01). -/
namespace Sys2Proof.Machine

/-! ### Slot descriptors (R4, R7, R9) -/

/-- The descriptor of slot n. -/
def slotAt (s : State) (n : Nat) : SlotDesc := s.map.slots.getD n SlotDesc.free

/-- Replace the descriptor of slot n. -/
def setSlot (n : Nat) (d : SlotDesc) (s : State) : State :=
  s.onMap fun m => { m with slots := m.slots.set n d }

/-- Change the descriptor of slot n. -/
def modSlot (n : Nat) (f : SlotDesc → SlotDesc) (s : State) : State := setSlot n (f (slotAt s n)) s

/-- The FREE slot count (R9). -/
def freeCount (s : State) : Nat := s.map.slots.countP (fun d => d.state == .free)

/-- A descriptor's label; an absent label reads 0 (only a FREE slot has none). -/
def labelOf (d : SlotDesc) : Nat := d.label.getD 0

/-- Take the Gap Table entry naming slot n out of the table and clear the slot's gap mark; entries
above it move down by one (R93). -/
def removeGap (n : Nat) (s : State) : State :=
  modSlot n (fun d => { d with gapMark := false })
    (s.onGaps fun g => { g with entries := g.entries.filter (fun e => e.slot != n) })

/-- A slot enters FREE: an entry naming it is removed with no flag and no count (*gap slot
released*, R19), and the descriptor takes the FREE values (R4). -/
def freeSlot (n : Nat) (s : State) : State :=
  setSlot n SlotDesc.free (if (slotAt s n).gapMark then removeGap n s else s)

/-- Free several slots in order. -/
def freeSlots (l : List Nat) (s : State) : State := l.foldl (fun s n => freeSlot n s) s

/-- FILLING to STAGED with the label the Controller gives the block (R4, R7); a STAGED slot has no owner
(R8). -/
def stageSlot (n label : Nat) (s : State) : State :=
  modSlot n
    (fun d => { d with state := .staged, label := some (Config.assignedLabel label), owner := none }) s

/-- Does a slot other than n that `seg` owns carry this label? (R8) -/
def ownsLabel (s : State) (seg label : Nat) (n : Nat) : Bool :=
  ((List.range s.map.slots.length).zip s.map.slots).any
    fun (k, d) => k != n && d.owner == some seg && d.label == some label

/-- Link slot n to a segment under a label, or make it FREE and decline when the segment owns that label
already (R8). -/
def linkAs (seg n label : Nat) (s : State) : State × Bool :=
  if ownsLabel s seg label n then (freeSlot n s, false)
  else (modSlot n (fun d => { d with state := .linked, owner := some seg, label := some label }) s, true)

/-- Link slot n under the label it carries (R8). -/
def linkSlot (seg n : Nat) (s : State) : State × Bool := linkAs seg n (labelOf (slotAt s n)) s

/-- Link offered blocks of label at least `low`, free those below (R12, R14). Answers the highest
label linked. -/
def linkOffered (seg low : Nat) : List StagedBlock → State → State × Option Nat
  | [], s => (s, none)
  | b :: rest, s =>
    if b.label < low then linkOffered seg low rest (freeSlot b.slot s)
    else
      let (s1, linked) := linkSlot seg b.slot s
      let (s2, top) := linkOffered seg low rest s1
      (s2, if linked then some (max b.label (top.getD 0)) else top)

/-! ### Segments (R10, R11) -/

/-- Stream start + length: the first position not covered (R10). -/
def Segment.stop (g : Segment) : Nat := g.start + g.length

/-- End + shift (R10). -/
def Segment.labelledEnd (g : Segment) : Int := (g.stop : Int) + g.shift

/-- The last segment. -/
def lastSeg (s : State) : Option Segment := s.map.segs.getLast?

/-- The open segment: the last one, if it is open (R10). -/
def openSeg (s : State) : Option Segment :=
  match lastSeg s with
  | some g => if g.isOpen then some g else none
  | none => none

/-- The end of the open segment; with none open, the cursor. -/
def openEnd (s : State) : Nat :=
  match openSeg s with
  | some g => g.stop
  | none => s.play.cursor

/-- Change the last segment. -/
def modLastSeg (f : Segment → Segment) (s : State) : State :=
  s.onMap fun m =>
    match m.segs.getLast? with
    | some g => { m with segs := m.segs.dropLast ++ [f g] }
    | none => m

/-- The first id, from the next-id counter on and wrapping from 31 to 0, that no live segment holds
(R10). -/
def freshId (m : StreamMap) : Nat :=
  (((List.range 32).map fun k => (m.nextId + k) % 32).find?
    fun i => m.segs.all fun g => g.id != i).getD m.nextId

/-! ### Lead (R20, R21) -/

/-- Positions at or after the cursor that lie in some segment (R20). -/
def leadOf (segs : List Segment) (cursor : Nat) : Nat :=
  (segs.map fun g => g.stop - max g.start cursor).sum

/-- Lead (R20). -/
def State.lead (s : State) : Nat := leadOf s.map.segs s.play.cursor

/-- Lead is compared with LOW_WATER × 588 (R21). -/
def leadCheck (s : State) : State :=
  if s.lead < s.ctl.params.lowWater * Config.frames then
    if s.map.below then s
    else raiseFlag .leadLow (s.onMap fun m => { m with below := true })
  else s.onMap fun m => { m with below := false }

/-! ### Lookup (R16) -/

/-- The segment that covers a position. -/
def segAt (s : State) (pos : Nat) : Option Segment :=
  s.map.segs.find? fun g => g.start ≤ pos && pos < g.stop

/-- The slot that a segment owns with a label. -/
def slotOwning (s : State) (seg label : Nat) : Option Nat :=
  s.map.slots.findIdx? fun d => d.owner == some seg && d.label == some label

/-- Where a segment holds a position: slot and index, if it owns the slot (R16). -/
def locate (s : State) (g : Segment) (pos : Nat) : Option (Nat × Nat) :=
  let f := (pos : Int) + g.shift
  if f < 0 then none
  else (slotOwning s g.id (blockOf f.toNat)).map fun n => (n, f.toNat % Config.frames)

/-- A lookup: slot and index, or not buffered (R16). -/
def lookup (s : State) (pos : Nat) : Option (Nat × Nat) :=
  match segAt s pos with
  | some g => locate s g pos
  | none => none

/-! ### Retirement and closing (R15, R18) -/

/-- Retire the first segment if the cursor stands at its end and it is not the open last segment;
the cursor then goes on to the next segment's start (R18). -/
def retireFront (s : State) : State :=
  match s.map.segs with
  | [] => s
  | g :: rest =>
    if s.play.cursor = g.stop ∧ (g.isOpen = false ∨ rest ≠ []) then
      let s := s.onMap fun m => { m with segs := rest, retireReport := true }
      match rest with
      | h :: _ => s.onPlay fun p => { p with cursor := h.start }
      | [] => s
    else s

/-- Close the open segment without truncation (R15); a first segment whose end the cursor stands at
is retired (R18). -/
def closeOpen (s : State) : State :=
  match openSeg s with
  | some _ => leadCheck (retireFront (modLastSeg (fun g => { g with isOpen := false }) s))
  | none => s

/-- The labels a segment owns. -/
def ownedLabels (s : State) (seg : Nat) : List Nat :=
  (s.map.slots.filter fun d => d.owner == some seg).map labelOf

/-- The (k + 1)-th highest label: the one with k labels above it (labels of a segment differ, R8). -/
def rankedLabel (labels : List Nat) (k : Nat) : Option Nat :=
  labels.find? fun l => labels.countP (fun x => decide (l < x)) == k

/-- A position taken into the range of a segment, from its stream start to its end. -/
def Segment.within (g : Segment) (p : Nat) : Nat := max g.start (min p g.stop)

/-- The distrusted end of the open segment for a count k: P, which is made of it, lies between the
segment's stream start and its end (R15). -/
def distrustedEnd (k : Nat) (s : State) : Nat :=
  match openSeg s with
  | none => s.play.cursor
  | some g =>
    if k = 0 then g.stop
    else match rankedLabel (ownedLabels s g.id) k with
      | some l => g.within (((l + 1) * Config.frames : Nat) - g.shift).toNat
      | none => g.start

/-- Truncate the open segment to P: its slots with no frame below P are freed, it is closed, and it
is removed if nothing is left of it (R15). A slot that P cuts through is not freed: where the segment leaves
the list with that slot, it stays LINKED under the departed id (log 41). -/
def truncateOpen (p : Nat) (s : State) : State :=
  match openSeg s with
  | none => s
  | some g =>
    let dead := ((List.range s.map.slots.length).zip s.map.slots).filterMap fun (n, d) =>
      if d.owner == some g.id && decide ((p : Int) ≤ (blockStart (labelOf d) : Int) - g.shift)
      then some n else none
    let s := freeSlots dead s
    let s := modLastSeg (fun g => { g with length := p - g.start, isOpen := false }) s
    let s := if p ≤ g.start then s.onMap fun m => { m with segs := m.segs.dropLast } else retireFront s
    leadCheck s

/-! ### Creation, splice and append (R12, R13, R14) -/

/-- Where a new segment begins: at or after the last segment's end (R11, R12). -/
def startAfter (s : State) (start : Nat) : Nat :=
  match lastSeg s with
  | some g => max start g.stop
  | none => start

/-- The head kind a segment is created with: beyond the last segment's end it is BRIDGED (R11, R12). With the
list empty there is no such end, and the kind asked for stands, a MATCHED head above the cursor too: the
model's choice (log 44). -/
def kindAt (s : State) (start : Nat) (kind : HeadKind) : HeadKind :=
  match lastSeg s with
  | some g => if g.stop < start then .bridged else kind
  | none => kind

/-- Create a segment from offered blocks (R12). `none` is *list full*; otherwise the highest label
linked, which with no slot linked is taken as 0: the model's choice (log 45). -/
def createSegment (start : Nat) (shift : Int) (kind : HeadKind) (offered : List StagedBlock)
    (s : State) : State × Option Nat :=
  if Config.maxSegments ≤ s.map.segs.length then (s, none)
  else
    let id := freshId s.map
    let kind := kindAt s start kind
    let start := startAfter s start
    let s := closeOpen s
    let s := s.onMap fun m =>
      { m with nextId := if id = 31 then 0 else id + 1
               segs := m.segs ++ [{ id := id, start := start, length := 0, shift := shift
                                    kind := kind, isOpen := true }] }
    let (s, top) := linkOffered id (blockOf ((start : Int) + shift).toNat) offered s
    let l := top.getD 0
    let s := modLastSeg
      (fun g => { g with length := ((((l + 1) * Config.frames : Nat) : Int) - shift - start).toNat }) s
    (leadCheck s, some l)

/-- The three conditions under which a MATCHED splice extends the last segment (R14). -/
def mergesWith (g : Segment) (start : Nat) (shift : Int) : Bool :=
  g.shift == shift && g.stop == start && g.labelledEnd % 588 == 0

/-- A splice: it extends the last segment under R14, otherwise creates one (R12). The highest label linked
is 0 with no slot linked, as at a creation (log 45). -/
def splice (start : Nat) (shift : Int) (kind : HeadKind) (offered : List StagedBlock) (s : State) :
    State × Option Nat :=
  match lastSeg s with
  | some g =>
    if kind = .matched ∧ mergesWith g start shift then
      let s := modLastSeg (fun g => { g with isOpen := true }) s
      let (s, top) := linkOffered g.id (blockOf g.labelledEnd.toNat) offered s
      let l := top.getD 0
      let s := modLastSeg
        (fun g => { g with length := ((((l + 1) * Config.frames : Nat) : Int) - shift - g.start).toNat }) s
      (leadCheck s, some l)
    else createSegment start shift kind offered s
  | none => createSegment start shift kind offered s

/-- Append slot n, recorded with label L, to the open segment (R13). A declined link changes no
segment (R8). -/
def appendSlot (n label : Nat) (s : State) : State × Bool :=
  match openSeg s with
  | none => (freeSlot n s, false)
  | some g =>
    let (s, linked) := linkAs g.id n label s
    if linked then
      let lo := (blockStart label : Int) - g.shift
      let gained := (lo + 588 - max lo (g.stop : Int)).toNat
      (leadCheck (modLastSeg (fun g => { g with length := g.length + gained }) s), true)
    else (s, false)

/-! ### Flush (R22) -/

/-- The Stream Map's part of a flush: every slot FREE, no segment, pointer and next-id counter 0,
the LEAD_LOW latch set without raising the flag (R22). -/
def flushMap (s : State) : State :=
  s.onMap fun m => StreamMap.reset m.slots.length

end Sys2Proof.Machine
end

