-- ==== Sys2Proof/Machine/Attempt.lean ====
section
/-! DEFINITION. The publication of a target, and the failure of an attempt: moves of recovery that a header
taken at the Intake Unit can make as well (R48, R54, R55, R59, R60, R71, R81). -/
namespace Sys2Proof.Machine

/-! ### Publication (R48, R54, R55) -/

/-- Is a header held for the hand-off, by the Intake Unit or in port D's held request? (R35, R48) A request
counts as held until its own grant, after the hand-off has ended too (log 33). Its beats keep the region they
were classified in at arrival, whatever window base an APPLY has brought since (R130, R178), and the header is
the beat at offset 0 of the 4 KiB window (R24). -/
def headerHeld (s : State) : Bool :=
  s.intake.held.any (fun b => match b with
    | .header _ enables => enables == allEnables
    | _ => false) ||
  (match s.router.reqD with
    | some r => r.held && r.isWrite && r.main.any fun b =>
        b.region == .intake && b.addr % 4096 == 0 && b.data.enables == allEnables
    | none => false)

/-- The blocks begun before a target: the block in FILLING, and the header held, are marked stale
(R48). -/
def markStale (s : State) : State :=
  let s : State := match s.intake.slot with
    | some n => if (slotAt s n).state = .filling then modSlot n (fun d => { d with stale := true }) s else s
    | none => s
  if headerHeld s then s.onIntake fun i => { i with staleHeld := true } else s

/-- Publish a target: the target word, the stale marks, a rising edge on RRQ, and outside STARTING
the deadline (R54, R55). -/
def publish (label : Nat) (loads : Bool) (s : State) : State :=
  (markStale s).onRc fun r =>
    { r with
      target := label, rrq := true, rrqEdges := r.rrqEdges + 1
      deadline := if loads then s.ctl.params.seekTimeout else r.deadline }

/-- Deassert RRQ (R55). -/
def dropRrq (s : State) : State := s.onRc fun r => { r with rrq := false }

/-- Enter SEEKING and publish max(0, block(P) − PREROLL) (R53, R54). -/
def enterSeeking (s : State) : State :=
  publish (blockOf s.rc.p - s.ctl.params.preroll) true (s.onRc fun r => { r with phase := .seeking })

/-- Enter BRIDGING and publish block(P) (R54, R60). -/
def enterBridging (s : State) : State :=
  publish (blockOf s.rc.p) true (s.onRc fun r => { r with phase := .bridging })

/-! ### Failed attempts (R60) -/

/-- End the attempt: the context is cleared and an evaluation in progress ends (R71, R79). -/
def clearAttempt (s : State) : State :=
  s.onMe fun m =>
    if m.activity = .scoring then { m with activity := .idle, attempt := none, fetch := [] }
    else { m with attempt := none }

/-- Free the staged run. -/
def freeRun (s : State) : State :=
  (freeSlots (s.rc.run.map StagedBlock.slot) s).onRc fun r => { r with run := [], wait := .none }

/-- An attempt fails: the run is freed, RRQ deasserted, and the target re-published or BRIDGING
entered (R60). -/
def attemptFail (s : State) : State :=
  let s := dropRrq (freeRun (clearAttempt s))
  if s.rc.retry < s.ctl.params.retryLimit then
    enterSeeking (s.onRc fun r => { r with retry := r.retry + 1 })
  else enterBridging s

/-- Does an accepted decision wait, for room in the Segment List (R59) or for the frame at P + d (R81)? -/
def decisionWaits (w : Wait) : Bool :=
  match w with
  | .splice _ => true
  | .start _ => true
  | .none => false
  | .bridge => false

/-- While an accepted decision waits in MATCHING, a FREE slot count of 0 fails the attempt: the count
falls at an allocation, and is looked at there (R59, R81; log 11). -/
def failFullWait (s : State) : State :=
  if s.rc.phase = .matching ∧ decisionWaits s.rc.wait = true ∧ freeCount s = 0 then attemptFail s else s

end Sys2Proof.Machine
end

