-- ==== Sys2Proof/Machine/Intake.lean ====
section
/-! DEFINITION. The Intake Unit: headers, frames, completion, the hand-off's held beats, discard, and
the assertion of HOLD (02). -/
namespace Sys2Proof.Machine

/-! ### HOLD (R38) -/

/-- HOLD is asserted, and HOLDING entered, when it is released, recovery is STREAMING and at most
HOLD_MARGIN slots are FREE (R38, R63). -/
def holdTest (s : State) : State :=
  if s.intake.hold = false ∧ s.rc.phase = .streaming ∧ freeCount s ≤ s.ctl.params.holdMargin then
    (s.onIntake fun i => { i with hold := true }).onRc fun r => { r with phase := .holding }
  else s

/-! ### Allocation (R5, R6, R27, R28) -/

/-- The first FREE slot from the allocation pointer on, wrapping (R5). -/
def findFree (s : State) : Option Nat :=
  let n := s.map.slots.length
  ((List.range n).map fun k => (s.map.allocPtr + k) % n).find? fun i => (slotAt s i).state == .free

/-- The arrival that a header taken in a recovery state gives its block (R5). -/
def arrivalIn : RecoveryPhase → Arrival
  | .seeking => .reread
  | .matching => .reread
  | .bridging => .reread
  | .gapFetch => .gapFetch
  | .parked => .stream
  | .starting => .stream
  | .streaming => .stream
  | .holding => .stream
  | .lost => .stream

/-- A header asks for a slot: FILLING with it, or REFUSED with OVERFLOW and one dropped block
(R5, R6, R27, R28). The stale mark of a held header goes to the slot (R48). Taking the last FREE slot
asserts HOLD in STREAMING (R38) and fails an attempt whose decision waits (R59, R81). -/
def allocate (label : Nat) (trusted : Bool) (s : State) : State :=
  match findFree s with
  | some n =>
    let s := setSlot n
      { SlotDesc.free with
        state := .filling, label := some label, trusted := trusted
        arrival := arrivalIn s.rc.phase, stale := s.intake.staleHeld } s
    let s := s.onMap fun m => { m with allocPtr := if n + 1 = m.slots.length then 0 else n + 1 }
    failFullWait (holdTest (s.onIntake fun i =>
      { i with phase := .filling, slot := some n, written := 0, marks := 0, staleHeld := false }))
  | none =>
    bump .droppedBlocks (raiseFlag .overflow
      (s.onIntake fun i => { i with phase := .refused, staleHeld := false }))

/-! ### Completion (R32, R33) -/

/-- The FILLING block completes: unwritten frames are marked, the counts become final, and the three
flag-map requests are issued (R32, R33). The Intake Unit's own written set stays as it stood until the hand-off
ends, while the descriptor shows 588: the model's choice (log 47). -/
def completeBlock (n : Nat) (s : State) : State :=
  let marks := s.intake.marks ||| ~~~s.intake.written
  let s := modSlot n (fun d => { d with written := 588, erasures := countMarks marks }) s
  let jobs := flagMapJobs s n marks
  s.onIntake fun i =>
    { i with phase := .handingOver, marks := marks, flagJobs := i.flagJobs ++ jobs }

/-! ### Beats (R24, R25, R27, R29, R30, R31, R35) -/

/-- One intake beat dropped and counted (R27, R31). -/
def intakeDiscard (s : State) : State := bump .intakeDiscards s

/-- Forget the block being filled: its slot becomes FREE, the set and marks are cleared and the
intake state is NONE (R36). A flag-map request already issued stays, the later ones are not issued
(log 10). -/
def dropFilling (s : State) : State :=
  let s : State := match s.intake.slot with
    | some n => if (slotAt s n).state = .filling then freeSlot n s else s
    | none => s
  s.onIntake fun i =>
    { i with phase := .none, slot := none, written := 0, marks := 0, flagJobs := i.flagJobs.take 1 }

/-- A full-word header outside a hand-off (R27). -/
def takeHeader (w : Word) (s : State) : State :=
  match s.rc.phase with
  | .parked => intakeDiscard (s.onIntake fun i => { i with staleHeld := false })
  | .lost => intakeDiscard ((dropFilling s).onIntake fun i => { i with staleHeld := false })
  | _ =>
    match s.intake.phase, s.intake.slot with
    | .filling, some n =>
      (completeBlock n s).onIntake fun i => { i with held := i.held ++ [.header w allEnables] }
    | _, _ => allocate (headerLabel w) (headerTrusted w) s

/-- A frame beat with some byte enabled, written into the FILLING slot (R29, R30). The block
completes by count when the written set reaches 588 (R32). -/
def writeFrame (n i : Nat) (w : Word) (enables : BitVec 4) (ers : Bool) (s : State) : State :=
  let s := s.onMem fun m => Memory.writeWord m (frameAddr s n i) w enables
  let s := s.onIntake fun k =>
    { k with written := setMark k.written i true, marks := setMark k.marks i ers }
  let s := modSlot n
    (fun d => { d with written := countMarks s.intake.written, erasures := countMarks s.intake.marks }) s
  if countMarks s.intake.written = 588 then completeBlock n s else s

/-- A frame beat outside a hand-off (R29, R31). A beat with no byte enable counts nowhere (R41). -/
def takeFrame (i : Nat) (w : Word) (enables : BitVec 4) (ers : Bool) (s : State) : State :=
  if enables = 0 then s
  else if s.rc.phase = .parked then intakeDiscard s
  else
    match s.intake.phase, s.intake.slot with
    | .filling, some n => writeFrame n i w enables ers s
    | .refused, _ => s
    | _, _ => intakeDiscard s

/-- One intake beat: held during a hand-off (R35), otherwise a header (R25, R27), a frame (R29) or a
misuse dropped with ACCESS (R24, R25). -/
def intakeBeat (b : IntakeBeat) (s : State) : State :=
  if s.intake.phase = .handingOver then s.onIntake fun i => { i with held := i.held ++ [b] }
  else
    match b with
    | .header w enables => if enables = allEnables then takeHeader w s else accessDrop s
    | .frame i w enables ers => takeFrame i w enables ers s
    | .unused => accessDrop s

/-- Port D's request completes once its last piece is complete: no beat of it is left to take, none is
held, and no piece that a held header opens waits for its grant (R129, R132, R133). A beat that a row of its own
gave may be the one held, and then a request that is granted meanwhile waits with its completion until the
hand-off ends: the model's choice (log 2). -/
def finishD (s : State) : State :=
  match s.router.reqD with
  | some r =>
    if r.main = [] ∧ r.opening = false ∧ s.intake.held = [] then
      s.onRouter fun k =>
        { k with reqD := none, returnD := if r.isWrite then k.returnD else r.buffer }
    else s
  | none => s

/-- The hand-off has ended: held beats are taken in order, each in the state then holding (R35). -/
def drainHeld (s : State) : State :=
  let beats := s.intake.held
  finishD (beats.foldl (fun s b => intakeBeat b s) (s.onIntake fun i => { i with held := [] }))

/-- The discard of R36 and R37, without taking held beats: those are taken in the state that follows. -/
def intakeCut (s : State) : State := dropFilling s

/-- The hand-off ends when the slot has left FILLING: the Intake Unit is cleared and takes any held
beat (R34, R35). -/
def handOffEnd (s : State) : State :=
  if s.intake.phase = .handingOver then
    drainHeld (s.onIntake fun i => { i with phase := .none, slot := none, written := 0, marks := 0 })
  else s

/-- The Intake Unit's part of a flush (R37); the slots are freed by the Stream Map. The stale mark
goes (R48) and HOLD is released (R40). -/
def flushIntake (s : State) : State :=
  s.onIntake fun i =>
    { i with
      phase := .none, slot := none, written := 0, marks := 0, staleHeld := false
      flagJobs := i.flagJobs.take 1, hold := false }

end Sys2Proof.Machine
end

