-- ==== Sys2Proof/Machine/Match.lean ====
section
/-! DEFINITION. The Match Engine: candidates and their scores, evaluations, gap alignment and frame
merge, and its engine requests (04). The steps that end its work are in Recovery and Gaps. -/
namespace Sys2Proof.Machine

/-! ### Candidates and scores (R72, R74 to R77) -/

/-- The staged block that carries a label. -/
def stagedAt (run : List StagedBlock) (label : Nat) : Option StagedBlock :=
  run.find? fun b => b.label == label

/-- The staged block that holds a labelled position, if it is present (R74, R83). -/
def stagedHolding (run : List StagedBlock) (pos : Int) : Option StagedBlock :=
  if pos < 0 then none else stagedAt run (blockOf pos.toNat)

/-- The frame at a labelled position of the staged run, in the ring that begins at `ring`; a position no
block holds reads as erased. -/
def stagedItem (ring : Nat) (run : List StagedBlock) (pos : Int) : FetchItem :=
  match stagedHolding run pos with
  | some b => frameItem ring b.slot (pos.toNat % Config.frames)
  | none => { slot := 0, base := 0, index := 0, word := some 0, mark := some true }

/-- The k staged frames from a labelled position on (R72, R85). -/
def stagedItems (ring : Nat) (run : List StagedBlock) (first : Int) (k : Nat) : List FetchItem :=
  (List.range k).map fun (j : Nat) => stagedItem ring run (first + j)

/-- Sum and count over the pairs in which neither frame is erased (R75). -/
def scorePairs : List TailFrame → List TailFrame → Nat × Nat
  | r :: rs, x :: xs =>
    let (sum, c) := scorePairs rs xs
    if r.erased || x.erased then (sum, c) else (sum + frameTerm r.word x.word, c + 1)
  | _, _ => (0, 0)

/-- A scored candidate is valid when its count is at least ceil(K ÷ 2); its mean is
floor(sum ÷ 2c) (R76). -/
def candidateResult (k : Nat) (d : Int) (reference staged : List TailFrame) : Option Best :=
  let (sum, c) := scorePairs reference staged
  if (k + 1) / 2 ≤ c then some { offset := d, mean := sum / (2 * c), count := c } else none

/-- Smaller mean, then smaller |d|, then the negative offset ranks higher (R77). -/
def ranksHigher (x y : Best) : Bool :=
  x.mean < y.mean ||
  (x.mean == y.mean && (x.offset.natAbs < y.offset.natAbs ||
    (x.offset.natAbs == y.offset.natAbs && x.offset < y.offset)))

/-- Keep whichever ranks higher (R77). -/
def keepBest (best : Option Best) (candidate : Option Best) : Option Best :=
  match best, candidate with
  | none, c => c
  | b, none => b
  | some b, some c => if ranksHigher c b then some c else some b

/-- Is a frame read whole? -/
def itemRead (it : FetchItem) : Bool := it.word.isSome && it.mark.isSome

/-! ### The attempt and its evaluations (R71, R73) -/

/-- The labelled end of a run: last staged label × 588 + 587 (R72). -/
def runEnd (run : List StagedBlock) : Option Nat := run.getLast?.map fun b => blockLast b.label

/-- The lowest offset that is not invalid: the largest of −S, run start − (P − K) and −(P − K), or
none when that exceeds S (R72). -/
def lowestOffset (p k span runStart : Nat) : Option Int :=
  let base := (p : Int) - k
  let low := max (max (-(span : Int)) ((runStart : Int) - base)) (-base)
  if (span : Int) < low then none else some low

/-- The attempt context made at the first staged block (R71). -/
def newAttempt (r : Recovery) (label : Nat) : Attempt :=
  let low := lowestOffset r.p r.kEff r.span (blockStart label)
  { p := r.p, kEff := r.kEff, span := r.span, runStart := blockStart label, lowest := low
    next := low.getD ((r.span : Int) + 1), best := none, scoredTo := none }

/-- Begin reading the next candidate that the evaluation's end E covers, or nothing (R73). -/
def loadCandidate (s : State) : State :=
  s.onMe fun m =>
    match m.attempt with
    | some a =>
      let covered := match a.scoredTo with
        | some e => decide ((a.p : Int) - 1 + a.next ≤ e)
        | none => false
      if a.next ≤ a.span ∧ covered = true then
        { m with fetch :=
            stagedItems s.ctl.params.ringBase s.rc.run ((a.p : Int) - a.kEff + a.next) a.kEff }
      else { m with fetch := [] }
    | none => { m with fetch := [] }

/-- Begin an evaluation at the run's labelled end E (R73). -/
def beginEvaluation (e : Nat) (s : State) : State :=
  loadCandidate (s.onMe fun m =>
    { m with activity := .scoring, attempt := m.attempt.map fun a => { a with scoredTo := some e } })

/-- An evaluation begins when a block has been added to the run, the activity is IDLE and the tail
capture has ended (R73). -/
def tryEvaluate (s : State) : State :=
  match s.me.attempt, runEnd s.rc.run with
  | some a, some e =>
    if s.me.activity = .idle ∧ s.rc.capture = none ∧ a.scoredTo ≠ some e then beginEvaluation e s else s
  | _, _ => s

/-- The candidate in hand has been read: score it and go on to the next (R73, R75 to R77). -/
def scoreCandidate (s : State) : State :=
  let staged := s.me.fetch.map itemFrame
  loadCandidate (s.onMe fun m =>
    { m with attempt := m.attempt.map fun a =>
        { a with best := keepBest a.best (candidateResult a.kEff a.next s.rc.tail staged)
                 next := a.next + 1 } })

/-- An evaluation is in progress (R73); the deadline counter then holds at 1 (R56). -/
def evaluating (s : State) : Bool := s.me.activity == .scoring

/-- Every candidate the evaluation covers has been scored (R73). -/
def evaluationDone (s : State) : Bool := s.me.activity == .scoring && s.me.fetch == []

/-! ### Alignment (R83 to R85) -/

/-- The start of the first run of k frames without a mark (R84). -/
def firstGoodRun (marks : BitVec 588) (k : Nat) : Nat → Nat → Nat → Option Nat
  | 0, _, _ => none
  | fuel + 1, i, run =>
    if marks.getLsbD i then firstGoodRun marks k fuel (i + 1) 0
    else if run + 1 = k then some (i + 1 - k)
    else firstGoodRun marks k fuel (i + 1) (run + 1)

/-- Begin an alignment: ALIGNING, with the scratched slot's flag map to be read (R83). -/
def beginAlignment (label slot : Nat) (blocks : List StagedBlock) (s : State) : State :=
  let p := s.ctl.params
  s.onMe fun m =>
    { m with
      activity := .aligning
      fetch := (List.range 588).map (markItem p.ringBase slot)
      align := some
        { stage := .readFlags, ring := p.ringBase, label := label, slot := slot, blocks := blocks, k := p.matchLen
          span := min p.span 588, tol := p.tol, marks := 0, first := 0, reference := []
          next := -((min p.span 588 : Nat) : Int), best := none, unscored := false, targets := []
          replaced := 0, writes := [], newMarks := 0, jobs := [] } }

/-- Where candidate d of the alignment begins, on the gap label's scale (R85). -/
def alignFirst (a : Align) (d : Int) : Int := ((blockStart a.label + a.first : Nat) : Int) + d

/-- An alignment candidate is invalid when one of its positions is not present (R85). -/
def alignValid (a : Align) (d : Int) : Bool :=
  (List.range a.k).all fun (j : Nat) => (stagedHolding a.blocks (alignFirst a d + j)).isSome

/-- The next valid alignment candidate from d on (R85). -/
def nextAligned (a : Align) : Nat → Int → Option Int
  | 0, _ => none
  | fuel + 1, d =>
    if (a.span : Int) < d then none
    else if alignValid a d then some d
    else nextAligned a fuel (d + 1)

/-- Read the next valid candidate, or have the alignment scored (R85). -/
def loadAligned (m : MatchEngine) (a : Align) : MatchEngine :=
  match nextAligned a 1177 a.next with
  | some d =>
    { m with fetch := stagedItems a.ring a.blocks (alignFirst a d) a.k
             align := some { a with stage := .score, next := d } }
  | none => { m with fetch := [], align := some { a with stage := .scored } }

/-- Marks of a flag map as read, frame 0 first. -/
def marksOf (items : List FetchItem) : BitVec 588 :=
  items.foldl (fun m it => if it.mark = some true then setMark m it.index true else m) 0

/-- The scratched slot's flag map is read: find the reference, or take d = 0 without scoring (R84). -/
def flagsRead (m : MatchEngine) (a : Align) : MatchEngine :=
  let marks := marksOf m.fetch
  match firstGoodRun marks a.k 588 0 0 with
  | some i =>
    { m with fetch := (List.range a.k).map fun j => wordItem a.ring a.slot (i + j)
             align := some { a with stage := .readReference, marks := marks, first := i } }
  | none => { m with fetch := [], align := some { a with stage := .scored, marks := marks, unscored := true } }

/-- The replaced frames have been read: they are to be written in ascending order (R86). -/
def mergeRead (m : MatchEngine) (a : Align) : MatchEngine :=
  let writes := a.targets.zip (m.fetch.map fun it => it.word.getD 0)
  { m with fetch := []
           align := some
            { a with stage := .mergeWrite, writes := writes, replaced := writes.length
                     newMarks := a.targets.foldl (fun b i => setMark b i false) a.marks } }

/-- The aligned frame of scratched index i at offset d (R86). -/
def alignedPos (a : Align) (d : Int) (i : Nat) : Int := ((blockStart a.label + i : Nat) : Int) + d

/-- The marks of the aligned frames have been read: those not erased are replaced (R86). `next` holds
the accepted offset from the alignment's end on. -/
def mergeMarks (m : MatchEngine) (a : Align) : MatchEngine :=
  let good := (a.targets.zip m.fetch).filterMap fun (i, it) => if it.mark = some false then some i else none
  let a := { a with targets := good }
  match good with
  | [] => mergeRead { m with fetch := [] } a
  | _ =>
    { m with
      fetch := good.map fun i =>
        let it := stagedItem a.ring a.blocks (alignedPos a a.next i)
        wordItem a.ring it.slot it.index
      align := some { a with stage := .mergeRead } }

/-- Begin the frame merge at an accepted offset: the erased frames whose aligned frame is present
(R86). -/
def beginMerge (d : Int) (m : MatchEngine) (a : Align) : MatchEngine :=
  let targets := (List.range 588).filter fun i =>
    a.marks.getLsbD i && (stagedHolding a.blocks (alignedPos a d i)).isSome
  let a := { a with stage := .mergeMarks, next := d, targets := targets }
  let m := { m with activity := .merging }
  match targets with
  | [] => mergeRead { m with fetch := [] } a
  | _ =>
    { m with
      fetch := targets.map fun i =>
        let it := stagedItem a.ring a.blocks (alignedPos a d i)
        markItem a.ring it.slot it.index
      align := some a }

/-- What the alignment takes: d = 0 without scoring (R84), or the best candidate if its mean is at
most TOL (R85); none is *nothing merged*. -/
def alignmentOffset (a : Align) : Option Int :=
  if a.unscored then some 0
  else match a.best with
    | some b => if b.mean ≤ a.tol then some b.offset else none
    | none => none

/-- Score the alignment candidate in hand (R85). -/
def scoreAligned (m : MatchEngine) (a : Align) : MatchEngine :=
  let a := { a with
    best := keepBest a.best (candidateResult a.k a.next a.reference (m.fetch.map itemFrame))
    next := a.next + 1 }
  loadAligned m a

/-- All reads of the alignment's or merge's stage are in: go on (R83 to R86). -/
def alignReadsDone (m : MatchEngine) (a : Align) : MatchEngine :=
  match a.stage with
  | .readFlags => flagsRead m a
  | .readReference => loadAligned m { a with reference := m.fetch.map itemFrame }
  | .score => scoreAligned m a
  | .mergeMarks => mergeMarks m a
  | .mergeRead => mergeRead m a
  | .scored => m
  | .mergeWrite => m
  | .flagMap => m

/-- Consecutive indexes from the front of the frame writes, at most `room` (R86). -/
def writeChunk (index : Nat) : Nat → List (Nat × Word) → List Word
  | 0, _ => []
  | _, [] => []
  | room + 1, (i, w) :: rest => if i = index then w :: writeChunk (index + 1) room rest else []

/-! ### Engine requests of the Match Engine (R141) -/

/-- The write due: one left in flight by a flush, a chunk of frame writes, or a flag-map request. -/
def matchWrite (s : State) : Option WriteJob :=
  match s.me.orphans with
  | j :: _ => some j
  | [] =>
    match s.me.align with
    | some a =>
      match a.stage, a.writes, a.jobs with
      | .mergeWrite, (i, w) :: rest, _ =>
        some { addr := frameAddr s a.slot i, words := writeChunk i 8 ((i, w) :: rest) }
      | .flagMap, _, j :: _ => some j
      | _, _, _ => none
    | none => none

/-- Does the Match Engine present a request? -/
def matchWants (s : State) : Bool := (matchWrite s).isSome || (nextPiece s.me.fetch).isSome

/-- After a write: it leaves the list it came from. -/
def matchWritten (j : WriteJob) (m : MatchEngine) : MatchEngine :=
  match m.orphans with
  | _ :: rest => { m with orphans := rest }
  | [] =>
    { m with align := m.align.map fun a =>
        match a.stage with
        | .flagMap => { a with jobs := a.jobs.drop 1 }
        | _ => { a with writes := a.writes.drop j.words.length } }

/-- A grant to the Match Engine: a write, or a read and what follows when all reads are in. -/
def matchGrant (s : State) : State :=
  match matchWrite s with
  | some j => (performJob j s).onMe (matchWritten j)
  | none =>
    let s := s.onMe fun m => { m with fetch := performPiece s m.fetch }
    if s.me.fetch.all itemRead then
      match s.me.activity with
      | .scoring => scoreCandidate s
      | .idle => s
      | _ => s.onMe fun m =>
        match m.align with
        | some a => alignReadsDone m a
        | none => m
    else s

/-- End an alignment or merge, whatever its stage (R88). -/
def endAlignment (s : State) : State :=
  s.onMe fun m => { m with activity := .idle, fetch := [], align := none }

/-- The Match Engine's part of a flush (R79, R88): a granted merge leaves the flag-map request it has
issued in flight (log 37). -/
def flushMatch (s : State) : State :=
  s.onMe fun m =>
    { activity := .idle, attempt := none, fetch := [], align := none
      orphans := m.orphans ++ (match m.align with
        | some a => a.jobs.take 1
        | none => []) }

end Sys2Proof.Machine
end

