-- ==== Sys2Proof/Machine/Gaps.lean ====
section
/-! DEFINITION. The Gap Table, the quality rating, and the ending of fetches (05). -/
namespace Sys2Proof.Machine

/-! ### The Gap Table (R91 to R94) -/

/-- A scratch block's erasure count exceeds GAP_LIMIT (R90). -/
def isScratch (s : State) (erasures : Nat) : Bool := s.ctl.params.gapLimit < erasures

/-- May entries be made in this quality state? (R92, R104) -/
def recordsGaps : QualityLevel → Bool
  | .normal => true
  | .warned => true
  | .degraded => false
  | .abandon => false

/-- Step 1 of a block report: make an entry, or count a refusal for a full table (R92). -/
def gapEntryDecision (n label erasures first : Nat) (s : State) : State :=
  if isScratch s erasures && recordsGaps s.quality.level &&
      s.gaps.entries.all (fun e => e.label != label) &&
      s.play.cursor + s.ctl.params.gapLead * Config.frames ≤ first then
    if s.gaps.entries.length < Config.maxGaps then
      modSlot n (fun d => { d with gapMark := true })
        (s.onGaps fun g => { g with entries := g.entries ++ [{ label := label, slot := n, retries := 0 }] })
    else bump .gapRefused s
  else s

/-- Empty the Gap Table and clear every gap mark (R93, R104). -/
def emptyGaps (s : State) : State :=
  s.gaps.entries.foldl (fun s e => removeGap e.slot s) s

/-- *Gap slot reached*: the cursor's first serve of a gap slot removes the entry, raises GAP_LATE and
counts it; a fetch of that entry is marked late (R94). -/
def gapReached (n : Nat) (s : State) : State :=
  let s := s.onGaps fun g =>
    { g with fetch := g.fetch.map fun r =>
        if r.slot = n ∧ g.entries.any (fun e => e.slot == n && e.label == r.label) then { r with late := true }
        else r }
  bump .gapsLate (raiseFlag .gapLate (removeGap n s))

/-- Is the entry that the fetch works on still in the table? (R98, R99) -/
def gapPresent (s : State) (r : FetchRecord) : Bool :=
  s.gaps.entries.any fun e => e.label == r.label && e.slot == r.slot

/-! ### Quality (R102 to R106) -/

/-- The state that follows the counter below ABANDON (R103). -/
def levelOf (counter : Nat) : QualityLevel :=
  if counter < 96 then .normal else if counter < 128 then .warned else .degraded

/-- Set the quality counter and state; a change of state raises QUALITY (R103). -/
def setQuality (counter : Nat) (level : QualityLevel) (s : State) : State :=
  let changed : Bool := s.quality.level != level
  let s := s.onQuality fun q => { q with counter := counter, level := level }
  if changed then raiseFlag .quality s else s

/-- Enter ABANDON: counter 255, clean run 0, table emptied (R102, R104). -/
def enterAbandon (s : State) : State :=
  emptyGaps ((setQuality 255 .abandon s).onQuality fun q => { q with cleanRun := 0 })

/-- Add 8 outside ABANDON; above 255 enters ABANDON (R102). -/
def qualityRise (s : State) : State :=
  if s.quality.level = .abandon then s
  else if 255 < s.quality.counter + 8 then enterAbandon s
  else setQuality (s.quality.counter + 8) (levelOf (s.quality.counter + 8)) s

/-- Step 2 of a block report: the counter outside ABANDON (R102), the clean run in it (R105). -/
def qualityReport (erasures : Nat) (s : State) : State :=
  if s.quality.level = .abandon then
    if erasures = 0 then
      if s.quality.cleanRun + 1 = 128 then
        (setQuality 0 .normal s).onQuality fun q => { q with cleanRun := 0 }
      else s.onQuality fun q => { q with cleanRun := q.cleanRun + 1 }
    else s.onQuality fun q => { q with cleanRun := 0 }
  else if isScratch s erasures then qualityRise s
  else if erasures = 0 ∧ 0 < s.quality.counter then
    setQuality (s.quality.counter - 1) (levelOf (s.quality.counter - 1)) s
  else s

/-- The rating at a LOAD of fingerprint F (R106). -/
def qualityLoad (f : Word) (s : State) : State :=
  let s := if f = 0 ∨ f ≠ s.quality.rated then
      (setQuality 0 .normal s).onQuality fun q => { q with cleanRun := 0 }
    else s
  s.onQuality fun q => { q with rated := f }

/-! ### Ending a fetch (R100, R101) -/

/-- Free every staged block of the fetch and clear the fetch record (R100). -/
def endFetch (s : State) : State :=
  match s.gaps.fetch with
  | some r => (freeSlots (r.staged.map StagedBlock.slot) s).onGaps fun g => { g with fetch := none }
  | none => s

/-- Has taking the merge been granted? (R87) -/
def mergeGranted (s : State) : Bool :=
  match s.me.align with
  | some a => a.stage == .flagMap
  | none => false

/-- Abandon the fetch at a break: a granted merge runs on, otherwise the Match Engine's work ends and
the staged blocks are freed (R88, R101). -/
def abandonFetch (s : State) : State :=
  if mergeGranted s then
    s.onGaps fun g => { g with fetch := g.fetch.map fun r => { r with abandoned := true } }
  else endFetch (if s.me.align.isSome then endAlignment s else s)

/-- The Gap Scheduler's part of a flush (R107). -/
def flushGaps (s : State) : State := s.onGaps fun _ => GapScheduler.reset

end Sys2Proof.Machine
end

