-- ==== Sys2Proof/Machine/Recovery.lean ====
section
/-! DEFINITION. The Recovery Controller's shared moves: publication, tail capture, leaving LOST,
returns, entry into STREAMING with its tests, failed attempts and breaks (03, and 05 section 5.3). -/
namespace Sys2Proof.Machine

/-! ### Capture record (R66) -/

/-- Fill the capture record; `renewed` is set when it was held (R66, R67). -/
def fillRecord (c : Cause) (retries : Nat) (pending : Bool) (s : State) : State :=
  s.onRc fun r =>
    { r with record :=
      { r.record with
        cause := some c, p := r.p, lead := s.lead, retries := retries, pending := pending
        renewed := r.record.renewed || r.record.held } }

/-- Every break fills the record, raises BREAK and is counted (R45, R66). -/
def recordBreak (c : Cause) (retries : Nat) (pending : Bool) (s : State) : State :=
  bump .breaks (raiseFlag .breakTaken (fillRecord c retries pending s))

/-! ### Tail capture (R52) -/

/-- The history entry of a position. -/
def historyAt (s : State) (pos : Int) : Option HistoryEntry :=
  s.play.history.find? fun e => decide ((e.pos : Int) = pos)

/-- A tail position with no source: its mark is set (R52). The word is never compared (log 16). -/
def noSource : TailFrame := { word := 0, erased := true }

/-- Gather a tail frame if its source has it by now: below the cursor the history entry, at or above
it the ring (R52). -/
def settleItem (s : State) (it : CaptureItem) : CaptureItem :=
  match it.value with
  | some _ => it
  | none =>
    if it.pos < (s.play.cursor : Int) then
      match historyAt s it.pos with
      | some e => { it with value := e.value }
      | none => { it with value := some noSource }
    else
      match it.source with
      | some f => if itemRead f then { it with value := some (itemFrame f) } else it
      | none => { it with value := some noSource }

/-- Gather what can be gathered. -/
def settleCapture (s : State) : State :=
  s.onRc fun r =>
    { r with capture := r.capture.map fun c => { c with items := c.items.map (settleItem s) } }

/-- A tail position at the start of a capture: at or above the cursor it is looked up (R52). -/
def captureItem (s : State) (pos : Int) : CaptureItem :=
  { pos := pos, value := none
    source := if pos < (s.play.cursor : Int) then none
      else (lookup s pos.toNat).map fun (n, i) => frameItem s.ctl.params.ringBase n i }

/-- Begin the tail capture of the MATCH_LEN frames before P; MATCH_LEN and SPAN then hold for the
sequence (R52, R69). -/
def startCapture (returns : Bool) (s : State) : State :=
  let k := s.ctl.params.matchLen
  settleCapture (s.onRc fun r =>
    { r with
      kEff := k, span := s.ctl.params.span
      capture := some
        { returns := returns
          items := (List.range k).map fun (j : Nat) => captureItem s ((r.p : Int) - k + j) } })

/-- The frames the capture still reads from the ring. -/
def captureReads (s : State) : List FetchItem :=
  match s.rc.capture with
  | some c => c.items.filterMap fun it =>
      if it.value = none ∧ (s.play.cursor : Int) ≤ it.pos then it.source else none
  | none => []

/-- The slot a piece reads. -/
def pieceSlot : ReadPiece → Nat
  | .frames n _ _ => n
  | .flags n _ _ => n

/-- The Controller's engine request: its next piece, unless the slot is merging (R52, R87). -/
def captureWants (s : State) : Option ReadPiece :=
  match nextPiece (captureReads s) with
  | some p => if (slotAt s (pieceSlot p)).merging then none else some p
  | none => none

/-! ### The engine's clients (R140 to R142) -/

/-- The engine clients that wait; with none the engine presents nothing (R141). -/
def engineClients (s : State) : List EngineClient :=
  (if s.intake.flagJobs = [] then [] else [.intake]) ++
  (if (captureWants s).isSome then [.recovery] else []) ++
  (if matchWants s then [.matcher] else []) ++
  (if s.ctl.zeroWrite then [.control] else [])

/-- While the engine presents nothing the wait count is 0 (R140). Made at the end of each step that can
leave no client waiting, and within a step where a withdrawal does and the step then presents anew (R142). -/
def settleArbiter (s : State) : State :=
  if engineClients s = [] then s.onArb fun a => { a with waitCount := 0 } else s

/-! ### The tail capture goes on (R52) -/

/-- A grant to the Controller: the piece is read and frames are gathered (R52). -/
def captureGrant (s : State) : State :=
  match captureWants s with
  | some p => settleCapture (s.onRc fun r =>
      { r with capture := r.capture.map fun c =>
          { c with items := c.items.map fun it =>
              if it.value = none ∧ (s.play.cursor : Int) ≤ it.pos then
                { it with source := it.source.map (fillItem s p) } else it } })
  | none => s

/-- The last tail frame is stored (R52). -/
def captureDone (c : Capture) : Bool := c.items.all fun it => it.value.isSome

/-! ### Leaving LOST (R53) -/

/-- Leave LOST into BRIDGING if bridge-pending is set, otherwise into SEEKING (R53). -/
def leaveLost (s : State) : State :=
  if s.rc.bridgePending then enterBridging (s.onRc fun r => { r with bridgePending := false })
  else enterSeeking s

/-- LOST is left at once, or for TRACK_LOST once the track is regained, and not before the capture
has ended (R52, R53). -/
def lostExit (s : State) : State :=
  if s.rc.phase = .lost ∧ s.rc.capture = none ∧ (s.rc.cause ≠ some .trackLost ∨ s.lines.tlost = false) then
    leaveLost s
  else s

/-! ### Returns (R63, R64) -/

/-- Close the open segment at its end, which becomes P, and begin the tail capture of a return; the
publication and SEEKING follow the capture (R52, R63, R64). -/
def takeReturn (c : Cause) (s : State) : State :=
  let p := openEnd s
  startCapture true ((closeOpen s).onRc fun r =>
    { r with
      p := p, origin := some c, cause := some c, retry := 0, bridgePending := false, seqBroken := false })

/-- The hold return (R39, R63). -/
def holdReturn (s : State) : State :=
  takeReturn .holdReturn (s.onIntake fun i => { i with hold := false })

/-- The gap return (R64). -/
def gapReturn (s : State) : State := takeReturn .gapReturn s

/-- A FREE slot count report releases HOLD at HOLD_MARGIN + 8 and takes the hold return (R39). -/
def holdRelease (s : State) : State :=
  if s.intake.hold ∧ s.ctl.params.holdMargin + 8 ≤ freeCount s then holdReturn s else s

/-- A FREE slot count report reaches the Intake Unit (R9, R38, R39). -/
def freeReport (s : State) : State := holdRelease (holdTest s)

/-! ### Starting a gap fetch (R95, R96) -/

/-- The entry GAP_ORDER chooses: lowest label, or the oldest (R96). -/
def chosenGap (s : State) : Option GapEntry :=
  if s.ctl.params.gapOrder = 0 then
    s.gaps.entries.find? fun e => s.gaps.entries.all fun x => e.label ≤ x.label
  else s.gaps.entries.head?

/-- The first position that a linked slot's segment uses of it (R95). -/
def firstUsed (s : State) (n : Nat) : Option Nat :=
  match (slotAt s n).owner with
  | some id =>
    (s.map.segs.find? fun g => g.id == id).map fun g =>
      max g.start ((blockStart (labelOf (slotAt s n)) : Int) - g.shift).toNat
  | none => none

/-- The fetch test: the conditions of R95, and the request of R96 when they hold. -/
def fetchTest (s : State) : State :=
  match chosenGap s with
  | none => s
  | some e =>
    let ahead := match firstUsed s e.slot with
      | some f => decide (s.play.cursor ≤ f)
      | none => false
    if s.rc.phase = .streaming ∧ s.gaps.fetch = none ∧
        s.ctl.params.gapLead * Config.frames ≤ s.lead ∧ s.intake.hold = false ∧
        s.map.segs.length < Config.maxSegments ∧ ahead = true then
      let record : FetchRecord :=
        { phase := .fetching, label := e.label, slot := e.slot, staged := [], late := false
          abandoned := false }
      let s := s.onGaps fun g => { g with fetch := some record }
      publish (e.label - 1) true (s.onRc fun r => { r with phase := .gapFetch })
    else s

/-- Enter STREAMING: the HOLD test (R38), then the fetch test (R95); log 14. -/
def enterStreaming (s : State) : State :=
  fetchTest (holdTest (s.onRc fun r => { r with phase := .streaming }))

/-! ### Breaks (R50, R51, R61, R65) -/

/-- Enter LOST with RRQ deasserted; what the Intake Unit held is taken in LOST (R36). A header in a port D
request never presented is not held here, and comes at its own grant (R133; log 8). -/
def enterLost (s : State) : State :=
  drainHeld (s.onRc fun r => { r with phase := .lost, rrq := false })

/-- The end of a break that begins a sequence: P fixed, capture record, BREAK, LOST, tail capture
(R50, R51, R65). -/
def beginSequence (c : Cause) (p : Nat) (s : State) : State :=
  let retries := s.rc.retry
  let s := s.onRc fun r =>
    { r with
      p := p, origin := some c, cause := some c, retry := 0, bridgePending := false, seqBroken := true }
  startCapture false (enterLost (recordBreak c retries false s))

/-- A shock or track loss in STREAMING or HOLDING (R51). HOLD is released first (R40, log 15). -/
def breakStreaming (c : Cause) (s : State) : State :=
  let p := max (distrustedEnd s.ctl.params.distrust s) s.play.cursor
  let s := truncateOpen p (s.onIntake fun i => { i with hold := false })
  beginSequence c p (intakeCut s)

/-- A shock or track loss in SEEKING or MATCHING (R61). -/
def breakRecovery (c : Cause) (s : State) : State :=
  let pending := s.rc.seqBroken || s.rc.origin == some .shock || s.rc.origin == some .trackLost ||
    s.rc.origin == some .discontinuity
  let retries := s.rc.retry
  let s := dropRrq (intakeCut (freeRun (clearAttempt s)))
  let s := s.onRc fun r =>
    if r.retry < s.ctl.params.retryLimit then
      { r with cause := some c, seqBroken := true, retry := r.retry + 1 }
    else { r with cause := some c, seqBroken := true, bridgePending := true }
  lostExit (enterLost (recordBreak c retries pending s))

/-- A shock or track loss in GAPFETCH (R65). The alignment's requests are withdrawn before the tail
capture presents its own (R142). -/
def breakGapFetch (c : Cause) (s : State) : State :=
  let s := settleArbiter (abandonFetch s)
  let p := openEnd s
  beginSequence c p (intakeCut (closeOpen s))

/-- What a shock or track-lost event does in each recovery state (R45). While the tail capture runs
it is kept until the capture has ended (R52). -/
def lineBreak (c : Cause) (s : State) : State :=
  match s.rc.phase with
  | .parked => s
  | .starting => s
  | .lost => s
  | .bridging => s
  | .streaming => breakStreaming c s
  | .holding => breakStreaming c s
  | .seeking => breakRecovery c s
  | .matching => breakRecovery c s
  | .gapFetch => breakGapFetch c s

/-- Keep an event for the end of the tail capture (R52). -/
def deferEvent (d : Deferred) (s : State) : State :=
  s.onRc fun r => { r with deferred := r.deferred ++ [d] }

/-- The Recovery Controller's part of a flush (R68). -/
def flushRecovery (s : State) : State :=
  s.onRc fun r =>
    { r with
      phase := .parked, rrq := false, retry := 0, bridgePending := false, seqBroken := false, tail := []
      run := [], wait := .none, capture := none, deferred := [], expected := none }

end Sys2Proof.Machine
end

