-- ==== Sys2Proof/Machine/Blocks.lean ====
section
/-! DEFINITION. What becomes of a completed block in each recovery state, gap fetches and merge
outcomes, and the steps of intake and of the Match Engine:
BLOCK_REPORT, TAIL_CAPTURE_END, EVALUATION_END, SPLICE_RETRY, BRIDGE_RETRY, ALIGNMENT_END,
MERGE_FRAMES_WRITTEN, MERGE_FLAG_MAP_WRITTEN, BLOCK_PERIOD_BOUNDARY, DEADLINE_EXPIRY. -/
namespace Sys2Proof.Machine

/-! ### Heads, splices and the decision (R47, R59, R62, R78, R81) -/

/-- A head or splice has been formed: expected label, retry count and the rest, and STREAMING
(R47, R59, R62). -/
def headFormed (top : Nat) (s : State) : State :=
  enterStreaming ((clearAttempt s).onRc fun r =>
    { r with
      expected := some (top + 1), rrq := false, retry := 0, bridgePending := false, started := true
      run := [], wait := .none })

/-- Success of a splice: REJOIN is raised and counted (R59). -/
def rejoined (top : Nat) (s : State) : State := headFormed top (bump .rejoins (raiseFlag .rejoin s))

/-- Success of a bridge: BRIDGE is raised and counted (R62). -/
def bridged (top : Nat) (s : State) : State := headFormed top (bump .bridges (raiseFlag .bridge s))

/-- Ask for the splice of an accepted decision; a full list leaves it waiting with the run STAGED, and a
FREE slot count of 0 then fails the attempt (R59, log 11). -/
def trySplice (d : Int) (s : State) : State :=
  let kind : HeadKind := if s.rc.origin = some .resume then .resumed else .matched
  match splice s.rc.p d kind s.rc.run s with
  | (s1, some top) => rejoined top s1
  | (s1, none) =>
    if freeCount s1 = 0 then attemptFail s1
    else (s1.onMap fun m => { m with retireReport := false }).onRc fun r => { r with wait := .splice d }

/-- An accepted decision: splice, or the start wait when the run ends one frame short of P + d (R81). -/
def acceptOffset (d : Int) (s : State) : State :=
  let holds : Bool := match runEnd s.rc.run with
    | some e => decide ((s.rc.p : Int) + d ≤ e)
    | none => false
  if holds then trySplice d s
  else if freeCount s = 0 then attemptFail s
  else s.onRc fun r => { r with wait := .start d }

/-- The decision (R78): TOL is read now, the context is cleared, and R59 or R60 follows. -/
def decideMatch (best : Option Best) (s : State) : State :=
  let s := clearAttempt s
  match best with
  | some b => if b.mean ≤ s.ctl.params.tol then acceptOffset b.offset s else attemptFail s
  | none => attemptFail s

/-- Does the run cover every frame any offset can need, up to P + S − 1? (R58) -/
def runCovers (s : State) : Bool :=
  match runEnd s.rc.run with
  | some e => s.rc.p + s.rc.span ≤ e + 1
  | none => false

/-- Stage a block and add it to the run, under the label it is given (R4, R57, R58, R62; log 24). -/
def addToRun (n label : Nat) (s : State) : State :=
  (stageSlot n label s).onRc fun r =>
    { r with run := r.run ++ [{ slot := n, label := Config.assignedLabel label }] }

/-- The two tests when a block is added (R58): with the run still short and no slot FREE the attempt
fails; otherwise the Match Engine scores what it can. -/
def afterAdd (s : State) : State :=
  if runCovers s = false ∧ freeCount s = 0 then attemptFail s else tryEvaluate s

/-- The label after the last one of the run. -/
def nextOfRun (s : State) : Nat :=
  match s.rc.run.getLast? with
  | some b => b.label + 1
  | none => 0

/-! ### The completed block in each state -/

/-- STARTING (R47). -/
def reportStarting (n : Nat) (d : SlotDesc) (s : State) : State :=
  let l := labelOf d
  if d.trusted ∧ blockOf s.rc.startFrame ≤ l then
    match createSegment (max s.rc.startFrame (blockStart l)) 0 s.rc.startKind [{ slot := n, label := l }] s with
    | (s1, some top) => headFormed top s1
    | (s1, none) => freeSlot n s1
  else freeSlot n s

/-- The block report to the Gap Scheduler and Quality Monitor, in its three steps (R90). -/
def blockReportSteps (n label erasures first : Nat) (s : State) : State :=
  fetchTest (qualityReport erasures (gapEntryDecision n label erasures first s))

/-- Append with the expected label, which an untrusted block is given (R4, R13, R49); an append hands a block
report on (R90). The next expected label is the label of the block appended, plus 1: past the end of the disc
the recorded free label plus 1, the model's choice between R49's two sentences (log 24). -/
def appendExpected (n : Nat) (d : SlotDesc) (expected : Nat) (s : State) : State :=
  let first := openEnd s
  let label := if labelOf d = expected then expected else Config.assignedLabel expected
  match appendSlot n label s with
  | (s1, true) =>
    blockReportSteps n label d.erasures first (s1.onRc fun r => { r with expected := some (label + 1) })
  | (s1, false) => s1

/-- A discontinuity (R50): the block is discarded, P is the end of the open segment. -/
def discontinuity (n : Nat) (s : State) : State :=
  let p := openEnd s
  beginSequence .discontinuity p (intakeCut (closeOpen (freeSlot n s)))

/-- STREAMING (R49, R50). -/
def reportStreaming (n : Nat) (d : SlotDesc) (s : State) : State :=
  let e := s.rc.expected.getD 0
  if d.trusted = false ∨ labelOf d = e then appendExpected n d e s else discontinuity n s

/-- HOLDING (R63). -/
def reportHolding (n : Nat) (d : SlotDesc) (s : State) : State :=
  let e := s.rc.expected.getD 0
  if d.trusted = false ∨ labelOf d = e then appendExpected n d e s else freeSlot n s

/-- SEEKING (R57). -/
def reportSeeking (n : Nat) (d : SlotDesc) (s : State) : State :=
  let l := labelOf d
  if d.trusted = false ∨ l < blockOf (s.rc.p - s.rc.kEff - s.rc.span) then freeSlot n s
  else if blockOf s.rc.p + 1 < l then attemptFail (freeSlot n s)
  else
    let s := addToRun n l s
    let s := s.onRc fun r => { r with phase := .matching, rrq := false }
    afterAdd (s.onMe fun m => { m with attempt := some (newAttempt s.rc l) })

/-- MATCHING while a splice waits, or with the run covering and the decision still to come: the block
with the next label joins the offered run without scoring, anything else fails the attempt (R58, R59;
log 12). -/
def reportOffered (n : Nat) (d : SlotDesc) (s : State) : State :=
  if d.trusted ∧ labelOf d = nextOfRun s then
    let s := addToRun n (labelOf d) s
    if freeCount s = 0 then attemptFail s else s
  else attemptFail (freeSlot n s)

/-- MATCHING (R58, R59, R81). -/
def reportMatching (n : Nat) (d : SlotDesc) (s : State) : State :=
  let follows : Bool := !d.trusted || labelOf d == nextOfRun s
  match s.rc.wait with
  | .start offset =>
    if follows then trySplice offset (addToRun n (nextOfRun s) s) else attemptFail (freeSlot n s)
  | .splice _ => reportOffered n d s
  | _ =>
    if runCovers s then reportOffered n d s
    else if follows then afterAdd (addToRun n (nextOfRun s) s)
    else attemptFail (freeSlot n s)

/-- Ask for the bridge with the held blocks, the first one's label as L (R62). -/
def tryBridge (s : State) : State :=
  match s.rc.run with
  | [] => s
  | b :: _ =>
    match createSegment (max s.rc.p (blockStart b.label)) 0 .bridged s.rc.run s with
    | (s1, some top) => bridged top s1
    | (s1, none) =>
      dropRrq ((s1.onMap fun m => { m with retireReport := false }).onRc fun r => { r with wait := .bridge })

/-- BRIDGING (R62). -/
def reportBridging (n : Nat) (d : SlotDesc) (s : State) : State :=
  let l := labelOf d
  match s.rc.wait with
  | .bridge =>
    if d.trusted = false ∨ l = nextOfRun s then addToRun n (nextOfRun s) s
    else enterBridging (freeRun (freeSlot n s))
  | _ =>
    if d.trusted ∧ blockOf s.rc.p ≤ l then tryBridge (addToRun n l s) else freeSlot n s

/-! ### Merge outcomes (R99, R100, R101) -/

/-- The fetch is over: its staged blocks are freed, its record cleared, and the gap return made
(R98, R100). -/
def fetchOver (s : State) : State :=
  let s := endFetch s
  if s.rc.phase = .gapFetch then gapReturn s else s

/-- Raise an entry's retries (R100). -/
def raiseRetries (n : Nat) (s : State) : State :=
  s.onGaps fun g =>
    { g with entries := g.entries.map fun e => if e.slot = n then { e with retries := e.retries + 1 } else e }

/-- The retries of the entry naming a slot. -/
def gapRetries (s : State) (n : Nat) : Nat :=
  match s.gaps.entries.find? (fun e => e.slot == n) with
  | some e => e.retries
  | none => 0

/-- A repair: the entry is removed, GAP_FILLED raised and counted (R100, R101). -/
def gapRepaired (n : Nat) (s : State) : State :=
  bump .gapsFilled (raiseFlag .gapFilled (removeGap n s))

/-- The merge outcome with an erasure count (R100), or after an abandoned fetch (R101). An entry that
has left the table meanwhile is *entry gone* (R98). -/
def mergeOutcome (count : Nat) (s : State) : State :=
  match s.gaps.fetch with
  | none => s
  | some r =>
    if gapPresent s r = false then fetchOver s
    else if count ≤ s.ctl.params.gapLimit then fetchOver (gapRepaired r.slot s)
    else if r.abandoned then fetchOver s
    else if gapRetries s r.slot < s.ctl.params.retryLimit then fetchOver (qualityRise (raiseRetries r.slot s))
    else fetchOver (qualityRise (removeGap r.slot s))

/-- The fetch ends (R98): *entry gone*, or an alignment; with nothing staged that is *nothing merged*
at once (R83). -/
def fetchEnd (s : State) : State :=
  match s.gaps.fetch with
  | none => s
  | some r =>
    let s := s.onGaps fun g => { g with fetch := some { r with phase := .merging } }
    if gapPresent s r = false then fetchOver s
    else if r.staged = [] then mergeOutcome (slotAt s r.slot).erasures s
    else beginAlignment r.label r.slot r.staged s

/-- Stage a block for the fetch, by the label it is judged by (R97). -/
def stageForFetch (n label : Nat) (r : FetchRecord) (s : State) : State :=
  let s := dropRrq (stageSlot n label s)
  s.onGaps fun g =>
    { g with fetch := some { r with staged := r.staged ++ [{ slot := n, label := label }] } }

/-- The label a block of the fetch is judged by: its own if trusted, one above the highest staged
otherwise, none with nothing staged (R97). -/
def fetchLabel (d : SlotDesc) (r : FetchRecord) : Option Nat :=
  if d.trusted then d.label
  else if r.staged = [] then none
  else some ((r.staged.map StagedBlock.label).foldl max 0 + 1)

/-- GAPFETCH (R64, R97). -/
def reportGapFetch (n : Nat) (d : SlotDesc) (s : State) : State :=
  match s.gaps.fetch with
  | none => freeSlot n s
  | some r =>
    if r.phase = .merging then freeSlot n s
    else
      match fetchLabel d r with
      | none => freeSlot n s
      | some l =>
        if l + 1 < r.label then freeSlot n s
        else if l ≤ r.label + 1 then
          if r.staged.any (fun b => b.label == l) then freeSlot n s
          else if l = r.label + 1 then fetchEnd (stageForFetch n l r s)
          else stageForFetch n l r s
        else if d.trusted then fetchEnd (freeSlot n s)
        else freeSlot n s

/-! ### The block report (R34, R48) -/

/-- Does a completed block's arrival fit the recovery state? (R48) -/
def arrivalFits (phase : RecoveryPhase) (a : Arrival) : Bool :=
  match phase with
  | .seeking => a == .reread
  | .matching => a == .reread
  | .bridging => a == .reread
  | .gapFetch => a == .gapFetch
  | .starting => true
  | .streaming => true
  | .holding => true
  | .parked => false
  | .lost => false

/-- The Controller disposes of the completed block in slot n (03 section 3.2). A stale block, or one
whose arrival does not fit, is discarded first (R48); in LOST every block is (R53). -/
def disposeBlock (n : Nat) (s : State) : State :=
  let d := slotAt s n
  if d.stale || !arrivalFits s.rc.phase d.arrival then freeSlot n s
  else
    match s.rc.phase with
    | .starting => reportStarting n d s
    | .streaming => reportStreaming n d s
    | .holding => reportHolding n d s
    | .seeking => reportSeeking n d s
    | .matching => reportMatching n d s
    | .bridging => reportBridging n d s
    | .gapFetch => reportGapFetch n d s
    | .parked => freeSlot n s
    | .lost => freeSlot n s

/-- The completed block whose three flag-map requests have been acknowledged (R34). -/
def reportReady (s : State) : Option Nat :=
  if s.intake.phase = .handingOver ∧ s.intake.flagJobs = [] then s.intake.slot else none

/-- The report is taken: the block is disposed of, then the hand-off ends (R34, R35). What the disposal
withdraws is settled before a held beat can present anew (R142). -/
def takeReport (s : State) : State :=
  match reportReady s with
  | some n => handOffEnd (freeReport (settleArbiter (disposeBlock n s)))
  | none => s

/-- BLOCK_REPORT. While the tail capture runs the report is kept for its end (R52). -/
def blockReport (s : State) : State :=
  match reportReady s with
  | none => s
  | some _ =>
    if s.rc.capture.isSome then
      if s.rc.deferred.contains .report then s else deferEvent .report s
    else settleArbiter (takeReport s)

/-! ### Lines (R43, R44, R45) -/

/-- SHOCK_EVENT: the filtered SHK level rises, the rise latch is set (R43, R146), and the event acts
by the recovery state (R45), after a tail capture in progress (R52). -/
def shockEvent (s : State) : State :=
  let s := (s.onPins fun p => { p with shk := true }).onLines fun l =>
    { l with shk := true, shkTimer := 0, riseLatch := true }
  if s.rc.capture.isSome then deferEvent .shock s else settleArbiter (lineBreak .shock s)

/-- SHK_FALL: the filtered level falls, and nothing else (R43). -/
def shkFall (s : State) : State :=
  (s.onPins fun p => { p with shk := false }).onLines fun l => { l with shk := false, shkTimer := 0 }

/-- TRACK_LOST_EVENT (R44, R45, R52). -/
def trackLost (s : State) : State :=
  let s := (s.onPins fun p => { p with tlost := true }).onLines fun l => { l with tlost := true, tlostTimer := 0 }
  if s.rc.capture.isSome then deferEvent .trackLost s else settleArbiter (lineBreak .trackLost s)

/-- TRACK_REGAINED_EVENT: the filtered level falls; LOST with cause TRACK_LOST is left (R44, R53). -/
def trackRegained (s : State) : State :=
  let s := (s.onPins fun p => { p with tlost := false }).onLines fun l => { l with tlost := false, tlostTimer := 0 }
  if s.rc.cause = some .trackLost then lostExit s else s

/-! ### The end of the tail capture (R52) -/

/-- One event kept during the capture acts; if a new capture runs by then it is kept again. -/
def actDeferred (s : State) (d : Deferred) : State :=
  if s.rc.capture.isSome then deferEvent d s
  else
    match d with
    | .report => takeReport s
    | .shock => lineBreak .shock s
    | .trackLost => lineBreak .trackLost s

/-- TAIL_CAPTURE_END: the tail is stored; a return publishes and enters SEEKING, LOST is left by R53;
then what was kept acts, in the state this leaves (R52). -/
def tailCaptureEnd (s : State) : State :=
  match s.rc.capture with
  | none => s
  | some c =>
    if captureDone c then
      let kept := s.rc.deferred
      let s := s.onRc fun r =>
        { r with
          tail := c.items.map fun it => it.value.getD noSource
          capture := none, deferred := [] }
      let s := if c.returns then enterSeeking s else lostExit s
      settleArbiter (tryEvaluate (kept.foldl actDeferred s))
    else s

/-! ### The deadline (R56) -/

/-- The deadline counter runs in SEEKING, MATCHING, BRIDGING and GAPFETCH until the fetch ends (R56,
R64). -/
def deadlineRuns (s : State) : Bool :=
  match s.rc.phase with
  | .seeking => true
  | .matching => true
  | .bridging => true
  | .gapFetch =>
    match s.gaps.fetch with
    | some r => r.phase == .fetching
    | none => false
  | .parked => false
  | .starting => false
  | .streaming => false
  | .holding => false
  | .lost => false

/-- BLOCK_PERIOD_BOUNDARY: the running counter falls by one; at 1 it holds during an evaluation (R56). -/
def blockPeriodBoundary (s : State) : State :=
  if deadlineRuns s then
    if s.rc.deadline = 1 ∧ evaluating s then s
    else s.onRc fun r => { r with deadline := r.deadline - 1 }
  else s

/-- An expiry (R56): the attempt fails (R60), the bridge re-arms (R62), or the fetch ends (R64, R98). -/
def expire (s : State) : State :=
  match s.rc.phase with
  | .seeking => attemptFail s
  | .matching => attemptFail s
  | .bridging => enterBridging (dropRrq (freeRun s))
  | .gapFetch => fetchEnd (dropRrq s)
  | .parked => s
  | .starting => s
  | .streaming => s
  | .holding => s
  | .lost => s

/-- An expiry is due: the running counter stands at 0, and in MATCHING no evaluation is in progress, which
no expiry can end (R56, R79; log 34). -/
def expiryDue (s : State) : Bool :=
  deadlineRuns s && s.rc.deadline == 0 && !(s.rc.phase == .matching && evaluating s)

/-- DEADLINE_EXPIRY (R56, R79). -/
def deadlineExpiry (s : State) : State := if expiryDue s then settleArbiter (expire s) else s

/-! ### Evaluations and retries -/

/-- EVALUATION_END: the decision when E reaches P + S − 1, another evaluation when the run has grown,
otherwise IDLE (R73, R78; log 13). -/
def evaluationEnd (s : State) : State :=
  match s.me.attempt with
  | some a =>
    if evaluationDone s then
      let s := s.onMe fun m => { m with activity := .idle }
      let reached : Bool := match a.scoredTo with
        | some e => a.p + a.span ≤ e + 1
        | none => false
      settleArbiter (if reached then decideMatch a.best s else tryEvaluate s)
    else s
  | none => s

/-- SPLICE_RETRY: a waiting splice is asked again at a retirement report (R12, R59). -/
def spliceRetry (s : State) : State :=
  match s.rc.wait with
  | .splice d =>
    if s.rc.phase = .matching ∧ s.map.retireReport then
      trySplice d (s.onMap fun m => { m with retireReport := false })
    else s
  | _ => s

/-- BRIDGE_RETRY: a held bridge head is asked again at a retirement report (R12, R62). -/
def bridgeRetry (s : State) : State :=
  if s.rc.wait = .bridge ∧ s.rc.phase = .bridging ∧ s.map.retireReport then
    tryBridge (s.onMap fun m => { m with retireReport := false })
  else s

/-! ### Alignment and merge (R85 to R87) -/

/-- ALIGNMENT_END: accepted with an offset, the frame merge begins; otherwise *nothing merged*, with
the erasure count as it stood (R85, R86). -/
def alignmentEnd (s : State) : State :=
  match s.me.align with
  | some a =>
    if s.me.activity = .aligning ∧ a.stage = .scored then
      match alignmentOffset a with
      | some d => s.onMe fun m => beginMerge d m a
      | none => settleArbiter (tryEvaluate (mergeOutcome (slotAt s a.slot).erasures (endAlignment s)))
    else s
  | none => s

/-- The Gap Scheduler's consent (R99). -/
def grantsMerge (s : State) : Bool :=
  match s.gaps.fetch with
  | some r => !r.late && !r.abandoned && gapPresent s r
  | none => false

/-- MERGE_FRAMES_WRITTEN: with nothing replaced the outcome is reported; otherwise the take request is
granted, and the flag map is written with the slot merging, or refused (R86, R87, R99). -/
def mergeFramesWritten (s : State) : State :=
  match s.me.align with
  | some a =>
    if s.me.activity = .merging ∧ a.stage = .mergeWrite ∧ a.writes = [] then
      if a.replaced = 0 then
        settleArbiter (tryEvaluate (mergeOutcome (slotAt s a.slot).erasures (endAlignment s)))
      else if grantsMerge s then
        let jobs := flagMapJobs s a.slot a.newMarks
        (modSlot a.slot (fun d => { d with merging := true }) s).onMe fun m =>
          { m with align := some { a with stage := .flagMap, jobs := jobs } }
      else settleArbiter (tryEvaluate (fetchOver (endAlignment s)))
    else s
  | none => s

/-- MERGE_FLAG_MAP_WRITTEN: the erasure count becomes the new one, the merging mark is cleared and the
outcome reported (R87). -/
def mergeFlagMapWritten (s : State) : State :=
  match s.me.align with
  | some a =>
    if a.stage = .flagMap ∧ a.jobs = [] then
      let count := (slotAt s a.slot).erasures - a.replaced
      let s := modSlot a.slot (fun d => { d with erasures := count, merging := false }) s
      settleArbiter (tryEvaluate (mergeOutcome count (endAlignment s)))
    else s
  | none => s

end Sys2Proof.Machine
end

