-- ==== Sys2Proof/Machine/Apply.lean ====
section
/-! DEFINITION. APPLY taking effect: the checks, the new set and what blocks do at that moment (10
section 10.4), and the completion of commands (10 section 10.3). -/
namespace Sys2Proof.Machine

/-- Codes of the commands (R176). -/
abbrev codeStart : Word := 1
abbrev codeLoad : Word := 2
abbrev codeEject : Word := 3
abbrev codePause : Word := 4
abbrev codePlay : Word := 5
abbrev codeApply : Word := 6
abbrev codeForget : Word := 7

/-- A completion: the last completed command and its result, and CMD_DONE (R175). -/
def completion (code : Word) (result : CmdResult) (s : State) : State :=
  raiseFlag .cmdDone (s.onCtl fun c => { c with lastCode := code, lastResult := result })

/-- Does any geometry value differ? (R178) -/
def geometryDiffers (a b : Params) : Bool :=
  a.ringBase != b.ringBase || a.ringSlots != b.ringSlots || a.intakeBase != b.intakeBase ||
  a.playBase != b.playBase

/-- Ranges given by base and size do not meet. -/
def apart (x y : Nat × Nat) : Bool := x.1 + x.2 ≤ y.1 || y.1 + y.2 ≤ x.1

/-- The placement check: ring, play window, intake window and parameter block pairwise disjoint, the
ring ending within 16 MiB (R178). -/
def placementOk (straps : BitVec 2) (p : Params) : Bool :=
  let ring := (p.ringBase, p.ringSlots * Config.stride)
  let play := (p.playBase, 4096)
  let intake := (p.intakeBase, 4096)
  let blk := (blockBase straps, 2048)
  apart ring play && apart ring intake && apart ring blk && apart play intake && apart play blk &&
  apart intake blk && p.ringBase + p.ringSlots * Config.stride ≤ Config.addressSpace

/-- Both checks of R178. -/
def applyPasses (s : State) : Bool :=
  let new := clampParams s.ctl.staged
  (!geometryDiffers s.ctl.params new || s.rc.phase == .parked) && placementOk s.router.pblk new

/-- A new ring geometry rebuilds the Slot Table with FREE descriptors, allocation pointer 0 (R3). -/
def rebuildRing (old new : Params) (s : State) : State :=
  if old.ringBase = new.ringBase ∧ old.ringSlots = new.ringSlots then s
  else s.onMap fun m =>
    { m with slots := List.replicate new.ringSlots SlotDesc.free, allocPtr := 0 }

/-- Retry counts above a lowered RETRY_LIMIT are lowered to it (R69, R108). -/
def lowerRetries (limit : Nat) (s : State) : State :=
  (s.onRc fun r => { r with retry := min r.retry limit }).onGaps fun g =>
    { g with entries := g.entries.map fun e => { e with retries := min e.retries limit } }

/-- A new HOLD_MARGIN: the release level while HOLD is asserted (R40), the test of R38 otherwise. -/
def newHoldMargin (s : State) : State := if s.intake.hold then holdRelease s else holdTest s

/-- What blocks do at the moment a new set takes effect (R173). The filters of R43 and R164 act at the
next REFCLK cycle, the debounce of R145 at the next tick. The HOLD test comes before the fetch test: the
model's choice (log 14). -/
def applyEffects (old new : Params) (s : State) : State :=
  let s := lowerRetries new.retryLimit (rebuildRing old new s)
  let s := if old.lowWater = new.lowWater then s else leadCheck s
  let s := if old.holdMargin = new.holdMargin then s else newHoldMargin s
  if old.gapLead = new.gapLead ∧ old.gapOrder = new.gapOrder then s else fetchTest s

/-- An APPLY takes effect (R177, R178): the whole clamped set replaces the in-effect set, or nothing
is replaced and CONFIG is raised. -/
def applyNow (s : State) : State :=
  let s := s.onCtl fun c => { c with applyPending := false }
  if applyPasses s then
    let old := s.ctl.params
    let new := clampParams s.ctl.staged
    completion codeApply .done
      (applyEffects old new (s.onCtl fun c => { c with params := new, applyInd := .done }))
  else
    completion codeApply .refusedConfig
      (raiseFlag .config (s.onCtl fun c => { c with applyInd := .refusedConfig }))

/-- One of the events at which a pending APPLY takes effect (R177). -/
def applyIfPending (s : State) : State := if s.ctl.applyPending then applyNow s else s

end Sys2Proof.Machine
end

