-- ==== Sys2Proof/Machine/Resume.lean ====
section
/-! DEFINITION. The Resume Table and snapshots (08 sections 8.3 and 8.4). -/
namespace Sys2Proof.Machine

/-- Entry n of the Resume Table. -/
def resumeAt (s : State) (n : Nat) : ResumeEntry := s.resume.entries.getD n ResumeEntry.blank

/-- Change entry n. -/
def modResume (n : Nat) (f : ResumeEntry → ResumeEntry) (s : State) : State :=
  s.onResume fun t => { t with entries := t.entries.modify n f }

/-- The valid entry of a fingerprint; with fingerprint 0 no lookup is made (R158, R160). -/
def resumeEntry (s : State) (f : Word) : Option Nat :=
  if f = 0 then none else s.resume.entries.findIdx? fun e => e.valid && e.fingerprint == f

/-- The free entry with the lowest number (R155). -/
def freeEntry (s : State) : Option Nat := s.resume.entries.findIdx? fun e => !e.valid

/-- The entry with the highest age, the lowest number among equal ages (R155). -/
def oldestEntry (s : State) : Option Nat :=
  s.resume.entries.findIdx? fun e => s.resume.entries.all fun x => x.age ≤ e.age

/-- The entry a snapshot writes: the disc's own, else the lowest free one, else the oldest (R155). -/
def targetEntry (s : State) (f : Word) : Nat :=
  match resumeEntry s f with
  | some n => n
  | none => match freeEntry s with
    | some n => n
    | none => (oldestEntry s).getD 0

/-- The history entries at the positions just below `frame`, back to the first one missing or 32 of
them, in ascending order (R154). -/
def tailBehind (s : State) : Nat → Nat → List HistoryEntry
  | 0, _ => []
  | room + 1, frame =>
    if frame = 0 then []
    else match historyAt s ((frame : Int) - 1) with
      | some e => tailBehind s room (frame - 1) ++ [e]
      | none => []

/-- A snapshot request is taken only with a disc loaded, a fingerprint other than 0 and its stream
started (R153). -/
def snapshotDisc (s : State) : Option Word :=
  match s.rc.loaded with
  | some f => if f ≠ 0 ∧ s.rc.started then some f else none
  | none => none

/-- Once every reserved entry has its value, the target entry is chosen and made invalid: the write
begins (R154, R155, R156). -/
def beginWrite (s : State) : State :=
  match s.resume.snap with
  | none => s
  | some p =>
    if p.target = none ∧ p.tail.all (fun e => e.value.isSome) then
      let n := targetEntry s p.fingerprint
      (modResume n (fun e => { e with valid := false }) s).onResume fun t =>
        { t with snap := some { p with target := some n, timer := 0 } }
    else s

/-- A snapshot request: it gathers its contents now, or merges into the one in flight, or is ended at
once (R153, R154). -/
def requestSnapshot (s : State) : State :=
  match snapshotDisc s with
  | none => s
  | some f =>
    if s.resume.snap.isSome then s
    else
      let frame := min s.play.cursor Config.lastFrame
      let gathered : Snapshot :=
        { fingerprint := f, frame := frame, tail := tailBehind s 32 frame, target := none, timer := 0 }
      beginWrite (s.onResume fun t => { t with snap := some gathered })

/-- A burst's values reach the entries a snapshot has reserved (R123, R154). -/
def snapshotReceives (values : List (Nat × TailFrame)) (s : State) : State :=
  beginWrite (s.onResume fun t =>
    { t with snap := t.snap.map fun p =>
        { p with tail := p.tail.map fun e =>
            match e.value, values.find? (fun v => v.1 == e.pos) with
            | none, some v => { e with value := some v.2 }
            | _, _ => e } })

/-- The saved frames of an entry: the new ones, then what the entry kept (R156). -/
def savedTail (old : List TailFrame) (new : List HistoryEntry) : List TailFrame :=
  new.map (fun e => e.value.getD noSource) ++ old.drop new.length

/-- The end of the write: the entry valid with age 0, every other valid entry's age up by one,
stopping at 255 (R156). -/
def endWrite (p : Snapshot) (n : Nat) (s : State) : State :=
  let aged := fun (e : ResumeEntry) => if e.valid then { e with age := min (e.age + 1) 255 } else e
  let s := s.onResume fun t => { t with entries := t.entries.map aged, snap := none }
  modResume n (fun e =>
    { valid := true, fingerprint := p.fingerprint, frame := p.frame, tailCount := p.tail.length
      tail := savedTail e.tail p.tail, age := 0 }) s

/-- Make the entry of a fingerprint invalid (R160). -/
def forgetEntry (n : Nat) (s : State) : State := modResume n (fun e => { e with valid := false }) s

/-- Is a snapshot being written into this fingerprint's entry? (R160) -/
def writingFor (s : State) (f : Word) : Bool :=
  match s.resume.snap with
  | some p => p.target.isSome && p.fingerprint == f
  | none => false

end Sys2Proof.Machine
end

