-- ==== Sys2Proof/Machine/Play.lean ====
section
/-! DEFINITION. The Play Server: the planning of a burst at its take and the composing of its words at
its completion (06). -/
namespace Sys2Proof.Machine

/-! ### The cursor (R111 to R113) -/

/-- Setting the cursor: history emptied, run ended, underrun cleared (R111). -/
def setCursor (x : Nat) (s : State) : State :=
  leadCheck (s.onPlay fun p =>
    { p with cursor := x, history := [], run := .none, underrun := false })

/-- The cursor has moved from `old`: in another block a deferred APPLY takes effect (R113, R177). -/
def crossing (old : Nat) (s : State) : State :=
  if blockOf old = blockOf s.play.cursor then s else applyIfPending s

/-- A jump up to the first segment's stream start (R112). -/
def jump (s : State) : State :=
  match s.map.segs with
  | g :: _ =>
    if s.play.cursor < g.start then
      let old := s.play.cursor
      crossing old (leadCheck (s.onPlay fun p => { p with cursor := g.start }))
    else s
  | [] => s

/-- Reserve a history entry; the oldest of 64 leaves (R123). -/
def reserveHistory (pos : Nat) (h : List HistoryEntry) : List HistoryEntry :=
  let h := h ++ [{ pos := pos, value := none }]
  h.drop (h.length - 64)

/-- The highest position of a segment that maps into its slot of a label (R17). -/
def highestUsed (g : Segment) (label : Nat) : Int :=
  min (((label + 1) * Config.frames : Nat) - 1 - g.shift) ((g.stop : Int) - 1)

/-- The cursor passes a position of slot n: *gap slot reached* at the first serve of a gap slot, and
the slot is FREE after its highest used position (R17). -/
def passSlot (g : Segment) (pos n : Nat) (s : State) : State :=
  let s := if (slotAt s n).gapMark then gapReached n s else s
  if (pos : Int) = highestUsed g (labelOf (slotAt s n)) then freeSlot n s else s

/-- After a retirement report: the fetch test (R95). -/
def afterRetire (before : Nat) (s : State) : State :=
  if s.map.segs.length < before then fetchTest s else s

/-- The serve of the cursor position from segment g (R17, R18, R113, R114): its history entry is
reserved, the cursor advances, slots are freed, the segment may retire, and a crossing is reported. The FREE
slot count report of a slot freed, and a hold return it brings at the old HOLD_MARGIN, come before an APPLY that
the crossing brings into effect: the model's choice (log 15). -/
def servePosition (g : Segment) (loc : Option (Nat × Nat)) (s : State) : State :=
  let pos := s.play.cursor
  let s := match loc with
    | some (n, _) => passSlot g pos n s
    | none => s
  let s := s.onPlay fun p =>
    { p with cursor := pos + 1, history := reserveHistory pos p.history, underrun := false }
  let before := s.map.segs.length
  crossing pos (afterRetire before (freeReport (leadCheck (retireFront s))))

/-- A fill frame is planned: the first of an underrun raises UNDERRUN, and a pending APPLY takes
effect (R120, R177). -/
def planFill (s : State) : State :=
  let s := if s.play.underrun then s
    else raiseFlag .underrun (s.onPlay fun p => { p with underrun := true })
  applyIfPending s

/-- Does a lookup name a slot marked merging? It is then answered when the mark is cleared (R87). -/
def mergingAt (s : State) (loc : Option (Nat × Nat)) : Bool :=
  match loc with
  | some (n, _) => (slotAt s n).merging
  | none => false

/-- Plan one word (R114); none while the take waits for a merging slot. A serve's word records the
location that the lookup answers, under the ring base of that moment (R16). -/
def planWord (mode : PlayMode) (s : State) : Option (State × BurstWord) :=
  match mode with
  | .stopped => some (s, .zero)
  | .paused => some (s, .pause)
  | .playing =>
    if s.lead = 0 then some (planFill s, .fill)
    else
      let s := jump s
      match segAt s s.play.cursor with
      | none => some (planFill s, .fill)
      | some g =>
        let pos := s.play.cursor
        let loc := locate s g pos
        if mergingAt s loc then none
        else some (servePosition g loc s,
          .serve pos g.id g.start g.kind s.ctl.params.interpMax
            (loc.map fun (n, i) => frameItem s.ctl.params.ringBase n i))

/-- Add a planned word to the burst in flight. -/
def addWord (w : BurstWord) (s : State) : State :=
  s.onPlay fun p =>
    { p with burst := p.burst.map fun b => { b with todo := b.todo - 1, words := b.words ++ [w] } }

/-- Plan up to n words one after another, each on the state the last one left; stop where the take
waits (R114). -/
def planWords (mode : PlayMode) : Nat → State → State
  | 0, s => s
  | n + 1, s =>
    match planWord mode s with
    | some (s1, w) => planWords mode n (addWord w s1)
    | none => s

/-! ### Reading the burst (R115) -/

/-- The frame a planned word reads. -/
def wordItemOf : BurstWord → Option FetchItem
  | .serve _ _ _ _ _ item => item
  | .fill => none
  | .pause => none
  | .zero => none

/-- The frames of the burst in flight, in order. -/
def burstItems (b : Burst) : List FetchItem := b.words.filterMap wordItemOf

/-- A planned word after a piece has been read. -/
def fillWord (s : State) (p : ReadPiece) : BurstWord → BurstWord
  | .serve pos seg start kind m item => .serve pos seg start kind m (item.map (fillItem s p))
  | .fill => .fill
  | .pause => .pause
  | .zero => .zero

/-- The frame a look-ahead position reads. -/
def aheadItemOf (a : AheadItem) : Option FetchItem :=
  match a.place with
  | .frame it => some it
  | .missing => none
  | .outside => none

/-- A look-ahead position after a piece has been read. -/
def fillAhead (s : State) (p : ReadPiece) (a : AheadItem) : AheadItem :=
  match a.place with
  | .frame it => { a with place := .frame (fillItem s p it) }
  | .missing => a
  | .outside => a

/-- Does a burst serve a position of this segment? -/
def servesSegment (words : List BurstWord) (seg : Nat) : Bool :=
  words.any fun w => match w with
    | .serve _ g _ _ _ _ => g == seg
    | _ => false

/-- The frames of the look-ahead positions, which lie in segments that the burst serves (R116). -/
def aheadItems (b : Burst) : List FetchItem :=
  (b.ahead.filter fun a => servesSegment b.words a.seg).filterMap aheadItemOf

/-- The play piece due, once the take has ended: of the serves, and after them of the look-ahead
positions (R115, R138). -/
def playPieceDue (s : State) : Option ReadPiece :=
  match s.play.burst with
  | some b => if b.todo = 0 then nextPiece (burstItems b ++ aheadItems b) else none
  | none => none

/-- The play piece ready to be presented: the one due, unless it reaches a merging slot. It then waits and
reads the merged frames with their new marks (R87; log 46). -/
def playPiece (s : State) : Option ReadPiece :=
  match playPieceDue s with
  | some p => if (slotAt s (pieceSlot p)).merging then none else some p
  | none => none

/-- The piece is read into the burst. -/
def readPlayPiece (s : State) (p : ReadPiece) (b : Burst) : Burst :=
  { b with words := b.words.map (fillWord s p), ahead := b.ahead.map (fillAhead s p) }

/-! ### Erased runs (R116) -/

/-- What is known of a position that the run decision asks for: a good frame, an erased one, a position
outside the segment, one not looked up yet, or one whose frame is still to be read. -/
inductive Ahead where
  | good (w : Word)
  | erased
  | outside
  | unknown
  | unread
deriving DecidableEq, Repr

/-- What a frame that has been read is. -/
def readAs (it : FetchItem) : Ahead :=
  if itemRead it = false then .unread
  else if (itemFrame it).erased then .erased
  else .good (itemFrame it).word

/-- The planned serve of a position of a segment in the rest of the burst. -/
def plannedAt (rest : List BurstWord) (pos seg : Nat) : Option (Option FetchItem) :=
  match rest with
  | [] => none
  | .serve q g _ _ _ item :: more => if q = pos ∧ g = seg then some item else plannedAt more pos seg
  | _ :: more => plannedAt more pos seg

/-- What the burst knows of position `pos` of segment `seg`: from the serves still to compose, or from
the look-ahead positions added so far (R116). -/
def lookAhead (rest : List BurstWord) (ahead : List AheadItem) (pos seg : Nat) : Ahead :=
  match plannedAt rest pos seg with
  | some (some it) => readAs it
  | some none => .erased
  | none =>
    match ahead.find? (fun a => a.pos == pos && a.seg == seg) with
    | none => .unknown
    | some a =>
      match a.place with
      | .outside => .outside
      | .missing => .erased
      | .frame it => readAs it

/-- What the search for the bound of an erased run gives: the run's length n and the good frame at b, no
bound, or that positions from `pos` on, at most `room`, are to be looked up or read first (R116). -/
inductive Bound where
  | found (n : Nat) (w : Word)
  | absent
  | needs (pos room : Nat)
deriving DecidableEq, Repr

/-- Search the positions ahead of an erased run, at most `room` from `pos` on, the n-th after it (R116). -/
def findBound (rest : List BurstWord) (ahead : List AheadItem) (seg : Nat) : Nat → Nat → Nat → Bound
  | 0, _, _ => .absent
  | room + 1, pos, n =>
    match lookAhead rest ahead pos seg with
    | .good w => .found n w
    | .erased => findBound rest ahead seg room (pos + 1) (n + 1)
    | .outside => .absent
    | .unknown => .needs pos (room + 1)
    | .unread => .needs pos 0

/-- How a new erased run is served (R116), or the look-ahead it needs first. -/
inductive RunDecision where
  | decided (run : ConcealRun)
  | needs (pos seg room : Nat)
deriving DecidableEq, Repr

/-- Decide how a new erased run at `pos` is served (R116, R117): interpolated between the last real
serve and the bound, or faded. -/
def decideRun (rest : List BurstWord) (ahead : List AheadItem) (p : PlayServer)
    (pos seg segStart interpMax : Nat) : RunDecision :=
  if p.lastKind = .real (pos - 1) seg ∧ pos ≠ segStart ∧ pos ≠ 0 then
    match findBound rest ahead seg interpMax (pos + 1) 1 with
    | .found n b => .decided (.interp p.lastWord (fadeInFrame b p.fadeIn) n 1 pos seg)
    | .absent => .decided (.fade pos seg)
    | .needs q room => .needs q seg room
  else .decided (.fade pos seg)

/-! ### Composing (R115, R117 to R121) -/

/-- The next fade-out word: a fade begins from the last word returned, or goes on; a fade-in is made
pending (R118, R119). -/
def fadeStep (p : PlayServer) : PlayServer × Word :=
  let f := p.fadeOut.getD { source := p.lastWord, step := 1 }
  let w := fadeOutFrame f.source f.step
  ({ p with fadeOut := some { f with step := min (f.step + 1) 64 }, fadeIn := 1, lastWord := w }, w)

/-- A good position: the real frame, scaled if a fade-in runs (R119). The history takes it unscaled
(R123). -/
def serveReal (p : PlayServer) (pos seg : Nat) (x : Word) : PlayServer × Word × TailFrame :=
  let w := fadeInFrame x p.fadeIn
  let k := if p.fadeIn = 0 ∨ 64 ≤ p.fadeIn then 0 else p.fadeIn + 1
  ({ p with fadeIn := k, fadeOut := none, run := .none, lastWord := w, lastKind := .real pos seg },
   w, { word := x, erased := false })

/-- The next frame of a concealment run (R117, R118); no run gives a faded one. -/
def serveConcealed (p : PlayServer) (pos seg : Nat) : PlayServer × Word × TailFrame :=
  match p.run with
  | .interp a b n i _ _ =>
    let w := interpFrame a b n i
    let run := if i < n then ConcealRun.interp a b n (i + 1) (pos + 1) seg else .none
    ({ p with run := run, fadeOut := none, lastWord := w, lastKind := .concealed },
     w, { word := w, erased := true })
  | _ =>
    let (p, w) := fadeStep p
    ({ p with run := .fade (pos + 1) seg, lastKind := .concealed }, w, { word := w, erased := true })

/-- Does the run in progress go on at this position? (R116, R117) -/
def runContinues (run : ConcealRun) (pos seg : Nat) : Bool :=
  match run with
  | .interp _ _ _ _ next g => next == pos && g == seg
  | .fade next g => next == pos && g == seg
  | .none => false

/-- Is the run in progress an interpolated one that goes on at this position? Its decision holds for
the whole run, even over a frame that a gap merge has made good (R116, R117; log 38). -/
def interpContinues (run : ConcealRun) (pos seg : Nat) : Bool :=
  match run with
  | .interp _ _ _ _ _ _ => runContinues run pos seg
  | .fade _ _ => false
  | .none => false

/-- A fade-in starts at the stream start of a BRIDGED or NOMINAL segment (R119). -/
def headFade (p : PlayServer) (pos segStart : Nat) (kind : HeadKind) : PlayServer :=
  if pos = segStart ∧ (kind = .bridged ∨ kind = .nominal) then { p with fadeIn := 1 } else p

/-- What composing gives, or the look-ahead it needs first: positions of a segment from `pos` on, at most
`room` (none: a frame already looked up is still to be read). -/
inductive Composing (α : Type) where
  | done (a : α)
  | needs (pos seg room : Nat)
deriving DecidableEq, Repr

/-- Compose a serve (R115 to R119). -/
def composeServe (rest : List BurstWord) (ahead : List AheadItem) (p : PlayServer)
    (pos seg segStart : Nat) (kind : HeadKind) (interpMax : Nat) (item : Option FetchItem) :
    Composing (PlayServer × Word × TailFrame) :=
  let p := headFade p pos segStart kind
  let frame := match item with
    | some it => itemFrame it
    | none => noSource
  if frame.erased = false ∧ interpContinues p.run pos seg = false then
    .done (serveReal p pos seg frame.word)
  else if runContinues p.run pos seg then .done (serveConcealed p pos seg)
  else match decideRun rest ahead p pos seg segStart interpMax with
    | .decided run => .done (serveConcealed { p with run := run } pos seg)
    | .needs q g room => .needs q g room

/-- What composing a burst gives: the Play Server, the words, the values of its serves, and how many
were fill frames. -/
structure Composed where
  play : PlayServer
  words : List Word
  values : List (Nat × TailFrame)
  fills : Nat
deriving DecidableEq, Repr

/-- Put a word, and a serve's value, before what the rest of the burst gives. -/
def Composing.add (out : Word) (value : Option (Nat × TailFrame)) (fill : Bool) :
    Composing Composed → Composing Composed
  | .needs q g room => .needs q g room
  | .done c => .done
    { c with
      words := out :: c.words
      values := match value with
        | some v => v :: c.values
        | none => c.values
      fills := if fill then c.fills + 1 else c.fills }

/-- Compose the words in order (R115) from the frames read and the look-ahead positions known. -/
def composeWords (ahead : List AheadItem) : List BurstWord → PlayServer → Composing Composed
  | [], p => .done { play := p, words := [], values := [], fills := 0 }
  | .serve pos seg segStart kind interpMax item :: rest, p =>
    match composeServe rest ahead p pos seg segStart kind interpMax item with
    | .needs q g room => .needs q g room
    | .done (p1, out, value) => (composeWords ahead rest p1).add out (some (pos, value)) false
  | .fill :: rest, p =>
    let (p1, out) := fadeStep { p with run := .none }
    (composeWords ahead rest { p1 with lastKind := .fill }).add out none true
  | .pause :: rest, p =>
    let (p1, out) := fadeStep { p with run := .none }
    (composeWords ahead rest { p1 with lastKind := .pause }).add out none false
  | .zero :: rest, p =>
    (composeWords ahead rest
      { p with
        run := .none, fadeOut := some { source := 0, step := 64 }, fadeIn := 1, lastWord := 0
        lastKind := .zero }).add 0 none false

/-! ### Look-ahead pieces (R115, R116, R138) -/

/-- The look-ahead lookup of a position of a segment. A segment truncated or retired since, or emptied by
a flush, no longer holds it (R116); a lookup that names a merging slot waits (R87). -/
def aheadPlace (s : State) (pos seg : Nat) : Option AheadPlace :=
  match s.map.segs.find? (fun g => g.id == seg && g.start ≤ pos && pos < g.stop) with
  | none => some .outside
  | some g =>
    let loc := locate s g pos
    if mergingAt s loc then none
    else match loc with
      | none => some .missing
      | some (n, i) => some (.frame (frameItem s.ctl.params.ringBase n i))

/-- Look up positions of a segment from `pos` on, at most `room`, up to the first outside it (R116; log
18). None while a lookup waits. -/
def lookUpAhead (s : State) (seg : Nat) : Nat → Nat → Option (List AheadItem)
  | 0, _ => some []
  | room + 1, pos =>
    match aheadPlace s pos seg with
    | none => none
    | some .outside => some [{ pos := pos, seg := seg, place := .outside }]
    | some place => (lookUpAhead s seg room (pos + 1)).map ({ pos := pos, seg := seg, place := place } :: ·)

/-- The burst whose completion may go on: taken whole, the main piece done, and every play piece there is
done (R115, R138). -/
def burstReady (s : State) : Option (Burst × ActiveRequest) :=
  match s.play.burst, s.router.reqP with
  | some b, some r =>
    if b.todo = 0 ∧ nextPiece (burstItems b) = none ∧ nextPiece (aheadItems b) = none ∧ r.main = [] then
      some (b, r)
    else none
  | _, _ => none

/-- Add the look-ahead positions that composing needs, as long as each answer is known at once (R116,
R138): at most once for each word. -/
def addAhead : Nat → State → State
  | 0, s => s
  | fuel + 1, s =>
    match s.play.burst with
    | none => s
    | some b =>
      match composeWords b.ahead b.words s.play with
      | .done _ => s
      | .needs pos seg room =>
        match lookUpAhead s seg room pos with
        | none => s
        | some found =>
          addAhead fuel (s.onPlay fun k => { k with burst := some { b with ahead := b.ahead ++ found } })

/-- The completion begins, or goes on: once every piece there is has been read, the further look-ahead
positions are looked up, and their pieces are to be read before the burst returns (R115, R116, R138). -/
def settleAhead (s : State) : State :=
  match burstReady s with
  | some (b, _) => addAhead (b.words.length + 1) s
  | none => s

/-- Can the burst be composed from what has been read and looked up? -/
def composable (s : State) (b : Burst) : Bool :=
  match composeWords b.ahead b.words s.play with
  | .done _ => true
  | .needs _ _ _ => false

/-- A grant to a play piece (R115). With the last piece read the completion begins. -/
def playGrant (s : State) : State :=
  match playPiece s with
  | some p => settleAhead (s.onPlay fun k => { k with burst := k.burst.map (readPlayPiece s p) })
  | none => s

/-! ### The completion (R122 to R124) -/

/-- A reserved history entry receives its value (R123). -/
def receiveValue (values : List (Nat × TailFrame)) (e : HistoryEntry) : HistoryEntry :=
  match e.value, values.find? (fun v => v.1 == e.pos) with
  | none, some v => { e with value := some v.2 }
  | _, _ => e

/-- Add n to a counter, wrapping (R183). -/
def addCounts (served concealed fills : Nat) (s : State) : State :=
  s.onCtl fun c => { c with counters :=
    { c.counters with
      framesServed := c.counters.framesServed + BitVec.ofNat 32 served
      concealed := c.counters.concealed + BitVec.ofNat 32 concealed
      fill := c.counters.fill + BitVec.ofNat 32 fills } }

/-- The composed burst takes effect: the Play Server's state, the history, the counters, and the
values that a tail capture or a snapshot waits for (R52, R122, R123, R124, R154). -/
def burstComposed (c : Composed) (s : State) : State :=
  let s := s.onPlay fun p =>
    { c.play with
      history := p.history.map (receiveValue c.values)
      run := if c.play.endRun then .none else c.play.run
      endRun := false, burst := none }
  let concealed := c.values.countP fun v => v.2.erased
  snapshotReceives c.values (settleCapture (addCounts c.values.length concealed c.fills s))

/-- The Play Server's part of a flush; the play state is set by the command. A run that a burst in
flight would leave ends with it (R117, R127). -/
def flushPlay (s : State) : State :=
  s.onPlay fun p => { p with run := .none, endRun := p.burst.isSome, underrun := false }

end Sys2Proof.Machine
end

