-- ==== Sys2Proof/Machine/Status.lean ====
section
/-! DEFINITION. The status area: the word composed at each offset (10 section 10.6, R186). -/
namespace Sys2Proof.Machine

/-- A field of `width` bits whose lowest bit is `low`: the low `width` bits of the number. -/
def fieldAt (low width v : Nat) : Nat := v % 2 ^ width * 2 ^ low

/-- One bit. -/
def bitAt (low : Nat) (b : Bool) : Nat := if b then 2 ^ low else 0

/-- Codes of the recovery states (R186). -/
def RecoveryPhase.code : RecoveryPhase → Nat
  | .parked => 0
  | .starting => 1
  | .streaming => 2
  | .holding => 3
  | .lost => 4
  | .seeking => 5
  | .matching => 6
  | .bridging => 7
  | .gapFetch => 8

/-- Codes of the play states (R186). -/
def PlayMode.code : PlayMode → Nat
  | .stopped => 0
  | .playing => 1
  | .paused => 2

/-- Codes of the quality states (R186). -/
def QualityLevel.code : QualityLevel → Nat
  | .normal => 0
  | .warned => 1
  | .degraded => 2
  | .abandon => 3

/-- Codes of the apply indication (R186). -/
def ApplyInd.code : ApplyInd → Nat
  | .none => 0
  | .pending => 1
  | .done => 2
  | .refusedConfig => 3

/-- Codes of the results (R186). -/
def CmdResult.code : CmdResult → Nat
  | .done => 0
  | .refusedState => 1
  | .refusedConfig => 2
  | .badCommand => 3
  | .notFound => 4

/-- Codes of the capture record's cause (R186); returns and resumes never fill it (R66). -/
def causeCode : Option Cause → Nat
  | some .shock => 1
  | some .trackLost => 2
  | some .discontinuity => 3
  | _ => 0

/-- The code of the last completed command in its 8-bit field; a wider code shows a free value
(log 21). -/
def codeField (code : Word) : Nat :=
  if code.toNat < 256 then code.toNat else (Config.wideCodeField code).toNat

/-- Word 0x004: the command unit. -/
def unitWord (c : Control) : Nat :=
  bitAt 0 c.busy + bitAt 1 (c.latch != 0) + fieldAt 4 2 c.applyInd.code +
  fieldAt 8 8 (codeField c.lastCode) + fieldAt 16 3 c.lastResult.code

/-- Word 0x008: recovery, play and quality states, supply and TRAY. -/
def modesWord (s : State) : Nat :=
  fieldAt 0 4 s.rc.phase.code + fieldAt 4 2 s.play.mode.code + fieldAt 8 2 s.quality.level.code +
  fieldAt 16 8 s.quality.counter + bitAt 24 s.supply.low + bitAt 25 (s.lines.taken == .closed)

/-- Is the fetch working on this entry? (R96) -/
def isFetching (s : State) (e : GapEntry) : Bool :=
  match s.gaps.fetch with
  | some r => r.label == e.label && r.slot == e.slot
  | none => false

/-- Gap Table view n: its first word (half 0) or second word. A view beyond the entry count reads 0. -/
def gapView (s : State) (n half : Nat) : Nat :=
  match s.gaps.entries[n]? with
  | none => 0
  | some e =>
    if half = 0 then fieldAt 0 19 e.label + bitAt 30 (isFetching s e) + bitAt 31 true
    else fieldAt 0 10 e.slot + fieldAt 16 3 e.retries

/-- Resume entry view n: word 0, 1 or 2 of it. An invalid entry reads 0. -/
def resumeView (s : State) (n part : Nat) : Nat :=
  let e := resumeAt s n
  if e.valid then
    if part = 0 then fieldAt 0 8 e.age + fieldAt 8 6 e.tailCount + bitAt 31 true
    else if part = 1 then e.fingerprint.toNat
    else fieldAt 0 28 e.frame
  else 0

/-- The counters in the order of R186. -/
def Counters.toList (k : Counters) : List Word :=
  [k.framesServed, k.concealed, k.fill, k.breaks, k.rejoins, k.bridges, k.gapsFilled, k.gapsLate,
   k.gapRefused, k.droppedBlocks, k.intakeDiscards, k.accessDrops]

/-- The number a status word holds; `n` is the word's offset ÷ 4. Offsets not listed read 0 (R186). -/
def statusNumber (s : State) (n : Nat) : Nat :=
  if n < 16 then
    match n with
    | 0 => s.ctl.flags.toNat
    | 1 => unitWord s.ctl
    | 2 => modesWord s
    | 3 => fieldAt 0 19 s.rc.target
    | 4 => fieldAt 0 28 s.play.cursor
    | 5 => fieldAt 0 29 s.lead
    | 6 => fieldAt 0 5 s.map.segs.length + fieldAt 16 11 (freeCount s)
    | 7 => (s.rc.loaded.getD 0).toNat
    | 8 => fieldAt 0 2 (causeCode s.rc.record.cause) + bitAt 8 s.rc.record.pending +
        bitAt 9 s.rc.record.renewed
    | 9 => fieldAt 0 28 s.rc.record.p
    | 10 => fieldAt 0 29 s.rc.record.lead
    | 11 => fieldAt 0 3 s.rc.record.retries
    | _ => 0
  else if n < 32 then gapView s ((n - 16) / 2) ((n - 16) % 2)
  else if n < 50 then resumeView s ((n - 32) / 3) ((n - 32) % 3)
  else if n < 64 then 0
  else if n < 85 then s.ctl.params.toList.getD (n - 64) 0
  else if n < 96 then 0
  else if n < 108 then (s.ctl.counters.toList.getD (n - 96) 0).toNat
  else 0

/-- The status word at a byte offset of the status area (R136, R182, R186). -/
def statusWord (s : State) (offset : Nat) : Word := BitVec.ofNat 32 (statusNumber s (offset / 4))

/-! ### The capture record's hold (R67) -/

/-- Offset of the capture record's first word. -/
abbrev captureFirstOffset : Nat := 0x020

/-- Offset of the capture record's last word. -/
abbrev captureLastOffset : Nat := 0x02C

/-- A port P read of the first word holds the record (R67). -/
def holdRecord (s : State) : State := s.onRc fun r => { r with record := { r.record with held := true } }

/-- A port P read of the last word: released with renewed clear, otherwise renewed cleared and still
held; with the record not held, no change (R67). -/
def releaseRecord (s : State) : State :=
  s.onRc fun r =>
    if r.record.held then
      if r.record.renewed then { r with record := { r.record with renewed := false } }
      else { r with record := { r.record with held := false } }
    else r

/-- The hold and release effects of a port P read beat at a status offset (R67, R136). -/
def captureEffect (offset : Nat) (s : State) : State :=
  if offset / 4 * 4 = captureFirstOffset then holdRecord s
  else if offset / 4 * 4 = captureLastOffset then releaseRecord s
  else s

end Sys2Proof.Machine
end

