-- ==== Sys2Proof/WellFormed.lean ====
section
/-! DEFINITION. Which terms of `Instr` are commands the outside can send. -/
namespace Sys2Proof

/-- A request is 1 to 8 words long (R129). -/
def Transfer.wellFormed : Transfer → Bool
  | .read n => 1 ≤ n && n ≤ 8
  | .write beats => 1 ≤ beats.length && beats.length ≤ 8

/-- The word offsets of parameter, command and argument words (R186). -/
def isParameterOffset (offset : BitVec 10) : Bool :=
  let o := offset.toNat
  o % 4 == 0 && (o ≤ 0x50 || (0x80 ≤ o && o ≤ 0x8C))

/-- The operands a command can carry: the range of each field by the rule of its row. -/
def Instr.wellFormed : Instr → Bool
  | .badCommand code => 8 ≤ code.toNat
  | .parameterWordWrite offset _ _ => isParameterOffset offset
  | .portRequestArrive r => r.transfer.wellFormed
  | .intakeFrame index _ _ _ => index < Config.frames
  | .intakeUnusedBeat offset => 2356 ≤ offset && offset ≤ 4092 && offset % 4 == 0
  | .start _ => true
  | .load _ _ => true
  | .eject => true
  | .pause => true
  | .play => true
  | .apply => true
  | .forget _ => true
  | .enableWordWrite _ _ => true
  | .acknowledgeWordWrite _ _ => true
  | .captureFirstWordRead => true
  | .captureLastWordRead => true
  | .memoryGrant => true
  | .protectedBeat _ _ _ => true
  | .intakeHeader _ _ => true
  | .blockReport => true
  | .shockEvent => true
  | .shkFall => true
  | .trackLostEvent => true
  | .trackRegainedEvent => true
  | .tailCaptureEnd => true
  | .blockPeriodBoundary => true
  | .deadlineExpiry => true
  | .evaluationEnd => true
  | .spliceRetry => true
  | .bridgeRetry => true
  | .alignmentEnd => true
  | .mergeFramesWritten => true
  | .mergeFlagMapWritten => true
  | .burstTake => true
  | .burstComplete => true
  | .tick _ => true
  | .trayOpen => true
  | .trayClose => true
  | .snapshotWriteEnd => true
  | .supplyFallTaken vmain => 3900 ≤ vmain
  | .supplyRiseTaken vmain => 3900 ≤ vmain
  | .firstSupplyCompare vmain => 3900 ≤ vmain
  | .powerOnThresholdFall vmain _ => vmain < 3900
  | .powerOnDelayEnd vmain _ => 3900 ≤ vmain
  | .vbakLow vbak => vbak < 2000
  | .rstnAssert => true
  | .rstnRelease _ => true

end Sys2Proof
end

