-- ==== Sys2Proof/Machine/ParameterArea.lean ====
section
/-! DEFINITION. The parameter area: what the Control Unit copies from port P writes, and the meanings of
PARAMETER_WORD_WRITE, ENABLE_WORD_WRITE and ACKNOWLEDGE_WORD_WRITE (10 section 10.1, R135, R180, R181). -/
namespace Sys2Proof.Machine

/-- Offset of the last parameter word (R186). -/
abbrev lastParameterOffset : Nat := 0x050

/-- Offset of the command word (R186). -/
abbrev commandOffset : Nat := 0x080

/-- Offset of the enable word (R186). -/
abbrev enableOffset : Nat := 0x090

/-- Offset of the acknowledge word (R186). -/
abbrev acknowledgeOffset : Nat := 0x094

/-- Address of a word of the parameter area, from the sampled straps (R130). -/
def parameterAddr (s : State) (offset : Nat) : Nat := blockBase s.router.pblk + offset

/-- The command latch takes a value. A non-zero code before the zero-write is granted makes the
Control Unit withdraw the zero-write (R174). -/
def setLatch (code : Word) (s : State) : State :=
  s.onCtl fun c => { c with latch := code, zeroWrite := c.zeroWrite && code == 0 }

/-- The copy of a parameter word, a command or an argument word: the merged value (R172). -/
def copyParameter (offset : Nat) (data : Word) (enables : BitVec 4) (s : State) : State :=
  if offset ≤ lastParameterOffset then
    s.onCtl fun c =>
      { c with staged := c.staged.modify (offset / 4) fun old => mergeBytes old data enables }
  else if offset = commandOffset then setLatch (mergeBytes s.ctl.latch data enables) s
  else if offset = 0x084 then s.onCtl fun c => { c with arg0 := mergeBytes c.arg0 data enables }
  else if offset = 0x088 then s.onCtl fun c => { c with arg1 := mergeBytes c.arg1 data enables }
  else if offset = 0x08C then s.onCtl fun c => { c with arg2 := mergeBytes c.arg2 data enables }
  else s

/-- The copy of the enable word: the mask at once (R172, R181). -/
def copyEnable (data : Word) (enables : BitVec 4) (s : State) : State :=
  s.onCtl fun c => { c with enable := mergeBytes c.enable data enables }

/-- The copy of the acknowledge word: flags whose bit is 1 are cleared; a byte not written counts as
zeros (R172, R180). -/
def copyAcknowledge (data : Word) (enables : BitVec 4) (s : State) : State :=
  clearFlags ((mergeBytes 0 data enables).setWidth 16) s

/-- What the Control Unit does with a beat handed over (R172). -/
def copyBeat (offset : Nat) (data : Word) (enables : BitVec 4) (s : State) : State :=
  if offset = enableOffset then copyEnable data enables s
  else if offset = acknowledgeOffset then copyAcknowledge data enables s
  else copyParameter offset data enables s

/-- A port P write beat of the parameter area: memory first, then the copy; with no byte enable set
neither happens (R134, R135). -/
def parameterBeat (offset : Nat) (data : Word) (enables : BitVec 4) (s : State) : State :=
  if enables = 0 then s
  else
    copyBeat offset data enables
      (s.onMem fun m => Memory.writeWord m (parameterAddr s offset) data enables)

/-- PARAMETER_WORD_WRITE. -/
def execParameterWordWrite (offset : BitVec 10) (data : Word) (enables : BitVec 4) (s : State) :
    Host.Outcome State Fault Refusal :=
  .next (live (fun s =>
    if isParameterOffset offset then settleArbiter (parameterBeat offset.toNat data enables s) else s) s)

/-- ENABLE_WORD_WRITE. -/
def execEnableWordWrite (data : Word) (enables : BitVec 4) (s : State) :
    Host.Outcome State Fault Refusal :=
  .next (live (parameterBeat enableOffset data enables) s)

/-- ACKNOWLEDGE_WORD_WRITE. -/
def execAcknowledgeWordWrite (data : Word) (enables : BitVec 4) (s : State) :
    Host.Outcome State Fault Refusal :=
  .next (live (parameterBeat acknowledgeOffset data enables) s)

end Sys2Proof.Machine
end

