-- ==== Sys2Proof/Machine/CaptureReads.lean ====
section
/-! DEFINITION. The meanings of CAPTURE_FIRST_WORD_READ and CAPTURE_LAST_WORD_READ (R67, R136). -/
namespace Sys2Proof.Machine

/-- A port P read of one status word by itself: the word is composed, then the read's effect on the
record is made; the word is left as port P's last words (R136, log 2, log 25). -/
def readCaptureWord (offset : Nat) (s : State) : State :=
  let w := statusWord s offset
  (captureEffect offset s).onRouter fun k => { k with returnP := [w] }

/-- CAPTURE_FIRST_WORD_READ. -/
def execCaptureFirstWordRead (s : State) : Host.Outcome State Fault Refusal :=
  .next (live (readCaptureWord captureFirstOffset) s)

/-- CAPTURE_LAST_WORD_READ. -/
def execCaptureLastWordRead (s : State) : Host.Outcome State Fault Refusal :=
  .next (live (readCaptureWord captureLastOffset) s)

end Sys2Proof.Machine
end

