-- ==== Sys2Proof/Machine/Router.lean ====
section
/-! DEFINITION. The Port Router: regions, arrival and classification of requests, the beats of a main
piece, and the meanings of PORT_REQUEST_ARRIVE, PROTECTED_BEAT, INTAKE_HEADER, INTAKE_FRAME and
INTAKE_UNUSED_BEAT (07 sections 7.1 to 7.3). -/
namespace Sys2Proof.Machine

/-! ### Regions (R130) -/

/-- Is an address in a range given by base and size? -/
def inRange (base size a : Nat) : Bool := base ≤ a && a < base + size

/-- A base with its low twelve bits as zero (R130). -/
def alignedBase (b : Nat) : Nat := b / 4096 * 4096

/-- The region of an address under the in-effect geometry and the sampled straps (R130). -/
def regionOf (s : State) (a : Nat) : Region :=
  let p := s.ctl.params
  let block := blockBase s.router.pblk
  if inRange (alignedBase p.ringBase) (p.ringSlots * Config.stride) a then .ring
  else if inRange (alignedBase p.playBase) 4096 a then .play
  else if inRange (alignedBase p.intakeBase) 4096 a then .intake
  else if inRange block 1024 a then .parameter
  else if inRange (block + 1024) 1024 a then .status
  else .elsewhere

/-! ### Arrival (R129, R130, R132) -/

/-- The beats of a request as data; a read carries none. -/
def transferBeats : Transfer → List BusBeat
  | .read n => List.replicate n { data := 0, enables := allEnables, ers := false }
  | .write l => l

/-- Is it a write? -/
def transferIsWrite : Transfer → Bool
  | .read _ => false
  | .write _ => true

/-- Address of beat i: consecutive words upward from the start with its low two bits zero, modulo
16 MiB (R129). -/
def beatAddr (start : BitVec 24) (i : Nat) : Nat :=
  (start.toNat / 4 * 4 + 4 * i) % Config.addressSpace

/-- The beats of a request, classified (R130). -/
def classify (s : State) (r : PortRequest) : List Beat :=
  ((List.range (transferBeats r.transfer).length).zip (transferBeats r.transfer)).map fun (i, d) =>
    { place := i, addr := beatAddr r.addr i, region := regionOf s (beatAddr r.addr i), data := d }

/-- Does a beat belong to the play burst: a port P read of the play window? (R132, R138) -/
def isPlayBeat (r : PortRequest) (b : Beat) : Bool :=
  r.port == .p && !transferIsWrite r.transfer && b.region == .play

/-- Is a beat handed to the Intake Unit: a port D write in the intake window? (R133) -/
def isIntakeBeat (r : PortRequest) (b : Beat) : Bool :=
  r.port == .d && transferIsWrite r.transfer && b.region == .intake

/-- The request as classified: main piece, play places, and whether a hand-off holds it (R132, R133,
R138). -/
def arrivedRequest (s : State) (r : PortRequest) : ActiveRequest :=
  let beats := classify s r
  let intake := beats.any (isIntakeBeat r)
  { isWrite := transferIsWrite r.transfer
    main := beats.filter fun b => !isPlayBeat r b
    buffer := if transferIsWrite r.transfer then [] else List.replicate beats.length 0
    plays := (beats.filter (isPlayBeat r)).map Beat.place
    touchesIntake := intake
    held := intake && s.intake.phase == .handingOver }

/-- The request in progress at a port. -/
def requestAt (s : State) : Port → Option ActiveRequest
  | .p => s.router.reqP
  | .d => s.router.reqD

/-- Put or clear the request at a port. -/
def setRequest (port : Port) (r : Option ActiveRequest) (s : State) : State :=
  match port with
  | .p => s.onRouter fun k => { k with reqP := r }
  | .d => s.onRouter fun k => { k with reqD := r }

/-- The masters' waiting requests arrive, each at a free port (R129, R143; log 25). -/
def admitEach : List PortRequest → State → State
  | [], s => s
  | r :: rest, s =>
    if (requestAt s r.port).isNone then admitEach rest (setRequest r.port (some (arrivedRequest s r)) s)
    else admitEach rest (s.onRouter fun k => { k with waiting := k.waiting ++ [r] })

/-- Let the waiting requests arrive where a port is free. -/
def admitWaiting (s : State) : State :=
  admitEach s.router.waiting (s.onRouter fun k => { k with waiting := [] })

/-- A master presents a request: it waits while its port is busy or the part is in reset (R129,
R143). A length outside 1 to 8 is no request. -/
def requestArrives (r : PortRequest) (s : State) : State :=
  if r.transfer.wellFormed then
    let s := s.onRouter fun k => { k with waiting := k.waiting ++ [r] }
    if inReset s then s else admitWaiting s
  else s

/-! ### Beats of a main piece (R131, R133 to R137) -/

/-- The intake beat at an offset of the window: header, frame or unused (R24). -/
def intakeBeatAt (offset : Nat) (d : BusBeat) : IntakeBeat :=
  if offset = 0 then .header d.data d.enables
  else if offset ≤ 2352 then .frame ((offset - 4) / 4) d.data d.enables d.ers
  else .unused

/-- A beat that passes to memory: a read answers the word, a write writes the enabled bytes (R134). -/
def passToMemory (isWrite : Bool) (b : Beat) (s : State) : State × Word :=
  if isWrite then (s.onMem fun m => Memory.writeWord m b.addr b.data.data b.data.enables, 0)
  else (s, Memory.readWord s.mem b.addr)

/-- Is a beat protected: marked as dropped with ACCESS in R131, or a port D read of the play window?
(R137) -/
def isProtected (port : Port) (isWrite : Bool) (region : Region) : Bool :=
  match region with
  | .play => isWrite || port == .d
  | .status => isWrite
  | .ring => isWrite
  | .parameter => isWrite && port == .d
  | .intake => false
  | .elsewhere => false

/-- One beat of a main piece: the state it leaves and, for a read, its word. `s0` is the state at the
start of the grant, from which status words are composed (R131, R136). -/
def takeBeat (port : Port) (isWrite : Bool) (s0 : State) (b : Beat) (s : State) : State × Word :=
  if isProtected port isWrite b.region then (accessDrop s, 0)
  else
    match b.region with
    | .status =>
      let w := statusWord s0 (b.addr % 1024)
      (if port = .p then captureEffect (b.addr % 1024) s else s, w)
    | .parameter =>
      if isWrite then (parameterBeat (b.addr % 1024) b.data.data b.data.enables s, 0)
      else passToMemory false b s
    | .intake =>
      if isWrite ∧ port = .d then (intakeBeat (intakeBeatAt (b.addr % 4096) b.data) s, 0)
      else passToMemory isWrite b s
    | .play => (s, 0)
    | .ring => passToMemory isWrite b s
    | .elsewhere => passToMemory isWrite b s

/-- A read beat's word goes to its place in the assembly buffer (R132). -/
def putWord (port : Port) (place : Nat) (w : Word) (s : State) : State :=
  setRequest port ((requestAt s port).map fun r => { r with buffer := r.buffer.set place w }) s

/-- The beats of a piece in ascending order, each on the state the last one left. The grant ends
after a beat that puts the Intake Unit into HANDING_OVER; the beats left are answered (R132, R133). -/
def takeBeats (port : Port) (isWrite : Bool) (s0 : State) : List Beat → State → State × List Beat
  | [], s => (s, [])
  | b :: rest, s =>
    let taken := takeBeat port isWrite s0 b s
    let s1 := if isWrite then taken.1 else putWord port b.place taken.2 taken.1
    if s.intake.phase ≠ .handingOver ∧ s1.intake.phase = .handingOver then (s1, rest)
    else takeBeats port isWrite s0 rest s1

/-- Port P's request completes once its main piece is done and it has no play beat left (R129). -/
def finishP (s : State) : State :=
  match s.router.reqP with
  | some r =>
    if r.main = [] ∧ r.plays = [] then
      s.onRouter fun k => { k with reqP := none, returnP := if r.isWrite then k.returnP else r.buffer }
    else s
  | none => s

/-- Does the Intake Unit hold a header that this grant's request wrote? It then opens the request's new
main piece (R133). -/
def opensPiece (r : ActiveRequest) (s : State) : Bool := r.touchesIntake && s.intake.held != []

/-- A grant to a main piece. What a hand-off leaves of it, together with a held header, is the new main
piece (R133). With port P's main piece done the completion of a play burst may begin (R138). -/
def takeMain (port : Port) (r : ActiveRequest) (s : State) : State :=
  let s := setRequest port (some { r with main := [], held := false, opening := false }) s
  let (s, rest) := takeBeats port r.isWrite s r.main s
  let s := setRequest port
    ((requestAt s port).map fun q =>
      { q with main := rest, held := rest != [], opening := opensPiece r s }) s
  match port with
  | .p => settleAhead (finishP s)
  | .d => finishD s

/-! ### The rows of single beats -/

/-- PORT_REQUEST_ARRIVE. Requests made in reset wait (R143). -/
def execPortRequestArrive (r : PortRequest) (s : State) : Host.Outcome State Fault Refusal :=
  .next (requestArrives r s)

/-- One protected beat by itself; a beat that R131 does not protect is no protected beat (R137). -/
def protectedBeat (port : Port) (isWrite : Bool) (addr : BitVec 24) (s : State) : State :=
  if isProtected port isWrite (regionOf s (addr.toNat / 4 * 4)) then
    let s := accessDrop s
    if isWrite then s else s.onRouter fun k => { k with returnD := [0] }
  else s

/-- PROTECTED_BEAT. -/
def execProtectedBeat (port : Port) (isWrite : Bool) (addr : BitVec 24) (s : State) :
    Host.Outcome State Fault Refusal :=
  .next (live (protectedBeat port isWrite addr) s)

/-- INTAKE_HEADER. -/
def execIntakeHeader (word : Word) (enables : BitVec 4) (s : State) :
    Host.Outcome State Fault Refusal :=
  .next (live (intakeBeat (.header word enables)) s)

/-- INTAKE_FRAME. -/
def execIntakeFrame (index : Nat) (word : Word) (enables : BitVec 4) (ers : Bool) (s : State) :
    Host.Outcome State Fault Refusal :=
  .next (live (fun s => if index < Config.frames then intakeBeat (.frame index word enables ers) s else s) s)

/-- Is an offset of the intake window unused? (R24) -/
def isUnusedOffset (offset : Nat) : Bool := 2356 ≤ offset && offset ≤ 4092 && offset % 4 == 0

/-- INTAKE_UNUSED_BEAT. -/
def execIntakeUnusedBeat (offset : Nat) (s : State) : Host.Outcome State Fault Refusal :=
  .next (live (fun s => if isUnusedOffset offset then intakeBeat .unused s else s) s)

end Sys2Proof.Machine
end

