-- ==== Sys2Proof/Machine/Arbiter.lean ====
section
/-! DEFINITION. The Memory Arbiter, the engine requester, and the meanings of MEMORY_GRANT, BURST_TAKE and
BURST_COMPLETE (07 sections 7.4 and 7.5). -/
namespace Sys2Proof.Machine

/-! ### Who is granted (R139, R140) -/

/-- The requesters of the memory port. -/
inductive Requester where
  | portP
  | portD
  | engine
deriving DecidableEq, Repr

/-- Port P presents its main piece, or after it a play piece (R132, R138). -/
def portPPresents (s : State) : Bool :=
  (match s.router.reqP with
    | some r => r.main != []
    | none => false) || (playPiece s).isSome

/-- From the start of a play burst's take until its last play piece, look-ahead pieces among them, is
complete port P is requesting, with a piece ready or not (R115, R139). -/
def portPRequesting (s : State) : Bool :=
  match s.play.burst with
  | some b => b.todo != 0 || (playPieceDue s).isSome || !composable s b
  | none => false

/-- Port D presents its main piece, which a held header may have opened; a request with an intake write
beat not during a hand-off (R133). A request never yet presented keeps all its beats, a header among
them, for its own grant (log 8). -/
def portDPresents (s : State) : Bool :=
  match s.router.reqD with
  | some r => (r.main != [] || r.opening) && !(r.touchesIntake && s.intake.phase == .handingOver)
  | none => false

/-- The engine presents whenever a client waits (R141). -/
def enginePresents (s : State) : Bool := engineClients s != []

/-- The arbiter's choice among the pieces presented (R140). -/
def chooseGrant (s : State) : Option Requester :=
  if enginePresents s && s.arb.waitCount == 4 then some .engine
  else if portPPresents s then some .portP
  else if portPRequesting s then (if enginePresents s then some .engine else none)
  else if portDPresents s then some .portD
  else if enginePresents s then some .engine
  else none

/-! ### The engine requester (R141) -/

/-- The cyclic order beginning with the client after the one granted last (R141). -/
def clientOrder : EngineClient → List EngineClient
  | .control => [.intake, .recovery, .matcher, .control]
  | .intake => [.recovery, .matcher, .control, .intake]
  | .recovery => [.matcher, .control, .intake, .recovery]
  | .matcher => [.control, .intake, .recovery, .matcher]

/-- The next waiting client (R141). -/
def nextClient (s : State) : Option EngineClient :=
  (clientOrder s.arb.last).find? fun c => (engineClients s).contains c

/-- The Intake Unit's flag-map request at the front is performed (R33). -/
def intakeGrant (s : State) : State :=
  match s.intake.flagJobs with
  | [] => s
  | j :: rest => (performJob j s).onIntake fun i => { i with flagJobs := rest }

/-- The zero-write to the command word (R174). -/
def zeroWriteGrant (s : State) : State :=
  (s.onMem fun m => Memory.writeWord m (parameterAddr s commandOffset) 0 allEnables).onCtl fun c =>
    { c with zeroWrite := false }

/-- An engine grant: the chosen client's request is performed (R141). -/
def engineGrant (s : State) : State :=
  match nextClient s with
  | none => s
  | some c =>
    let s := s.onArb fun _ => { waitCount := 0, last := c }
    match c with
    | .intake => intakeGrant s
    | .recovery => captureGrant s
    | .matcher => matchGrant s
    | .control => zeroWriteGrant s

/-! ### MEMORY_GRANT -/

/-- The wait count rises at a port grant while the engine presents; otherwise it is 0 (R140). -/
def countWait (s : State) : State :=
  s.onArb fun a => { a with waitCount := if enginePresents s then min (a.waitCount + 1) 4 else 0 }

/-- A grant to port P: the main piece first, then the play pieces (R132, R138). -/
def portPGrant (s : State) : State :=
  match s.router.reqP with
  | some r => if r.main = [] then playGrant s else takeMain .p r s
  | none => playGrant s

/-- A grant to port D. -/
def portDGrant (s : State) : State :=
  match s.router.reqD with
  | some r => takeMain .d r s
  | none => s

/-- One grant: the granted piece runs whole (R140, R142; log 3). -/
def grant (s : State) : State :=
  match chooseGrant s with
  | none => s
  | some .engine => engineGrant s
  | some .portP => portPGrant (countWait s)
  | some .portD => portDGrant (countWait s)

/-- Requests the masters hold arrive, one grant is made, and an engine with nothing left stops
presenting. -/
def memoryGrant (s : State) : State := settleArbiter (grant (admitWaiting s))

/-- MEMORY_GRANT. -/
def execMemoryGrant (s : State) : Host.Outcome State Fault Refusal := .next (live memoryGrant s)

/-! ### BURST_TAKE (R114, R138) -/

/-- Is there a play burst to take, or one whose take waits? -/
def burstToTake (s : State) : Bool :=
  match s.router.reqP, s.play.burst with
  | some r, none => r.plays != []
  | some _, some b => b.todo != 0
  | none, _ => false

/-- The burst of n words, with the play state at its take and no word planned yet (R114). -/
def openBurst (n : Nat) (s : State) : State :=
  s.onPlay fun p => { p with burst := some { mode := p.mode, todo := n, words := [] } }

/-- Plan the words still to be planned; a take that waits for a merging slot stops before the word
that waits, and goes on at the next BURST_TAKE (R87, R114; log 19). -/
def planBurst (s : State) : State :=
  match s.play.burst with
  | some b => planWords b.mode b.todo s
  | none => s

/-- Take the burst of the request at port P. -/
def burstTake (s : State) : State :=
  let s := admitWaiting s
  match s.router.reqP with
  | none => s
  | some r =>
    if burstToTake s then
      settleArbiter (settleAhead
        (planBurst (if s.play.burst.isSome then s else openBurst r.plays.length s)))
    else s

/-- BURST_TAKE. -/
def execBurstTake (s : State) : Host.Outcome State Fault Refusal := .next (live burstTake s)

/-! ### BURST_COMPLETE (R115, R138) -/

/-- The composed words at their beat positions in the assembly buffer (R138). -/
def placeWords (buffer : List Word) : List Nat → List Word → List Word
  | k :: ks, w :: ws => placeWords (buffer.set k w) ks ws
  | _, _ => buffer

/-- The composed words take effect and go to their places in the assembly buffer (R115, R138). -/
def returnBurst (c : Composed) (r : ActiveRequest) (s : State) : State :=
  finishP (setRequest .p
    (some { r with buffer := placeWords r.buffer r.plays c.words, plays := [] }) (burstComposed c s))

/-- Compose and return the burst. Where the look-ahead needs further pieces they are added, and the burst
returns once they are read; a look-ahead lookup that names a merging slot waits (R87, R115, R116). -/
def burstComplete (s : State) : State :=
  let s := settleAhead s
  match burstReady s with
  | none => s
  | some (b, r) =>
    match composeWords b.ahead b.words s.play with
    | .needs _ _ _ => s
    | .done c => returnBurst c r s

/-- BURST_COMPLETE. -/
def execBurstComplete (s : State) : Host.Outcome State Fault Refusal := .next (live burstComplete s)

end Sys2Proof.Machine
end

