-- ==== Sys2Proof/Machine/Supply.lean ====
section
/-! DEFINITION. The supply-low comparator and its filter, and the fall they take: a fall can come as a row of
its own or between two steps of the eject action (09 sections 9.2 and 9.3, R151, R161 to R164). -/
namespace Sys2Proof.Machine

/-- Have `cycles` REFCLK cycles lasted `us` microseconds? REFCLK is 33.8688 MHz (R1). -/
def lasted (us cycles : Nat) : Bool := us * 338688 ≤ cycles * 10000

/-- The raw condition of a VMAIN level under the in-effect SUPPLY_LEVEL (R161, R164). -/
def conditionAt (s : State) (vmain : Nat) : SupplyCondition := supplyCondition s.ctl.params vmain

/-- VMAIN stands at a level. -/
def driveVmain (vmain : Nat) (s : State) : State := s.onPins fun p => { p with vmain := vmain }

/-- The live low indication changes and the timer starts from 0 (R162, R170). -/
def setLow (low : Bool) (s : State) : State :=
  s.onSupply fun u => { u with low := low, first := false, timer := 0 }

/-- What a fall taken does: SUPPLY, and a snapshot request (R163). -/
def fallActs (s : State) : State := requestSnapshot (raiseFlag .supply s)

/-- A fall is taken with the indication clear and VMAIN below the fall level (R162, R163). Below 3.9 V
none is ever taken (R165). Given from the queue it is taken whatever the filter timer shows (log 39). -/
def supplyFall (vmain : Nat) (s : State) : State :=
  if powerOnLevel ≤ vmain ∧ s.supply.first = false ∧ s.supply.low = false ∧
      conditionAt s vmain = .below then
    fallActs (setLow true (driveVmain vmain s))
  else s

/-- Does the supply filter time this condition? (R162, R170) -/
def supplyTimes (u : Supply) (c : SupplyCondition) : Bool :=
  if u.first then c != .between else if u.low then c == .above else c == .below

/-- Has the filter timed the condition long enough for its next edge? (R162, R164, R170) -/
def supplyElapsed (s : State) : Bool :=
  supplyTimes s.supply (conditionAt s s.pins.vmain) &&
    lasted (supplyFilterTime s.ctl.params.supplyFilter) s.supply.timer

/-- A fall is due: the indication is clear, the first comparison is past, and the filter time has run out
below the fall level (R162). A first comparison that is due is not counted here, also where it would be a
fall by R170: the model's choice (log 30). -/
def fallDue (s : State) : Bool := supplyElapsed s && !s.supply.first && !s.supply.low

/-- A fall that is due is taken now (R151, R162, R163); a first comparison waits for its own row (log 30). Its
snapshot gathers the cursor and history of this moment (R154), which serves during step 1 may have moved on from
those of step 1's snapshot: the model's choice (log 30). -/
def takeDueFall (s : State) : State := if fallDue s then supplyFall s.pins.vmain s else s

end Sys2Proof.Machine
end

