-- ==== Sys2Proof/Machine/Commands.lean ====
section
/-! DEFINITION. The command unit, the flush, the eject action, and the meanings of START, LOAD, EJECT, PAUSE,
PLAY, APPLY, FORGET, BAD_COMMAND and SNAPSHOT_WRITE_END (10 section 10.3, 08 sections 8.2 to 8.6). -/
namespace Sys2Proof.Machine

/-! ### Taking and completing (R174, R175) -/

/-- The latch is taken: it becomes 0, a zero-write is asked of the engine, and the unit executes
(R174). -/
def takeLatch (s : State) : State :=
  s.onCtl fun c => { c with latch := 0, zeroWrite := true, busy := true }

/-- The unit returns to IDLE (R175). -/
def unitIdle (s : State) : State := s.onCtl fun c => { c with busy := false }

/-- A taken command completes (R175). -/
def complete (code : Word) (result : CmdResult) (s : State) : State :=
  unitIdle (completion code result s)

/-- The argument copies a command's writes set, the first arguments in order (R172, R176). -/
def setArguments (arguments : List Word) (c : Control) : Control :=
  match arguments with
  | [] => c
  | [x] => { c with arg0 := x }
  | f :: x :: _ => { c with arg0 := f, arg1 := x }

/-- The words of a command are written into the parameter area: its arguments from 0x084 on, then its code
into the command word, each to memory and then to its copy (R135, R172, R174). -/
def writeCommand (code : Word) (arguments : List Word) (s : State) : State :=
  let offsets := (List.range arguments.length).map fun i => commandOffset + 4 * (i + 1)
  parameterBeat commandOffset code allEnables
    ((offsets.zip arguments).foldl (fun s (o, w) => parameterBeat o w allEnables s) s)

/-- A command row: in IDLE its arguments and its code stand in the copies, and it is taken and takes
effect, so that its word in memory is zero again once the zero-write is made. The code withdraws a
zero-write that waits from an earlier command, and the take asks for its own (R142, R174). In EXECUTING its
words are written and the code waits in the latch and in memory (R174; log 20). A row given before the first
tick after a reset, where R148 lets none be taken, is taken like any other: the model's choice (log 20). -/
def issue (code : Word) (arguments : List Word) (effect : State → State) (s : State) : State :=
  if s.ctl.busy then settleArbiter (writeCommand code arguments s)
  else settleArbiter (effect (takeLatch (settleArbiter (setLatch code (s.onCtl (setArguments arguments))))))

/-! ### The flush (R22, R37, R68, R79, R88, R107, R127, R177) -/

/-- A flush: each block's part, and then a pending APPLY takes effect in PARKED. Held beats are taken
by the command that flushes, in the state it leaves (R37). -/
def flush (s : State) : State :=
  applyIfPending
    (settleArbiter (flushMap (flushPlay (flushRecovery (flushGaps (flushIntake (flushMatch s)))))))

/-- The flush of a command: taken in any recovery state other than PARKED (R68, R150). -/
def flushStream (s : State) : State := if s.rc.phase = .parked then s else flush s

/-! ### Starting a stream (R46, R110, R111, R158, R159) -/

/-- Enter STARTING at a frame with the head kind to form; the start block is published (R46, R54). The
current cause becomes none, as the origin does: the model's choice (log 42). -/
def beginStart (x : Nat) (kind : HeadKind) (s : State) : State :=
  publish (blockOf x) false (s.onRc fun r =>
    { r with
      phase := .starting, startFrame := x, startKind := kind, origin := none, cause := none
      started := false })

/-- The last k saved frames of an entry (R159). -/
def resumeTail (e : ResumeEntry) (k : Nat) : List TailFrame :=
  (e.tail.take e.tailCount).drop (e.tailCount - k)

/-- Begin a RESUME sequence: P the resume frame, the tail store loaded, SEEKING published (R46, R159). The
current cause becomes RESUME, as the origin does: the model's choice (log 42). -/
def beginResume (e : ResumeEntry) (s : State) : State :=
  let k := min s.ctl.params.matchLen e.tailCount
  enterSeeking (s.onRc fun r =>
    { r with
      p := e.frame, origin := some .resume, cause := some .resume, retry := 0, bridgePending := false
      seqBroken := false, kEff := k, span := s.ctl.params.span, tail := resumeTail e k })

/-- The cursor is set and the play state becomes PLAYING (R110, R111). -/
def playFrom (x : Nat) (s : State) : State :=
  (setCursor x s).onPlay fun p => { p with mode := .playing }

/-- A start of either kind goes on with DONE, and held beats are taken (R37, R176). -/
def started (code : Word) (s : State) : State := drainHeld (complete code .done s)

/-- START(X) taken (R46, R176). -/
def startTaken (x : Nat) (s : State) : State :=
  if s.rc.loaded = none ∨ s.eject.isSome then complete codeStart .refusedState s
  else started codeStart (playFrom x (beginStart x .start (flushStream s)))

/-- A LOAD's start from a usable entry (R158). -/
def resumeFrom (e : ResumeEntry) (s : State) : State :=
  let s := raiseFlag .resume s
  playFrom e.frame (if 8 ≤ e.tailCount then beginResume e s else beginStart e.frame .nominal s)

/-- LOAD(F, X) taken (R158, R176). -/
def loadTaken (f : Word) (x : Nat) (s : State) : State :=
  if s.rc.phase ≠ .parked ∨ s.lines.taken ≠ .closed ∨ s.eject.isSome then
    complete codeLoad .refusedState s
  else
    let s := (flushStream s).onRc fun r => { r with loaded := some f, started := false }
    let s := qualityLoad f s
    started codeLoad (match resumeEntry s f with
      | some n => resumeFrom (resumeAt s n) s
      | none => playFrom x (beginStart x .start s))

/-! ### The eject action (R150) -/

/-- The play state leaves PLAYING for another: underrun cleared, a pending APPLY takes effect (R120,
R177). -/
def leavePlaying (mode : PlayMode) (s : State) : State :=
  let was := s.play.mode
  let s := s.onPlay fun p => { p with mode := mode, underrun := false }
  if was = .playing then applyIfPending s else s

/-- Steps 3 and 4 of the eject action: unload and stop; an EJECT command completes, and held beats are
taken (R37, R150). -/
def ejectUnload (byCommand : Bool) (s : State) : State :=
  let s := s.onRc fun r => { r with loaded := none, started := false }
  let s := (leavePlaying .stopped s).onEject fun _ => none
  drainHeld (if byCommand then complete codeEject .done s else s)

/-- Steps 2 to 4 of the eject action: flush, unload, stop (R150). -/
def ejectFinish (byCommand : Bool) (s : State) : State := ejectUnload byCommand (flushStream s)

/-- The eject action begins; it waits for a snapshot if one is taken or in flight (R150, R153). -/
def ejectBegin (byCommand : Bool) (s : State) : State :=
  if (snapshotDisc s).isSome then
    (requestSnapshot s).onEject fun _ => some { byCommand := byCommand }
  else ejectFinish byCommand s

/-- EJECT taken: it begins the action or joins the one in progress (R150). -/
def ejectTaken (s : State) : State :=
  if s.eject.isSome then s.onEject fun _ => some { byCommand := true } else ejectBegin true s

/-! ### The other commands -/

/-- PAUSE taken (R110, R122, R176). An APPLY that it brings into effect completes first, PAUSE after it: the
model's choice (log 15). -/
def pauseTaken (s : State) : State :=
  if s.rc.loaded = none then complete codePause .refusedState s
  else if s.play.mode = .playing then
    let s := s.onPlay fun p =>
      if p.burst.isSome then { p with endRun := true } else { p with run := .none }
    complete codePause .done (leavePlaying .paused s)
  else complete codePause .done s

/-- PLAY taken (R110, R119, R176). The fade-in is pending at once, for a burst still in flight too: the
model's choice (log 43). -/
def playTaken (s : State) : State :=
  if s.rc.loaded = none then complete codePlay .refusedState s
  else if s.play.mode = .paused then
    complete codePlay .done (s.onPlay fun p => { p with mode := .playing, fadeIn := 1 })
  else complete codePlay .done s

/-- APPLY taken: deferred in PLAYING with lead above 0, otherwise in effect at once (R177). -/
def applyTaken (s : State) : State :=
  if s.play.mode = .playing ∧ 0 < s.lead then
    s.onCtl fun c => { c with applyPending := true, applyInd := .pending, busy := false }
  else unitIdle (applyNow s)

/-- The end of a FORGET: the entry is looked up and made invalid, or not found (R160). -/
def forgetNow (f : Word) (s : State) : State :=
  match resumeEntry s f with
  | some n => complete codeForget .done (forgetEntry n s)
  | none => complete codeForget .notFound s

/-- FORGET(F) taken: held while a snapshot write of F is in progress (R160). -/
def forgetTaken (f : Word) (s : State) : State :=
  if writingFor s f then s.onCtl fun c => { c with forgetWait := some f } else forgetNow f s

/-- Is a code one of the seven commands? (R176) -/
def isCommandCode (code : Word) : Bool := 1 ≤ code.toNat && code.toNat ≤ 7

/-! ### SNAPSHOT_WRITE_END (R156, R160) -/

/-- A FORGET held for the write goes on (R160). -/
def forgetContinues (s : State) : State :=
  match s.ctl.forgetWait with
  | some f => forgetNow f (s.onCtl fun c => { c with forgetWait := none })
  | none => s

/-- An eject action waiting for the snapshot goes on with steps 2 to 4. A supply fall that is due by then is
taken between step 2 and step 3: it finds the disc still loaded and the cursor and history kept, and
writes a fresh snapshot (R150, R151; log 30). -/
def ejectContinues (s : State) : State :=
  match s.eject with
  | some a => ejectUnload a.byCommand (takeDueFall (flushStream s))
  | none => s

/-- The snapshot write in progress ends and its requesters continue (R156): a FORGET held for it first,
then an eject action (log 15). Given from the queue the row ends the write whatever `timer` shows of the
12 µs (log 39). -/
def snapshotWriteEnd (s : State) : State :=
  match s.resume.snap with
  | none => s
  | some p =>
    match p.target with
    | none => s
    | some n => settleArbiter (ejectContinues (forgetContinues (endWrite p n s)))

/-! ### The rows -/

/-- START. -/
def execStart (x : Word) (s : State) : Host.Outcome State Fault Refusal :=
  .next (live (issue codeStart [x] (startTaken (frameArgument x))) s)

/-- LOAD. -/
def execLoad (f x : Word) (s : State) : Host.Outcome State Fault Refusal :=
  .next (live
    (issue codeLoad [f, x] (loadTaken f (frameArgument x))) s)

/-- EJECT. -/
def execEject (s : State) : Host.Outcome State Fault Refusal :=
  .next (live (issue codeEject [] ejectTaken) s)

/-- PAUSE. -/
def execPause (s : State) : Host.Outcome State Fault Refusal :=
  .next (live (issue codePause [] pauseTaken) s)

/-- PLAY. -/
def execPlay (s : State) : Host.Outcome State Fault Refusal :=
  .next (live (issue codePlay [] playTaken) s)

/-- APPLY. -/
def execApply (s : State) : Host.Outcome State Fault Refusal :=
  .next (live (issue codeApply [] applyTaken) s)

/-- FORGET. -/
def execForget (f : Word) (s : State) : Host.Outcome State Fault Refusal :=
  .next (live (issue codeForget [f] (forgetTaken f)) s)

/-- BAD_COMMAND. Code 0 is no command and codes 1 to 7 are the other rows. -/
def execBadCommand (code : Word) (s : State) : Host.Outcome State Fault Refusal :=
  .next (live (fun s =>
    if code = 0 ∨ isCommandCode code then s else issue code [] (complete code .badCommand) s) s)

/-- SNAPSHOT_WRITE_END. -/
def execSnapshotWriteEnd (s : State) : Host.Outcome State Fault Refusal :=
  .next (live snapshotWriteEnd s)

end Sys2Proof.Machine
end

