-- ==== Sys2Proof/Machine/Tray.lean ====
section
/-! DEFINITION. The tray logic, and the meanings of TICK, TRAY_OPEN and TRAY_CLOSE (08 section 8.1). -/
namespace Sys2Proof.Machine

/-- The quiet count at a tick: 0 with filtered SHK asserted or the rise latch set, otherwise one more,
stopping at 64; the rise latch is then cleared (R146). -/
def quietUpdate (l : Lines) : Lines :=
  { l with quiet := if l.shk || l.riseLatch then 0 else min (l.quiet + 1) 64, riseLatch := false }

/-- The debounce count at a tick: 0 when the sample equals the taken level, otherwise one more,
stopping at 64 (R145). -/
def debounceUpdate (tray : TrayLevel) (l : Lines) : Lines :=
  { l with debounce := if tray = l.taken then 0 else min (l.debounce + 1) 64 }

/-- The edge is taken when both counts are at least DEB (R147); it acts by its own row, and takes the place of
an earlier edge that still waits for its row: the model's choice (log 35). -/
def takeEdge (deb : Nat) (tray : TrayLevel) (l : Lines) : Lines :=
  if deb ≤ l.debounce ∧ deb ≤ l.quiet then { l with taken := tray, debounce := 0, edge := some tray } else l

/-- The tray logic at a tick. The first sample after a reset becomes the taken level with no edge
(R148). -/
def trayTick (deb : Nat) (tray : TrayLevel) (l : Lines) : Lines :=
  let l := quietUpdate l
  if l.sampled then takeEdge deb tray (debounceUpdate tray l)
  else { l with taken := tray, sampled := true, debounce := 0 }

/-- One tick (R145 to R148). -/
def tickTaken (tray : TrayLevel) (s : State) : State :=
  (s.onPins fun p => { p with tray := tray }).onLines (trayTick s.ctl.params.deb tray)

/-- A tray edge acts: its level is the taken level and TRAY is raised (R149). Given from the queue, the row
sets the debounce count to 0 as the taking of an edge does, and counts as the first sample where no tick has
come: the model's choice (log 31). -/
def edgeActs (tray : TrayLevel) (s : State) : State :=
  raiseFlag .tray (s.onLines fun l =>
    { l with taken := tray, sampled := true, debounce := 0, edge := none })

/-- A taken tray-open: with a disc loaded the eject action begins, or is joined (R149, R150). -/
def trayOpenTaken (s : State) : State :=
  let s := edgeActs .opened s
  if s.rc.loaded.isSome ∧ s.eject = none then settleArbiter (ejectBegin false s) else s

/-- TICK. The row acts whatever the divider shows and leaves it (log 39). -/
def execTick (tray : TrayLevel) (s : State) : Host.Outcome State Fault Refusal :=
  .next (live (tickTaken tray) s)

/-- TRAY_OPEN. -/
def execTrayOpen (s : State) : Host.Outcome State Fault Refusal := .next (live trayOpenTaken s)

/-- TRAY_CLOSE. -/
def execTrayClose (s : State) : Host.Outcome State Fault Refusal := .next (live (edgeActs .closed) s)

end Sys2Proof.Machine
end

