-- ==== Sys2Proof/Machine/Power.lean ====
section
/-! DEFINITION. The Supply Monitor, the retained domain and resets, and the meanings of SUPPLY_FALL_TAKEN,
SUPPLY_RISE_TAKEN, FIRST_SUPPLY_COMPARE, POWER_ON_THRESHOLD_FALL, POWER_ON_DELAY_END, VBAK_LOW, RSTN_ASSERT
and RSTN_RELEASE (09, 07 section 7.6). -/
namespace Sys2Proof.Machine

/-! ### The supply-low comparator (R161 to R163, R170) -/

/-- A rise is taken with the indication set and VMAIN at or above the release level (R162),
whatever the filter timer shows (log 39). -/
def supplyRise (vmain : Nat) (s : State) : State :=
  if powerOnLevel ≤ vmain ∧ s.supply.first = false ∧ s.supply.low = true ∧
      conditionAt s vmain = .above then
    setLow false (driveVmain vmain s)
  else s

/-- The first filtered comparison (R170), whatever the filter timer shows (log 39). -/
def firstCompare (vmain : Nat) (s : State) : State :=
  if s.supply.first ∧ powerOnLevel ≤ vmain then
    match conditionAt s vmain with
    | .below =>
      let s := setLow true (driveVmain vmain s)
      if s.rc.loaded.isSome then fallActs s else s
    | .above => setLow false (driveVmain vmain s)
    | .between => s
  else s

/-! ### Resets (R143, R165, R166, R170, R184 and each block's own reset rule) -/

/-- What a port shows when reset ends its request: a read returns 0 in every word (R143). -/
def endedWords (r : Option ActiveRequest) (old : List Word) : List Word :=
  match r with
  | some r => if r.isWrite then old else List.replicate r.buffer.length 0
  | none => old

/-- Every block takes its reset values, with the straps given. Memory, the Resume Table, the latch and
its source, the pins, the requests the masters hold and the commands waiting stay (R143, R157, R170). -/
def resetBlocks (straps : BitVec 2) (s : State) : State :=
  { s with
    clock := Clock.reset
    router :=
      { Router.reset straps with
        waiting := s.router.waiting
        returnP := endedWords s.router.reqP s.router.returnP
        returnD := endedWords s.router.reqD s.router.returnD }
    arb := Arbiter.reset
    intake := Intake.reset
    map := StreamMap.reset 512
    rc := Recovery.reset
    me := MatchEngine.reset
    gaps := GapScheduler.reset
    quality := Quality.reset
    play := PlayServer.reset
    lines := Lines.reset
    resume := { s.resume with snap := none }
    supply := { Supply.reset with held := s.supply.held }
    ctl := Control.reset straps
    eject := none }

/-- The part enters the held reset: the retained domain moves to VBAK (R165, R167). -/
def enterHeld (s : State) : State :=
  ((resetBlocks s.router.pblk s).onSupply fun u => { u with held := true, delay := 0 }).onResume
    fun t => { t with onVbak := true }

/-- VBAK stands at a level; on VBAK a level below 2.0 V clears the latch (R168). -/
def watchVbak (vbak : Nat) (s : State) : State :=
  let s := s.onPins fun p => { p with vbak := vbak }
  s.onResume fun t => if t.onVbak ∧ vbak < retentionLevel then { t with latch := false } else t

/-- VMAIN below 3.9 V: the held reset is entered, and a power-on delay starts again from 0 (R165,
R166). -/
def thresholdFall (vmain vbak : Nat) (s : State) : State :=
  if vmain < powerOnLevel then
    let s := driveVmain vmain s
    watchVbak vbak (if s.supply.held then s.onSupply fun u => { u with delay := 0 } else enterHeld s)
  else s

/-- The retention check (R169). -/
def retentionCheck (s : State) : State :=
  if s.resume.latch then s
  else raiseFlag .retainLost (s.onResume fun t =>
    { t with entries := t.entries.map (fun e => { e with valid := false }), latch := true })

/-- Steps 1 to 3 of the power-on sequence (R166). -/
def powerOnSteps (straps : BitVec 2) (s : State) : State :=
  let s := (resetBlocks straps s).onPins fun p => { p with pblk := straps }
  retentionCheck (s.onResume fun t => { t with onVbak := false })

/-- When a reset ends: requests the masters hold are taken (R143); the dividers stand at 0 (R1). -/
def resetEnds (s : State) : State := if inReset s then s else admitWaiting s

/-- The power-on delay ends with VMAIN at 3.9 V or above. With RSTn asserted, steps 4 and 5 come at its
release (R166; log 28). The row acts whatever the delay counter shows (log 39). -/
def powerOnDelayEnd (vmain : Nat) (straps : BitVec 2) (s : State) : State :=
  if s.supply.held ∧ powerOnLevel ≤ vmain then
    resetEnds ((powerOnSteps straps (driveVmain vmain s)).onSupply fun u => { u with held := false })
  else s

/-- RSTn is asserted (R143, R170). -/
def rstnAssert (s : State) : State :=
  if s.pins.rstn then s
  else (if s.supply.held then s else resetBlocks s.router.pblk s).onPins fun p => { p with rstn := true }

/-- The straps are sampled while every block stands in its reset state: the block base and the default
bases follow (R130, R144, R184). A flag that the power-on check has raised stays (R166). -/
def sampleStraps (straps : BitVec 2) (s : State) : State :=
  (resetBlocks straps s).onCtl fun c => { c with flags := s.ctl.flags }

/-- RSTn is released: out of the held reset, the straps are sampled, the dividers start from 0 and
requests are taken (R1, R130, R143, R166). -/
def rstnRelease (straps : BitVec 2) (s : State) : State :=
  if s.pins.rstn then
    let s := s.onPins fun p => { p with rstn := false, pblk := straps }
    if s.supply.held then s else resetEnds (sampleStraps straps s)
  else s

/-! ### The rows -/

/-- SUPPLY_FALL_TAKEN. -/
def execSupplyFallTaken (vmain : Nat) (s : State) : Host.Outcome State Fault Refusal :=
  .next (live (supplyFall vmain) s)

/-- SUPPLY_RISE_TAKEN. -/
def execSupplyRiseTaken (vmain : Nat) (s : State) : Host.Outcome State Fault Refusal :=
  .next (live (supplyRise vmain) s)

/-- FIRST_SUPPLY_COMPARE. -/
def execFirstSupplyCompare (vmain : Nat) (s : State) : Host.Outcome State Fault Refusal :=
  .next (live (firstCompare vmain) s)

/-- POWER_ON_THRESHOLD_FALL. -/
def execPowerOnThresholdFall (vmain vbak : Nat) (s : State) : Host.Outcome State Fault Refusal :=
  .next (thresholdFall vmain vbak s)

/-- POWER_ON_DELAY_END. -/
def execPowerOnDelayEnd (vmain : Nat) (straps : BitVec 2) (s : State) :
    Host.Outcome State Fault Refusal :=
  .next (powerOnDelayEnd vmain straps s)

/-- VBAK_LOW. VBAK is watched only while the retained domain runs on it (R167). -/
def execVbakLow (vbak : Nat) (s : State) : Host.Outcome State Fault Refusal :=
  .next (if s.resume.onVbak ∧ vbak < retentionLevel then watchVbak vbak s else s)

/-- RSTN_ASSERT. -/
def execRstnAssert (s : State) : Host.Outcome State Fault Refusal := .next (rstnAssert s)

/-- RSTN_RELEASE. -/
def execRstnRelease (straps : BitVec 2) (s : State) : Host.Outcome State Fault Refusal :=
  .next (rstnRelease straps s)

end Sys2Proof.Machine
end

