-- ==== Sys2Proof/Machine/StreamRows.lean ====
section
/-! DEFINITION. The meanings of the rows of intake reports, lines, capture, deadline, evaluation, splice,
bridge, alignment and merge, over the operations of Blocks (03, 04, 05). -/
namespace Sys2Proof.Machine

/-- BLOCK_REPORT. -/
def execBlockReport (s : State) : Host.Outcome State Fault Refusal := .next (live blockReport s)

/-- SHOCK_EVENT. -/
def execShockEvent (s : State) : Host.Outcome State Fault Refusal := .next (live shockEvent s)

/-- SHK_FALL. -/
def execShkFall (s : State) : Host.Outcome State Fault Refusal := .next (live shkFall s)

/-- TRACK_LOST_EVENT. -/
def execTrackLostEvent (s : State) : Host.Outcome State Fault Refusal := .next (live trackLost s)

/-- TRACK_REGAINED_EVENT. -/
def execTrackRegainedEvent (s : State) : Host.Outcome State Fault Refusal :=
  .next (live trackRegained s)

/-- TAIL_CAPTURE_END. -/
def execTailCaptureEnd (s : State) : Host.Outcome State Fault Refusal := .next (live tailCaptureEnd s)

/-- BLOCK_PERIOD_BOUNDARY. The row acts whatever the divider shows and leaves it (log 39). -/
def execBlockPeriodBoundary (s : State) : Host.Outcome State Fault Refusal :=
  .next (live blockPeriodBoundary s)

/-- DEADLINE_EXPIRY. -/
def execDeadlineExpiry (s : State) : Host.Outcome State Fault Refusal := .next (live deadlineExpiry s)

/-- EVALUATION_END. -/
def execEvaluationEnd (s : State) : Host.Outcome State Fault Refusal := .next (live evaluationEnd s)

/-- SPLICE_RETRY. -/
def execSpliceRetry (s : State) : Host.Outcome State Fault Refusal :=
  .next (live (fun s => settleArbiter (spliceRetry s)) s)

/-- BRIDGE_RETRY. -/
def execBridgeRetry (s : State) : Host.Outcome State Fault Refusal :=
  .next (live (fun s => settleArbiter (bridgeRetry s)) s)

/-- ALIGNMENT_END. -/
def execAlignmentEnd (s : State) : Host.Outcome State Fault Refusal := .next (live alignmentEnd s)

/-- MERGE_FRAMES_WRITTEN. -/
def execMergeFramesWritten (s : State) : Host.Outcome State Fault Refusal :=
  .next (live mergeFramesWritten s)

/-- MERGE_FLAG_MAP_WRITTEN. -/
def execMergeFlagMapWritten (s : State) : Host.Outcome State Fault Refusal :=
  .next (live mergeFlagMapWritten s)

end Sys2Proof.Machine
end

