-- ==== Sys2Proof/Machine/Clock.lean ====
section
/-! DEFINITION. Time: one REFCLK cycle, which passes when no command waits, and the rows that have then
fallen due (R1; logs 6 and 7). -/
namespace Sys2Proof.Machine

/-! ### One cycle of each timer -/

/-- A divider that returns to 0 at its period (R1). -/
def divide (period n : Nat) : Nat := if n + 1 = period then 0 else n + 1

/-- The two dividers (R1). -/
def runDividers (s : State) : State :=
  s.onClock fun k =>
    { blockDiv := divide Config.blockPeriodCycles k.blockDiv, tickDiv := divide Config.tickCycles k.tickDiv }

/-- A line filter's timer runs while the raw line differs from the filtered level (R43, R44). -/
def filterTimer (raw level : Bool) (n : Nat) : Nat := if raw = level then 0 else n + 1

/-- The line filters. -/
def runFilters (s : State) : State :=
  s.onLines fun l =>
    { l with
      shkTimer := filterTimer s.pins.shk l.shk l.shkTimer
      tlostTimer := filterTimer s.pins.tlost l.tlost l.tlostTimer }

/-- The supply filter's timer; during the first comparison it restarts at every change (R162,
R170). The cycle of a change is not counted, nor the first cycle of a first comparison unless its condition
is the one `seen` starts with (logs 7 and 40). -/
def runSupply (s : State) : State :=
  let c := conditionAt s s.pins.vmain
  s.onSupply fun u =>
    { u with timer := if supplyTimes u c && u.seen == c then u.timer + 1 else 0, seen := c }

/-- The 12 µs of a snapshot write (R156). -/
def runSnapshot (s : State) : State :=
  s.onResume fun t =>
    { t with snap := t.snap.map fun p =>
        if p.target.isSome then { p with timer := p.timer + 1 } else p }

/-- The power-on delay, while VMAIN stands at 3.9 V or above in the held reset (R166). -/
def runDelay (s : State) : State :=
  s.onSupply fun u =>
    if u.held ∧ powerOnLevel ≤ s.pins.vmain then { u with delay := u.delay + 1 } else u

/-! ### What has fallen due -/

/-- A row, if it has fallen due. -/
def due (b : Bool) (c : Instr) : List Instr := if b then [c] else []

/-- The rows of elapsed times (R1, R43, R44, R156, R162, R165, R170). The order of those that fall due in one
cycle, here and before `ownRows`, is the model's choice (log 6). -/
def timedRows (s : State) : List Instr :=
  let v := s.pins.vmain
  let supply := supplyElapsed s
  let shk := s.pins.shk != s.lines.shk &&
    lasted (shkFilterTime s.ctl.params.shkFilter) s.lines.shkTimer
  let tlost := s.pins.tlost != s.lines.tlost && lasted 2 s.lines.tlostTimer
  let written : Bool := match s.resume.snap with
    | some p => p.target.isSome && lasted 12 p.timer
    | none => false
  due (v < powerOnLevel) (.powerOnThresholdFall v s.pins.vbak) ++
  due (s.clock.blockDiv == 0) .blockPeriodBoundary ++
  due (s.clock.tickDiv == 0) (.tick s.pins.tray) ++
  due (shk && s.pins.shk) .shockEvent ++ due (shk && !s.pins.shk) .shkFall ++
  due (tlost && s.pins.tlost) .trackLostEvent ++ due (tlost && !s.pins.tlost) .trackRegainedEvent ++
  due written .snapshotWriteEnd ++
  due (supply && s.supply.first) (.firstSupplyCompare v) ++
  due (fallDue s) (.supplyFallTaken v) ++
  due (supply && !s.supply.first && s.supply.low) (.supplyRiseTaken v)

/-- The command waiting in the latch, to be taken when the unit is IDLE, with the argument copies
(R174). -/
def latchedCommand (s : State) : List Instr :=
  if s.ctl.busy ∨ s.ctl.latch = 0 then []
  else match s.ctl.latch.toNat with
    | 1 => [.start s.ctl.arg0]
    | 2 => [.load s.ctl.arg0 s.ctl.arg1]
    | 3 => [.eject]
    | 4 => [.pause]
    | 5 => [.play]
    | 6 => [.apply]
    | 7 => [.forget s.ctl.arg0]
    | _ => [.badCommand s.ctl.latch]

/-- The row of a tray edge taken at a tick (R147, R149). -/
def edgeRow (s : State) : List Instr :=
  match s.lines.edge with
  | some .opened => [.trayOpen]
  | some .closed => [.trayClose]
  | none => []

/-- A block report that can be taken, or kept once during a tail capture (R34, R52). -/
def reportDue (s : State) : Bool :=
  (reportReady s).isSome && !(s.rc.capture.isSome && s.rc.deferred.contains .report)

/-- The stage an alignment or merge stands at. -/
def alignAt (s : State) (f : Align → Bool) : Bool :=
  match s.me.align with
  | some a => f a
  | none => false

/-- Does a splice wait for room in the Segment List? (R59) -/
def waitsForList (s : State) : Bool :=
  match s.rc.wait with
  | .splice _ => true
  | _ => false

/-- The block's own moments whose condition holds. -/
def ownRows (s : State) : List Instr :=
  let captured : Bool := match s.rc.capture with
    | some c => captureDone c
    | none => false
  latchedCommand s ++ edgeRow s ++
  due (burstToTake s) .burstTake ++ due (burstReady s).isSome .burstComplete ++
  due (reportDue s) .blockReport ++ due captured .tailCaptureEnd ++
  due (evaluationDone s) .evaluationEnd ++
  due (alignAt s fun a => a.stage == .scored) .alignmentEnd ++
  due (alignAt s fun a => a.stage == .mergeWrite && a.writes == []) .mergeFramesWritten ++
  due (alignAt s fun a => a.stage == .flagMap && a.jobs == []) .mergeFlagMapWritten ++
  due (s.map.retireReport && waitsForList s) .spliceRetry ++
  due (s.map.retireReport && s.rc.wait == .bridge) .bridgeRetry ++
  due (expiryDue s) .deadlineExpiry ++
  due (chooseGrant s).isSome .memoryGrant

/-- The rows that can fall due in a reset: the end of the power-on delay, and VBAK low (R166, R168). -/
def resetRows (s : State) : List Instr :=
  due (s.supply.held && powerOnLevel ≤ s.pins.vmain && lasted 64 s.supply.delay)
    (.powerOnDelayEnd s.pins.vmain s.pins.pblk) ++
  due (s.resume.onVbak && s.resume.latch && s.pins.vbak < retentionLevel) (.vbakLow s.pins.vbak)

/-- Put rows at the end of the queue. -/
def enqueue (l : List Instr) (s : State) : State := { s with pending := s.pending ++ l }

/-- One REFCLK cycle with no command waiting (log 6). -/
def clockCycle (s : State) : State :=
  if inReset s then
    let s := runDelay s
    enqueue (resetRows s) s
  else
    let s := runSnapshot (runSupply (runFilters (runDividers (admitWaiting s))))
    enqueue (timedRows s ++ ownRows s) s

end Sys2Proof.Machine
end

