-- ==== Sys2Proof/Machine/Dispatch.lean ====
section
/-! DEFINITION. One arm for each command. -/
namespace Sys2Proof.Machine

/-- The command's effect on everything but the queue. -/
def exec (i : Instr) (s : State) : Host.Outcome State Fault Refusal :=
  match i with
  | .start x => Sys2Proof.Machine.execStart x s
  | .load f x => Sys2Proof.Machine.execLoad f x s
  | .eject => Sys2Proof.Machine.execEject s
  | .pause => Sys2Proof.Machine.execPause s
  | .play => Sys2Proof.Machine.execPlay s
  | .apply => Sys2Proof.Machine.execApply s
  | .forget f => Sys2Proof.Machine.execForget f s
  | .badCommand code => Sys2Proof.Machine.execBadCommand code s
  | .parameterWordWrite offset data enables => Sys2Proof.Machine.execParameterWordWrite offset data enables s
  | .enableWordWrite data enables => Sys2Proof.Machine.execEnableWordWrite data enables s
  | .acknowledgeWordWrite data enables => Sys2Proof.Machine.execAcknowledgeWordWrite data enables s
  | .captureFirstWordRead => Sys2Proof.Machine.execCaptureFirstWordRead s
  | .captureLastWordRead => Sys2Proof.Machine.execCaptureLastWordRead s
  | .portRequestArrive r => Sys2Proof.Machine.execPortRequestArrive r s
  | .memoryGrant => Sys2Proof.Machine.execMemoryGrant s
  | .protectedBeat port isWrite addr => Sys2Proof.Machine.execProtectedBeat port isWrite addr s
  | .intakeHeader word enables => Sys2Proof.Machine.execIntakeHeader word enables s
  | .intakeFrame index word enables ers => Sys2Proof.Machine.execIntakeFrame index word enables ers s
  | .intakeUnusedBeat offset => Sys2Proof.Machine.execIntakeUnusedBeat offset s
  | .blockReport => Sys2Proof.Machine.execBlockReport s
  | .shockEvent => Sys2Proof.Machine.execShockEvent s
  | .shkFall => Sys2Proof.Machine.execShkFall s
  | .trackLostEvent => Sys2Proof.Machine.execTrackLostEvent s
  | .trackRegainedEvent => Sys2Proof.Machine.execTrackRegainedEvent s
  | .tailCaptureEnd => Sys2Proof.Machine.execTailCaptureEnd s
  | .blockPeriodBoundary => Sys2Proof.Machine.execBlockPeriodBoundary s
  | .deadlineExpiry => Sys2Proof.Machine.execDeadlineExpiry s
  | .evaluationEnd => Sys2Proof.Machine.execEvaluationEnd s
  | .spliceRetry => Sys2Proof.Machine.execSpliceRetry s
  | .bridgeRetry => Sys2Proof.Machine.execBridgeRetry s
  | .alignmentEnd => Sys2Proof.Machine.execAlignmentEnd s
  | .mergeFramesWritten => Sys2Proof.Machine.execMergeFramesWritten s
  | .mergeFlagMapWritten => Sys2Proof.Machine.execMergeFlagMapWritten s
  | .burstTake => Sys2Proof.Machine.execBurstTake s
  | .burstComplete => Sys2Proof.Machine.execBurstComplete s
  | .tick tray => Sys2Proof.Machine.execTick tray s
  | .trayOpen => Sys2Proof.Machine.execTrayOpen s
  | .trayClose => Sys2Proof.Machine.execTrayClose s
  | .snapshotWriteEnd => Sys2Proof.Machine.execSnapshotWriteEnd s
  | .supplyFallTaken vmain => Sys2Proof.Machine.execSupplyFallTaken vmain s
  | .supplyRiseTaken vmain => Sys2Proof.Machine.execSupplyRiseTaken vmain s
  | .firstSupplyCompare vmain => Sys2Proof.Machine.execFirstSupplyCompare vmain s
  | .powerOnThresholdFall vmain vbak => Sys2Proof.Machine.execPowerOnThresholdFall vmain vbak s
  | .powerOnDelayEnd vmain straps => Sys2Proof.Machine.execPowerOnDelayEnd vmain straps s
  | .vbakLow vbak => Sys2Proof.Machine.execVbakLow vbak s
  | .rstnAssert => Sys2Proof.Machine.execRstnAssert s
  | .rstnRelease straps => Sys2Proof.Machine.execRstnRelease straps s

end Sys2Proof.Machine
end

