-- ==== Sys2Proof/Safety.lean ====
section
/-! DEFINITION. What holds of a state at every moment, in the terms the statements use. -/
namespace Sys2Proof.Machine

/-- Every parameter lies in its range (R173). -/
def Params.inRange (p : Params) : Prop :=
  (p.ringBase ≤ 0xFFF000 ∧ p.ringBase % 4096 = 0) ∧ (64 ≤ p.ringSlots ∧ p.ringSlots ≤ 1024) ∧
  (p.intakeBase ≤ 0xFFF000 ∧ p.intakeBase % 4096 = 0) ∧
  (p.playBase ≤ 0xFFF000 ∧ p.playBase % 4096 = 0) ∧
  (1 ≤ p.lowWater ∧ p.lowWater ≤ 255) ∧ (2 ≤ p.holdMargin ∧ p.holdMargin ≤ 32) ∧ p.distrust ≤ 7 ∧
  (8 ≤ p.matchLen ∧ p.matchLen ≤ 64) ∧ p.span ≤ 1176 ∧ p.tol ≤ 1023 ∧
  (1 ≤ p.preroll ∧ p.preroll ≤ 15) ∧ (2 ≤ p.seekTimeout ∧ p.seekTimeout ≤ 255) ∧ p.retryLimit ≤ 7 ∧
  p.gapLimit ≤ 588 ∧ (8 ≤ p.gapLead ∧ p.gapLead ≤ 255) ∧ p.gapOrder ≤ 1 ∧ p.interpMax ≤ 16 ∧
  p.shkFilter ≤ 3 ∧ (4 ≤ p.deb ∧ p.deb ≤ 64) ∧ p.supplyLevel ≤ 7 ∧ p.supplyFilter ≤ 3

/-- The in-effect set is in range and its geometry passes the placement check (R173, R178). -/
def State.parametersOk (s : State) : Prop :=
  s.ctl.params.inRange ∧ placementOk s.router.pblk s.ctl.params = true

/-- The Stream Map: one descriptor a slot of the ring, at most 16 segments, ids below 32 (R3, R10,
R11). -/
def State.mapOk (s : State) : Prop :=
  s.map.slots.length = s.ctl.params.ringSlots ∧ s.map.segs.length ≤ Config.maxSegments ∧ s.map.nextId < 32

/-- The quality state follows the counter; ABANDON holds 255 (R102, R103). -/
def Quality.ok (q : Quality) : Prop :=
  q.counter ≤ 255 ∧ q.cleanRun < 128 ∧
  (q.level = if q.level = .abandon then .abandon else levelOf q.counter) ∧
  (q.level = .abandon → q.counter = 255)

/-- The tray logic's counts stop at 64 (R145, R146). -/
def Lines.ok (l : Lines) : Prop := l.debounce ≤ 64 ∧ l.quiet ≤ 64

/-- The limits the spec sets to every block's counts (R11, R60, R69, R91, R123, R140, R152). -/
def State.limits (s : State) : Prop :=
  s.arb.waitCount ≤ 4 ∧ s.mapOk ∧ s.rc.retry ≤ s.ctl.params.retryLimit ∧
  s.gaps.entries.length ≤ Config.maxGaps ∧ s.quality.ok ∧ s.play.history.length ≤ 64 ∧ s.lines.ok ∧
  s.resume.entries.length = 6

/-- Only a LINKED slot has an owner, and no two slots of one owner carry the same label (R8). -/
def slotsOwned (slots : List SlotDesc) : Prop :=
  (∀ (i : Nat) (d : SlotDesc), slots[i]? = some d → d.owner ≠ none → d.state = .linked) ∧
  ∀ (i j : Nat) (d e : SlotDesc), slots[i]? = some d → slots[j]? = some e → i ≠ j →
    d.owner ≠ none → d.owner = e.owner → d.label ≠ e.label

/-- A segment and the next one: the next begins at the end of the first, or is BRIDGED and begins at or
after it, and only the last may be open (R10, R11). -/
def Segment.followedBy (g h : Segment) : Prop :=
  g.stop ≤ h.start ∧ (h.kind = .bridged ∨ h.start = g.stop) ∧ g.isOpen = false

/-- The Segment List in stream order (R11). -/
def segmentsOrdered : List Segment → Prop
  | [] => True
  | [_] => True
  | g :: h :: rest => g.followedBy h ∧ segmentsOrdered (h :: rest)

/-- No two valid entries hold the same fingerprint, and none but its target holds that of the snapshot
being written, which is not 0 (R152, R153, R155). -/
def ResumeStore.distinct (t : ResumeStore) : Prop :=
  (∀ (i j : Nat) (d e : ResumeEntry), t.entries[i]? = some d → t.entries[j]? = some e → i ≠ j →
    d.valid = true → e.valid = true → d.fingerprint ≠ e.fingerprint) ∧
  ∀ p, t.snap = some p → p.fingerprint ≠ 0 ∧
    ∀ n, p.target = some n → ∀ (k : Nat) (e : ResumeEntry), t.entries[k]? = some e → k ≠ n →
      e.valid = true → e.fingerprint ≠ p.fingerprint

/-- What one block's rules say by themselves: memory in its canonical form, the limits, the parameters,
slot ownership, segment order and distinct resume entries. -/
def State.coreInv (s : State) : Prop :=
  Memory.wf s.mem = true ∧ s.limits ∧ s.parametersOk ∧ slotsOwned s.map.slots ∧
  segmentsOrdered s.map.segs ∧ s.resume.distinct

/-- In PARKED the Segment List is empty (R3, 03 section 3.2). -/
def State.parkedEmpty (s : State) : Prop := s.rc.phase = .parked → s.map.segs = []

/-- The invariant of the machine. -/
def State.Inv (s : State) : Prop := s.coreInv ∧ s.parkedEmpty

/-- The run of `s` can form a segment at a stream start with a shift: the start is not before the end of the
last segment, no slot is owned under the id a new segment takes, each block's slot carries its label, and
some block reaches the segment's first label (R8, R10, R11, R12). -/
def State.offersSegment (s : State) (start : Nat) (shift : Int) : Prop :=
  (∀ g, lastSeg s = some g → g.stop ≤ start) ∧
  (∀ d ∈ s.map.slots, d.owner ≠ some (freshId s.map)) ∧
  (∀ b ∈ s.rc.run, (slotAt s b.slot).label = some b.label) ∧
  ∃ b ∈ s.rc.run, blockOf ((start : Int) + shift).toNat ≤ b.label

/-- In `t` the run of `s` has been linked up to its highest label, one below the expected label, and the last
segment `g` ends with that block (R12, R14, R59, R62). -/
def State.linksRun (s t : State) (g : Segment) : Prop :=
  ∃ b ∈ s.rc.run, (∀ x ∈ s.rc.run, x.label ≤ b.label) ∧
    (slotAt t b.slot).owner = some g.id ∧ (slotAt t b.slot).state = .linked ∧
    (g.stop : Int) + g.shift = (b.label + 1) * 588 ∧ t.rc.expected = some (b.label + 1)

/-- `t` has a new last segment, open, made from the run of `s`: its stream start, shift and head kind are those
given, but that it is BRIDGED beyond the end of the last segment (R10, R11, R12). -/
def State.formsSegment (s t : State) (start : Nat) (shift : Int) (kind : HeadKind) : Prop :=
  ∃ g, t.map.segs = (closeOpen s).map.segs ++ [g] ∧ g.id = freshId s.map ∧ g.start = start ∧
    g.shift = shift ∧ g.isOpen = true ∧ s.linksRun t g ∧
    g.kind = match lastSeg s with
      | some x => if x.stop < start then .bridged else kind
      | none => kind

/-- The run of `s` can extend its last segment: each block's slot carries its label, the segment owns none of
the labels in another slot, and some block reaches the segment's end (R8, R14). -/
def State.offersExtension (s : State) (g : Segment) : Prop :=
  (∀ b ∈ s.rc.run, (slotAt s b.slot).label = some b.label ∧ ownsLabel s g.id b.label b.slot = false) ∧
  ∃ b ∈ s.rc.run, blockOf g.labelledEnd.toNat ≤ b.label

/-- In `t` the last segment `g` of `s` has been extended by the run and is open (R14). -/
def State.extendsSegment (s t : State) (g : Segment) : Prop :=
  ∃ n, t.map.segs = s.map.segs.dropLast ++ [{ g with length := n, isOpen := true }] ∧
    s.linksRun t { g with length := n, isOpen := true }

/-- The completed block of slot n can be reported and disposed of now: its flag map is written, no tail
capture runs, no beat is held, and HOLD is released (R34, R35, R52). -/
def State.reports (s : State) (n : Nat) : Prop :=
  inReset s = false ∧ s.rc.capture = none ∧ s.intake.phase = .handingOver ∧ s.intake.flagJobs = [] ∧
  s.intake.slot = some n ∧ s.intake.held = [] ∧ s.intake.hold = false ∧ n < s.map.slots.length

/-- In `t` an attempt of `s` has failed: the run is gone and a target is published anew, in SEEKING with one
more retry below RETRY_LIMIT and otherwise in BRIDGING (R54, R55, R60). -/
def State.attemptFailed (s t : State) : Prop :=
  t.me.attempt = none ∧ t.rc.run = [] ∧ t.rc.wait = .none ∧ t.rc.p = s.rc.p ∧ t.rc.rrq = true ∧
  t.rc.deadline = s.ctl.params.seekTimeout ∧
  (s.rc.retry < s.ctl.params.retryLimit →
    t.rc.phase = .seeking ∧ t.rc.retry = s.rc.retry + 1 ∧
    t.rc.target = s.rc.p / 588 - s.ctl.params.preroll) ∧
  (s.ctl.params.retryLimit ≤ s.rc.retry →
    t.rc.phase = .bridging ∧ t.rc.retry = s.rc.retry ∧ t.rc.target = s.rc.p / 588)

/-- The engine alone presents, and of its clients only `c` waits (R140, R141). -/
def State.engineOnly (s : State) (c : EngineClient) : Prop :=
  inReset s = false ∧ s.router.waiting = [] ∧ s.router.reqP = none ∧ s.router.reqD = none ∧
  s.play.burst = none ∧ engineClients s = [c]

/-- In `t` the open segment `g` of `s` has been truncated to `p` and closed, the segment removed if nothing of it
is left, or retired where it is the only one and `p` is the cursor. Its slots with no frame below `p` are FREE,
and so is the slot of a block in FILLING; every other slot is as it was (R15, R18, R36, R51). -/
def State.truncated (s t : State) (g : Segment) (p : Nat) : Prop :=
  let cut := s.map.segs.dropLast ++
    if g.start < p then [{ g with length := p - g.start, isOpen := false }] else []
  ((g.start < p → ∀ x, cut.head? = some x → x.stop ≠ s.play.cursor) → t.map.segs = cut) ∧
  (s.map.segs = [g] → g.start < p → p = s.play.cursor → t.map.segs = []) ∧
  ((∀ x ∈ s.map.segs.dropLast, x.isOpen = false) → openSeg t = none) ∧
  ∀ n d, s.map.slots[n]? = some d → slotAt t n =
    if (d.owner = some g.id ∧ (p : Int) ≤ (labelOf d * 588 : Nat) - g.shift) ∨
        (s.intake.slot = some n ∧ d.state = .filling) then SlotDesc.free
    else d

/-- In `t` the hold return of `s` has been taken with the open segment `g`: HOLD is released, `g` is closed at its
end, which is P, origin and cause are HOLD_RETURN, and the tail capture of a return has begun; the capture record
stands (R39, R52, R63). -/
def State.holdReturned (s t : State) (g : Segment) : Prop :=
  t.intake.hold = false ∧ t.rc.phase = .holding ∧ t.rc.p = g.stop ∧ t.rc.origin = some .holdReturn ∧
  t.rc.cause = some .holdReturn ∧ t.rc.retry = 0 ∧ t.rc.bridgePending = false ∧ t.rc.record = s.rc.record ∧
  t.rc.kEff = s.ctl.params.matchLen ∧ t.rc.span = s.ctl.params.span ∧
  t.map.segs = s.map.segs.dropLast ++ [{ g with isOpen := false }] ∧
  ∃ c, t.rc.capture = some c ∧ c.returns = true ∧ c.items.length = s.ctl.params.matchLen

/-- In `t` the pending APPLY of `s` has taken effect: the clamped set is in effect if it passes the checks of
R178, and otherwise the set stands and CONFIG is raised (R173, R177, R178). -/
def State.applyTookEffect (s t : State) (passes : Bool) : Prop :=
  t.ctl.applyPending = false ∧ t.ctl.staged = s.ctl.staged ∧ t.flag .cmdDone = true ∧
  (passes = true → t.ctl.params = clampParams s.ctl.staged ∧ t.ctl.applyInd = .done) ∧
  (passes = false → t.ctl.params = s.ctl.params ∧ t.ctl.applyInd = .refusedConfig ∧ t.flag .config = true)

/-- Every flag set in `s` is set in `t` (R180). -/
def flagsKept (s t : State) : Prop := s.ctl.flags &&& t.ctl.flags = s.ctl.flags

/-- A valid entry of `t` is the same entry of `s` (R152). -/
def noNewEntry (s t : State) : Prop := ∀ n, (resumeAt t n).valid = true → resumeAt t n = resumeAt s n

/-- The part is out of reset and no command executes. -/
def State.idle (s : State) : Prop := inReset s = false ∧ s.ctl.busy = false

/-- The arbiter when a command row is taken: the code withdraws a zero-write still waiting from an earlier
command, and with no other client the wait count returns to 0 before the take asks for its own (R140, R142,
R174). -/
def State.arbiterAtTake (s : State) : Arbiter :=
  if ∀ c ∈ engineClients s, c = .control then { s.arb with waitCount := 0 } else s.arb

end Sys2Proof.Machine
end

