-- ==== Sys2Proof/Certificates/Slice0/Obligations.lean ====
section
/-! DEFINITION. The statements for the provers, each from the rules its docstring names. -/
section
open Sys2Proof Sys2Proof.Machine

/-! ### Steps, queue, invariant -/

/-- The block's form of "a step runs the decoded instruction": with a command at the front of the queue,
the step is `exec` of that command on the state with the rest of the queue. -/
def Obligations.StepRunsFrontCommand : Prop :=
  ∀ (c : Instr) (s : State), step { s with pending := c :: s.pending } = exec c s

/-- R1 on the model's idle step (log 6): one REFCLK cycle passes, each divider wraps at its period, and
the row of its end is appended exactly when it wraps. -/
def Obligations.IdleCycleRunsDividers : Prop :=
  ∀ s : State, s.pending = [] → inReset s = false →
    s.clock.blockDiv < 451584 → s.clock.tickDiv < 32768 →
    ∃ t, step s = .next t ∧
      t.clock.blockDiv = (s.clock.blockDiv + 1) % 451584 ∧
      t.clock.tickDiv = (s.clock.tickDiv + 1) % 32768 ∧
      (Instr.blockPeriodBoundary ∈ t.pending ↔ s.clock.blockDiv = 451583) ∧
      (Instr.tick s.pins.tray ∈ t.pending ↔ s.clock.tickDiv = 32767)

/-- No command touches the queue of waiting commands: whatever `exec` answers as the next state has the
queue it started with. -/
def Obligations.ExecKeepsQueue : Prop :=
  ∀ (c : Instr) (s t : State), exec c s = .next t → t.pending = s.pending

/-- `State.reset` meets the invariant that every step keeps: memory in canonical form, the limits of the
counters and tables, parameters in range and well placed, slot ownership, segment order, distinct resume
entries, and an empty Segment List in PARKED. -/
def Obligations.InvariantAtReset : Prop := State.reset.Inv

/-- Every step keeps the invariant: memory canonical, the limits of R11, R60, R69, R91, R102, R103,
R123, R140, R145, R146, R152, a parameter set in range that passes the placement check (R173, R178), slots
owned only while LINKED and each label owned once by a segment (R8), segments in stream order and only the
last one open (R10, R11), no two valid resume entries of one fingerprint (R152), and in PARKED an empty
Segment List (R3, R68). -/
def Obligations.EveryStepKeepsInvariant : Prop :=
  ∀ s t : State, s.Inv → step s = .next t → t.Inv

/-- R180 over all commands: a set flag stays set, but for an acknowledge write (by itself or as a beat
of a grant) and for power-on and RSTn. -/
def Obligations.FlagsStayThroughOtherCommands : Prop :=
  ∀ (c : Instr) (s t : State),
    (∀ d e, c ≠ .acknowledgeWordWrite d e) → c ≠ .memoryGrant → c ≠ .rstnAssert →
    (∀ v b, c ≠ .powerOnThresholdFall v b) → (∀ v p, c ≠ .powerOnDelayEnd v p) →
    exec c s = .next t → flagsKept s t

/-- R152: an entry is made valid only by the end of a snapshot write; any other command leaves every
valid entry as it was or makes it invalid. -/
def Obligations.EntriesValidOnlyByWriteEnd : Prop :=
  ∀ (c : Instr) (s t : State), c ≠ .snapshotWriteEnd → exec c s = .next t → noNewEntry s t

/-- R168: on VBAK a level below 2.0 V clears the retention latch, at the moment of the change to VBAK too;
on VMAIN it is not watched (R167); once clear, the latch stays clear through every command until the
retention check of a power-on sets it. That the row sets the VBAK level of the pins, that a row given while
its cause is absent changes nothing, and that VBAK comes with the threshold row are the model's choices
(logs 1, 22 and 31). -/
def Obligations.LatchClearsOnLowVbak : Prop :=
  (∀ (b : Nat) (s : State), b < 2000 →
    (s.resume.onVbak = true → exec (.vbakLow b) s = .next { s with
      pins := { s.pins with vbak := b }, resume := { s.resume with latch := false } }) ∧
    (s.resume.onVbak = false → exec (.vbakLow b) s = .next s)) ∧
  (∀ (v b : Nat) (s : State), v < 3900 → s.supply.held = false →
    ∃ t, exec (.powerOnThresholdFall v b) s = .next t ∧ t.resume.onVbak = true ∧
      t.resume.latch = (s.resume.latch && decide (2000 ≤ b))) ∧
  (∀ (c : Instr) (s t : State), exec c s = .next t → s.resume.latch = false → t.resume.latch = true →
    ∃ vmain straps, c = .powerOnDelayEnd vmain straps)

/-! ### Flags, parameters, status -/

/-- R181: ATTN is asserted exactly when some event flag is set whose bit of the enable word is set, so
after a reset of the blocks, and after `State.reset`, which leave the enable word 0, ATTN is low. -/
def Obligations.AttnFollowsEnabledFlags : Prop :=
  (∀ s : State, s.attn = true ↔ ∃ f : EventFlag, s.flag f = true ∧ s.ctl.enable.getLsbD f.bit = true) ∧
  (∀ (straps : BitVec 2) (s : State), (resetBlocks straps s).attn = false) ∧ State.reset.attn = false

/-- R135, R172, R180, R181: ENABLE_WORD_WRITE sets the mask, ACKNOWLEDGE_WORD_WRITE clears the flags whose
bit is 1 in a written byte; memory takes the beat and nothing else changes. A beat with no byte enable
does nothing. -/
def Obligations.EnableAndAcknowledgeWords : Prop :=
  ∀ (data : Word) (en : BitVec 4) (s : State), inReset s = false →
    (en = 0 → exec (.enableWordWrite data en) s = .next s ∧
      exec (.acknowledgeWordWrite data en) s = .next s) ∧
    (en ≠ 0 →
      exec (.enableWordWrite data en) s = .next { s with
        mem := Memory.writeWord s.mem (blockBase s.router.pblk + 0x090) data en
        ctl := { s.ctl with enable := mergeBytes s.ctl.enable data en } } ∧
      exec (.acknowledgeWordWrite data en) s = .next { s with
        mem := Memory.writeWord s.mem (blockBase s.router.pblk + 0x094) data en
        ctl := { s.ctl with flags := s.ctl.flags &&& ~~~((mergeBytes 0 data en).setWidth 16) } })

/-- R135, R172: a parameter word reaches memory and the staged set, and nothing in effect changes. -/
def Obligations.ParameterWordIsOnlyStaged : Prop :=
  ∀ (offset : BitVec 10) (data : Word) (en : BitVec 4) (s : State),
    inReset s = false → en ≠ 0 → offset.toNat % 4 = 0 → offset.toNat ≤ 0x050 →
    ∃ t, exec (.parameterWordWrite offset data en) s = .next t ∧
      t = { s with mem := t.mem, arb := t.arb, ctl := { s.ctl with staged := t.ctl.staged } } ∧
      t.mem = Memory.writeWord s.mem (blockBase s.router.pblk + offset.toNat) data en ∧
      t.ctl.staged.length = s.ctl.staged.length ∧
      ∀ i, t.ctl.staged[i]? =
        if i = offset.toNat / 4 then s.ctl.staged[i]?.map (fun old => mergeBytes old data en)
        else s.ctl.staged[i]?

/-- R172, R174: the command word sets the latch, and a non-zero code withdraws a zero-write not yet
granted; an argument word sets its copy. -/
def Obligations.CommandAndArgumentWords : Prop :=
  ∀ (data : Word) (s : State), inReset s = false → Memory.wf s.mem = true →
    (∃ t, exec (.parameterWordWrite 0x080 data 15) s = .next t ∧
      t.ctl = { s.ctl with latch := data, zeroWrite := s.ctl.zeroWrite && data == 0 } ∧
      t = { s with mem := t.mem, arb := t.arb, ctl := t.ctl } ∧
      Memory.readWord t.mem (blockBase s.router.pblk + 0x080) = data) ∧
    (∃ t, exec (.parameterWordWrite 0x084 data 15) s = .next t ∧ t.ctl = { s.ctl with arg0 := data }) ∧
    (∃ t, exec (.parameterWordWrite 0x088 data 15) s = .next t ∧ t.ctl = { s.ctl with arg1 := data }) ∧
    (∃ t, exec (.parameterWordWrite 0x08C data 15) s = .next t ∧ t.ctl = { s.ctl with arg2 := data })

/-- R67: the table of hold and release, for the two reads and for a break that fills the record; reads
of other words change nothing; after a reset the record is empty and not held (`returnP`: log 25). -/
def Obligations.CaptureRecordHoldTable : Prop :=
  (∀ s : State, inReset s = false →
    let r := s.rc.record
    exec .captureFirstWordRead s = .next { s with
      rc := { s.rc with record := { r with held := true } }
      router := { s.router with returnP := [statusWord s 0x020] } } ∧
    exec .captureLastWordRead s = .next { s with
      rc := { s.rc with record :=
        { r with held := r.held && r.renewed, renewed := !r.held && r.renewed } }
      router := { s.router with returnP := [statusWord s 0x02C] } }) ∧
  (∀ (c : Cause) (k : Nat) (b : Bool) (s : State),
    (fillRecord c k b s).rc.record =
      { cause := some c, p := s.rc.p, lead := s.lead, retries := k, pending := b
        renewed := s.rc.record.renewed || s.rc.record.held, held := s.rc.record.held }) ∧
  (∀ (offset : Nat) (s : State), offset / 4 ≠ 8 → offset / 4 ≠ 11 → captureEffect offset s = s) ∧
  (∀ (straps : BitVec 2) (s : State), (resetBlocks straps s).rc.record = CaptureRecord.empty)

/-- R186: the fields of status word 0x008, whatever the state, and beside it those of every other status
word: flags, command unit, target, cursor, lead, counts, loaded disc, capture record, Gap Table and Resume
Table views, parameters and counters; offsets not listed read 0. (A command code wider than its field:
log 21.) -/
def Obligations.ModesWordFields : Prop :=
  ∀ s : State,
    ((statusWord s 0x008).extractLsb' 0 4 = BitVec.ofNat 4 s.rc.phase.code ∧
      (statusWord s 0x008).extractLsb' 4 2 = BitVec.ofNat 2 s.play.mode.code ∧
      (statusWord s 0x008).extractLsb' 6 2 = 0 ∧
      (statusWord s 0x008).extractLsb' 8 2 = BitVec.ofNat 2 s.quality.level.code ∧
      (statusWord s 0x008).extractLsb' 10 6 = 0 ∧
      (statusWord s 0x008).extractLsb' 16 8 = BitVec.ofNat 8 s.quality.counter ∧
      (statusWord s 0x008).getLsbD 24 = s.supply.low ∧
      (statusWord s 0x008).getLsbD 25 = (s.lines.taken == .closed) ∧
      (statusWord s 0x008).extractLsb' 26 6 = 0) ∧
    statusWord s 0x000 = s.ctl.flags.setWidth 32 ∧
    ((statusWord s 0x004).getLsbD 0 = s.ctl.busy ∧
      (statusWord s 0x004).getLsbD 1 = (s.ctl.latch != 0) ∧
      (statusWord s 0x004).extractLsb' 2 2 = 0 ∧
      (statusWord s 0x004).extractLsb' 4 2 = BitVec.ofNat 2 s.ctl.applyInd.code ∧
      (statusWord s 0x004).extractLsb' 6 2 = 0 ∧
      (s.ctl.lastCode.toNat < 256 →
        (statusWord s 0x004).extractLsb' 8 8 = s.ctl.lastCode.extractLsb' 0 8) ∧
      (statusWord s 0x004).extractLsb' 16 3 = BitVec.ofNat 3 s.ctl.lastResult.code ∧
      (statusWord s 0x004).extractLsb' 19 13 = 0) ∧
    statusWord s 0x00C = (BitVec.ofNat 19 s.rc.target).setWidth 32 ∧
    statusWord s 0x010 = (BitVec.ofNat 28 s.play.cursor).setWidth 32 ∧
    statusWord s 0x014 = (BitVec.ofNat 29 s.lead).setWidth 32 ∧
    ((statusWord s 0x018).extractLsb' 0 5 = BitVec.ofNat 5 s.map.segs.length ∧
      (statusWord s 0x018).extractLsb' 5 11 = 0 ∧
      (statusWord s 0x018).extractLsb' 16 11 = BitVec.ofNat 11 (freeCount s) ∧
      (statusWord s 0x018).extractLsb' 27 5 = 0) ∧
    statusWord s 0x01C = s.rc.loaded.getD 0 ∧
    ((statusWord s 0x020).extractLsb' 0 2 = BitVec.ofNat 2 (causeCode s.rc.record.cause) ∧
      (statusWord s 0x020).extractLsb' 2 6 = 0 ∧
      (statusWord s 0x020).getLsbD 8 = s.rc.record.pending ∧
      (statusWord s 0x020).getLsbD 9 = s.rc.record.renewed ∧
      (statusWord s 0x020).extractLsb' 10 22 = 0) ∧
    statusWord s 0x024 = (BitVec.ofNat 28 s.rc.record.p).setWidth 32 ∧
    statusWord s 0x028 = (BitVec.ofNat 29 s.rc.record.lead).setWidth 32 ∧
    statusWord s 0x02C = (BitVec.ofNat 3 s.rc.record.retries).setWidth 32 ∧
    (∀ n, n < 8 →
      match s.gaps.entries[n]? with
      | none => statusWord s (0x040 + 8 * n) = 0 ∧ statusWord s (0x044 + 8 * n) = 0
      | some e =>
        (statusWord s (0x040 + 8 * n)).extractLsb' 0 19 = BitVec.ofNat 19 e.label ∧
        (statusWord s (0x040 + 8 * n)).extractLsb' 19 11 = 0 ∧
        ((statusWord s (0x040 + 8 * n)).getLsbD 30 = true ↔
          ∃ r, s.gaps.fetch = some r ∧ r.label = e.label ∧ r.slot = e.slot) ∧
        (statusWord s (0x040 + 8 * n)).getLsbD 31 = true ∧
        (statusWord s (0x044 + 8 * n)).extractLsb' 0 10 = BitVec.ofNat 10 e.slot ∧
        (statusWord s (0x044 + 8 * n)).extractLsb' 10 6 = 0 ∧
        (statusWord s (0x044 + 8 * n)).extractLsb' 16 3 = BitVec.ofNat 3 e.retries ∧
        (statusWord s (0x044 + 8 * n)).extractLsb' 19 13 = 0) ∧
    (∀ n, n < 6 →
      ((resumeAt s n).valid = false →
        statusWord s (0x080 + 12 * n) = 0 ∧ statusWord s (0x084 + 12 * n) = 0 ∧
        statusWord s (0x088 + 12 * n) = 0) ∧
      ((resumeAt s n).valid = true →
        (statusWord s (0x080 + 12 * n)).extractLsb' 0 8 = BitVec.ofNat 8 (resumeAt s n).age ∧
        (statusWord s (0x080 + 12 * n)).extractLsb' 8 6 = BitVec.ofNat 6 (resumeAt s n).tailCount ∧
        (statusWord s (0x080 + 12 * n)).extractLsb' 14 17 = 0 ∧
        (statusWord s (0x080 + 12 * n)).getLsbD 31 = true ∧
        statusWord s (0x084 + 12 * n) = (resumeAt s n).fingerprint ∧
        statusWord s (0x088 + 12 * n) = (BitVec.ofNat 28 (resumeAt s n).frame).setWidth 32)) ∧
    (let p := s.ctl.params;
      (List.range 21).map (fun i => statusWord s (0x100 + 4 * i)) =
        [p.ringBase, p.ringSlots, p.intakeBase, p.playBase, p.lowWater, p.holdMargin, p.distrust,
          p.matchLen, p.span, p.tol, p.preroll, p.seekTimeout, p.retryLimit, p.gapLimit, p.gapLead,
          p.gapOrder, p.interpMax, p.shkFilter, p.deb, p.supplyLevel, p.supplyFilter].map
          (BitVec.ofNat 32)) ∧
    (List.range 12).map (fun i => statusWord s (0x180 + 4 * i)) =
      [s.count .framesServed, s.count .concealed, s.count .fill, s.count .breaks, s.count .rejoins,
        s.count .bridges, s.count .gapsFilled, s.count .gapsLate, s.count .gapRefused,
        s.count .droppedBlocks, s.count .intakeDiscards, s.count .accessDrops] ∧
    (∀ offset, (0x030 ≤ offset ∧ offset < 0x040) ∨ (0x0C8 ≤ offset ∧ offset < 0x100) ∨
      (0x154 ≤ offset ∧ offset < 0x180) ∨ 0x1B0 ≤ offset → statusWord s offset = 0)

/-! ### The memory path -/

/-- R130: under a geometry that passes the checks each address falls in exactly the region its bounds
name. -/
def Obligations.RegionsAreTheirBounds : Prop :=
  ∀ (s : State) (a : Nat), s.parametersOk →
    let p := s.ctl.params
    let base := blockBase s.router.pblk
    (regionOf s a = .ring ↔ p.ringBase ≤ a ∧ a < p.ringBase + p.ringSlots * 2432) ∧
    (regionOf s a = .play ↔ p.playBase ≤ a ∧ a < p.playBase + 4096) ∧
    (regionOf s a = .intake ↔ p.intakeBase ≤ a ∧ a < p.intakeBase + 4096) ∧
    (regionOf s a = .parameter ↔ base ≤ a ∧ a < base + 1024) ∧
    (regionOf s a = .status ↔ base + 1024 ≤ a ∧ a < base + 2048)

/-- R129, R130, R132: a request at a free port is classified when it arrives: of its n beats, each place 0
to n - 1 is either a play place or that of one beat of the main piece, in ascending order; beat i lies at
the start with its low bits zero plus 4i modulo 16 MiB, in the region of that address, with the i-th beat's
data, and only the port P read beats of the play window are left out of the main piece. A request made in
reset is held by its master and changes nothing else (R143; how it waits, and a request that finds its port
busy: log 25). -/
def Obligations.ArrivingRequestIsClassified : Prop :=
  (∀ (r : PortRequest) (s : State), inReset s = false → r.transfer.wellFormed = true →
    requestAt s r.port = none → s.router.waiting = [] →
    ∃ t q, exec (.portRequestArrive r) s = .next t ∧ requestAt t r.port = some q ∧
      t = { s with router := t.router } ∧
      q.isWrite = transferIsWrite r.transfer ∧
      q.main.length + q.plays.length = (transferBeats r.transfer).length ∧
      (q.main.map Beat.place ++ q.plays).Perm (List.range (transferBeats r.transfer).length) ∧
      (q.main.map Beat.place).Pairwise (· < ·) ∧ q.plays.Pairwise (· < ·) ∧
      (∀ b ∈ q.main, (transferBeats r.transfer)[b.place]? = some b.data ∧
        b.addr = (r.addr.toNat / 4 * 4 + 4 * b.place) % 16777216 ∧
        b.region = regionOf s b.addr ∧ isPlayBeat r b = false) ∧
      (∀ k ∈ q.plays, regionOf s ((r.addr.toNat / 4 * 4 + 4 * k) % 16777216) = .play) ∧
      (r.port = .d ∨ transferIsWrite r.transfer = true → q.plays = [])) ∧
  (∀ (r : PortRequest) (s : State), inReset s = true → r.transfer.wellFormed = true →
    exec (.portRequestArrive r) s = .next
      { s with router := { s.router with waiting := s.router.waiting ++ [r] } })

/-- R131, R137: a write in the play window, the status area or the ring region by either port or in the
parameter area by port D, and a port D read of the play window, is dropped, raises ACCESS and counts one
access drop; the read answers 0 (where the words stand: log 25). -/
def Obligations.ProtectedBeatIsDropped : Prop :=
  ∀ (port : Port) (w : Bool) (addr : BitVec 24) (s : State), inReset s = false →
    (w = true ∧ (regionOf s (addr.toNat / 4 * 4) = .play ∨ regionOf s (addr.toNat / 4 * 4) = .status ∨
        regionOf s (addr.toNat / 4 * 4) = .ring ∨
        (regionOf s (addr.toNat / 4 * 4) = .parameter ∧ port = .d))) ∨
      (w = false ∧ regionOf s (addr.toNat / 4 * 4) = .play ∧ port = .d) →
    ∃ t, exec (.protectedBeat port w addr) s = .next t ∧
      t = { s with ctl := t.ctl, router := { s.router with returnD := t.router.returnD } } ∧
      t.ctl = { s.ctl with
        flags := s.ctl.flags ||| BitVec.twoPow 16 13
        counters := { s.ctl.counters with accessDrops := s.ctl.counters.accessDrops + 1 } } ∧
      (w = false → t.router.returnD = [0]) ∧ (w = true → t.router.returnD = s.router.returnD)

/-- R132, R134: a grant to a port P read of one word that passes to memory completes the request with
the word memory holds, left in `returnP` (logs 3 and 25). -/
def Obligations.GrantReadsMemoryForPortP : Prop :=
  ∀ (s : State) (r : ActiveRequest) (b : Beat) (w : Word), inReset s = false →
    s.router.waiting = [] → s.router.reqP = some r → r.isWrite = false → r.main = [b] → r.plays = [] →
    r.buffer = [w] → b.place = 0 → b.region ≠ .play → b.region ≠ .status →
    (enginePresents s = false ∨ s.arb.waitCount ≠ 4) →
    ∃ t, exec .memoryGrant s = .next t ∧
      t = { s with arb := t.arb, router := t.router } ∧
      t.router = { s.router with reqP := none, returnP := [Memory.readWord s.mem b.addr] }

/-- R140, R141: with both ports idle and one client waiting, the engine is granted, the wait count becomes 0 and
the pointer that client. R174: the Control Unit's command word in memory becomes 0. R33: the Intake Unit's front
flag-map request is in memory at its address and leaves the queue. R52: the Controller's piece is read into the
capture, and a frame read whole is gathered. R74, R85, R86: a piece of the Match Engine's reads is read (the last
one scores a candidate, O36, or moves the alignment on), and the merge's copied frames, up to 8 at consecutive
indexes (log 17), or its flag-map request, are in memory. A piece gives each item that it covers the word, or the
mark, that memory holds in the item's slot. R132, R134: a grant to
a port P write, or to a port D read or write, of one word that passes to memory performs it and completes
the request; the wait count then follows R140 (one whole piece a grant: log 3; where read words are left:
log 25). -/
def Obligations.GrantOfTheZeroWrite : Prop :=
  (∀ s : State, s.engineOnly .control →
    ∃ t, exec .memoryGrant s = .next t ∧
      t = { s with mem := t.mem, arb := { waitCount := 0, last := .control }
                   ctl := { s.ctl with zeroWrite := false } } ∧
      t.mem = Memory.writeWord s.mem (blockBase s.router.pblk + 0x080) 0 15) ∧
  (∀ (s : State) (j : WriteJob) (rest : List WriteJob), s.engineOnly .intake → s.intake.flagJobs = j :: rest →
    exec .memoryGrant s = .next { s with
      mem := Memory.writeWords s.mem j.addr j.words, arb := { waitCount := 0, last := .intake }
      intake := { s.intake with flagJobs := rest } }) ∧
  (∀ (s : State) (c : Capture) (p : ReadPiece), s.engineOnly .recovery → s.rc.capture = some c →
    captureWants s = some p →
    ∃ t d, exec .memoryGrant s = .next t ∧
      t = { s with arb := { waitCount := 0, last := .recovery }, rc := { s.rc with capture := some d } } ∧
      d.returns = c.returns ∧ d.items.length = c.items.length ∧
      ∀ (k : Nat) it, c.items[k]? = some it →
        (it.value ≠ none → d.items[k]? = some it) ∧
        (∀ f, it.value = none → (s.play.cursor : Int) ≤ it.pos → it.source = some f →
          let read := fillItem s p f
          d.items[k]? = some { it with
            source := some read, value := if itemRead read then some (itemFrame read) else none })) ∧
  (∀ s : State, s.engineOnly .matcher → s.me.orphans = [] →
    (∀ p, matchWrite s = none → nextPiece s.me.fetch = some p →
      let read := s.me.fetch.map (fillItem s p)
      (∃ f ∈ read, itemRead f = false) →
      exec .memoryGrant s = .next { s with
        arb := { waitCount := 0, last := .matcher }, me := { s.me with fetch := read } }) ∧
    (∀ (a : Align) (i : Nat) (words : List Word) (rest : List (Nat × Word)), s.me.align = some a →
      a.stage = .mergeWrite → a.writes = ((List.range words.length).map fun k => i + k).zip words ++ rest →
      0 < words.length → words.length ≤ 8 →
      (words.length = 8 ∨ ∀ w more, rest ≠ (i + words.length, w) :: more) →
      exec .memoryGrant s = .next { s with
        mem := Memory.writeWords s.mem (s.ctl.params.ringBase + a.slot * 2432 + 4 * i) words
        arb := { waitCount := 0, last := .matcher }
        me := { s.me with align := some { a with writes := rest } } }) ∧
    (∀ (a : Align) (j : WriteJob) (rest : List WriteJob), s.me.align = some a → a.stage = .flagMap →
      a.jobs = j :: rest →
      exec .memoryGrant s = .next { s with
        mem := Memory.writeWords s.mem j.addr j.words, arb := { waitCount := 0, last := .matcher }
        me := { s.me with align := some { a with jobs := rest } } })) ∧
  (∀ (s : State) (n i m : Nat) (f : FetchItem),
    (fillItem s (.frames n i m) f =
      if f.slot = n ∧ i ≤ f.index ∧ f.index < i + m ∧ f.word = none then
        { f with word := some (Memory.readWord s.mem (f.base + 4 * f.index)) } else f) ∧
    (fillItem s (.flags n i m) f =
      if f.slot = n ∧ i ≤ f.index / 32 ∧ f.index / 32 < i + m ∧ f.mark = none then
        let word := Memory.readWord s.mem (f.base + 2352 + 4 * (f.index / 32))
        { f with mark := some (word.getLsbD (f.index % 32)) }
      else f)) ∧
  (∀ (s : State) (r : ActiveRequest) (b : Beat), inReset s = false → s.router.waiting = [] →
    (enginePresents s = false ∨ s.arb.waitCount ≠ 4) → r.main = [b] → r.plays = [] →
    let counted : Arbiter :=
      { s.arb with waitCount := if enginePresents s then min (s.arb.waitCount + 1) 4 else 0 }
    (s.router.reqP = some r → r.isWrite = true → b.region = .elsewhere ∨ b.region = .intake →
      exec .memoryGrant s = .next { s with
        mem := Memory.writeWord s.mem b.addr b.data.data b.data.enables
        arb := counted, router := { s.router with reqP := none } }) ∧
    (s.router.reqP = none → s.play.burst = none → s.router.reqD = some r → r.touchesIntake = false →
      r.opening = false → s.intake.held = [] →
      (r.isWrite = true → b.region = .elsewhere →
        exec .memoryGrant s = .next { s with
          mem := Memory.writeWord s.mem b.addr b.data.data b.data.enables
          arb := counted, router := { s.router with reqD := none } }) ∧
      (∀ w, r.isWrite = false → r.buffer = [w] → b.place = 0 → b.region ≠ .play → b.region ≠ .status →
        exec .memoryGrant s = .next { s with
          arb := counted
          router := { s.router with reqD := none, returnD := [Memory.readWord s.mem b.addr] } })))

/-- R139, R140 and R141: the arbiter's order, the wait count, and the engine requester's cyclic choice. While
port P is requesting without a piece ready the engine is granted if it presents, and never port D. -/
def Obligations.ArbiterOrder : Prop :=
  (∀ s : State, enginePresents s = true → s.arb.waitCount = 4 → chooseGrant s = some .engine) ∧
  (∀ s : State, (enginePresents s = false ∨ s.arb.waitCount ≠ 4) →
    (portPPresents s = true → chooseGrant s = some .portP) ∧
    (portPPresents s = false → portPRequesting s = true → enginePresents s = true →
      chooseGrant s = some .engine) ∧
    (portPPresents s = false → portPRequesting s = true → enginePresents s = false →
      chooseGrant s = none) ∧
    (portPPresents s = false → portPRequesting s = false → portDPresents s = true →
      chooseGrant s = some .portD)) ∧
  (∀ s : State, portPPresents s = false → portDPresents s = false → enginePresents s = true →
    chooseGrant s = some .engine) ∧
  (∀ s : State, s.arb.waitCount ≤ 4 → enginePresents s = true →
    (countWait s).arb.waitCount = if s.arb.waitCount = 4 then 4 else s.arb.waitCount + 1) ∧
  (∀ s : State, enginePresents s = true → ∃ c, nextClient s = some c ∧ c ∈ engineClients s ∧
    ∀ d ∈ engineClients s, (clientOrder s.arb.last).idxOf c ≤ (clientOrder s.arb.last).idxOf d)

/-! ### Block intake -/

/-- R5, R25, R27: a full header with no block being filled takes the first FREE slot from the allocation
pointer on. R38: in STREAMING the header that leaves HOLD_MARGIN slots FREE, or fewer, asserts HOLD. R32, R33:
a full header during FILLING completes the block instead: the frames not written are marked, the counts are
final, the flag map is issued as three requests of 8, 8 and 4 words, and the header is held. R59, R81: an
allocation that takes the last FREE slot while an accepted decision waits fails the attempt, and the block just
begun is stale (when the count is looked at: log 11). -/
def Obligations.HeaderAllocatesSlot : Prop :=
  ∀ (w : Word) (s : State) (n : Nat), inReset s = false →
    s.rc.phase ≠ .parked → s.rc.phase ≠ .lost →
    ((s.intake.phase = .none ∨ s.intake.phase = .refused) → findFree s = some n →
      (s.rc.phase = .matching → decisionWaits s.rc.wait = true → freeCount s ≠ 1) →
      ∃ t, exec (.intakeHeader w 15) s = .next t ∧
        t.intake.phase = .filling ∧ t.intake.slot = some n ∧ t.intake.written = 0 ∧ t.intake.marks = 0 ∧
        (∀ k, slotAt t k = if k = n then
            { SlotDesc.free with
              state := .filling, label := some (headerLabel w), trusted := headerTrusted w
              arrival := arrivalIn s.rc.phase, stale := s.intake.staleHeld }
          else slotAt s k) ∧
        t.map.allocPtr = (if n + 1 = s.map.slots.length then 0 else n + 1) ∧
        t.map.segs = s.map.segs ∧
        (s.rc.phase = .streaming → s.intake.hold = false → freeCount s ≤ s.ctl.params.holdMargin + 1 →
          t.intake.hold = true ∧ t.rc.phase = .holding) ∧
        (s.rc.phase ≠ .streaming ∨ s.intake.hold = true ∨ s.ctl.params.holdMargin + 1 < freeCount s →
          t.intake.hold = s.intake.hold ∧ t.rc.phase = s.rc.phase) ∧
        t = { s with map := t.map, intake := t.intake, rc := { s.rc with phase := t.rc.phase } }) ∧
    (s.intake.phase = .filling → s.intake.slot = some n → n < s.map.slots.length →
      let marks := s.intake.marks ||| ~~~s.intake.written
      ∃ t a b c, exec (.intakeHeader w 15) s = .next t ∧
        t = { s with map := t.map, intake := t.intake } ∧
        t.intake = { s.intake with
          phase := .handingOver, marks := marks, held := s.intake.held ++ [.header w 15]
          flagJobs := s.intake.flagJobs ++ [a, b, c] } ∧
        (∀ k, slotAt t k = if k = n then
            { slotAt s n with written := 588, erasures := countMarks marks } else slotAt s k) ∧
        a.addr = s.ctl.params.ringBase + n * 2432 + 2352 ∧ a.words.length = 8 ∧
        b.addr = a.addr + 32 ∧ b.words.length = 8 ∧ c.addr = a.addr + 64 ∧ c.words.length = 4 ∧
        ∀ i, i < 640 → (a.words ++ b.words ++ c.words)[i / 32]?.map (fun x => x.getLsbD (i % 32)) =
          some (marks.getLsbD i)) ∧
    ((s.intake.phase = .none ∨ s.intake.phase = .refused) → findFree s = some n → freeCount s = 1 →
      s.rc.phase = .matching → decisionWaits s.rc.wait = true → (∀ b ∈ s.rc.run, b.slot ≠ n) →
      ∃ t, exec (.intakeHeader w 15) s = .next t ∧ t.intake.phase = .filling ∧ t.intake.slot = some n ∧
        (slotAt t n).stale = true ∧ t.rc.run = [] ∧ t.rc.wait = .none ∧ t.me.attempt = none ∧
        t.rc.rrq = true ∧ t.rc.deadline = s.ctl.params.seekTimeout ∧
        (s.rc.retry < s.ctl.params.retryLimit →
          t.rc.phase = .seeking ∧ t.rc.retry = s.rc.retry + 1 ∧
          t.rc.target = s.rc.p / 588 - s.ctl.params.preroll) ∧
        (s.ctl.params.retryLimit ≤ s.rc.retry →
          t.rc.phase = .bridging ∧ t.rc.retry = s.rc.retry ∧ t.rc.target = s.rc.p / 588))

/-- R6, R28: with no slot FREE the header is refused, OVERFLOW raised and one dropped block counted; no
descriptor and no pointer changes. The refused block's frames are dropped, whatever slots have become FREE
since; a header that arrives with a slot FREE is allocated it. -/
def Obligations.HeaderRefusedWithoutSlot : Prop :=
  ∀ (w : Word) (s : State), inReset s = false → s.rc.phase ≠ .parked →
    (s.rc.phase ≠ .lost → (s.intake.phase = .none ∨ s.intake.phase = .refused) → findFree s = none →
      exec (.intakeHeader w 15) s = .next { s with
        intake := { s.intake with phase := .refused, staleHeld := false }
        ctl := { s.ctl with
          flags := s.ctl.flags ||| BitVec.twoPow 16 5
          counters := { s.ctl.counters with droppedBlocks := s.ctl.counters.droppedBlocks + 1 } } }) ∧
    (∀ i en ers, i < 588 → s.intake.phase = .refused → exec (.intakeFrame i w en ers) s = .next s) ∧
    (∀ n, s.rc.phase ≠ .lost → (s.intake.phase = .none ∨ s.intake.phase = .refused) →
      findFree s = some n →
      ∃ t, exec (.intakeHeader w 15) s = .next t ∧ t.intake.phase = .filling ∧ t.intake.slot = some n)

/-- R24, R25, R41: a header without all four enables and a beat at an unused offset are dropped, raise
ACCESS and count one access drop each. -/
def Obligations.MisusedIntakeBeats : Prop :=
  ∀ s : State, inReset s = false → s.intake.phase ≠ .handingOver →
    let dropped : State := { s with ctl := { s.ctl with
      flags := s.ctl.flags ||| BitVec.twoPow 16 13
      counters := { s.ctl.counters with accessDrops := s.ctl.counters.accessDrops + 1 } } }
    (∀ (w : Word) (en : BitVec 4), en ≠ 15 → exec (.intakeHeader w en) s = .next dropped) ∧
    (∀ offset, 2356 ≤ offset → offset ≤ 4092 → offset % 4 = 0 →
      exec (.intakeUnusedBeat offset) s = .next dropped)

/-- R29, R30: a frame beat of a FILLING block writes its enabled bytes at the slot's address, joins the
written set and takes ERS as its mark; no other byte of memory changes. R32, R33: with the 588th frame of
the written set the block completes by count, and its flag map is issued. -/
def Obligations.FrameBeatIsWritten : Prop :=
  ∀ (i : Nat) (w : Word) (en : BitVec 4) (ers : Bool) (s : State) (n : Nat), inReset s = false →
    i < 588 → en ≠ 0 → s.rc.phase ≠ .parked → s.intake.phase = .filling → s.intake.slot = some n →
    n < s.map.slots.length → Memory.wf s.mem = true →
    let written := setMark s.intake.written i true
    let marks := setMark s.intake.marks i ers
    ∃ t, exec (.intakeFrame i w en ers) s = .next t ∧
      t = { s with mem := t.mem, map := t.map, intake := t.intake } ∧
      (countMarks written ≠ 588 →
        t.intake = { s.intake with written := written, marks := marks }) ∧
      (countMarks written = 588 →
        t.intake = { s.intake with
          phase := .handingOver, written := written, marks := marks
          flagJobs := s.intake.flagJobs ++ flagMapJobs s n marks }) ∧
      (∀ k, slotAt t k = if k = n then
          { slotAt s n with written := countMarks written, erasures := countMarks marks }
        else slotAt s k) ∧
      (∀ a, ¬ (frameAddr s n i ≤ a ∧ a < frameAddr s n i + 4) →
        Memory.read t.mem a = Memory.read s.mem a) ∧
      (∀ k, k < 4 → Memory.read t.mem (frameAddr s n i + k) =
        if en.getLsbD k then byteOf w k else Memory.read s.mem (frameAddr s n i + k))

/-- R26, R31, R41: a frame beat in NONE, or in PARKED, is an intake discard; one in REFUSED counts nowhere.
That one with no byte enable counts nowhere either, in PARKED too, is the model's reading (log 9). -/
def Obligations.FrameBeatIsDropped : Prop :=
  ∀ (i : Nat) (w : Word) (en : BitVec 4) (ers : Bool) (s : State), inReset s = false → i < 588 →
    s.intake.phase ≠ .handingOver →
    let counted : State := { s with ctl := { s.ctl with
      counters := { s.ctl.counters with intakeDiscards := s.ctl.counters.intakeDiscards + 1 } } }
    (en = 0 → exec (.intakeFrame i w en ers) s = .next s) ∧
    (en ≠ 0 → s.rc.phase = .parked ∨ s.intake.phase = .none →
      exec (.intakeFrame i w en ers) s = .next counted) ∧
    (en ≠ 0 → s.rc.phase ≠ .parked → s.intake.phase = .refused →
      exec (.intakeFrame i w en ers) s = .next s)

/-- R35: during a hand-off every intake beat is held and changes nothing else. -/
def Obligations.HandOffHoldsIntakeBeats : Prop :=
  ∀ s : State, inReset s = false → s.intake.phase = .handingOver →
    let holding := fun (b : IntakeBeat) =>
      ({ s with intake := { s.intake with held := s.intake.held ++ [b] } } : State)
    (∀ w en, exec (.intakeHeader w en) s = .next (holding (.header w en))) ∧
    (∀ i w en ers, i < 588 → exec (.intakeFrame i w en ers) s = .next (holding (.frame i w en ers))) ∧
    (∀ offset, 2356 ≤ offset → offset ≤ 4092 → offset % 4 = 0 →
      exec (.intakeUnusedBeat offset) s = .next (holding .unused))

/-! ### Block reports -/

/-- R34, R47, R12: in STARTING with an empty list a trusted block at or after the start block forms the
head: one open segment, RRQ deasserted, stream started, the expected label one above. R62: in BRIDGING a
trusted block at or above block(P) forms a BRIDGED head at the larger of P and its first frame, with shift 0:
BRIDGE is raised and counted, the retry count is 0, RRQ is deasserted; with 16 segments live the block is held
STAGED instead. -/
def Obligations.ReportFormsStartHead : Prop :=
  (∀ (s : State) (n l : Nat), inReset s = false → s.rc.phase = .starting → s.rc.capture = none →
      s.intake.phase = .handingOver → s.intake.flagJobs = [] → s.intake.slot = some n →
      s.intake.held = [] → s.intake.hold = false → n < s.map.slots.length →
      s.map.segs = [] → s.map.nextId < 32 → s.gaps.entries = [] →
      (∀ d ∈ s.map.slots, d.owner = none) →
      (slotAt s n).label = some l → (slotAt s n).trusted = true → (slotAt s n).stale = false →
      s.rc.startFrame / 588 ≤ l →
      ∃ t, exec .blockReport s = .next t ∧
        t.map.segs = [{
          id := s.map.nextId, start := max s.rc.startFrame (l * 588)
          length := (l + 1) * 588 - max s.rc.startFrame (l * 588)
          shift := 0, kind := s.rc.startKind, isOpen := true }] ∧
        (slotAt t n).state = .linked ∧ (slotAt t n).owner = some s.map.nextId ∧
        t.rc.expected = some (l + 1) ∧ t.rc.started = true ∧ t.rc.rrq = false ∧
        (t.rc.phase = .streaming ∨ t.rc.phase = .holding) ∧ t.intake.phase = .none ∧ t.mem = s.mem) ∧
  (∀ (s : State) (n l : Nat), s.reports n → s.rc.phase = .bridging → s.rc.wait = .none → s.rc.run = [] →
    (slotAt s n).label = some l → (slotAt s n).trusted = true → (slotAt s n).stale = false →
    (slotAt s n).arrival = .reread → s.rc.p / 588 ≤ l → l < 450000 →
    let start := max s.rc.p (l * 588)
    (s.map.segs.length < 16 → openSeg s = none → (∀ g, lastSeg s = some g → g.stop ≤ start) →
      (∀ d ∈ s.map.slots, d.owner ≠ some (freshId s.map)) →
      ∃ t, exec .blockReport s = .next t ∧
        t.map.segs = s.map.segs ++ [{
          id := freshId s.map, start := start, length := (l + 1) * 588 - start, shift := 0
          kind := .bridged, isOpen := true }] ∧
        (slotAt t n).state = .linked ∧ (slotAt t n).owner = some (freshId s.map) ∧
        t.flag .bridge = true ∧ t.count .bridges = s.count .bridges + 1 ∧ t.rc.retry = 0 ∧
        t.rc.expected = some (l + 1) ∧ t.rc.started = true ∧ t.rc.rrq = false ∧ t.rc.run = [] ∧
        t.rc.wait = .none ∧ t.intake.phase = .none ∧ t.mem = s.mem ∧
        (t.rc.phase = .streaming ∨ t.rc.phase = .holding ∨ t.rc.phase = .gapFetch)) ∧
    (s.map.segs.length = 16 →
      ∃ t, exec .blockReport s = .next t ∧ t.rc.phase = .bridging ∧ t.rc.wait = .bridge ∧
        t.rc.run = [{ slot := n, label := l }] ∧ t.rc.rrq = false ∧ t.map.segs = s.map.segs ∧
        slotAt t n = { slotAt s n with state := .staged, owner := none } ∧ t.intake.phase = .none ∧
        t.mem = s.mem))

/-- R13, R49, R63, R34: in HOLDING a block with the expected label is appended to the open segment; the
expected label rises by one, the segment by 588 frames, and the hand-off ends. So it is in STREAMING, for an
untrusted block too, which takes the expected label; there the report asserts HOLD and enters HOLDING where
the FREE slot count is at most HOLD_MARGIN (R38), and a scratch block far enough ahead of the cursor gets a
Gap Table entry (R92). With lead then GAP_LEAD blocks or more, fewer than 16 segments and no fetch in progress
that entry is fetched at once (R95, R96): GAPFETCH is entered, the fetch record made and the label below
published. R50: in STREAMING a trusted block with another label is discarded and breaks the stream at the end of
the open segment, with no distrust. R63: in HOLDING such a block is discarded without a break; where its slot
brings the FREE slot count to HOLD_MARGIN + 8 the hold return is taken (R39). -/
def Obligations.ReportAppendsInHolding : Prop :=
  (∀ (s : State) (n e : Nat) (g : Segment), inReset s = false → s.rc.phase = .holding →
      s.rc.capture = none → s.intake.phase = .handingOver → s.intake.flagJobs = [] →
      s.intake.slot = some n → s.intake.held = [] → n < s.map.slots.length →
      openSeg s = some g → s.rc.expected = some e → (slotAt s n).label = some e →
      (slotAt s n).stale = false → (slotAt s n).state = .filling → ownsLabel s g.id e n = false →
      (e * 588 : Int) = g.stop + g.shift → freeCount s < s.ctl.params.holdMargin + 8 →
      ∃ t, exec .blockReport s = .next t ∧
        t.rc.phase = .holding ∧ t.rc.expected = some (e + 1) ∧
        t.map.segs = s.map.segs.dropLast ++ [{ g with length := g.length + 588 }] ∧
        (slotAt t n).state = .linked ∧ (slotAt t n).owner = some g.id ∧ (slotAt t n).label = some e ∧
        t.intake.phase = .none ∧ t.intake.slot = none ∧ t.mem = s.mem ∧ t.play = s.play) ∧
  (∀ (s : State) (n e : Nat) (g : Segment), s.reports n → s.rc.phase = .streaming →
    (slotAt s n).stale = false → openSeg s = some g → s.rc.expected = some e →
    ((slotAt s n).label = some e ∨ ((slotAt s n).trusted = false ∧ e < 450000) →
      (slotAt s n).state = .filling → ownsLabel s g.id e n = false → (e * 588 : Int) = g.stop + g.shift →
      s.gaps.entries = [] →
      ∃ t, exec .blockReport s = .next t ∧ t.rc.expected = some (e + 1) ∧
        t.map.segs = s.map.segs.dropLast ++ [{ g with length := g.length + 588 }] ∧
        (slotAt t n).state = .linked ∧ (slotAt t n).owner = some g.id ∧ (slotAt t n).label = some e ∧
        t.intake.phase = .none ∧ t.intake.slot = none ∧ t.mem = s.mem ∧ t.play = s.play ∧
        ((slotAt s n).erasures ≤ s.ctl.params.gapLimit →
          t.gaps = s.gaps ∧
          (s.ctl.params.holdMargin < freeCount s → t.rc.phase = .streaming ∧ t.intake.hold = false) ∧
          (freeCount s ≤ s.ctl.params.holdMargin → t.rc.phase = .holding ∧ t.intake.hold = true)) ∧
        (s.ctl.params.gapLimit < (slotAt s n).erasures →
          s.quality.level = .normal ∨ s.quality.level = .warned → s.quality.counter + 8 ≤ 255 →
          s.play.cursor + s.ctl.params.gapLead * 588 ≤ g.stop →
          t.gaps.entries = [{ label := e, slot := n, retries := 0 }] ∧ (slotAt t n).gapMark = true ∧
          (s.gaps.fetch = none → s.ctl.params.gapLead * 588 ≤ s.lead + 588 → s.map.segs.length < 16 →
            (∀ x ∈ s.map.segs.dropLast, x.id ≠ g.id) →
            t.rc.phase = .gapFetch ∧ t.intake.hold = false ∧ t.gaps.fetch = some
              { phase := .fetching, label := e, slot := n, staged := [], late := false, abandoned := false } ∧
            t.rc.target = e - 1 ∧ t.rc.rrq = true ∧ t.rc.rrqEdges = s.rc.rrqEdges + 1 ∧
            t.rc.deadline = s.ctl.params.seekTimeout ∧ (openSeg t).isSome = true) ∧
          (s.lead + 588 < s.ctl.params.gapLead * 588 ∨ s.gaps.fetch.isSome = true ∨
              16 ≤ s.map.segs.length →
            t.gaps.fetch = s.gaps.fetch ∧ t.rc.rrq = s.rc.rrq ∧ t.rc.target = s.rc.target ∧
            (t.rc.phase = .streaming ∨ t.rc.phase = .holding)))) ∧
    (∀ l, (slotAt s n).label = some l → (slotAt s n).trusted = true → l ≠ e →
      ∃ t, exec .blockReport s = .next t ∧ slotAt t n = SlotDesc.free ∧
        t.rc.phase = .lost ∧ t.rc.rrq = false ∧ t.rc.origin = some .discontinuity ∧
        t.rc.cause = some .discontinuity ∧ t.rc.retry = 0 ∧ t.rc.bridgePending = false ∧
        t.rc.p = g.stop ∧ openSeg t = none ∧ t.rc.record =
          { cause := some .discontinuity, p := g.stop, lead := t.lead, retries := s.rc.retry, pending := false
            renewed := s.rc.record.renewed || s.rc.record.held, held := s.rc.record.held } ∧
        t.flag .breakTaken = true ∧ t.count .breaks = s.count .breaks + 1 ∧ t.intake.phase = .none ∧
        t.rc.capture.isSome = true ∧ t.mem = s.mem)) ∧
  (∀ (s : State) (n e l : Nat) (g : Segment), inReset s = false → s.rc.phase = .holding →
    s.rc.capture = none → s.intake.phase = .handingOver → s.intake.flagJobs = [] →
    s.intake.slot = some n → s.intake.held = [] → s.intake.hold = true → n < s.map.slots.length →
    openSeg s = some g → s.rc.expected = some e → (slotAt s n).label = some l →
    (slotAt s n).trusted = true → l ≠ e → (slotAt s n).stale = false → (slotAt s n).state = .filling →
    (∀ x, s.map.segs.head? = some x → x.stop ≠ s.play.cursor) →
    ∃ t, exec .blockReport s = .next t ∧ slotAt t n = SlotDesc.free ∧ t.intake.phase = .none ∧
      t.intake.slot = none ∧ t.rc.expected = some e ∧ t.count .breaks = s.count .breaks ∧ t.mem = s.mem ∧
      t.play = s.play ∧
      (freeCount s + 1 < s.ctl.params.holdMargin + 8 →
        t.rc = s.rc ∧ t.intake.hold = true ∧ t.map.segs = s.map.segs) ∧
      (s.ctl.params.holdMargin + 8 ≤ freeCount s + 1 → s.holdReturned t g))

/-- R48, R53: a stale block, and any block in LOST, is discarded: its slot becomes FREE with the FREE
values of R4, and the Intake Unit is empty again. R57: in SEEKING an untrusted block or one below the block of
P - K_eff - SPAN is discarded, one above block(P) + 1 fails the attempt, any other is staged and begins the
run in MATCHING. R58: in MATCHING with the run still short, the block after the last staged one, or an
untrusted one, joins the run and is scored, any other fails the attempt, and so does a run still short with no
slot FREE. R97: in GAPFETCH a block is judged by its label, or one above the highest staged: freed, staged for
the fetch, or, from g + 1 on, the fetch's end, which goes on to the alignment (R98). -/
def Obligations.ReportDiscardsStaleBlock : Prop :=
  (∀ (s : State) (n : Nat), inReset s = false → s.rc.capture = none → s.rc.phase ≠ .streaming →
      s.intake.phase = .handingOver → s.intake.flagJobs = [] → s.intake.slot = some n →
      s.intake.held = [] → s.intake.hold = false → (slotAt s n).gapMark = false →
      ((slotAt s n).stale = true ∨ s.rc.phase = .lost) →
      ∃ t, exec .blockReport s = .next t ∧
        (∀ k, slotAt t k = if k = n then SlotDesc.free else slotAt s k) ∧
        t.intake.phase = .none ∧ t.intake.slot = none ∧ t.rc = s.rc ∧ t.ctl = s.ctl ∧ t.mem = s.mem ∧
        t.map.segs = s.map.segs ∧ t.play = s.play) ∧
  ∀ (s : State) (n l : Nat), s.reports n → (slotAt s n).stale = false → (slotAt s n).label = some l →
    (slotAt s n).gapMark = false →
    let freed := fun (t : State) => exec .blockReport s = .next t ∧ slotAt t n = SlotDesc.free ∧
      t.intake.phase = .none ∧ t.mem = s.mem
    let staged := fun (t : State) (x : Nat) => exec .blockReport s = .next t ∧
      slotAt t n = { slotAt s n with state := .staged, label := some x, owner := none } ∧
      t.intake.phase = .none ∧ t.mem = s.mem
    let low := (s.rc.p - s.rc.kEff - s.rc.span) / 588
    (s.rc.phase = .seeking → (slotAt s n).arrival = .reread →
      ((slotAt s n).trusted = false ∨ l < low → ∃ t, freed t ∧ t.rc = s.rc) ∧
      ((slotAt s n).trusted = true → low ≤ l → s.rc.p / 588 + 1 < l → ∃ t, freed t ∧ s.attemptFailed t) ∧
      ((slotAt s n).trusted = true → low ≤ l → l ≤ s.rc.p / 588 + 1 → l < 450000 → s.rc.run = [] →
        (slotAt s n).state = .filling → freeCount s ≠ 0 → s.me.activity = .idle →
        ∃ t a, staged t l ∧ t.rc = { s.rc with
            phase := .matching, rrq := false, run := [{ slot := n, label := l }] } ∧
          t.me.activity = .scoring ∧ t.me.attempt = some a ∧ a.p = s.rc.p ∧ a.runStart = l * 588 ∧
          a.scoredTo = some (l * 588 + 587))) ∧
    (s.rc.phase = .matching → (slotAt s n).arrival = .reread → s.rc.wait = .none →
      ∀ m, s.rc.run.getLast? = some m → (m.label + 1) * 588 < s.rc.p + s.rc.span →
      ((slotAt s n).trusted = true → l ≠ m.label + 1 →
        ∃ t, freed t ∧ s.attemptFailed t ∧
          ∀ x ∈ s.rc.run, x.slot < s.map.slots.length → slotAt t x.slot = SlotDesc.free) ∧
      ((slotAt s n).trusted = false ∨ l = m.label + 1 → m.label + 1 < 450000 →
        (slotAt s n).state = .filling →
        (∀ a, freeCount s ≠ 0 → s.me.activity = .idle → s.me.attempt = some a →
          a.scoredTo ≠ some ((m.label + 1) * 588 + 587) →
          ∃ t, staged t (m.label + 1) ∧ t.rc = { s.rc with
              run := s.rc.run ++ [{ slot := n, label := m.label + 1 }] } ∧ t.me.activity = .scoring ∧
            t.me.attempt = some { a with scoredTo := some ((m.label + 1) * 588 + 587) }) ∧
        (freeCount s = 0 → (m.label + 2) * 588 < s.rc.p + s.rc.span →
          ∃ t, freed t ∧ s.attemptFailed t))) ∧
    (s.rc.phase = .gapFetch → (slotAt s n).arrival = .gapFetch →
      ∀ r, s.gaps.fetch = some r → r.phase = .fetching →
      ((slotAt s n).trusted = false → r.staged = [] → ∃ t, freed t ∧ t.rc = s.rc ∧ t.gaps = s.gaps) ∧
      ∀ q, ((slotAt s n).trusted = true ∧ q = l) ∨ ((slotAt s n).trusted = false ∧
          ∃ b ∈ r.staged, (∀ x ∈ r.staged, x.label ≤ b.label) ∧ q = b.label + 1) →
        let blocks := r.staged ++ [{ slot := n, label := q }]
        let aligns := fun (t : State) (l : List StagedBlock) => t.me.activity = .aligning ∧
          t.gaps.fetch = some { r with phase := .merging, staged := l } ∧
          ∃ a, t.me.align = some a ∧ a.label = r.label ∧ a.slot = r.slot ∧ a.blocks = l
        (q + 1 < r.label ∨ (q ≤ r.label + 1 ∧ ∃ b ∈ r.staged, b.label = q) ∨
            (r.label + 1 < q ∧ (slotAt s n).trusted = false) →
          ∃ t, freed t ∧ t.rc = s.rc ∧ t.gaps = s.gaps) ∧
        (q = r.label ∨ q + 1 = r.label → (∀ b ∈ r.staged, b.label ≠ q) → q < 450000 →
          ∃ t, staged t q ∧ t.rc = { s.rc with rrq := false } ∧
            t.gaps = { s.gaps with fetch := some { r with staged := blocks } }) ∧
        (q = r.label + 1 → (∀ b ∈ r.staged, b.label ≠ q) → q < 450000 → gapPresent s r = true →
          ∃ t, staged t q ∧ t.rc = { s.rc with rrq := false } ∧ aligns t blocks) ∧
        (r.label + 1 < q → (slotAt s n).trusted = true → r.staged ≠ [] → gapPresent s r = true →
          ∃ t, freed t ∧ t.rc = s.rc ∧ aligns t r.staged))

/-! ### Breaks, sequences, deadlines -/

/-- R45, R50, R51, R66: a shock or track loss in STREAMING or HOLDING fixes P as the larger of the distrusted
end and the cursor, truncates the open segment to P, with its slots of no frame below P and the slot being
filled made FREE, fills the capture record, raises and counts BREAK, releases HOLD, discards the block being
filled and enters LOST with the tail capture begun. R15: the distrusted end is the end of the open segment for
DISTRUST 0, its stream start where it owns no more than DISTRUST slots, and otherwise the end of the block that
has DISTRUST of its labels above it. (A slot that P cuts through stays LINKED: log 41.) R61: in SEEKING or
MATCHING it keeps the sequence and its P, frees the run, and raises the retry count or sets bridge-pending; a
shock leaves LOST at once. R65: in GAPFETCH it abandons the fetch and begins a sequence at the end of the open
segment. -/
def Obligations.LineEventBreaksStream : Prop :=
  ∀ s : State, inReset s = false → s.rc.capture = none → s.intake.held = [] →
    ∀ (c : Instr) (k : Cause),
      (c = .shockEvent ∧ k = .shock) ∨ (c = .trackLostEvent ∧ k = .trackLost) →
      ((s.rc.phase = .streaming ∨ s.rc.phase = .holding) →
        ∃ t, exec c s = .next t ∧
          t.rc.phase = .lost ∧ t.rc.rrq = false ∧ t.rc.origin = some k ∧ t.rc.cause = some k ∧
          t.rc.retry = 0 ∧ t.rc.bridgePending = false ∧
          t.rc.p = max (distrustedEnd s.ctl.params.distrust s) s.play.cursor ∧
          (∀ g, openSeg s = some g → s.truncated t g t.rc.p ∧
            let owned := s.map.slots.filter fun d => d.owner == some g.id
            (s.ctl.params.distrust = 0 → t.rc.p = max g.stop s.play.cursor) ∧
            (s.ctl.params.distrust ≠ 0 → owned.length ≤ s.ctl.params.distrust →
              t.rc.p = max g.start s.play.cursor) ∧
            (s.ctl.params.distrust ≠ 0 → ∀ d ∈ owned,
              (owned.countP fun x => decide (labelOf d < labelOf x)) = s.ctl.params.distrust →
              ∀ e : Nat, (e : Int) = ((labelOf d + 1) * 588 : Nat) - g.shift → g.start ≤ e → e ≤ g.stop →
              t.rc.p = max e s.play.cursor)) ∧
          t.rc.record =
            { cause := some k, p := t.rc.p, lead := t.lead, retries := s.rc.retry, pending := false
              renewed := s.rc.record.renewed || s.rc.record.held, held := s.rc.record.held } ∧
          t.flag .breakTaken = true ∧ t.count .breaks = s.count .breaks + 1 ∧
          t.intake.hold = false ∧ t.intake.phase = .none ∧ t.rc.capture.isSome = true ∧
          t.rc.kEff = s.ctl.params.matchLen ∧ t.rc.span = s.ctl.params.span ∧ t.mem = s.mem) ∧
      ((s.rc.phase = .seeking ∨ s.rc.phase = .matching) →
        ∃ t, exec c s = .next t ∧
          t.rc.p = s.rc.p ∧ t.rc.origin = s.rc.origin ∧ t.rc.cause = some k ∧ t.rc.tail = s.rc.tail ∧
          t.rc.run = [] ∧ t.rc.wait = .none ∧ t.me.attempt = none ∧ t.intake.phase = .none ∧
          t.rc.record =
            { cause := some k, p := s.rc.p, lead := t.lead, retries := s.rc.retry
              pending := s.rc.seqBroken || s.rc.origin == some .shock ||
                s.rc.origin == some .trackLost || s.rc.origin == some .discontinuity
              renewed := s.rc.record.renewed || s.rc.record.held, held := s.rc.record.held } ∧
          t.flag .breakTaken = true ∧ t.count .breaks = s.count .breaks + 1 ∧
          t.map.segs = s.map.segs ∧ t.mem = s.mem ∧
          t.rc.retry = (if s.rc.retry < s.ctl.params.retryLimit then s.rc.retry + 1 else s.rc.retry) ∧
          (k = .trackLost → t.rc.phase = .lost ∧ t.rc.rrq = false ∧
            t.rc.bridgePending = (s.rc.bridgePending || !decide (s.rc.retry < s.ctl.params.retryLimit))) ∧
          (k = .shock → t.rc.rrq = true ∧ t.rc.deadline = s.ctl.params.seekTimeout ∧
            t.rc.bridgePending = false ∧
            if s.rc.bridgePending = true ∨ s.ctl.params.retryLimit ≤ s.rc.retry then
              t.rc.phase = .bridging ∧ t.rc.target = s.rc.p / 588
            else t.rc.phase = .seeking ∧ t.rc.target = s.rc.p / 588 - s.ctl.params.preroll)) ∧
      (s.rc.phase = .gapFetch →
        ∃ t, exec c s = .next t ∧
          t.rc.phase = .lost ∧ t.rc.rrq = false ∧ t.rc.origin = some k ∧ t.rc.cause = some k ∧
          t.rc.retry = 0 ∧ t.rc.bridgePending = false ∧ t.rc.p = openEnd s ∧
          t.rc.record =
            { cause := some k, p := openEnd s, lead := t.lead, retries := s.rc.retry, pending := false
              renewed := s.rc.record.renewed || s.rc.record.held, held := s.rc.record.held } ∧
          t.flag .breakTaken = true ∧ t.count .breaks = s.count .breaks + 1 ∧
          t.gaps.fetch = (if mergeGranted s then s.gaps.fetch.map (fun r => { r with abandoned := true })
            else none) ∧
          openSeg t = none ∧ t.intake.phase = .none ∧ t.rc.capture.isSome = true ∧ t.mem = s.mem)

/-- R43, R44, R45, R146: in PARKED, STARTING, LOST and BRIDGING a shock or track loss only updates the
filtered level (and, for a shock, the rise latch); SHK_FALL only the level. The row sets the pin as well
(log 31). -/
def Obligations.LineEventsOnlyMoveLevels : Prop :=
  ∀ s : State, inReset s = false →
    exec .shkFall s = .next { s with
      pins := { s.pins with shk := false }, lines := { s.lines with shk := false, shkTimer := 0 } } ∧
    (s.rc.capture = none →
      (s.rc.phase = .parked ∨ s.rc.phase = .starting ∨ s.rc.phase = .lost ∨ s.rc.phase = .bridging) →
      (∃ t, exec .shockEvent s = .next t ∧
        t = { s with arb := t.arb, pins := { s.pins with shk := true }
                     lines := { s.lines with shk := true, shkTimer := 0, riseLatch := true } }) ∧
      (∃ t, exec .trackLostEvent s = .next t ∧
        t = { s with arb := t.arb, pins := { s.pins with tlost := true }
                     lines := { s.lines with tlost := true, tlostTimer := 0 } }))

/-- R44, R53, R54: a track regained in LOST with cause TRACK_LOST and the tail captured leaves LOST into
SEEKING, or into BRIDGING if bridge-pending is set, and publishes the target with a rising edge on RRQ (R55;
the model counts these edges in a field of its own, log 23). -/
def Obligations.TrackRegainedLeavesLost : Prop :=
  ∀ s : State, inReset s = false → s.rc.phase = .lost → s.rc.cause = some .trackLost →
    s.rc.capture = none →
    ∃ t, exec .trackRegainedEvent s = .next t ∧ t.lines.tlost = false ∧ t.rc.rrq = true ∧
      t.rc.rrqEdges = s.rc.rrqEdges + 1 ∧ t.rc.deadline = s.ctl.params.seekTimeout ∧
      (s.rc.bridgePending = false →
        t.rc.phase = .seeking ∧ t.rc.target = s.rc.p / 588 - s.ctl.params.preroll) ∧
      (s.rc.bridgePending = true →
        t.rc.phase = .bridging ∧ t.rc.target = s.rc.p / 588 ∧ t.rc.bridgePending = false)

/-- R52, R63, R64: with the last tail frame stored, the tail store holds the captured frames; a return
then publishes and enters SEEKING, and a shock's LOST is left. -/
def Obligations.TailCaptureEndProceeds : Prop :=
  ∀ (s : State) (c : Capture), inReset s = false → s.rc.capture = some c →
    (∀ it ∈ c.items, it.value.isSome = true) → s.rc.deferred = [] → s.me.attempt = none →
    (c.returns = true ∨ (s.rc.phase = .lost ∧ s.rc.cause = some .shock ∧ s.rc.bridgePending = false)) →
    ∃ t, exec .tailCaptureEnd s = .next t ∧
      t.rc.tail.map some = c.items.map CaptureItem.value ∧ t.rc.capture = none ∧
      t.rc.phase = .seeking ∧ t.rc.target = s.rc.p / 588 - s.ctl.params.preroll ∧ t.rc.rrq = true ∧
      t.rc.deadline = s.ctl.params.seekTimeout

/-- R56, R64, R98: in SEEKING, MATCHING, BRIDGING and, until the fetch ends, in GAPFETCH a boundary takes the
counter down by one, and holds it at 1 during an evaluation; elsewhere the counter does not run. That the
counter stands at 0 until the expiry's own row, with nothing else changed by the boundary, is the model's
choice (log 34), and so is that the row acts whatever the divider shows (log 39). -/
def Obligations.BoundaryCountsDeadline : Prop :=
  ∀ s : State, inReset s = false →
    let runs : Prop := s.rc.phase = .seeking ∨ s.rc.phase = .matching ∨ s.rc.phase = .bridging ∨
      (s.rc.phase = .gapFetch ∧ ∃ r, s.gaps.fetch = some r ∧ r.phase = .fetching)
    (runs → s.rc.deadline ≠ 1 ∨ s.me.activity ≠ .scoring →
      exec .blockPeriodBoundary s = .next { s with rc := { s.rc with deadline := s.rc.deadline - 1 } }) ∧
    (runs → s.rc.deadline = 1 → s.me.activity = .scoring → exec .blockPeriodBoundary s = .next s) ∧
    (¬ runs → exec .blockPeriodBoundary s = .next s)

/-- R56, R60, R62, R64, R98: an expiry in SEEKING, or in MATCHING between evaluations, fails the attempt,
which frees the run and is repeated below RETRY_LIMIT and otherwise passes to BRIDGING; an expiry in
BRIDGING frees a held run and re-arms the bridge; one in GAPFETCH ends the fetch, which goes on to an
alignment, or with its entry gone to the gap return. RRQ rises at each publication (R55; the count of its
edges is the model's own field, log 23; the expiry as a row of its own: log 34). -/
def Obligations.DeadlineExpiryOutcome : Prop :=
  ∀ s : State, inReset s = false → s.rc.deadline = 0 →
    ((s.rc.phase = .seeking ∨ s.rc.phase = .bridging ∨
        (s.rc.phase = .matching ∧ s.me.activity ≠ .scoring)) →
      ∃ t, exec .deadlineExpiry s = .next t ∧ t.rc.rrq = true ∧
        t.rc.rrqEdges = s.rc.rrqEdges + 1 ∧ t.rc.deadline = s.ctl.params.seekTimeout ∧
        t.rc.run = [] ∧ t.rc.wait = .none ∧ t.rc.p = s.rc.p ∧ t.mem = s.mem ∧ t.map.segs = s.map.segs ∧
        (s.rc.phase ≠ .bridging ∧ s.rc.retry < s.ctl.params.retryLimit →
          t.rc.phase = .seeking ∧ t.rc.retry = s.rc.retry + 1 ∧ t.me.attempt = none ∧
          t.rc.target = s.rc.p / 588 - s.ctl.params.preroll) ∧
        (s.rc.phase ≠ .bridging ∧ s.ctl.params.retryLimit ≤ s.rc.retry →
          t.rc.phase = .bridging ∧ t.rc.retry = s.rc.retry ∧ t.me.attempt = none ∧
          t.rc.target = s.rc.p / 588) ∧
        (s.rc.phase = .bridging →
          t.rc.phase = .bridging ∧ t.rc.retry = s.rc.retry ∧ t.rc.target = s.rc.p / 588)) ∧
    (∀ r, s.rc.phase = .gapFetch → s.gaps.fetch = some r → r.phase = .fetching →
      (gapPresent s r = true → r.staged ≠ [] →
        ∃ t a, exec .deadlineExpiry s = .next t ∧
          t = { s with rc := { s.rc with rrq := false }, arb := t.arb, me := t.me
                       gaps := { s.gaps with fetch := some { r with phase := .merging } } } ∧
          t.me.activity = .aligning ∧ t.me.align = some a ∧ a.label = r.label ∧ a.slot = r.slot ∧
          a.blocks = r.staged ∧ a.stage = .readFlags) ∧
      (gapPresent s r = false →
        ∃ t, exec .deadlineExpiry s = .next t ∧ t.rc.rrq = false ∧ t.gaps.fetch = none ∧
          t.rc.origin = some .gapReturn ∧ t.rc.p = openEnd s ∧ t.rc.capture.isSome = true ∧
          (∀ b ∈ r.staged, b.slot < s.map.slots.length → slotAt t b.slot = SlotDesc.free) ∧
          t.mem = s.mem))

/-- R72 to R75: the last read of a candidate scores it and goes on to the next one that the evaluation covers,
whose frames are those from P - K + d on. R75, R76: a candidate's sum and count leave out the pairs with an
erased frame, its mean is floor(sum / 2c), and with fewer than half of K (rounded up) counted there is none. R77:
of candidates compared one after another the best has the lowest mean, then the smallest |d|, then the negative
offset. R60, R73, R78: at the end of an evaluation that reaches the decision point, no candidate or a mean
above TOL fails the attempt and frees the run; short of it the activity goes IDLE when the run has not
grown. R59, R81: an accepted offset d forms the segment at P where the run holds P + d and the list has
room, or extends the last segment, for which a full list has room too (R14): REJOIN is raised and counted and
the retry count is 0. A full list leaves any other splice waiting, and a run that ends short of P + d waits for
the next block, if some slot is FREE. Two clauses are the model's readings: an evaluation that reaches the
decision point decides where the run has grown meanwhile too, though R73 lists the growth first (log 13), and a
MATCHED head formed with the list empty stays MATCHED (in `formsSegment`; log 44). -/
def Obligations.EvaluationEndDecides : Prop :=
  (∀ (k : Nat) (d : Int) (reference staged : List TailFrame),
    let good := (reference.zip staged).filter fun x => !x.1.erased && !x.2.erased
    let sum := (good.map fun x => (leftOf x.1.word - leftOf x.2.word).natAbs +
      (rightOf x.1.word - rightOf x.2.word).natAbs).sum
    candidateResult k d reference staged =
      if (k + 1) / 2 ≤ good.length then
        some { offset := d, mean := sum / (2 * good.length), count := good.length } else none) ∧
  (∀ l : List (Option Best),
    (l.foldl keepBest none = none → ∀ c ∈ l, c = none) ∧
    (∀ b, l.foldl keepBest none = some b → some b ∈ l ∧ ∀ x, some x ∈ l →
      b.mean < x.mean ∨ (b.mean = x.mean ∧ (b.offset.natAbs < x.offset.natAbs ∨
        (b.offset.natAbs = x.offset.natAbs ∧ b.offset ≤ x.offset))))) ∧
  (∀ (s : State) (a : Attempt) (e : Nat) (p : ReadPiece), s.engineOnly .matcher → matchWrite s = none →
    s.me.activity = .scoring → s.me.attempt = some a → a.scoredTo = some e → nextPiece s.me.fetch = some p →
    let read := s.me.fetch.map (fillItem s p)
    (∀ f ∈ read, itemRead f = true) →
    ∃ t, exec .memoryGrant s = .next t ∧ t = { s with
        arb := { waitCount := 0, last := .matcher }
        me := { s.me with
          fetch := t.me.fetch
          attempt := some { a with
            best := keepBest a.best (candidateResult a.kEff a.next s.rc.tail (read.map itemFrame))
            next := a.next + 1 } } } ∧
      (a.span < a.next + 1 ∨ e < a.p + a.next → t.me.fetch = []) ∧
      (a.next + 1 ≤ a.span → a.p + a.next ≤ e → t.me.fetch.length = a.kEff ∧
        ∀ (j x : Nat) b, j < a.kEff → (x : Int) = (a.p : Int) - a.kEff + (a.next + 1) + j →
          stagedAt s.rc.run (x / 588) = some b →
          t.me.fetch[j]? = some (frameItem s.ctl.params.ringBase b.slot (x % 588)))) ∧
  ∀ (s : State) (a : Attempt) (e : Nat), inReset s = false → s.me.attempt = some a →
    s.me.activity = .scoring → s.me.fetch = [] → a.scoredTo = some e →
    (a.p + a.span ≤ e + 1 → (∀ b, a.best = some b → s.ctl.params.tol < b.mean) →
      ∃ t, exec .evaluationEnd s = .next t ∧ t.me.attempt = none ∧ t.me.activity = .idle ∧
        t.rc.run = [] ∧ t.rc.wait = .none ∧ t.rc.rrq = true ∧
        t.rc.deadline = s.ctl.params.seekTimeout ∧ t.map.segs = s.map.segs ∧ t.mem = s.mem ∧
        (∀ x ∈ s.rc.run, x.slot < s.map.slots.length → slotAt t x.slot = SlotDesc.free) ∧
        (s.rc.retry < s.ctl.params.retryLimit →
          t.rc.phase = .seeking ∧ t.rc.retry = s.rc.retry + 1 ∧
          t.rc.target = s.rc.p / 588 - s.ctl.params.preroll) ∧
        (s.ctl.params.retryLimit ≤ s.rc.retry →
          t.rc.phase = .bridging ∧ t.rc.retry = s.rc.retry ∧ t.rc.target = s.rc.p / 588)) ∧
    (e + 1 < a.p + a.span → runEnd s.rc.run = some e →
      ∃ t, exec .evaluationEnd s = .next t ∧
        t = { s with arb := t.arb, me := { s.me with activity := .idle } }) ∧
    (∀ (b : Best) (r : Nat), a.p + a.span ≤ e + 1 → a.best = some b → b.mean ≤ s.ctl.params.tol →
      runEnd s.rc.run = some r →
      let kind : HeadKind := if s.rc.origin = some .resume then .resumed else .matched
      let decided : MatchEngine := { s.me with activity := .idle, attempt := none }
      ((s.rc.p : Int) + b.offset ≤ r →
        (s.map.segs.length < 16 ∨
          (kind = .matched ∧ ∃ g, lastSeg s = some g ∧ mergesWith g s.rc.p b.offset = true)) →
        ∃ t, exec .evaluationEnd s = .next t ∧ t.me.attempt = none ∧ t.me.activity = .idle ∧
          t.flag .rejoin = true ∧ t.count .rejoins = s.count .rejoins + 1 ∧ t.rc.retry = 0 ∧
          t.rc.started = true ∧ t.rc.run = [] ∧ t.rc.wait = .none ∧ t.mem = s.mem ∧
          (t.rc.phase = .streaming ∨ t.rc.phase = .holding ∨ t.rc.phase = .gapFetch) ∧
          (s.offersSegment s.rc.p b.offset →
            (kind = .matched → ∀ g, lastSeg s = some g → mergesWith g s.rc.p b.offset = false) →
            s.formsSegment t s.rc.p b.offset kind) ∧
          (∀ g, kind = .matched → lastSeg s = some g → mergesWith g s.rc.p b.offset = true →
            s.offersExtension g → s.extendsSegment t g)) ∧
      ((s.rc.p : Int) + b.offset ≤ r → s.map.segs.length = 16 → freeCount s ≠ 0 →
        (kind = .matched → ∀ g, lastSeg s = some g → mergesWith g s.rc.p b.offset = false) →
        ∃ t, exec .evaluationEnd s = .next t ∧
          t = { s with arb := t.arb, me := decided, map := { s.map with retireReport := false }
                       rc := { s.rc with wait := .splice b.offset } }) ∧
      ((r : Int) < s.rc.p + b.offset → freeCount s ≠ 0 →
        ∃ t, exec .evaluationEnd s = .next t ∧
          t = { s with arb := t.arb, me := decided, rc := { s.rc with wait := .start b.offset } }))

/-- R12, R14, R59, R62: at a retirement report a waiting splice, or a held bridge head, is asked again and
formed: REJOIN or BRIDGE is raised and counted, the retry count is 0, the stream started, and the
Controller is out of recovery. The segment formed begins at P with the decided shift and head kind MATCHED
or RESUMED, or the last segment is extended; a bridge head begins at the larger of P and its first block
with shift 0 and head kind BRIDGED. That a MATCHED head formed with the list empty, and so with P above the
cursor too, stays MATCHED (in `formsSegment`) is the model's choice (log 44). -/
def Obligations.RetryFormsSegment : Prop :=
  ∀ s : State, inReset s = false → s.map.retireReport = true → s.map.segs.length < 16 →
    (∀ d, s.rc.wait = .splice d → s.rc.phase = .matching →
      let kind : HeadKind := if s.rc.origin = some .resume then .resumed else .matched
      ∃ t, exec .spliceRetry s = .next t ∧ t.flag .rejoin = true ∧
        t.count .rejoins = s.count .rejoins + 1 ∧ t.rc.retry = 0 ∧ t.rc.started = true ∧
        t.rc.run = [] ∧ t.rc.wait = .none ∧ t.mem = s.mem ∧
        (t.rc.phase = .streaming ∨ t.rc.phase = .holding ∨ t.rc.phase = .gapFetch) ∧
        (s.offersSegment s.rc.p d →
          (kind = .matched → ∀ g, lastSeg s = some g → mergesWith g s.rc.p d = false) →
          s.formsSegment t s.rc.p d kind) ∧
        (∀ g, kind = .matched → lastSeg s = some g → mergesWith g s.rc.p d = true →
          s.offersExtension g → s.extendsSegment t g)) ∧
    (∀ b rest, s.rc.wait = .bridge → s.rc.phase = .bridging → s.rc.run = b :: rest →
      let start := max s.rc.p (b.label * 588)
      ∃ t, exec .bridgeRetry s = .next t ∧ t.flag .bridge = true ∧
        t.count .bridges = s.count .bridges + 1 ∧ t.rc.retry = 0 ∧ t.rc.started = true ∧
        t.rc.run = [] ∧ t.rc.wait = .none ∧ t.mem = s.mem ∧
        (t.rc.phase = .streaming ∨ t.rc.phase = .holding ∨ t.rc.phase = .gapFetch) ∧
        (s.offersSegment start 0 → s.formsSegment t start 0 .bridged))

/-! ### Gap repair and quality -/

/-- R84 to R86: an alignment accepted at an offset d, the best candidate's with a mean at most TOL, or d = 0
without scoring where the scratched block has no good run, begins the frame merge: the frames it aims at are
exactly those marked whose aligned position, g times 588 + i + d, is held by a staged block of the fetch (the
model keeps d in `next`); with none, nothing is to be written. R85, R100: with no candidate, or a mean above
TOL, nothing is merged: the slot keeps its erasures, and the entry is retried or, at RETRY_LIMIT, removed.
That the marks of all aligned frames, an item of `fetch` for each, are read before any frame is copied is the
model's choice (log 17). -/
def Obligations.AlignmentEndBeginsMerge : Prop :=
  ∀ (s : State) (a : Align), inReset s = false → s.me.align = some a → s.me.activity = .aligning →
    a.stage = .scored →
    (∀ d : Int,
      (a.unscored = true ∧ d = 0) ∨
        (a.unscored = false ∧ ∃ b, a.best = some b ∧ b.mean ≤ a.tol ∧ b.offset = d) →
      ∃ t a', exec .alignmentEnd s = .next t ∧ t = { s with me := t.me } ∧ t.me.activity = .merging ∧
        t.me.attempt = s.me.attempt ∧ t.me.align = some a' ∧ a'.next = d ∧ a'.marks = a.marks ∧
        a'.slot = a.slot ∧ a'.blocks = a.blocks ∧ a'.targets.Pairwise (· < ·) ∧
        (∀ i, i ∈ a'.targets ↔ i < 588 ∧ a.marks.getLsbD i = true ∧ 0 ≤ (a.label : Int) * 588 + i + d ∧
          ∃ b ∈ a.blocks, (b.label : Int) = ((a.label : Int) * 588 + i + d) / 588) ∧
        (a'.targets = [] → a'.stage = .mergeWrite ∧ a'.writes = [] ∧ a'.replaced = 0) ∧
        (a'.targets ≠ [] → a'.stage = .mergeMarks ∧ t.me.fetch.length = a'.targets.length)) ∧
    (∀ r, a.unscored = false → (∀ b, a.best = some b → a.tol < b.mean) → s.me.attempt = none →
      s.gaps.fetch = some r → r.slot = a.slot → r.abandoned = false → gapPresent s r = true →
      (∀ x ∈ r.staged, x.slot ≠ a.slot ∧ (slotAt s x.slot).gapMark = false) →
      s.ctl.params.gapLimit < (slotAt s a.slot).erasures →
      (s.quality.level = .abandon ∨ s.quality.counter + 8 ≤ 255) →
      ∃ t, exec .alignmentEnd s = .next t ∧ t.me.activity = .idle ∧ t.me.align = none ∧ t.mem = s.mem ∧
        t.gaps.fetch = none ∧ t.count .gapsFilled = s.count .gapsFilled ∧
        (gapRetries s a.slot < s.ctl.params.retryLimit →
          slotAt t a.slot = slotAt s a.slot ∧ t.gaps.entries = s.gaps.entries.map fun e =>
            if e.slot = a.slot then { e with retries := e.retries + 1 } else e) ∧
        (s.ctl.params.retryLimit ≤ gapRetries s a.slot →
          slotAt t a.slot = { slotAt s a.slot with gapMark := false } ∧
          t.gaps.entries = s.gaps.entries.filter fun e => e.slot != a.slot) ∧
        (s.rc.phase = .gapFetch → t.rc.origin = some .gapReturn ∧ t.rc.p = openEnd s ∧
          t.rc.capture.isSome = true))

/-- R87, R99: the Gap Scheduler grants the take while the entry is in the table and neither late nor
abandoned: the slot is marked merging and its new flag map is written. -/
def Obligations.MergeTakeIsGranted : Prop :=
  ∀ (s : State) (a : Align) (r : FetchRecord), inReset s = false → s.me.align = some a →
    s.me.activity = .merging → a.stage = .mergeWrite → a.writes = [] → a.replaced ≠ 0 →
    s.gaps.fetch = some r → r.late = false → r.abandoned = false → gapPresent s r = true →
    a.slot < s.map.slots.length →
    ∃ t, exec .mergeFramesWritten s = .next t ∧
      t = { s with map := t.map, me := t.me } ∧ (slotAt t a.slot).merging = true ∧
      t.me.align = some { a with stage := .flagMap, jobs := flagMapJobs s a.slot a.newMarks }

/-- R87, R100: the merged flag map is written: the merging mark is cleared, the erasure count falls by
the frames replaced, and a count within GAP_LIMIT repairs the entry: GAP_FILLED is raised and counted, the
fetch ends and, in GAPFETCH, the gap return of R64 begins. -/
def Obligations.MergedFlagMapRepairsGap : Prop :=
  ∀ (s : State) (a : Align) (r : FetchRecord), inReset s = false → s.me.align = some a →
    a.stage = .flagMap → a.jobs = [] → s.gaps.fetch = some r → gapPresent s r = true →
    r.slot = a.slot → a.slot < s.map.slots.length → s.me.attempt = none →
    (∀ b ∈ r.staged, b.slot ≠ a.slot ∧ (slotAt s b.slot).gapMark = false) →
    (slotAt s a.slot).erasures - a.replaced ≤ s.ctl.params.gapLimit →
    ∃ t, exec .mergeFlagMapWritten s = .next t ∧
      (slotAt t a.slot).erasures = (slotAt s a.slot).erasures - a.replaced ∧
      (slotAt t a.slot).merging = false ∧ (slotAt t a.slot).gapMark = false ∧
      t.me.activity = .idle ∧ t.me.align = none ∧ t.gaps.fetch = none ∧
      t.gaps.entries = s.gaps.entries.filter (fun e => e.slot != a.slot) ∧
      t.flag .gapFilled = true ∧ t.count .gapsFilled = s.count .gapsFilled + 1 ∧
      (s.rc.phase = .gapFetch → t.rc.origin = some .gapReturn ∧ t.rc.p = openEnd s ∧
        t.rc.capture.isSome = true)

/-- R102: outside ABANDON the block report of a scratch block adds 8 to the quality counter, one of a block
with no mark takes 1 off unless the counter is 0, and one with 1 to GAP_LIMIT marks changes nothing; a merge
outcome that leaves the block over GAP_LIMIT adds 8. An increment above 255 enters ABANDON with the counter
at 255; one to exactly 255 leaves it there in DEGRADED. In ABANDON the counter does not move (it is left by
the clean run, R105). The counter stays within 0 to 255 and equals 255 in ABANDON; QUALITY is raised exactly
when the state changes (R103). -/
def Obligations.QualityFollowsReports : Prop :=
  (∀ (erasures : Nat) (s : State), s.quality.ok → s.quality.level ≠ .abandon →
    let t := qualityReport erasures s
    let q := s.quality.counter
    t.quality.ok ∧
    (s.ctl.params.gapLimit < erasures → q + 8 ≤ 255 → t.quality.counter = q + 8) ∧
    (s.ctl.params.gapLimit < erasures → q + 8 = 255 → t.quality.level = .degraded) ∧
    (s.ctl.params.gapLimit < erasures → 255 < q + 8 →
      t.quality.level = .abandon ∧ t.quality.counter = 255) ∧
    (erasures = 0 → t.quality.counter = q - 1) ∧
    (0 < erasures → erasures ≤ s.ctl.params.gapLimit → t = s) ∧
    (t.flag .quality = (s.flag .quality || t.quality.level != s.quality.level))) ∧
  (∀ (count : Nat) (s : State) (r : FetchRecord), s.quality.ok → s.gaps.fetch = some r →
    r.abandoned = false → gapPresent s r = true → s.ctl.params.gapLimit < count →
    let t := mergeOutcome count s
    let q := s.quality.counter
    t.quality.ok ∧
    (s.quality.level ≠ .abandon → q + 8 ≤ 255 → t.quality.counter = q + 8) ∧
    (s.quality.level ≠ .abandon → q + 8 = 255 → t.quality.level = .degraded) ∧
    (s.quality.level ≠ .abandon → 255 < q + 8 →
      t.quality.level = .abandon ∧ t.quality.counter = 255) ∧
    (s.quality.level = .abandon → t.quality = s.quality)) ∧
  (∀ (erasures : Nat) (s : State), s.quality.ok → s.quality.level = .abandon →
    let t := qualityReport erasures s
    t.quality.ok ∧ (t.quality.level = .abandon → t.quality.counter = s.quality.counter) ∧
    (t.quality.level ≠ .abandon → erasures = 0 ∧ s.quality.cleanRun = 127))

/-! ### The play window -/

/-- R114, R120: a burst taken in STOPPED is planned as zero words, one in PAUSED as pause words, and one
in PLAYING with lead 0 as fill frames, the first of an underrun raising UNDERRUN; the cursor stands. R177, R178:
the first fill frame brings a pending APPLY into effect, and its outcome is the last completed command. -/
def Obligations.BurstTakenWithoutServes : Prop :=
  ∀ (s : State) (r : ActiveRequest), inReset s = false → s.router.waiting = [] →
    s.router.reqP = some r → r.plays ≠ [] → s.play.burst = none →
    (s.play.mode = .stopped ∨ s.play.mode = .paused ∨ (s.play.mode = .playing ∧ s.lead = 0)) →
    let word : BurstWord := match s.play.mode with
      | .stopped => .zero
      | .paused => .pause
      | .playing => .fill
    let planned := fun (t : State) => exec .burstTake s = .next t ∧ t.play.cursor = s.play.cursor ∧
      t.mem = s.mem ∧ t.play.history = s.play.history ∧
      t.play.burst = some
        { mode := s.play.mode, todo := 0, words := List.replicate r.plays.length word } ∧
      (t.flag .underrun = (s.flag .underrun || (s.play.mode == .playing && !s.play.underrun))) ∧
      (t.play.underrun = (s.play.underrun || s.play.mode == .playing))
    (s.ctl.applyPending = false ∨ s.play.mode ≠ .playing → ∃ t, planned t ∧ t.map = s.map) ∧
    (s.ctl.applyPending = true → s.play.mode = .playing → s.map.segs.length ≤ 1 →
      ∃ t, planned t ∧ s.applyTookEffect t (applyPasses s) ∧ t.ctl.lastCode = 6 ∧
        t.ctl.lastResult = (if applyPasses s then .done else .refusedConfig))

/-- R17, R114, R123: a burst of one word with data at the cursor is a serve: the cursor advances by one,
lead falls by one, a history entry is reserved at the position, and the word records the location that the
lookup answers under the ring base of that moment (R16). The serve of the highest position that maps into a
slot frees the slot (R17); the first serve of a gap slot removes its entry, raises GAP_LATE and counts it, and
marks a fetch of that entry late (R94); the serve of a segment's last position retires it, and the cursor
moves to the next segment's start (R18); and a cursor below the first segment first jumps up to it (R112).
Stated in STREAMING, and in HOLDING with the release level of HOLD not reached. With that level reached by the
slot freed, HOLD is released and the hold return taken (R39, R63). A pending APPLY takes effect at a serve that
crosses into another block (R113, R177), after the rest of that serve (log 15), and at no other serve; the word
planned keeps the INTERP_MAX of its planning. -/
def Obligations.BurstTakesOneServe : Prop :=
  ∀ (s : State) (r : ActiveRequest) (k : Nat), inReset s = false →
    s.router.waiting = [] → s.router.reqP = some r → r.plays = [k] → s.play.burst = none →
    s.play.mode = .playing →
    (s.rc.phase = .streaming ∨ s.rc.phase = .holding) →
    (s.intake.hold = true → freeCount s < s.ctl.params.holdMargin + 8) →
    ∀ (g : Segment) (pos n i : Nat), locate s g pos = some (n, i) → (slotAt s n).merging = false →
    let taken := fun (t : State) => exec .burstTake s = .next t ∧ t.mem = s.mem ∧
      t.play.history.getLast? = some { pos := pos, value := none } ∧
      t.play.burst = some { mode := .playing, todo := 0, words :=
        [.serve pos g.id g.start g.kind s.ctl.params.interpMax
          (some (frameItem s.ctl.params.ringBase n i))] }
    let served := fun (t : State) => taken t ∧
      t.rc = { s.rc with phase := t.rc.phase } ∧ (t.rc.phase = .streaming ∨ t.rc.phase = .holding)
    let noRelease : Prop := s.intake.hold = true → freeCount s + 1 < s.ctl.params.holdMargin + 8
    let last : Prop := (pos : Int) = highestUsed g (labelOf (slotAt s n))
    (s.ctl.applyPending = false → s.map.segs = [g] → g.start ≤ s.play.cursor → pos = s.play.cursor →
      pos + 1 < g.stop →
      (¬ last → (slotAt s n).gapMark = false →
        ∃ t, served t ∧ t.play.cursor = pos + 1 ∧ t.lead + 1 = s.lead ∧ t.map.slots = s.map.slots ∧
          t.map.segs = s.map.segs ∧ t.gaps = s.gaps) ∧
      (last → (slotAt s n).gapMark = false → noRelease →
        ∃ t, served t ∧ t.play.cursor = pos + 1 ∧ t.lead + 1 = s.lead ∧
          t.map.slots = s.map.slots.set n SlotDesc.free ∧ t.map.segs = s.map.segs ∧ t.gaps = s.gaps) ∧
      ((slotAt s n).gapMark = true → ¬ last →
        ∃ t, served t ∧ t.play.cursor = pos + 1 ∧ t.lead + 1 = s.lead ∧
          t.map.slots = s.map.slots.set n { slotAt s n with gapMark := false } ∧
          t.map.segs = s.map.segs ∧ t.flag .gapLate = true ∧ t.count .gapsLate = s.count .gapsLate + 1 ∧
          t.gaps.entries = s.gaps.entries.filter (fun e => e.slot != n) ∧
          t.gaps.fetch = s.gaps.fetch.map fun x =>
            if x.slot = n ∧ gapPresent s x = true then { x with late := true } else x)) ∧
    (s.map.segs = [g] → g.start ≤ s.play.cursor → pos = s.play.cursor → pos + 1 < g.stop → last →
      (slotAt s n).gapMark = false → s.ctl.applyPending = false → g.isOpen = true →
      (slotAt s n).state = .linked → s.rc.phase = .holding → s.intake.hold = true →
      freeCount s + 1 = s.ctl.params.holdMargin + 8 →
      ∃ t, taken t ∧ t.play.cursor = pos + 1 ∧ t.map.slots = s.map.slots.set n SlotDesc.free ∧
        s.holdReturned t g) ∧
    (s.map.segs = [g] → g.start ≤ s.play.cursor → pos = s.play.cursor → pos + 1 < g.stop →
      (slotAt s n).gapMark = false → (last → noRelease) → s.ctl.applyPending = true →
      ∃ t, taken t ∧ t.play.cursor = pos + 1 ∧
        ((pos + 1) % 588 = 0 → s.applyTookEffect t (applyPasses s) ∧ t.ctl.lastCode = 6 ∧
          t.ctl.lastResult = (if applyPasses s then .done else .refusedConfig)) ∧
        ((pos + 1) % 588 ≠ 0 → t.ctl.applyPending = true ∧ t.ctl.params = s.ctl.params ∧
          t.ctl.applyInd = s.ctl.applyInd ∧ t.ctl.lastCode = s.ctl.lastCode)) ∧
    (s.ctl.applyPending = false →
      ∀ rest, s.map.segs = g :: rest → g.start ≤ s.play.cursor → pos = s.play.cursor → pos + 1 = g.stop →
      (g.isOpen = false ∨ rest ≠ []) → (slotAt s n).gapMark = false → s.gaps.entries = [] → noRelease →
      ∃ t, served t ∧ t.map.segs = rest ∧ t.map.retireReport = true ∧
        t.map.slots = s.map.slots.set n SlotDesc.free ∧
        t.play.cursor = match rest with
          | [] => pos + 1
          | h :: _ => h.start) ∧
    (s.ctl.applyPending = false → s.map.segs = [g] → s.play.cursor < g.start → pos = g.start →
      pos + 1 < g.stop → ¬ last → (slotAt s n).gapMark = false →
      ∃ t, served t ∧ t.play.cursor = pos + 1 ∧ t.lead + 1 = s.lead ∧ t.map.slots = s.map.slots ∧
        t.map.segs = s.map.segs ∧ t.gaps = s.gaps)

/-- R115, R118, R119, R121, R124: a burst of zero words returns zeros and one of a single fill frame or pause
word the next fade-out value; a fill frame is counted, the others are not. R115 to R119, R123: a burst of one
serve whose frame has been read returns the real frame, scaled by a pending fade-in, where it has no mark; the
next frame of an interpolated run in progress; and with a mark and no real frame served just before it in its
segment, the next fade-out value. R116, R117: a marked frame just after a real one of its segment, with no run
in progress, begins an interpolated run where, of the INTERP_MAX positions after it, the n-th holds a good
frame and those before are marked or without a slot: it returns the first frame of that run, whose far bound is
the good frame scaled as it will be served. With none good among them, or the segment ending first, it fades.
(Those positions are the burst's look-ahead, looked up and read before: log 18.) Each serve is counted and its
history entry takes the frame and its mark. (Where the words stand, `returnP`: log 25; a run's decision holds
over a merged frame: log 38.) -/
def Obligations.BurstReturnsFadeAndZeros : Prop :=
  ∀ (s : State) (r : ActiveRequest) (b : Burst) (k : Nat), inReset s = false →
    s.router.reqP = some r → r.main = [] → r.plays = [k] → r.isWrite = false →
    s.play.burst = some b → b.todo = 0 → s.rc.capture = none → s.resume.snap = none →
    let step := match s.play.fadeOut with
      | some f => f
      | none => { source := s.play.lastWord, step := 1 }
    (b.words = [.zero] →
      ∃ t, exec .burstComplete s = .next t ∧ t.router.returnP = r.buffer.set k 0 ∧
        t.router.reqP = none ∧ t.play.lastWord = 0 ∧ t.play.fadeIn = 1 ∧
        t.play.fadeOut = some { source := 0, step := 64 } ∧ t.play.burst = none ∧
        t.ctl.counters = s.ctl.counters ∧ t.mem = s.mem ∧ t.map = s.map) ∧
    (b.words = [.fill] ∨ b.words = [.pause] →
      ∃ t, exec .burstComplete s = .next t ∧
        t.router.returnP = r.buffer.set k (fadeOutFrame step.source step.step) ∧
        t.router.reqP = none ∧ t.play.lastWord = fadeOutFrame step.source step.step ∧
        t.play.fadeIn = 1 ∧ t.play.fadeOut = some { step with step := min (step.step + 1) 64 } ∧
        t.play.burst = none ∧ t.mem = s.mem ∧ t.map = s.map ∧
        t.count .framesServed = s.count .framesServed ∧
        t.count .fill = s.count .fill + (if b.words = [.fill] then 1 else 0)) ∧
    (∀ pos seg start kind m it, b.words = [.serve pos seg start kind m (some it)] → b.ahead = [] →
      itemRead it = true → s.play.endRun = false →
      let received := fun (v : TailFrame) => s.play.history.map fun e =>
        if e.pos = pos ∧ e.value = none then { e with value := some v } else e
      let begins : Prop := pos = start ∧ (kind = .bridged ∨ kind = .nominal)
      (∀ fadeIn, (begins ∧ fadeIn = 1 ∨ ¬ begins ∧ fadeIn = s.play.fadeIn) →
        (itemFrame it).erased = false → interpContinues s.play.run pos seg = false →
        ∃ t, exec .burstComplete s = .next t ∧
          t.router.returnP = r.buffer.set k (fadeInFrame (itemFrame it).word fadeIn) ∧
          t.router.reqP = none ∧ t.play.burst = none ∧ t.play.run = .none ∧ t.play.fadeOut = none ∧
          t.play.lastWord = fadeInFrame (itemFrame it).word fadeIn ∧ t.play.lastKind = .real pos seg ∧
          t.play.fadeIn = (if fadeIn = 0 ∨ 64 ≤ fadeIn then 0 else fadeIn + 1) ∧
          t.play.history = received { word := (itemFrame it).word, erased := false } ∧
          t.count .framesServed = s.count .framesServed + 1 ∧
          t.count .concealed = s.count .concealed ∧ t.mem = s.mem ∧ t.map = s.map) ∧
      (∀ a z n i, s.play.run = .interp a z n i pos seg →
        ∃ t, exec .burstComplete s = .next t ∧
          t.router.returnP = r.buffer.set k (interpFrame a z n i) ∧ t.router.reqP = none ∧
          t.play.burst = none ∧ t.play.fadeOut = none ∧ t.play.lastWord = interpFrame a z n i ∧
          t.play.run = (if i < n then .interp a z n (i + 1) (pos + 1) seg else .none) ∧
          t.play.history = received { word := interpFrame a z n i, erased := true } ∧
          t.count .framesServed = s.count .framesServed + 1 ∧
          t.count .concealed = s.count .concealed + 1 ∧ t.mem = s.mem ∧ t.map = s.map) ∧
      let faded := fun (t : State) => exec .burstComplete s = .next t ∧
        t.router.returnP = r.buffer.set k (fadeOutFrame step.source step.step) ∧
        t.router.reqP = none ∧ t.play.burst = none ∧ t.play.run = .fade (pos + 1) seg ∧
        t.play.fadeOut = some { step with step := min (step.step + 1) 64 } ∧ t.play.fadeIn = 1 ∧
        t.play.lastWord = fadeOutFrame step.source step.step ∧
        t.play.history = received { word := fadeOutFrame step.source step.step, erased := true } ∧
        t.count .framesServed = s.count .framesServed + 1 ∧
        t.count .concealed = s.count .concealed + 1 ∧ t.mem = s.mem ∧ t.map = s.map
      ((itemFrame it).erased = true → s.play.run = .none →
        (s.play.lastKind ≠ .real (pos - 1) seg ∨ pos = start) → ∃ t, faded t)) ∧
    (∀ pos seg start kind m it, b.words = [.serve (pos + 1) seg start kind m (some it)] →
      itemRead it = true → (itemFrame it).erased = true → s.play.endRun = false → s.play.run = .none →
      s.play.lastKind = .real pos seg → pos + 1 ≠ start →
      (∀ x ∈ b.ahead, ∀ f, x.place = .frame f → itemRead f = true) →
      let place := fun q => (b.ahead.find? fun x => x.pos == q && x.seg == seg).map AheadItem.place
      let bad := fun q => place q = some .missing ∨ ∃ f, place q = some (.frame f) ∧ (itemFrame f).erased = true
      (∀ n f, 1 ≤ n → n ≤ m → (∀ j, 1 ≤ j → j < n → bad (pos + 1 + j)) →
        place (pos + 1 + n) = some (.frame f) → (itemFrame f).erased = false →
        let far := fadeInFrame (itemFrame f).word s.play.fadeIn
        let w := interpFrame s.play.lastWord far n 1
        ∃ t, exec .burstComplete s = .next t ∧ t.router.returnP = r.buffer.set k w ∧
          t.router.reqP = none ∧ t.play.burst = none ∧ t.play.fadeOut = none ∧ t.play.lastWord = w ∧
          t.play.lastKind = .concealed ∧ t.play.fadeIn = s.play.fadeIn ∧
          t.play.run = (if 1 < n then .interp s.play.lastWord far n 2 (pos + 2) seg else .none) ∧
          t.count .framesServed = s.count .framesServed + 1 ∧
          t.count .concealed = s.count .concealed + 1 ∧ t.mem = s.mem ∧ t.map = s.map) ∧
      (∀ n, n ≤ m → (∀ j, 1 ≤ j → j ≤ n → bad (pos + 1 + j)) →
        (n = m ∨ place (pos + 1 + (n + 1)) = some .outside) →
        ∃ t, exec .burstComplete s = .next t ∧
          t.router.returnP = r.buffer.set k (fadeOutFrame step.source step.step) ∧
          t.router.reqP = none ∧ t.play.burst = none ∧ t.play.run = .fade (pos + 2) seg ∧
          t.play.lastWord = fadeOutFrame step.source step.step ∧
          t.count .concealed = s.count .concealed + 1 ∧ t.mem = s.mem ∧ t.map = s.map))

/-- R118: every faded sample has a magnitude at most that of the sample it fades from, and 0 from step 64
on. -/
def Obligations.FadedSamplesNeverGrow : Prop :=
  ∀ (w : Word) (k : Nat),
    (leftOf (fadeOutFrame w k)).natAbs ≤ (leftOf w).natAbs ∧
    (rightOf (fadeOutFrame w k)).natAbs ≤ (rightOf w).natAbs ∧
    (64 ≤ k → fadeOutFrame w k = 0) ∧
    (k ≤ 64 → (leftOf (fadeInFrame w k)).natAbs ≤ (leftOf w).natAbs ∧
      (rightOf (fadeInFrame w k)).natAbs ≤ (rightOf w).natAbs) ∧
    fadeInFrame w 64 = w

/-- R117, R126: every interpolated sample lies between its bounding samples inclusive. -/
def Obligations.InterpolatedSamplesLieBetween : Prop :=
  ∀ (a b : Word) (n i : Nat), i ≤ n →
    let f := interpFrame a b n i
    min (leftOf a) (leftOf b) ≤ leftOf f ∧ leftOf f ≤ max (leftOf a) (leftOf b) ∧
    min (rightOf a) (rightOf b) ≤ rightOf f ∧ rightOf f ≤ max (rightOf a) (rightOf b)

/-! ### Commands -/

/-- R46, R54, R110, R111, R176, and the flush of R22, R37, R68, R107, R127: START taken with a disc
loaded leaves an empty ring, STARTING at X with its block published, the cursor at X and PLAYING. R177, R178: its
flush brings a pending APPLY into effect, a new geometry among it, and START completes after it. -/
def Obligations.StartFlushesAndStarts : Prop :=
  ∀ (x : Word) (s : State), s.idle → s.rc.loaded.isSome = true → s.eject = none →
    s.rc.phase ≠ .parked → s.intake.held = [] →
    (s.ctl.applyPending = true →
      let new := clampParams s.ctl.staged
      ∃ t, exec (.start x) s = .next t ∧ t.rc.phase = .starting ∧ t.play.mode = .playing ∧
        t.play.cursor = min x.toNat 264599999 ∧ t.map.segs = [] ∧ t.ctl.busy = false ∧ t.ctl.lastCode = 1 ∧
        t.ctl.lastResult = .done ∧ t.mem = s.mem ∧
        s.applyTookEffect t (placementOk s.router.pblk new) ∧
        (placementOk s.router.pblk new = true →
          s.ctl.params.ringBase ≠ new.ringBase ∨ s.ctl.params.ringSlots ≠ new.ringSlots →
          t.map.slots = List.replicate new.ringSlots SlotDesc.free)) ∧
    (s.ctl.applyPending = false → ∃ t, exec (.start x) s = .next t ∧
        t.rc.phase = .starting ∧ t.rc.target = min x.toNat 264599999 / 588 ∧ t.rc.rrq = true ∧
        t.rc.startFrame = min x.toNat 264599999 ∧ t.rc.started = false ∧ t.rc.loaded = s.rc.loaded ∧
        t.rc.retry = 0 ∧ t.rc.run = [] ∧ t.rc.tail = [] ∧ t.rc.record = s.rc.record ∧
        t.play.cursor = min x.toNat 264599999 ∧ t.play.mode = .playing ∧ t.play.history = [] ∧
        t.play.underrun = false ∧ t.play.run = .none ∧ t.play.lastWord = s.play.lastWord ∧
        t.play.fadeOut = s.play.fadeOut ∧ t.play.fadeIn = s.play.fadeIn ∧
        t.map.segs = [] ∧ t.map.slots = List.replicate s.map.slots.length SlotDesc.free ∧ t.lead = 0 ∧
        t.map.allocPtr = 0 ∧ t.map.nextId = 0 ∧ (0 < s.ctl.params.lowWater → t.map.below = true) ∧
        t.intake.phase = .none ∧ t.intake.hold = false ∧
        t.gaps.entries = [] ∧ t.gaps.fetch = none ∧ t.me.activity = .idle ∧ t.quality = s.quality ∧
        t.ctl = { s.ctl with
          arg0 := x, latch := 0, zeroWrite := true, busy := false, lastCode := 1, lastResult := .done
          flags := s.ctl.flags ||| BitVec.twoPow 16 12 } ∧
        t.mem = s.mem ∧ t.resume = s.resume ∧ t.lines = s.lines ∧ t.supply = s.supply ∧ t.clock = s.clock)

/-- R175, R176: START, PAUSE and PLAY with no disc loaded, and LOAD out of PARKED or with the tray not closed,
complete with REFUSED_STATE and change nothing outside the Control Unit but the wait count, which returns to 0
where the code withdraws the last engine request waiting (R142, R174). -/
def Obligations.RefusedCommandsChangeNothing : Prop :=
  ∀ s : State, s.idle →
    let u : State := { s with arb := s.arbiterAtTake }
    let refused := fun (code a0 a1 : Word) => ({ u with ctl := { s.ctl with
      arg0 := a0, arg1 := a1, latch := 0, zeroWrite := true, lastCode := code
      lastResult := .refusedState, flags := s.ctl.flags ||| BitVec.twoPow 16 12 } } : State)
    (s.rc.loaded = none ∨ s.eject.isSome = true →
      ∀ x, exec (.start x) s = .next (refused 1 x s.ctl.arg1)) ∧
    (s.rc.phase ≠ .parked ∨ s.lines.taken = .opened ∨ s.eject.isSome = true →
      ∀ f x, exec (.load f x) s = .next (refused 2 f x)) ∧
    (s.rc.loaded = none → exec .pause s = .next (refused 4 s.ctl.arg0 s.ctl.arg1)) ∧
    (s.rc.loaded = none → exec .play s = .next (refused 5 s.ctl.arg0 s.ctl.arg1))

/-- R46, R106, R158, R159: LOAD in PARKED with the tray closed: with no usable entry it starts at X; with
a tail count below 8 it starts at the resume frame; with 8 or more it seeks with origin RESUME and the
last min(MATCH_LEN, tail count) saved frames in the tail store. -/
def Obligations.LoadStartsOrResumes : Prop :=
  ∀ (f x : Word) (s : State), s.idle → s.rc.phase = .parked → s.lines.taken = .closed →
    s.eject = none → s.intake.held = [] →
    ∃ t, exec (.load f x) s = .next t ∧
      t.rc.loaded = some f ∧ t.rc.started = false ∧ t.rc.rrq = true ∧ t.play.mode = .playing ∧
      t.play.history = [] ∧ t.quality.rated = f ∧ t.ctl.busy = false ∧ t.ctl.lastCode = 2 ∧
      t.ctl.lastResult = .done ∧ t.flag .cmdDone = true ∧ t.resume = s.resume ∧ t.mem = s.mem ∧
      (f = 0 ∨ f ≠ s.quality.rated → t.quality.counter = 0 ∧ t.quality.level = .normal) ∧
      (resumeEntry s f = none →
        t.rc.phase = .starting ∧ t.rc.startKind = .start ∧ t.play.cursor = min x.toNat 264599999 ∧
        t.rc.target = min x.toNat 264599999 / 588 ∧ t.flag .resume = s.flag .resume) ∧
      (∀ n, resumeEntry s f = some n → (resumeAt s n).tailCount < 8 →
        t.rc.phase = .starting ∧ t.rc.startKind = .nominal ∧ t.play.cursor = (resumeAt s n).frame ∧
        t.rc.target = (resumeAt s n).frame / 588 ∧ t.flag .resume = true) ∧
      (∀ n, resumeEntry s f = some n → 8 ≤ (resumeAt s n).tailCount →
        (resumeAt s n).tailCount ≤ (resumeAt s n).tail.length →
        t.rc.phase = .seeking ∧ t.rc.origin = some .resume ∧ t.rc.p = (resumeAt s n).frame ∧
        t.rc.retry = 0 ∧ t.play.cursor = (resumeAt s n).frame ∧ t.flag .resume = true ∧
        t.rc.kEff = min s.ctl.params.matchLen (resumeAt s n).tailCount ∧
        t.rc.tail = ((resumeAt s n).tail.take (resumeAt s n).tailCount).drop
          ((resumeAt s n).tailCount - t.rc.kEff) ∧
        t.rc.tail.length = t.rc.kEff ∧
        t.rc.target = (resumeAt s n).frame / 588 - s.ctl.params.preroll ∧
        t.rc.deadline = s.ctl.params.seekTimeout)

/-- R150: EJECT with no disc loaded passes to step 4 and completes; with a disc whose stream has started
it requests a snapshot and waits for it, still EXECUTING, with the stream as it was. With a disc loaded and
no snapshot to take it flushes, unloads, stops and completes in one (steps 2 to 4). -/
def Obligations.EjectBegins : Prop :=
  ∀ s : State, s.idle → s.eject = none →
    (s.rc.loaded = none → s.rc.phase = .parked → s.intake.held = [] → s.ctl.applyPending = false →
      ∃ t, exec .eject s = .next t ∧ t.play.mode = .stopped ∧ t.eject = none ∧ t.rc.loaded = none ∧
        t.rc.phase = .parked ∧ t.play.cursor = s.play.cursor ∧ t.play.history = s.play.history ∧
        t.ctl.busy = false ∧ t.ctl.lastCode = 3 ∧ t.ctl.lastResult = .done ∧
        t.flag .cmdDone = true ∧ t.mem = s.mem ∧ t.resume = s.resume) ∧
    (∀ f, s.rc.loaded = some f → f ≠ 0 → s.rc.started = true → s.resume.snap = none →
      ∃ t p, exec .eject s = .next t ∧ t.eject = some { byCommand := true } ∧ t.ctl.busy = true ∧
        t.resume.snap = some p ∧ p.fingerprint = f ∧ p.frame = min s.play.cursor 264599999 ∧
        p.tail.length ≤ 32 ∧ t.rc = s.rc ∧ t.play = s.play ∧ t.map = s.map ∧ t.mem = s.mem ∧
        t.ctl.flags = s.ctl.flags) ∧
    (∀ f, s.rc.loaded = some f → f = 0 ∨ s.rc.started = false → s.rc.phase ≠ .parked →
      s.intake.held = [] → s.ctl.applyPending = false →
      ∃ t, exec .eject s = .next t ∧ t.rc.phase = .parked ∧ t.rc.loaded = none ∧ t.rc.started = false ∧
        t.rc.rrq = false ∧ t.rc.run = [] ∧ t.map.segs = [] ∧
        t.map.slots = List.replicate s.map.slots.length SlotDesc.free ∧ t.gaps.entries = [] ∧
        t.gaps.fetch = none ∧ t.intake.phase = .none ∧ t.intake.hold = false ∧ t.play.mode = .stopped ∧
        t.play.cursor = s.play.cursor ∧ t.play.history = s.play.history ∧ t.eject = none ∧
        t.ctl.busy = false ∧ t.ctl.lastCode = 3 ∧ t.ctl.lastResult = .done ∧ t.flag .cmdDone = true ∧
        t.mem = s.mem ∧ t.resume = s.resume ∧ t.quality = s.quality)

/-- R110, R119, R122: with a disc loaded PAUSE sets PAUSED from PLAYING and ends the run (once a burst in
flight is composed: log 19); PLAY sets PLAYING from PAUSED and makes a fade-in pending (at once, with a burst
in flight too: log 43); otherwise neither changes the play state. R177: a PAUSE that leaves PLAYING brings a
pending APPLY into effect, which completes before PAUSE does (log 15). The wait count returns to 0
where the code withdraws the last engine request waiting (R142, R174). -/
def Obligations.PauseAndPlay : Prop :=
  ∀ s : State, s.idle → s.rc.loaded.isSome = true →
    (s.ctl.applyPending = true → s.play.mode = .playing →
      ∃ t, exec .pause s = .next t ∧ t.play.mode = .paused ∧ t.play.underrun = false ∧
        t.ctl.busy = false ∧ t.ctl.latch = 0 ∧ t.ctl.zeroWrite = true ∧ t.ctl.lastCode = 4 ∧
        t.ctl.lastResult = .done ∧ t.mem = s.mem ∧ s.applyTookEffect t (applyPasses s)) ∧
    (s.ctl.applyPending = false →
      let u : State := { s with arb := s.arbiterAtTake }
      let done := fun (code : Word) => { s.ctl with
        latch := 0, zeroWrite := true, lastCode := code, lastResult := CmdResult.done
        flags := s.ctl.flags ||| BitVec.twoPow 16 12 }
      (s.play.mode = .playing → s.play.burst = none → exec .pause s = .next { u with
        ctl := done 4, play := { s.play with mode := .paused, run := .none, underrun := false } }) ∧
      (s.play.mode = .playing → s.play.burst.isSome = true → exec .pause s = .next { u with
        ctl := done 4, play := { s.play with mode := .paused, endRun := true, underrun := false } }) ∧
      (s.play.mode = .paused → exec .pause s = .next { u with ctl := done 4 }) ∧
      (s.play.mode = .paused → exec .play s = .next { u with
        ctl := done 5, play := { s.play with mode := .playing, fadeIn := 1 } }) ∧
      (s.play.mode = .playing → exec .play s = .next { u with ctl := done 5 }))

/-- R173, R177, R178: APPLY in PLAYING with lead above 0 is deferred; otherwise it takes effect at once:
the clamped set replaces the set in effect if both checks pass, and if either fails nothing is replaced
and CONFIG is raised. The wait count returns to 0 where the code withdraws the last engine request waiting
(R142, R174). -/
def Obligations.ApplyTakesEffectOrWaits : Prop :=
  ∀ s : State, s.idle →
    let u : State := { s with arb := s.arbiterAtTake }
    (s.play.mode = .playing → 0 < s.lead → exec .apply s = .next { u with ctl := { s.ctl with
      latch := 0, zeroWrite := true, applyPending := true, applyInd := .pending } }) ∧
    (s.play.mode ≠ .playing ∨ s.lead = 0 → applyPasses s = true →
      ∃ t, exec .apply s = .next t ∧ t.ctl.params = clampParams s.ctl.staged ∧
        t.ctl.staged = s.ctl.staged ∧ t.ctl.applyInd = .done ∧ t.ctl.lastCode = 6 ∧
        t.ctl.lastResult = .done ∧ t.ctl.applyPending = false ∧ t.flag .cmdDone = true ∧
        t.mem = s.mem) ∧
    (s.play.mode ≠ .playing ∨ s.lead = 0 → applyPasses s = false →
      exec .apply s = .next { u with ctl := { s.ctl with
        latch := 0, zeroWrite := true, applyPending := false, applyInd := .refusedConfig
        lastCode := 6, lastResult := .refusedConfig
        flags := s.ctl.flags ||| BitVec.twoPow 16 14 ||| BitVec.twoPow 16 12 } }) ∧
    (clampParams s.ctl.staged).inRange

/-- R160, R175: FORGET makes the entry of its disc invalid and nothing else of the table, completes with
NOT_FOUND where there is none, and waits while a snapshot of that disc is being written; an unassigned
code completes with BAD_COMMAND and no other effect. The wait count returns to 0 where the code withdraws the
last engine request waiting (R142, R174). -/
def Obligations.ForgetAndBadCommand : Prop :=
  ∀ (f : Word) (s : State), s.idle →
    let u : State := { s with arb := s.arbiterAtTake }
    let ended := fun (code : Word) (r : CmdResult) => { s.ctl with
      latch := 0, zeroWrite := true, lastCode := code, lastResult := r
      flags := s.ctl.flags ||| BitVec.twoPow 16 12 }
    (∀ n, writingFor s f = false → resumeEntry s f = some n → exec (.forget f) s = .next { u with
      ctl := { ended 7 .done with arg0 := f }
      resume := { s.resume with
        entries := s.resume.entries.modify n fun e => { e with valid := false } } }) ∧
    (writingFor s f = false → resumeEntry s f = none → exec (.forget f) s = .next { u with
      ctl := { ended 7 .notFound with arg0 := f } }) ∧
    (writingFor s f = true → exec (.forget f) s = .next { u with ctl := { s.ctl with
      arg0 := f, latch := 0, zeroWrite := true, busy := true, forgetWait := some f } }) ∧
    (8 ≤ f.toNat → exec (.badCommand f) s = .next { u with ctl := ended f .badCommand })

/-! ### Tray, snapshots, supply -/

/-- R145 to R148: a tick updates the quiet count and then the debounce count; the first sample after a
reset becomes the taken level with no edge; an edge is taken exactly when both counts reach DEB. That the
row sets the TRAY pin (log 31), that a taken edge is recorded and acts by its own row (log 35), and that the
row acts whatever the divider shows (log 39), are the model's choices. -/
def Obligations.TickUpdatesTrayLogic : Prop :=
  ∀ (tray : TrayLevel) (s : State), inReset s = false →
    let l := s.lines
    let quiet := if l.shk = true ∨ l.riseLatch = true then 0 else min (l.quiet + 1) 64
    let bounce := if tray = l.taken then 0 else min (l.debounce + 1) 64
    let deb := s.ctl.params.deb
    ∃ t, exec (.tick tray) s = .next t ∧
      t = { s with lines := t.lines, pins := { s.pins with tray := tray } } ∧
      t.lines.quiet = quiet ∧ t.lines.riseLatch = false ∧ t.lines.sampled = true ∧
      (l.sampled = false → t.lines.taken = tray ∧ t.lines.debounce = 0 ∧ t.lines.edge = l.edge) ∧
      (l.sampled = true → deb ≤ bounce → deb ≤ quiet →
        t.lines.taken = tray ∧ t.lines.debounce = 0 ∧ t.lines.edge = some tray) ∧
      (l.sampled = true → bounce < deb ∨ quiet < deb →
        t.lines.taken = l.taken ∧ t.lines.debounce = bounce ∧ t.lines.edge = l.edge)

/-- R149, R150: a taken edge raises TRAY; a tray-close, and a tray-open with no disc loaded, do nothing
more; a tray-open with a started disc begins the eject action and its snapshot. -/
def Obligations.TrayEdgesAct : Prop :=
  ∀ s : State, inReset s = false →
    (∃ t, exec .trayClose s = .next t ∧ t = { s with lines := t.lines, ctl := t.ctl } ∧
      t.lines.taken = .closed ∧ t.ctl = { s.ctl with flags := s.ctl.flags ||| BitVec.twoPow 16 9 }) ∧
    (s.rc.loaded = none →
      ∃ t, exec .trayOpen s = .next t ∧ t = { s with lines := t.lines, ctl := t.ctl } ∧
        t.lines.taken = .opened ∧ t.ctl = { s.ctl with flags := s.ctl.flags ||| BitVec.twoPow 16 9 }) ∧
    (∀ f, s.rc.loaded = some f → f ≠ 0 → s.rc.started = true → s.eject = none → s.resume.snap = none →
      ∃ t, exec .trayOpen s = .next t ∧ t.eject = some { byCommand := false } ∧
        t.resume.snap.isSome = true ∧ t.flag .tray = true ∧ t.rc = s.rc ∧ t.map = s.map)

/-- R156: at the end of its write an entry is valid with the gathered contents and age 0: the saved frames
are the gathered ones, and after them those the entry held; the age of every other valid entry rises by one,
stopping at 255. R160: a FORGET held for the write then makes the entry invalid and completes. R150, R151: an
eject action that waited flushes, unloads and stops, and an EJECT completes; a supply fall that is due by
then is taken before the disc is unloaded and requests a fresh snapshot (logs 15 and 30). The row ends the
write whatever its timer shows (log 39). -/
def Obligations.SnapshotWriteMakesEntryValid : Prop :=
  ∀ (s : State) (p : Snapshot) (n : Nat), inReset s = false → s.resume.snap = some p →
    p.target = some n → n < s.resume.entries.length →
    let aged := fun (e : ResumeEntry) => if e.valid then { e with age := min (e.age + 1) 255 } else e
    let entryWritten := fun (t : State) =>
      (resumeAt t n).valid = true ∧ (resumeAt t n).fingerprint = p.fingerprint ∧
      (resumeAt t n).frame = p.frame ∧ (resumeAt t n).tailCount = p.tail.length ∧
      (resumeAt t n).age = 0 ∧
      ((∀ e ∈ p.tail, e.value.isSome = true) → (resumeAt t n).tail.map some =
        p.tail.map HistoryEntry.value ++ ((resumeAt s n).tail.drop p.tail.length).map some) ∧
      (∀ k, k ≠ n → resumeAt t k = aged (resumeAt s k))
    (s.ctl.forgetWait = none → s.eject = none →
      ∃ t, exec .snapshotWriteEnd s = .next t ∧
        t = { s with resume := t.resume, arb := t.arb } ∧ t.resume.snap = none ∧
        t.resume.latch = s.resume.latch ∧ entryWritten t) ∧
    (s.ctl.forgetWait = some p.fingerprint → s.eject = none → s.resume.distinct →
      ∃ t, exec .snapshotWriteEnd s = .next t ∧ t.resume.snap = none ∧
        (resumeAt t n).valid = false ∧ (∀ k, k ≠ n → resumeAt t k = aged (resumeAt s k)) ∧
        t.ctl = { s.ctl with
          forgetWait := none, busy := false, lastCode := 7, lastResult := .done
          flags := s.ctl.flags ||| BitVec.twoPow 16 12 } ∧
        t = { s with resume := t.resume, arb := t.arb, ctl := t.ctl }) ∧
    (∀ a, s.ctl.forgetWait = none → s.eject = some a → s.rc.phase ≠ .parked → s.intake.held = [] →
      s.ctl.applyPending = false → s.rc.loaded.isSome = true →
      ∃ t, exec .snapshotWriteEnd s = .next t ∧ t.eject = none ∧ t.rc.phase = .parked ∧
        t.rc.loaded = none ∧ t.rc.started = false ∧ t.rc.rrq = false ∧ t.map.segs = [] ∧
        t.map.slots = List.replicate s.map.slots.length SlotDesc.free ∧ t.gaps.entries = [] ∧
        t.play.mode = .stopped ∧ t.play.cursor = s.play.cursor ∧ t.play.history = s.play.history ∧
        t.mem = s.mem ∧
        (a.byCommand = true → t.ctl.busy = false ∧ t.ctl.lastCode = 3 ∧ t.ctl.lastResult = .done ∧
          t.flag .cmdDone = true) ∧
        (a.byCommand = false → t.ctl.busy = s.ctl.busy ∧ t.ctl.lastCode = s.ctl.lastCode) ∧
        (fallDue s = false → t.resume.snap = none ∧ entryWritten t ∧ t.supply = s.supply) ∧
        (fallDue s = true → 3900 ≤ s.pins.vmain → t.supply.low = true ∧ t.flag .supply = true ∧
          ∀ f, snapshotDisc s = some f → ∃ q, t.resume.snap = some q ∧ q.fingerprint = f ∧
            q.frame = min s.play.cursor 264599999))

/-- R161 to R163, R170: a fall taken sets the live low indication and raises SUPPLY, and with no disc to
save nothing more; a rise only clears the indication; the first comparison only sets or clears it, but
is a fall taken where it finds the supply low with a disc loaded. That the row sets the VMAIN level of the
pins (logs 22 and 31), and that the rows act whatever the filter timer shows (log 39), are the model's
choices. -/
def Obligations.SupplyComparisons : Prop :=
  ∀ (v : Nat) (s : State), inReset s = false → 3900 ≤ v →
    let fall := 4300 + 50 * s.ctl.params.supplyLevel
    let at' := fun (b : Bool) => ({ s with
      pins := { s.pins with vmain := v }
      supply := { s.supply with low := b, first := false, timer := 0 } } : State)
    (s.supply.first = false → s.supply.low = false → v < fall → snapshotDisc s = none →
      exec (.supplyFallTaken v) s = .next { at' true with
        ctl := { s.ctl with flags := s.ctl.flags ||| BitVec.twoPow 16 11 } }) ∧
    (s.supply.first = false → s.supply.low = false → v < fall → (snapshotDisc s).isSome = true →
      s.resume.snap = none →
      ∃ t, exec (.supplyFallTaken v) s = .next t ∧ t.supply.low = true ∧ t.flag .supply = true ∧
        t.resume.snap.isSome = true ∧ t.rc = s.rc ∧ t.play = s.play ∧ t.map = s.map) ∧
    (s.supply.first = false → s.supply.low = true → fall + 50 ≤ v →
      exec (.supplyRiseTaken v) s = .next (at' false)) ∧
    (s.supply.first = true → fall + 50 ≤ v → exec (.firstSupplyCompare v) s = .next (at' false)) ∧
    (s.supply.first = true → v < fall → s.rc.loaded = none →
      exec (.firstSupplyCompare v) s = .next (at' true)) ∧
    (s.supply.first = true → v < fall → s.rc.loaded.isSome = true →
      ∃ t, exec (.firstSupplyCompare v) s = .next t ∧ t.supply.low = true ∧ t.supply.first = false ∧
        t.flag .supply = true)

/-! ### Resets and the retained domain -/

/-- R143, R157, R165, R167, R168, R170, R184: VMAIN below 3.9 V, and RSTn, put every block into its reset
state; memory and the Resume Table stay, and the held reset moves the retained domain to VBAK. The straps
that stand until the next sampling (log 28), the Controller's values that no rule gives (log 36) and where a
read in progress at port P leaves its zeros (`returnP`, log 25) are the model's choices, and so are the edge
count of RRQ, 0 at a reset (log 23), and the supply filter's last condition, `seen` at "above" (log 40). -/
def Obligations.ResetsEmptyEveryBlock : Prop :=
  ∀ s : State,
    let emptied := fun (t : State) =>
      t.mem = s.mem ∧ t.ctl = Control.reset s.router.pblk ∧ t.rc = Recovery.reset ∧
      t.map = StreamMap.reset 512 ∧ t.play = PlayServer.reset ∧ t.intake = Intake.reset ∧
      t.me = MatchEngine.reset ∧ t.gaps = GapScheduler.reset ∧ t.quality = Quality.reset ∧
      t.lines = Lines.reset ∧ t.arb = Arbiter.reset ∧ t.clock = Clock.reset ∧ t.eject = none ∧
      t.router.reqP = none ∧ t.router.reqD = none ∧
      (∀ r, s.router.reqP = some r → r.isWrite = false →
        t.router.returnP = List.replicate r.buffer.length 0)
    (∀ v b, v < 3900 → s.supply.held = false →
      ∃ t, exec (.powerOnThresholdFall v b) s = .next t ∧ inReset t = true ∧ t.supply.held = true ∧
        t.resume.onVbak = true ∧ t.resume.entries = s.resume.entries ∧ t.resume.snap = none ∧
        t.resume.latch = (s.resume.latch && decide (2000 ≤ b)) ∧ emptied t) ∧
    (s.pins.rstn = false → s.supply.held = false →
      ∃ t, exec .rstnAssert s = .next t ∧ inReset t = true ∧ t.resume = { s.resume with snap := none } ∧
        t.supply = { Supply.reset with held := false } ∧ emptied t)

/-- R155, R166, R167, R169, R184: at the end of the power-on delay the blocks take their power-on values
with the straps sampled, and the retention check keeps the table if the latch is set, and otherwise makes
every entry invalid, raises RETAIN_LOST and sets the latch; the next snapshot then takes entry 0. With RSTn
still asserted the part stays in reset and the check has been made (log 28, as for the straps). RSTn makes no
check; the first power-up leaves RETAIN_LOST raised and an empty table (what the entries of a first power-up
hold: log 27). The row acts whatever the delay counter shows (log 39), and the supply filter starts anew with
its last condition "above" (log 40). -/
def Obligations.PowerOnChecksRetention : Prop :=
  (∀ (straps : BitVec 2) (s t : State), exec .rstnAssert s = .next t ∨ exec (.rstnRelease straps) s = .next t →
    t.resume.entries = s.resume.entries ∧ t.resume.latch = s.resume.latch ∧
    (t.flag .retainLost = true → s.flag .retainLost = true)) ∧
  (State.reset.flag .retainLost = true ∧ ∀ e ∈ State.reset.resume.entries, e.valid = false) ∧
  ∀ (v : Nat) (straps : BitVec 2) (s : State), s.supply.held = true → 3900 ≤ v → s.router.waiting = [] →
    ∃ t, exec (.powerOnDelayEnd v straps) s = .next t ∧ inReset t = s.pins.rstn ∧
      t.router.pblk = straps ∧
      t.ctl.params = Params.defaults straps ∧ t.resume.onVbak = false ∧ t.resume.latch = true ∧
      t.clock = Clock.reset ∧ t.supply = { Supply.reset with held := false } ∧ t.ctl.enable = 0 ∧
      t.ctl.counters = Counters.zero ∧
      (s.resume.latch = true → t.resume.entries = s.resume.entries ∧ t.ctl.flags = 0) ∧
      (s.resume.latch = false → t.ctl.flags = BitVec.twoPow 16 15 ∧
        t.resume.entries = s.resume.entries.map (fun e => { e with valid := false }) ∧
        (s.resume.entries ≠ [] → ∀ f, targetEntry t f = 0))

/-- R1, R130, R143: at the release of RSTn, out of the held reset, the straps are sampled, the default
bases follow, the dividers start from 0 and the part is out of reset (the split of RSTn into two commands:
log 28). -/
def Obligations.RstnReleaseSamplesStraps : Prop :=
  ∀ (straps : BitVec 2) (s : State), s.pins.rstn = true → s.supply.held = false → s.router.waiting = [] →
    ∃ t, exec (.rstnRelease straps) s = .next t ∧ inReset t = false ∧ t.router.pblk = straps ∧
      t.ctl.params.intakeBase = blockBase straps - 0x1000 ∧
      t.ctl.params.playBase = blockBase straps - 0x2000 ∧ t.clock = { blockDiv := 0, tickDiv := 0 } ∧
      t.ctl.flags = s.ctl.flags ∧ t.mem = s.mem ∧ t.resume.entries = s.resume.entries ∧
      t.rc.phase = .parked ∧ t.play.mode = .stopped ∧ t.map.slots = List.replicate 512 SlotDesc.free

end
end

