-- ==== Sys2Proof/Laws/State.lean ====
section
/-! SUPPORT. What each block update changes and keeps: one lemma per field per update. -/
namespace Sys2Proof.Machine

section
variable (s : State) (f : Pins → Pins)
@[simp] theorem State.onPins_pending : (s.onPins f).pending = s.pending := rfl
@[simp] theorem State.onPins_pins : (s.onPins f).pins = f s.pins := rfl
@[simp] theorem State.onPins_clock : (s.onPins f).clock = s.clock := rfl
@[simp] theorem State.onPins_mem : (s.onPins f).mem = s.mem := rfl
@[simp] theorem State.onPins_router : (s.onPins f).router = s.router := rfl
@[simp] theorem State.onPins_arb : (s.onPins f).arb = s.arb := rfl
@[simp] theorem State.onPins_intake : (s.onPins f).intake = s.intake := rfl
@[simp] theorem State.onPins_map : (s.onPins f).map = s.map := rfl
@[simp] theorem State.onPins_rc : (s.onPins f).rc = s.rc := rfl
@[simp] theorem State.onPins_me : (s.onPins f).me = s.me := rfl
@[simp] theorem State.onPins_gaps : (s.onPins f).gaps = s.gaps := rfl
@[simp] theorem State.onPins_quality : (s.onPins f).quality = s.quality := rfl
@[simp] theorem State.onPins_play : (s.onPins f).play = s.play := rfl
@[simp] theorem State.onPins_lines : (s.onPins f).lines = s.lines := rfl
@[simp] theorem State.onPins_resume : (s.onPins f).resume = s.resume := rfl
@[simp] theorem State.onPins_supply : (s.onPins f).supply = s.supply := rfl
@[simp] theorem State.onPins_ctl : (s.onPins f).ctl = s.ctl := rfl
@[simp] theorem State.onPins_eject : (s.onPins f).eject = s.eject := rfl
end

section
variable (s : State) (f : Clock → Clock)
@[simp] theorem State.onClock_pending : (s.onClock f).pending = s.pending := rfl
@[simp] theorem State.onClock_pins : (s.onClock f).pins = s.pins := rfl
@[simp] theorem State.onClock_clock : (s.onClock f).clock = f s.clock := rfl
@[simp] theorem State.onClock_mem : (s.onClock f).mem = s.mem := rfl
@[simp] theorem State.onClock_router : (s.onClock f).router = s.router := rfl
@[simp] theorem State.onClock_arb : (s.onClock f).arb = s.arb := rfl
@[simp] theorem State.onClock_intake : (s.onClock f).intake = s.intake := rfl
@[simp] theorem State.onClock_map : (s.onClock f).map = s.map := rfl
@[simp] theorem State.onClock_rc : (s.onClock f).rc = s.rc := rfl
@[simp] theorem State.onClock_me : (s.onClock f).me = s.me := rfl
@[simp] theorem State.onClock_gaps : (s.onClock f).gaps = s.gaps := rfl
@[simp] theorem State.onClock_quality : (s.onClock f).quality = s.quality := rfl
@[simp] theorem State.onClock_play : (s.onClock f).play = s.play := rfl
@[simp] theorem State.onClock_lines : (s.onClock f).lines = s.lines := rfl
@[simp] theorem State.onClock_resume : (s.onClock f).resume = s.resume := rfl
@[simp] theorem State.onClock_supply : (s.onClock f).supply = s.supply := rfl
@[simp] theorem State.onClock_ctl : (s.onClock f).ctl = s.ctl := rfl
@[simp] theorem State.onClock_eject : (s.onClock f).eject = s.eject := rfl
end

section
variable (s : State) (f : List Host.Cell → List Host.Cell)
@[simp] theorem State.onMem_pending : (s.onMem f).pending = s.pending := rfl
@[simp] theorem State.onMem_pins : (s.onMem f).pins = s.pins := rfl
@[simp] theorem State.onMem_clock : (s.onMem f).clock = s.clock := rfl
@[simp] theorem State.onMem_mem : (s.onMem f).mem = f s.mem := rfl
@[simp] theorem State.onMem_router : (s.onMem f).router = s.router := rfl
@[simp] theorem State.onMem_arb : (s.onMem f).arb = s.arb := rfl
@[simp] theorem State.onMem_intake : (s.onMem f).intake = s.intake := rfl
@[simp] theorem State.onMem_map : (s.onMem f).map = s.map := rfl
@[simp] theorem State.onMem_rc : (s.onMem f).rc = s.rc := rfl
@[simp] theorem State.onMem_me : (s.onMem f).me = s.me := rfl
@[simp] theorem State.onMem_gaps : (s.onMem f).gaps = s.gaps := rfl
@[simp] theorem State.onMem_quality : (s.onMem f).quality = s.quality := rfl
@[simp] theorem State.onMem_play : (s.onMem f).play = s.play := rfl
@[simp] theorem State.onMem_lines : (s.onMem f).lines = s.lines := rfl
@[simp] theorem State.onMem_resume : (s.onMem f).resume = s.resume := rfl
@[simp] theorem State.onMem_supply : (s.onMem f).supply = s.supply := rfl
@[simp] theorem State.onMem_ctl : (s.onMem f).ctl = s.ctl := rfl
@[simp] theorem State.onMem_eject : (s.onMem f).eject = s.eject := rfl
end

section
variable (s : State) (f : Router → Router)
@[simp] theorem State.onRouter_pending : (s.onRouter f).pending = s.pending := rfl
@[simp] theorem State.onRouter_pins : (s.onRouter f).pins = s.pins := rfl
@[simp] theorem State.onRouter_clock : (s.onRouter f).clock = s.clock := rfl
@[simp] theorem State.onRouter_mem : (s.onRouter f).mem = s.mem := rfl
@[simp] theorem State.onRouter_router : (s.onRouter f).router = f s.router := rfl
@[simp] theorem State.onRouter_arb : (s.onRouter f).arb = s.arb := rfl
@[simp] theorem State.onRouter_intake : (s.onRouter f).intake = s.intake := rfl
@[simp] theorem State.onRouter_map : (s.onRouter f).map = s.map := rfl
@[simp] theorem State.onRouter_rc : (s.onRouter f).rc = s.rc := rfl
@[simp] theorem State.onRouter_me : (s.onRouter f).me = s.me := rfl
@[simp] theorem State.onRouter_gaps : (s.onRouter f).gaps = s.gaps := rfl
@[simp] theorem State.onRouter_quality : (s.onRouter f).quality = s.quality := rfl
@[simp] theorem State.onRouter_play : (s.onRouter f).play = s.play := rfl
@[simp] theorem State.onRouter_lines : (s.onRouter f).lines = s.lines := rfl
@[simp] theorem State.onRouter_resume : (s.onRouter f).resume = s.resume := rfl
@[simp] theorem State.onRouter_supply : (s.onRouter f).supply = s.supply := rfl
@[simp] theorem State.onRouter_ctl : (s.onRouter f).ctl = s.ctl := rfl
@[simp] theorem State.onRouter_eject : (s.onRouter f).eject = s.eject := rfl
end

section
variable (s : State) (f : Arbiter → Arbiter)
@[simp] theorem State.onArb_pending : (s.onArb f).pending = s.pending := rfl
@[simp] theorem State.onArb_pins : (s.onArb f).pins = s.pins := rfl
@[simp] theorem State.onArb_clock : (s.onArb f).clock = s.clock := rfl
@[simp] theorem State.onArb_mem : (s.onArb f).mem = s.mem := rfl
@[simp] theorem State.onArb_router : (s.onArb f).router = s.router := rfl
@[simp] theorem State.onArb_arb : (s.onArb f).arb = f s.arb := rfl
@[simp] theorem State.onArb_intake : (s.onArb f).intake = s.intake := rfl
@[simp] theorem State.onArb_map : (s.onArb f).map = s.map := rfl
@[simp] theorem State.onArb_rc : (s.onArb f).rc = s.rc := rfl
@[simp] theorem State.onArb_me : (s.onArb f).me = s.me := rfl
@[simp] theorem State.onArb_gaps : (s.onArb f).gaps = s.gaps := rfl
@[simp] theorem State.onArb_quality : (s.onArb f).quality = s.quality := rfl
@[simp] theorem State.onArb_play : (s.onArb f).play = s.play := rfl
@[simp] theorem State.onArb_lines : (s.onArb f).lines = s.lines := rfl
@[simp] theorem State.onArb_resume : (s.onArb f).resume = s.resume := rfl
@[simp] theorem State.onArb_supply : (s.onArb f).supply = s.supply := rfl
@[simp] theorem State.onArb_ctl : (s.onArb f).ctl = s.ctl := rfl
@[simp] theorem State.onArb_eject : (s.onArb f).eject = s.eject := rfl
end

section
variable (s : State) (f : Intake → Intake)
@[simp] theorem State.onIntake_pending : (s.onIntake f).pending = s.pending := rfl
@[simp] theorem State.onIntake_pins : (s.onIntake f).pins = s.pins := rfl
@[simp] theorem State.onIntake_clock : (s.onIntake f).clock = s.clock := rfl
@[simp] theorem State.onIntake_mem : (s.onIntake f).mem = s.mem := rfl
@[simp] theorem State.onIntake_router : (s.onIntake f).router = s.router := rfl
@[simp] theorem State.onIntake_arb : (s.onIntake f).arb = s.arb := rfl
@[simp] theorem State.onIntake_intake : (s.onIntake f).intake = f s.intake := rfl
@[simp] theorem State.onIntake_map : (s.onIntake f).map = s.map := rfl
@[simp] theorem State.onIntake_rc : (s.onIntake f).rc = s.rc := rfl
@[simp] theorem State.onIntake_me : (s.onIntake f).me = s.me := rfl
@[simp] theorem State.onIntake_gaps : (s.onIntake f).gaps = s.gaps := rfl
@[simp] theorem State.onIntake_quality : (s.onIntake f).quality = s.quality := rfl
@[simp] theorem State.onIntake_play : (s.onIntake f).play = s.play := rfl
@[simp] theorem State.onIntake_lines : (s.onIntake f).lines = s.lines := rfl
@[simp] theorem State.onIntake_resume : (s.onIntake f).resume = s.resume := rfl
@[simp] theorem State.onIntake_supply : (s.onIntake f).supply = s.supply := rfl
@[simp] theorem State.onIntake_ctl : (s.onIntake f).ctl = s.ctl := rfl
@[simp] theorem State.onIntake_eject : (s.onIntake f).eject = s.eject := rfl
end

section
variable (s : State) (f : StreamMap → StreamMap)
@[simp] theorem State.onMap_pending : (s.onMap f).pending = s.pending := rfl
@[simp] theorem State.onMap_pins : (s.onMap f).pins = s.pins := rfl
@[simp] theorem State.onMap_clock : (s.onMap f).clock = s.clock := rfl
@[simp] theorem State.onMap_mem : (s.onMap f).mem = s.mem := rfl
@[simp] theorem State.onMap_router : (s.onMap f).router = s.router := rfl
@[simp] theorem State.onMap_arb : (s.onMap f).arb = s.arb := rfl
@[simp] theorem State.onMap_intake : (s.onMap f).intake = s.intake := rfl
@[simp] theorem State.onMap_map : (s.onMap f).map = f s.map := rfl
@[simp] theorem State.onMap_rc : (s.onMap f).rc = s.rc := rfl
@[simp] theorem State.onMap_me : (s.onMap f).me = s.me := rfl
@[simp] theorem State.onMap_gaps : (s.onMap f).gaps = s.gaps := rfl
@[simp] theorem State.onMap_quality : (s.onMap f).quality = s.quality := rfl
@[simp] theorem State.onMap_play : (s.onMap f).play = s.play := rfl
@[simp] theorem State.onMap_lines : (s.onMap f).lines = s.lines := rfl
@[simp] theorem State.onMap_resume : (s.onMap f).resume = s.resume := rfl
@[simp] theorem State.onMap_supply : (s.onMap f).supply = s.supply := rfl
@[simp] theorem State.onMap_ctl : (s.onMap f).ctl = s.ctl := rfl
@[simp] theorem State.onMap_eject : (s.onMap f).eject = s.eject := rfl
end

section
variable (s : State) (f : Recovery → Recovery)
@[simp] theorem State.onRc_pending : (s.onRc f).pending = s.pending := rfl
@[simp] theorem State.onRc_pins : (s.onRc f).pins = s.pins := rfl
@[simp] theorem State.onRc_clock : (s.onRc f).clock = s.clock := rfl
@[simp] theorem State.onRc_mem : (s.onRc f).mem = s.mem := rfl
@[simp] theorem State.onRc_router : (s.onRc f).router = s.router := rfl
@[simp] theorem State.onRc_arb : (s.onRc f).arb = s.arb := rfl
@[simp] theorem State.onRc_intake : (s.onRc f).intake = s.intake := rfl
@[simp] theorem State.onRc_map : (s.onRc f).map = s.map := rfl
@[simp] theorem State.onRc_rc : (s.onRc f).rc = f s.rc := rfl
@[simp] theorem State.onRc_me : (s.onRc f).me = s.me := rfl
@[simp] theorem State.onRc_gaps : (s.onRc f).gaps = s.gaps := rfl
@[simp] theorem State.onRc_quality : (s.onRc f).quality = s.quality := rfl
@[simp] theorem State.onRc_play : (s.onRc f).play = s.play := rfl
@[simp] theorem State.onRc_lines : (s.onRc f).lines = s.lines := rfl
@[simp] theorem State.onRc_resume : (s.onRc f).resume = s.resume := rfl
@[simp] theorem State.onRc_supply : (s.onRc f).supply = s.supply := rfl
@[simp] theorem State.onRc_ctl : (s.onRc f).ctl = s.ctl := rfl
@[simp] theorem State.onRc_eject : (s.onRc f).eject = s.eject := rfl
end

section
variable (s : State) (f : MatchEngine → MatchEngine)
@[simp] theorem State.onMe_pending : (s.onMe f).pending = s.pending := rfl
@[simp] theorem State.onMe_pins : (s.onMe f).pins = s.pins := rfl
@[simp] theorem State.onMe_clock : (s.onMe f).clock = s.clock := rfl
@[simp] theorem State.onMe_mem : (s.onMe f).mem = s.mem := rfl
@[simp] theorem State.onMe_router : (s.onMe f).router = s.router := rfl
@[simp] theorem State.onMe_arb : (s.onMe f).arb = s.arb := rfl
@[simp] theorem State.onMe_intake : (s.onMe f).intake = s.intake := rfl
@[simp] theorem State.onMe_map : (s.onMe f).map = s.map := rfl
@[simp] theorem State.onMe_rc : (s.onMe f).rc = s.rc := rfl
@[simp] theorem State.onMe_me : (s.onMe f).me = f s.me := rfl
@[simp] theorem State.onMe_gaps : (s.onMe f).gaps = s.gaps := rfl
@[simp] theorem State.onMe_quality : (s.onMe f).quality = s.quality := rfl
@[simp] theorem State.onMe_play : (s.onMe f).play = s.play := rfl
@[simp] theorem State.onMe_lines : (s.onMe f).lines = s.lines := rfl
@[simp] theorem State.onMe_resume : (s.onMe f).resume = s.resume := rfl
@[simp] theorem State.onMe_supply : (s.onMe f).supply = s.supply := rfl
@[simp] theorem State.onMe_ctl : (s.onMe f).ctl = s.ctl := rfl
@[simp] theorem State.onMe_eject : (s.onMe f).eject = s.eject := rfl
end

section
variable (s : State) (f : GapScheduler → GapScheduler)
@[simp] theorem State.onGaps_pending : (s.onGaps f).pending = s.pending := rfl
@[simp] theorem State.onGaps_pins : (s.onGaps f).pins = s.pins := rfl
@[simp] theorem State.onGaps_clock : (s.onGaps f).clock = s.clock := rfl
@[simp] theorem State.onGaps_mem : (s.onGaps f).mem = s.mem := rfl
@[simp] theorem State.onGaps_router : (s.onGaps f).router = s.router := rfl
@[simp] theorem State.onGaps_arb : (s.onGaps f).arb = s.arb := rfl
@[simp] theorem State.onGaps_intake : (s.onGaps f).intake = s.intake := rfl
@[simp] theorem State.onGaps_map : (s.onGaps f).map = s.map := rfl
@[simp] theorem State.onGaps_rc : (s.onGaps f).rc = s.rc := rfl
@[simp] theorem State.onGaps_me : (s.onGaps f).me = s.me := rfl
@[simp] theorem State.onGaps_gaps : (s.onGaps f).gaps = f s.gaps := rfl
@[simp] theorem State.onGaps_quality : (s.onGaps f).quality = s.quality := rfl
@[simp] theorem State.onGaps_play : (s.onGaps f).play = s.play := rfl
@[simp] theorem State.onGaps_lines : (s.onGaps f).lines = s.lines := rfl
@[simp] theorem State.onGaps_resume : (s.onGaps f).resume = s.resume := rfl
@[simp] theorem State.onGaps_supply : (s.onGaps f).supply = s.supply := rfl
@[simp] theorem State.onGaps_ctl : (s.onGaps f).ctl = s.ctl := rfl
@[simp] theorem State.onGaps_eject : (s.onGaps f).eject = s.eject := rfl
end

section
variable (s : State) (f : Quality → Quality)
@[simp] theorem State.onQuality_pending : (s.onQuality f).pending = s.pending := rfl
@[simp] theorem State.onQuality_pins : (s.onQuality f).pins = s.pins := rfl
@[simp] theorem State.onQuality_clock : (s.onQuality f).clock = s.clock := rfl
@[simp] theorem State.onQuality_mem : (s.onQuality f).mem = s.mem := rfl
@[simp] theorem State.onQuality_router : (s.onQuality f).router = s.router := rfl
@[simp] theorem State.onQuality_arb : (s.onQuality f).arb = s.arb := rfl
@[simp] theorem State.onQuality_intake : (s.onQuality f).intake = s.intake := rfl
@[simp] theorem State.onQuality_map : (s.onQuality f).map = s.map := rfl
@[simp] theorem State.onQuality_rc : (s.onQuality f).rc = s.rc := rfl
@[simp] theorem State.onQuality_me : (s.onQuality f).me = s.me := rfl
@[simp] theorem State.onQuality_gaps : (s.onQuality f).gaps = s.gaps := rfl
@[simp] theorem State.onQuality_quality : (s.onQuality f).quality = f s.quality := rfl
@[simp] theorem State.onQuality_play : (s.onQuality f).play = s.play := rfl
@[simp] theorem State.onQuality_lines : (s.onQuality f).lines = s.lines := rfl
@[simp] theorem State.onQuality_resume : (s.onQuality f).resume = s.resume := rfl
@[simp] theorem State.onQuality_supply : (s.onQuality f).supply = s.supply := rfl
@[simp] theorem State.onQuality_ctl : (s.onQuality f).ctl = s.ctl := rfl
@[simp] theorem State.onQuality_eject : (s.onQuality f).eject = s.eject := rfl
end

section
variable (s : State) (f : PlayServer → PlayServer)
@[simp] theorem State.onPlay_pending : (s.onPlay f).pending = s.pending := rfl
@[simp] theorem State.onPlay_pins : (s.onPlay f).pins = s.pins := rfl
@[simp] theorem State.onPlay_clock : (s.onPlay f).clock = s.clock := rfl
@[simp] theorem State.onPlay_mem : (s.onPlay f).mem = s.mem := rfl
@[simp] theorem State.onPlay_router : (s.onPlay f).router = s.router := rfl
@[simp] theorem State.onPlay_arb : (s.onPlay f).arb = s.arb := rfl
@[simp] theorem State.onPlay_intake : (s.onPlay f).intake = s.intake := rfl
@[simp] theorem State.onPlay_map : (s.onPlay f).map = s.map := rfl
@[simp] theorem State.onPlay_rc : (s.onPlay f).rc = s.rc := rfl
@[simp] theorem State.onPlay_me : (s.onPlay f).me = s.me := rfl
@[simp] theorem State.onPlay_gaps : (s.onPlay f).gaps = s.gaps := rfl
@[simp] theorem State.onPlay_quality : (s.onPlay f).quality = s.quality := rfl
@[simp] theorem State.onPlay_play : (s.onPlay f).play = f s.play := rfl
@[simp] theorem State.onPlay_lines : (s.onPlay f).lines = s.lines := rfl
@[simp] theorem State.onPlay_resume : (s.onPlay f).resume = s.resume := rfl
@[simp] theorem State.onPlay_supply : (s.onPlay f).supply = s.supply := rfl
@[simp] theorem State.onPlay_ctl : (s.onPlay f).ctl = s.ctl := rfl
@[simp] theorem State.onPlay_eject : (s.onPlay f).eject = s.eject := rfl
end

section
variable (s : State) (f : Lines → Lines)
@[simp] theorem State.onLines_pending : (s.onLines f).pending = s.pending := rfl
@[simp] theorem State.onLines_pins : (s.onLines f).pins = s.pins := rfl
@[simp] theorem State.onLines_clock : (s.onLines f).clock = s.clock := rfl
@[simp] theorem State.onLines_mem : (s.onLines f).mem = s.mem := rfl
@[simp] theorem State.onLines_router : (s.onLines f).router = s.router := rfl
@[simp] theorem State.onLines_arb : (s.onLines f).arb = s.arb := rfl
@[simp] theorem State.onLines_intake : (s.onLines f).intake = s.intake := rfl
@[simp] theorem State.onLines_map : (s.onLines f).map = s.map := rfl
@[simp] theorem State.onLines_rc : (s.onLines f).rc = s.rc := rfl
@[simp] theorem State.onLines_me : (s.onLines f).me = s.me := rfl
@[simp] theorem State.onLines_gaps : (s.onLines f).gaps = s.gaps := rfl
@[simp] theorem State.onLines_quality : (s.onLines f).quality = s.quality := rfl
@[simp] theorem State.onLines_play : (s.onLines f).play = s.play := rfl
@[simp] theorem State.onLines_lines : (s.onLines f).lines = f s.lines := rfl
@[simp] theorem State.onLines_resume : (s.onLines f).resume = s.resume := rfl
@[simp] theorem State.onLines_supply : (s.onLines f).supply = s.supply := rfl
@[simp] theorem State.onLines_ctl : (s.onLines f).ctl = s.ctl := rfl
@[simp] theorem State.onLines_eject : (s.onLines f).eject = s.eject := rfl
end

section
variable (s : State) (f : ResumeStore → ResumeStore)
@[simp] theorem State.onResume_pending : (s.onResume f).pending = s.pending := rfl
@[simp] theorem State.onResume_pins : (s.onResume f).pins = s.pins := rfl
@[simp] theorem State.onResume_clock : (s.onResume f).clock = s.clock := rfl
@[simp] theorem State.onResume_mem : (s.onResume f).mem = s.mem := rfl
@[simp] theorem State.onResume_router : (s.onResume f).router = s.router := rfl
@[simp] theorem State.onResume_arb : (s.onResume f).arb = s.arb := rfl
@[simp] theorem State.onResume_intake : (s.onResume f).intake = s.intake := rfl
@[simp] theorem State.onResume_map : (s.onResume f).map = s.map := rfl
@[simp] theorem State.onResume_rc : (s.onResume f).rc = s.rc := rfl
@[simp] theorem State.onResume_me : (s.onResume f).me = s.me := rfl
@[simp] theorem State.onResume_gaps : (s.onResume f).gaps = s.gaps := rfl
@[simp] theorem State.onResume_quality : (s.onResume f).quality = s.quality := rfl
@[simp] theorem State.onResume_play : (s.onResume f).play = s.play := rfl
@[simp] theorem State.onResume_lines : (s.onResume f).lines = s.lines := rfl
@[simp] theorem State.onResume_resume : (s.onResume f).resume = f s.resume := rfl
@[simp] theorem State.onResume_supply : (s.onResume f).supply = s.supply := rfl
@[simp] theorem State.onResume_ctl : (s.onResume f).ctl = s.ctl := rfl
@[simp] theorem State.onResume_eject : (s.onResume f).eject = s.eject := rfl
end

section
variable (s : State) (f : Supply → Supply)
@[simp] theorem State.onSupply_pending : (s.onSupply f).pending = s.pending := rfl
@[simp] theorem State.onSupply_pins : (s.onSupply f).pins = s.pins := rfl
@[simp] theorem State.onSupply_clock : (s.onSupply f).clock = s.clock := rfl
@[simp] theorem State.onSupply_mem : (s.onSupply f).mem = s.mem := rfl
@[simp] theorem State.onSupply_router : (s.onSupply f).router = s.router := rfl
@[simp] theorem State.onSupply_arb : (s.onSupply f).arb = s.arb := rfl
@[simp] theorem State.onSupply_intake : (s.onSupply f).intake = s.intake := rfl
@[simp] theorem State.onSupply_map : (s.onSupply f).map = s.map := rfl
@[simp] theorem State.onSupply_rc : (s.onSupply f).rc = s.rc := rfl
@[simp] theorem State.onSupply_me : (s.onSupply f).me = s.me := rfl
@[simp] theorem State.onSupply_gaps : (s.onSupply f).gaps = s.gaps := rfl
@[simp] theorem State.onSupply_quality : (s.onSupply f).quality = s.quality := rfl
@[simp] theorem State.onSupply_play : (s.onSupply f).play = s.play := rfl
@[simp] theorem State.onSupply_lines : (s.onSupply f).lines = s.lines := rfl
@[simp] theorem State.onSupply_resume : (s.onSupply f).resume = s.resume := rfl
@[simp] theorem State.onSupply_supply : (s.onSupply f).supply = f s.supply := rfl
@[simp] theorem State.onSupply_ctl : (s.onSupply f).ctl = s.ctl := rfl
@[simp] theorem State.onSupply_eject : (s.onSupply f).eject = s.eject := rfl
end

section
variable (s : State) (f : Control → Control)
@[simp] theorem State.onCtl_pending : (s.onCtl f).pending = s.pending := rfl
@[simp] theorem State.onCtl_pins : (s.onCtl f).pins = s.pins := rfl
@[simp] theorem State.onCtl_clock : (s.onCtl f).clock = s.clock := rfl
@[simp] theorem State.onCtl_mem : (s.onCtl f).mem = s.mem := rfl
@[simp] theorem State.onCtl_router : (s.onCtl f).router = s.router := rfl
@[simp] theorem State.onCtl_arb : (s.onCtl f).arb = s.arb := rfl
@[simp] theorem State.onCtl_intake : (s.onCtl f).intake = s.intake := rfl
@[simp] theorem State.onCtl_map : (s.onCtl f).map = s.map := rfl
@[simp] theorem State.onCtl_rc : (s.onCtl f).rc = s.rc := rfl
@[simp] theorem State.onCtl_me : (s.onCtl f).me = s.me := rfl
@[simp] theorem State.onCtl_gaps : (s.onCtl f).gaps = s.gaps := rfl
@[simp] theorem State.onCtl_quality : (s.onCtl f).quality = s.quality := rfl
@[simp] theorem State.onCtl_play : (s.onCtl f).play = s.play := rfl
@[simp] theorem State.onCtl_lines : (s.onCtl f).lines = s.lines := rfl
@[simp] theorem State.onCtl_resume : (s.onCtl f).resume = s.resume := rfl
@[simp] theorem State.onCtl_supply : (s.onCtl f).supply = s.supply := rfl
@[simp] theorem State.onCtl_ctl : (s.onCtl f).ctl = f s.ctl := rfl
@[simp] theorem State.onCtl_eject : (s.onCtl f).eject = s.eject := rfl
end

section
variable (s : State) (f : Option EjectAction → Option EjectAction)
@[simp] theorem State.onEject_pending : (s.onEject f).pending = s.pending := rfl
@[simp] theorem State.onEject_pins : (s.onEject f).pins = s.pins := rfl
@[simp] theorem State.onEject_clock : (s.onEject f).clock = s.clock := rfl
@[simp] theorem State.onEject_mem : (s.onEject f).mem = s.mem := rfl
@[simp] theorem State.onEject_router : (s.onEject f).router = s.router := rfl
@[simp] theorem State.onEject_arb : (s.onEject f).arb = s.arb := rfl
@[simp] theorem State.onEject_intake : (s.onEject f).intake = s.intake := rfl
@[simp] theorem State.onEject_map : (s.onEject f).map = s.map := rfl
@[simp] theorem State.onEject_rc : (s.onEject f).rc = s.rc := rfl
@[simp] theorem State.onEject_me : (s.onEject f).me = s.me := rfl
@[simp] theorem State.onEject_gaps : (s.onEject f).gaps = s.gaps := rfl
@[simp] theorem State.onEject_quality : (s.onEject f).quality = s.quality := rfl
@[simp] theorem State.onEject_play : (s.onEject f).play = s.play := rfl
@[simp] theorem State.onEject_lines : (s.onEject f).lines = s.lines := rfl
@[simp] theorem State.onEject_resume : (s.onEject f).resume = s.resume := rfl
@[simp] theorem State.onEject_supply : (s.onEject f).supply = s.supply := rfl
@[simp] theorem State.onEject_ctl : (s.onEject f).ctl = s.ctl := rfl
@[simp] theorem State.onEject_eject : (s.onEject f).eject = f s.eject := rfl
end

end Sys2Proof.Machine
end

