-- ==== Sys2Proof/Laws/Memory.lean ====
section
/-! SUPPORT. Buffer memory: a read after a write, and the canonical form kept by every write. -/
namespace Sys2Proof.Machine

/-- What a byte reads as after a write, for memory in canonical form. -/
theorem Memory.wf_tail {x : Host.Cell} {rest : List Host.Cell} (h : Memory.wf (x :: rest) = true) :
    Memory.wf rest = true := by
  cases rest with
  | nil => rfl
  | cons y rest =>
    obtain ⟨a, b⟩ := x
    obtain ⟨c, d⟩ := y
    simp only [Memory.wf, Bool.and_eq_true] at h
    exact h.2

/-- The addresses after the first entry are above it. -/
theorem Memory.read_below {x : Nat} {b : Byte} {rest : List Host.Cell}
    (h : Memory.wf ((x, b) :: rest) = true) {a : Nat} (ha : a ≤ x) :
    Memory.read rest a = unlistedByte := by
  induction rest generalizing x b with
  | nil => rfl
  | cons y rest ih =>
    obtain ⟨c, d⟩ := y
    simp only [Memory.wf, Bool.and_eq_true, decide_eq_true_eq] at h
    have hne : c ≠ a := by omega
    simp only [Memory.read, if_neg hne]
    exact ih h.2 (by omega)

/-- A read after a write: the byte written there, every other byte as before. -/
theorem Memory.read_write {m : List Host.Cell} (h : Memory.wf m = true) (a b : Nat) (v : Byte) :
    Memory.read (Memory.write m a v) b = if b = a then v else Memory.read m b := by
  induction m with
  | nil =>
    simp only [Memory.write]
    split
    · rename_i hv
      subst hv
      simp [Memory.read]
    · simp only [Memory.read]
      by_cases hb : b = a
      · rw [if_pos hb.symm, if_pos hb]
      · rw [if_neg (Ne.symm hb), if_neg hb]
  | cons y rest ih =>
    obtain ⟨x, c⟩ := y
    have hr := ih (Memory.wf_tail h)
    simp only [Memory.write]
    by_cases hax : a < x
    · rw [if_pos hax]
      by_cases hb : b = a
      · subst hb
        have hx : x ≠ b := by omega
        have hbelow := Memory.read_below h (a := b) (by omega)
        split
        · rename_i hv
          subst hv
          simp [Memory.read, hx, hbelow]
        · simp [Memory.read]
      · rw [if_neg hb]
        split
        · rfl
        · simp [Memory.read, Ne.symm hb]
    · rw [if_neg hax]
      by_cases heq : a = x
      · subst heq
        rw [if_pos rfl]
        by_cases hb : b = a
        · subst hb
          have hbelow := Memory.read_below h (a := b) (le_refl b)
          split
          · rename_i hv
            subst hv
            simp [hbelow]
          · simp [Memory.read]
        · rw [if_neg hb]
          split <;> simp [Memory.read, Ne.symm hb]
      · rw [if_neg heq]
        simp only [Memory.read, hr]
        by_cases hb : x = b
        · subst hb
          simp [Ne.symm heq]
        · simp [hb]

/-- The canonical form with every address above a bound. -/
theorem Memory.write_wf_above {m : List Host.Cell} (h : Memory.wf m = true) (a : Nat) (v : Byte) :
    Memory.wf (Memory.write m a v) = true ∧
    ∀ x b, x < a → b ≠ unlistedByte → Memory.wf ((x, b) :: m) = true →
      Memory.wf ((x, b) :: Memory.write m a v) = true := by
  induction m with
  | nil =>
    simp only [Memory.write]
    split <;> simp_all [Memory.wf]
  | cons y rest ih =>
    obtain ⟨x, c⟩ := y
    have ht := Memory.wf_tail h
    obtain ⟨ih1, ih2⟩ := ih ht
    simp only [Memory.write]
    by_cases hax : a < x
    · rw [if_pos hax]
      split
      · exact ⟨h, fun _ _ _ _ hw => hw⟩
      · rename_i hv
        refine ⟨?_, fun z b hz hb _ => ?_⟩ <;> simp_all [Memory.wf]
    · rw [if_neg hax]
      have hc : c ≠ unlistedByte := by
        cases rest with
        | nil => simpa [Memory.wf] using h
        | cons y rest =>
          obtain ⟨_, _⟩ := y
          simp only [Memory.wf, Bool.and_eq_true, bne_iff_ne] at h
          exact h.1.1
      by_cases heq : a = x
      · subst heq
        rw [if_pos rfl]
        split
        · refine ⟨ht, fun z b hz hb hw => ?_⟩
          cases rest with
          | nil => simpa [Memory.wf] using hb
          | cons w rest =>
            obtain ⟨p, q⟩ := w
            simp only [Memory.wf, Bool.and_eq_true, decide_eq_true_eq] at h hw ⊢
            exact ⟨⟨by simpa using hb, by omega⟩, hw.2.2⟩
        · rename_i hv
          refine ⟨?_, fun z b hz hb hw => ?_⟩
          · cases rest with
            | nil => simpa [Memory.wf] using hv
            | cons w rest =>
              obtain ⟨p, q⟩ := w
              simp only [Memory.wf, Bool.and_eq_true, decide_eq_true_eq] at h ⊢
              exact ⟨⟨by simpa using hv, h.1.2⟩, h.2⟩
          · cases rest with
            | nil => simp_all [Memory.wf]
            | cons w rest =>
              obtain ⟨p, q⟩ := w
              simp only [Memory.wf, Bool.and_eq_true, decide_eq_true_eq] at h ⊢
              exact ⟨⟨by simpa using hb, hz⟩, ⟨by simpa using hv, h.1.2⟩, h.2⟩
      · rw [if_neg heq]
        have hxa : x < a := by omega
        have h2 := ih2 x c hxa hc h
        refine ⟨h2, fun z b hz hb hw => ?_⟩
        simp only [Memory.wf, Bool.and_eq_true, decide_eq_true_eq] at hw ⊢
        exact ⟨⟨by simpa using hb, hw.1.2⟩, h2⟩

/-- A write keeps the canonical form. -/
theorem Memory.wf_write {m : List Host.Cell} (h : Memory.wf m = true) (a : Nat) (v : Byte) :
    Memory.wf (Memory.write m a v) = true := (Memory.write_wf_above h a v).1

/-- A lane write keeps the canonical form. -/
theorem Memory.wf_writeLane {m : List Host.Cell} (h : Memory.wf m = true) (a : Nat) (w : Word)
    (en : BitVec 4) (i : Nat) : Memory.wf (Memory.writeLane m a w en i) = true := by
  unfold Memory.writeLane
  split
  · exact Memory.wf_write h _ _
  · exact h

/-- What a byte reads as after a lane write. -/
theorem Memory.read_writeLane {m : List Host.Cell} (h : Memory.wf m = true) (a b : Nat) (w : Word)
    (en : BitVec 4) (i : Nat) :
    Memory.read (Memory.writeLane m a w en i) b =
      if b = a + i ∧ en.getLsbD i = true then byteOf w i else Memory.read m b := by
  unfold Memory.writeLane
  split
  · rw [Memory.read_write h]
    simp_all
  · simp_all

/-- A word write keeps the canonical form. -/
theorem Memory.wf_writeWord {m : List Host.Cell} (h : Memory.wf m = true) (a : Nat) (w : Word)
    (en : BitVec 4) : Memory.wf (Memory.writeWord m a w en) = true :=
  Memory.wf_writeLane (Memory.wf_writeLane (Memory.wf_writeLane (Memory.wf_writeLane h ..) ..) ..) ..

/-- A word write changes its enabled bytes and no other byte (R134). -/
theorem Memory.read_writeWord {m : List Host.Cell} (h : Memory.wf m = true) (a b : Nat) (w : Word)
    (en : BitVec 4) :
    Memory.read (Memory.writeWord m a w en) b =
      if b = a + 3 ∧ en.getLsbD 3 = true then byteOf w 3
      else if b = a + 2 ∧ en.getLsbD 2 = true then byteOf w 2
      else if b = a + 1 ∧ en.getLsbD 1 = true then byteOf w 1
      else if b = a ∧ en.getLsbD 0 = true then byteOf w 0
      else Memory.read m b := by
  have h0 := Memory.wf_writeLane h a w en 0
  have h1 := Memory.wf_writeLane h0 a w en 1
  have h2 := Memory.wf_writeLane h1 a w en 2
  simp only [Memory.writeWord]
  rw [Memory.read_writeLane h2, Memory.read_writeLane h1, Memory.read_writeLane h0,
    Memory.read_writeLane h]
  rfl

/-- Consecutive word writes keep the canonical form. -/
theorem Memory.wf_writeWords {m : List Host.Cell} (h : Memory.wf m = true) (a : Nat) (ws : List Word) :
    Memory.wf (Memory.writeWords m a ws) = true := by
  induction ws generalizing m a with
  | nil => exact h
  | cons w ws ih => exact ih (Memory.wf_writeWord h a w allEnables) (a + 4)

/-- After reset memory lists nothing and is in the canonical form. -/
theorem State.reset_mem_wf : Memory.wf State.reset.mem = true := rfl

end Sys2Proof.Machine
end

