-- ==== Sys2Proof/Laws/Kept.lean ====
section
/-! SUPPORT. What every operation keeps: the queue, the invariant, and, unless the mask leaves them out, set
flags, the resume entries and the retention latch. One relation, one lemma for each block update. -/
namespace Sys2Proof.Machine

/-- What an operation is asked to keep beside the queue and the invariant. -/
structure Mask where
  flags : Bool
  entries : Bool
  latch : Bool
  parked : Bool
deriving DecidableEq, Repr

/-- `t` follows from `s` by operations that keep the queue, the invariant and what the mask names. -/
structure Kept (m : Mask) (s t : State) : Prop where
  queue : t.pending = s.pending
  core : s.coreInv → t.coreInv
  parked : m.parked = true → s.parkedEmpty → t.parkedEmpty
  flags : m.flags = true → flagsKept s t
  entries : m.entries = true → noNewEntry s t
  latch : m.latch = true → t.resume.latch = true → s.resume.latch = true

variable {m : Mask} {a b c s : State}

theorem Kept.refl (m : Mask) (s : State) : Kept m s s :=
  ⟨rfl, id, fun _ => id, fun _ => by simp [flagsKept], fun _ _ _ => rfl, fun _ => id⟩

theorem flagsKept_trans (h : flagsKept a b) (k : flagsKept b c) : flagsKept a c := by
  unfold flagsKept at *
  rw [← h, BitVec.and_assoc, k]

theorem Kept.trans (h : Kept m a b) (k : Kept m b c) : Kept m a c where
  queue := k.queue.trans h.queue
  core i := k.core (h.core i)
  parked p i := k.parked p (h.parked p i)
  flags f := flagsKept_trans (h.flags f) (k.flags f)
  entries e n hv := by
    have h1 := k.entries e n hv
    rw [h1] at hv ⊢
    exact h.entries e n hv
  latch l ht := h.latch l (k.latch l ht)

/-- With everything in the mask, the invariant is kept. -/
theorem Kept.inv {t : State} (h : Kept m s t) (hp : m.parked = true) (i : s.Inv) : t.Inv :=
  ⟨h.core i.1, h.parked hp i.2⟩

/-- The mask without the law of PARKED. -/
def Mask.noParked (m : Mask) : Mask := { m with parked := false }

theorem Kept.weaken {t : State} (h : Kept m s t) : Kept m.noParked s t :=
  ⟨h.queue, h.core, fun hp => absurd hp (by simp [Mask.noParked]), h.flags, h.entries, h.latch⟩

/-- An operation made of parts that break the law of PARKED keeps it if its result does. -/
theorem Kept.strengthen {t : State} (h : Kept m.noParked s t) (hp : s.parkedEmpty → t.parkedEmpty) :
    Kept m s t :=
  ⟨h.queue, h.core, fun _ => hp, h.flags, h.entries, h.latch⟩

/-- A change that keeps queue, flags, entries and latch as they are needs only the invariant. -/
theorem Kept.of_core {t : State} (h : Kept m a s) (hq : t.pending = s.pending)
    (hf : t.ctl.flags = s.ctl.flags) (hr : t.resume = s.resume) (hi : s.coreInv → t.coreInv)
    (hp : s.parkedEmpty → t.parkedEmpty) : Kept m a t :=
  h.trans
    { queue := hq
      core := hi
      parked := fun _ => hp
      flags := fun _ => by simp [flagsKept, hf]
      entries := fun _ n _ => by simp [resumeAt, hr]
      latch := fun _ hl => by rwa [hr] at hl }

/-! ### One lemma for each block update -/

theorem Kept.onPins {f : Pins → Pins} (h : Kept m a s) : Kept m a (s.onPins f) :=
  h.of_core rfl rfl rfl id id

theorem Kept.onClock {f : Clock → Clock} (h : Kept m a s) : Kept m a (s.onClock f) :=
  h.of_core rfl rfl rfl id id

theorem Kept.onIntake {f : Intake → Intake} (h : Kept m a s) : Kept m a (s.onIntake f) :=
  h.of_core rfl rfl rfl id id

theorem Kept.onMe {f : MatchEngine → MatchEngine} (h : Kept m a s) : Kept m a (s.onMe f) :=
  h.of_core rfl rfl rfl id id

theorem Kept.onEject {f : Option EjectAction → Option EjectAction} (h : Kept m a s) :
    Kept m a (s.onEject f) := h.of_core rfl rfl rfl id id

theorem Kept.onSupply {f : Supply → Supply} (h : Kept m a s) : Kept m a (s.onSupply f) :=
  h.of_core rfl rfl rfl id id

theorem Kept.onRouter {f : Router → Router} (h : Kept m a s) (hp : (f s.router).pblk = s.router.pblk) :
    Kept m a (s.onRouter f) :=
  h.of_core rfl rfl rfl (fun ⟨i1, i2, ⟨i3, i4⟩, i5⟩ => ⟨i1, i2, ⟨i3, by
    show placementOk (f s.router).pblk _ = true
    rw [hp]
    exact i4⟩, i5⟩) id

theorem Kept.onMem {f : List Host.Cell → List Host.Cell} (h : Kept m a s)
    (hw : Memory.wf s.mem = true → Memory.wf (f s.mem) = true) : Kept m a (s.onMem f) :=
  h.of_core rfl rfl rfl (fun i => ⟨hw i.1, i.2⟩) id

theorem Kept.onArb {f : Arbiter → Arbiter} (h : Kept m a s)
    (hw : s.arb.waitCount ≤ 4 → (f s.arb).waitCount ≤ 4) : Kept m a (s.onArb f) :=
  h.of_core rfl rfl rfl (fun ⟨i1, i2, i3⟩ => ⟨i1, ⟨hw i2.1, i2.2⟩, i3⟩) id

/-- What a change of the Stream Map has to keep. -/
structure MapKept (x y : StreamMap) : Prop where
  slots : y.slots.length = x.slots.length
  count : x.segs.length ≤ 16 → y.segs.length ≤ 16
  ids : x.nextId < 32 → y.nextId < 32
  owned : slotsOwned x.slots → slotsOwned y.slots
  ordered : segmentsOrdered x.segs → segmentsOrdered y.segs

theorem Kept.onMap {f : StreamMap → StreamMap} (h : Kept m a s) (k : MapKept s.map (f s.map))
    (he : s.map.segs = [] → (f s.map).segs = []) : Kept m a (s.onMap f) :=
  h.of_core rfl rfl rfl (fun ⟨i1, ⟨i2, ⟨j1, j2, j3⟩, i4⟩, i5, i6, i7, i8⟩ =>
    ⟨i1, ⟨i2, ⟨k.slots.trans j1, k.count j2, k.ids j3⟩, i4⟩, i5, k.owned i6, k.ordered i7, i8⟩)
    fun p q => he (p q)

/-- A change of the Stream Map that adds a segment leaves the law of PARKED open. -/
theorem Kept.onMapOpen {f : StreamMap → StreamMap} (hm : m.parked = false) (h : Kept m a s)
    (k : MapKept s.map (f s.map)) : Kept m a (s.onMap f) :=
  h.trans
    { queue := rfl
      core := fun ⟨i1, ⟨i2, ⟨j1, j2, j3⟩, i4⟩, i5, i6, i7, i8⟩ =>
        ⟨i1, ⟨i2, ⟨k.slots.trans j1, k.count j2, k.ids j3⟩, i4⟩, i5, k.owned i6, k.ordered i7, i8⟩
      parked := fun hp => by rw [hm] at hp; exact absurd hp (by decide)
      flags := fun _ => by simp [flagsKept]
      entries := fun _ _ _ => rfl
      latch := fun _ => id }

theorem Kept.onRc {f : Recovery → Recovery} (h : Kept m a s)
    (hr : s.rc.retry ≤ s.ctl.params.retryLimit → (f s.rc).retry ≤ s.ctl.params.retryLimit)
    (hp : (f s.rc).phase = .parked → s.rc.phase = .parked) : Kept m a (s.onRc f) :=
  h.of_core rfl rfl rfl (fun ⟨i1, ⟨i2, i3, i4, i5⟩, i6⟩ => ⟨i1, ⟨i2, i3, hr i4, i5⟩, i6⟩)
    fun p q => p (hp q)

theorem Kept.onGaps {f : GapScheduler → GapScheduler} (h : Kept m a s)
    (hg : s.gaps.entries.length ≤ 8 → (f s.gaps).entries.length ≤ 8) : Kept m a (s.onGaps f) :=
  h.of_core rfl rfl rfl (fun ⟨i1, ⟨i2, i3, i4, i5, i6⟩, i7⟩ => ⟨i1, ⟨i2, i3, i4, hg i5, i6⟩, i7⟩) id

theorem Kept.onQuality {f : Quality → Quality} (h : Kept m a s)
    (hq : s.quality.ok → (f s.quality).ok) : Kept m a (s.onQuality f) :=
  h.of_core rfl rfl rfl (fun ⟨i1, ⟨i2, i3, i4, i5, i6, i7⟩, i8⟩ =>
    ⟨i1, ⟨i2, i3, i4, i5, hq i6, i7⟩, i8⟩) id

theorem Kept.onPlay {f : PlayServer → PlayServer} (h : Kept m a s)
    (hh : s.play.history.length ≤ 64 → (f s.play).history.length ≤ 64) : Kept m a (s.onPlay f) :=
  h.of_core rfl rfl rfl (fun ⟨i1, ⟨i2, i3, i4, i5, i6, i7, i8⟩, i9⟩ =>
    ⟨i1, ⟨i2, i3, i4, i5, i6, hh i7, i8⟩, i9⟩) id

theorem Kept.onLines {f : Lines → Lines} (h : Kept m a s)
    (hl : s.lines.ok → (f s.lines).ok) : Kept m a (s.onLines f) :=
  h.of_core rfl rfl rfl (fun ⟨i1, ⟨i2, i3, i4, i5, i6, i7, i8, i9⟩, i10⟩ =>
    ⟨i1, ⟨i2, i3, i4, i5, i6, i7, hl i8, i9⟩, i10⟩) id

theorem Kept.onResume {f : ResumeStore → ResumeStore} (h : Kept m a s)
    (h1 : (f s.resume).entries.length = s.resume.entries.length)
    (hd : s.resume.distinct → (f s.resume).distinct)
    (h2 : m.entries = true → noNewEntry s (s.onResume f))
    (h3 : m.latch = true → (f s.resume).latch = true → s.resume.latch = true) :
    Kept m a (s.onResume f) :=
  h.trans
    { queue := rfl
      core := fun ⟨i1, ⟨i2, i3, i4, i5, i6, i7, i8, i9⟩, i10, i11, i12, i13⟩ =>
        ⟨i1, ⟨i2, i3, i4, i5, i6, i7, i8, h1.trans i9⟩, i10, i11, i12, hd i13⟩
      parked := fun _ => id
      flags := fun _ => by simp [flagsKept]
      entries := h2
      latch := h3 }

theorem Kept.onCtl {f : Control → Control} (h : Kept m a s) (h1 : (f s.ctl).params = s.ctl.params)
    (h2 : m.flags = true → s.ctl.flags &&& (f s.ctl).flags = s.ctl.flags) : Kept m a (s.onCtl f) :=
  h.trans
    { queue := rfl
      core := fun i => by
        have e : (s.onCtl f).ctl.params = s.ctl.params := h1
        obtain ⟨i1, ⟨i2, ⟨j1, j2, j3⟩, i4, i5⟩, ⟨i6, i7⟩, i8⟩ := i
        refine ⟨i1, ⟨i2, ⟨?_, j2, j3⟩, ?_, i5⟩, ⟨?_, ?_⟩, i8⟩
        · rw [e]; exact j1
        · rw [e]; exact i4
        · rw [e]; exact i6
        · rw [e]; exact i7
      parked := fun _ => id
      flags := h2
      entries := fun _ _ _ => rfl
      latch := fun _ => id }

end Sys2Proof.Machine
end

