-- ==== Sys2Proof/Laws/StreamLists.lean ====
section
/-! SUPPORT. The laws of the Slot Table, the Segment List and the Resume Table under the list updates that
the machine makes: replacing a descriptor, changing, removing or adding a segment, changing an entry. -/
namespace Sys2Proof.Machine

/-! ### Slot ownership (R8) -/

theorem slotsOwned_set {l : List SlotDesc} {n : Nat} {d : SlotDesc} (h : slotsOwned l)
    (h1 : d.owner ≠ none → d.state = .linked)
    (h2 : ∀ (j : Nat) (e : SlotDesc), j ≠ n → l[j]? = some e → d.owner ≠ none → e.owner = d.owner →
      e.label ≠ d.label) : slotsOwned (l.set n d) := by
  refine ⟨fun i e he ho => ?_, fun i j x y hx hy hij ho hxy => ?_⟩
  · rw [List.getElem?_set] at he
    split at he
    · split at he
      · cases he
        exact h1 ho
      · exact absurd he (by simp)
    · exact h.1 i e he ho
  · rw [List.getElem?_set] at hx hy
    split at hx
    · rename_i hi
      subst hi
      rw [if_neg hij] at hy
      split at hx
      · cases hx
        exact (h2 j y (Ne.symm hij) hy ho hxy.symm).symm
      · exact absurd hx (by simp)
    · rename_i hi
      split at hy
      · rename_i hj
        subst hj
        split at hy
        · cases hy
          exact h2 i x (Ne.symm hi) hx (hxy ▸ ho) hxy
        · exact absurd hy (by simp)
      · exact h.2 i j x y hx hy hij ho hxy

theorem slotsOwned_set_none {l : List SlotDesc} (n : Nat) {d : SlotDesc} (h : slotsOwned l)
    (hd : d.owner = none) : slotsOwned (l.set n d) :=
  slotsOwned_set h (fun ho => absurd hd ho) fun _ _ _ _ ho => absurd hd ho

/-- A descriptor whose state, owner and label stay. -/
theorem slotsOwned_set_same {l : List SlotDesc} {n : Nat} {d : SlotDesc} (h : slotsOwned l)
    (hd : ∀ old, l[n]? = some old →
      d.state = old.state ∧ d.owner = old.owner ∧ d.label = old.label) : slotsOwned (l.set n d) := by
  by_cases hn : n < l.length
  · have hold : l[n]? = some l[n] := List.getElem?_eq_getElem hn
    obtain ⟨e1, e2, e3⟩ := hd _ hold
    refine slotsOwned_set h (fun ho => ?_) fun j e hj he ho heo => ?_
    · rw [e1]
      exact h.1 n _ hold (e2 ▸ ho)
    · rw [e3]
      rw [e2] at heo ho
      exact h.2 j n e _ he hold hj (heo ▸ ho) heo
  · rw [List.set_eq_of_length_le (Nat.not_lt.mp hn)]
    exact h

theorem slotsOwned_replicate (n : Nat) : slotsOwned (List.replicate n SlotDesc.free) := by
  have key : ∀ (i : Nat) (d : SlotDesc), (List.replicate n SlotDesc.free)[i]? = some d → d.owner = none := by
    intro i d hd
    rw [List.getElem?_replicate] at hd
    split at hd
    · cases hd
      rfl
    · exact absurd hd (by simp)
  exact ⟨fun i d hd ho => absurd (key i d hd) ho, fun i j d e hd _ _ ho => absurd (key i d hd) ho⟩

/-! ### Segment order (R11) -/

theorem segmentsOrdered_tail {g : Segment} {l : List Segment} (h : segmentsOrdered (g :: l)) :
    segmentsOrdered l := by
  cases l with
  | nil => trivial
  | cons x l => exact h.2

theorem segmentsOrdered_dropLast {l : List Segment} (h : segmentsOrdered l) :
    segmentsOrdered l.dropLast := by
  induction l with
  | nil => exact h
  | cons g l ih =>
    cases l with
    | nil => trivial
    | cons x l =>
      cases l with
      | nil => trivial
      | cons y l => exact ⟨h.1, ih h.2⟩

/-- Adding a segment that follows the last one. -/
theorem segmentsOrdered_append {l : List Segment} {x : Segment} (h : segmentsOrdered l)
    (hx : ∀ g, l.getLast? = some g → g.followedBy x) : segmentsOrdered (l ++ [x]) := by
  induction l with
  | nil => trivial
  | cons g l ih =>
    cases l with
    | nil => exact ⟨hx g rfl, trivial⟩
    | cons y l => exact ⟨h.1, ih h.2 fun q hq => hx q (by rw [← hq]; rfl)⟩

/-- Changing the last segment without its stream start and head kind. -/
theorem segmentsOrdered_last {l : List Segment} {g x : Segment} (h : segmentsOrdered l)
    (hg : l.getLast? = some g) (hs : x.start = g.start) (hk : x.kind = g.kind) :
    segmentsOrdered (l.dropLast ++ [x]) := by
  induction l with
  | nil => trivial
  | cons y l ih =>
    cases l with
    | nil => trivial
    | cons z l =>
      cases l with
      | nil =>
        have : z = g := by simpa using hg
        subst this
        obtain ⟨⟨h1, h2, h3⟩, _⟩ := h
        exact ⟨⟨by rw [hs]; exact h1, by rw [hs, hk]; exact h2, h3⟩, trivial⟩
      | cons w l => exact ⟨h.1, ih h.2 (by rw [← hg]; rfl)⟩

/-! ### Resume entries (R152) -/

/-- A table in which each valid entry stands for a valid one with its fingerprint, and the same snapshot or
none. -/
theorem distinct_of {t u : ResumeStore} (h : t.distinct) (hs : u.snap = t.snap ∨ u.snap = none)
    (he : ∀ (i : Nat) (e : ResumeEntry), u.entries[i]? = some e → e.valid = true →
      ∃ d, t.entries[i]? = some d ∧ d.valid = true ∧ d.fingerprint = e.fingerprint) : u.distinct := by
  refine ⟨fun i j d e hd hee hij hv hw => ?_, fun p hp => ?_⟩
  · obtain ⟨d', hd', hv', hf⟩ := he i d hd hv
    obtain ⟨e', he', hw', hg⟩ := he j e hee hw
    rw [← hf, ← hg]
    exact h.1 i j d' e' hd' he' hij hv' hw'
  · rcases hs with hs | hs
    · rw [hs] at hp
      obtain ⟨h1, h2⟩ := h.2 p hp
      refine ⟨h1, fun n hn k e hk hkn hv => ?_⟩
      obtain ⟨d, hd, hv', hf⟩ := he k e hk hv
      rw [← hf]
      exact h2 n hn k d hd hkn hv'
    · rw [hs] at hp
      exact absurd hp (by simp)

theorem distinct_first : ResumeStore.first.distinct := by
  refine ⟨fun i j d e hd he hij hv => ?_, fun p hp => absurd hp (by simp [ResumeStore.first])⟩
  have : d.valid = false := by
    have hd' : (List.replicate 6 ResumeEntry.blank)[i]? = some d := hd
    rw [List.getElem?_replicate] at hd'
    split at hd'
    · cases hd'
      rfl
    · exact absurd hd' (by simp)
  rw [this] at hv
  exact absurd hv (by decide)

end Sys2Proof.Machine
end

