-- ==== Sys2Proof/Laws/KeptStream.lean ====
section
/-! SUPPORT. Memory, flags, the Stream Map, attempts and the intake: every operation keeps what `Kept` names. -/
namespace Sys2Proof.Machine

variable {M : Mask} {o s : State}

/-- A state that is one of two. -/
theorem Kept.ite {t : State} {p : Prop} [Decidable p] (hs : Kept M o s) (ht : Kept M o t) :
    Kept M o (if p then s else t) := by split <;> assumption

theorem Kept.iteFst {α : Type} {p : Prop} [Decidable p] {x y : State × α}
    (hx : Kept M o x.1) (hy : Kept M o y.1) : Kept M o (if p then x else y).1 := by split <;> assumption

theorem foldl_kept {α : Type} {f : State → α → State} (l : List α)
    (hf : ∀ (s : State) (x : α), Kept M o s → Kept M o (f s x)) (h : Kept M o s) :
    Kept M o (l.foldl f s) := by
  induction l generalizing s with
  | nil => exact h
  | cons x l ih => exact ih (hf s x h)

theorem and_or_left (x y : BitVec 16) : x &&& (x ||| y) = x := by
  apply BitVec.eq_of_getLsbD_eq
  intro i _
  simp only [BitVec.getLsbD_and, BitVec.getLsbD_or]
  cases x.getLsbD i <;> simp

theorem raiseFlag_kept (f : EventFlag) (h : Kept M o s) : Kept M o (raiseFlag f s) :=
  h.onCtl rfl fun _ => and_or_left _ _

theorem clearFlags_kept (bits : BitVec 16) (hm : M.flags = false) (h : Kept M o s) :
    Kept M o (clearFlags bits s) :=
  h.onCtl rfl fun hf => by rw [hm] at hf; exact absurd hf (by decide)

theorem bump_kept (c : Counter) (h : Kept M o s) : Kept M o (bump c s) := by
  unfold bump
  (with_reducible repeat' first | assumption | apply Kept.onCtl) <;>
    simp

theorem accessDrop_kept (h : Kept M o s) : Kept M o (accessDrop s) := by
  unfold accessDrop
  (with_reducible repeat' first | assumption | apply bump_kept | apply raiseFlag_kept)

theorem performJob_kept (j : WriteJob) (h : Kept M o s) : Kept M o (performJob j s) :=
  h.onMem fun w => Memory.wf_writeWords w _ _

/-- Replacing a descriptor. -/
theorem setSlot_kept (n : Nat) (d : SlotDesc) (ho : slotsOwned s.map.slots → slotsOwned (s.map.slots.set n d))
    (h : Kept M o s) : Kept M o (setSlot n d s) :=
  h.onMap ⟨List.length_set .., id, id, ho, id⟩ id

theorem setSlot_free_kept (n : Nat) (d : SlotDesc) (hd : d.owner = none) (h : Kept M o s) :
    Kept M o (setSlot n d s) :=
  setSlot_kept n d (fun k => slotsOwned_set_none n k hd) h

/-- Changing a descriptor, but not its state, owner or label. -/
theorem modSlot_kept (n : Nat) (f : SlotDesc → SlotDesc)
    (hf : ∀ d, (f d).state = d.state ∧ (f d).owner = d.owner ∧ (f d).label = d.label)
    (h : Kept M o s) : Kept M o (modSlot n f s) := by
  refine setSlot_kept n _ (fun k => slotsOwned_set_same k fun old ho => ?_) h
  have : slotAt s n = old := by simp [slotAt, List.getD_eq_getElem?_getD, ho]
  rw [this]
  exact hf old

theorem removeGap_kept (n : Nat) (h : Kept M o s) : Kept M o (removeGap n s) :=
  modSlot_kept _ _ (fun _ => ⟨rfl, rfl, rfl⟩) (h.onGaps fun l => le_trans (List.length_filter_le ..) l)

theorem freeSlot_kept (n : Nat) (h : Kept M o s) : Kept M o (freeSlot n s) :=
  setSlot_free_kept _ _ rfl ((removeGap_kept n h).ite h)

theorem freeSlots_kept (l : List Nat) (h : Kept M o s) : Kept M o (freeSlots l s) :=
  foldl_kept l (fun _ n k => freeSlot_kept n k) h

theorem stageSlot_kept (n label : Nat) (h : Kept M o s) : Kept M o (stageSlot n label s) :=
  setSlot_free_kept _ _ rfl h

/-- The check of R8 says that no other slot of the segment carries the label. -/
theorem ownsLabel_false {seg label n : Nat} (h : ownsLabel s seg label n = false) (j : Nat) (e : SlotDesc)
    (hj : j ≠ n) (he : s.map.slots[j]? = some e) (ho : e.owner = some seg) : e.label ≠ some label := by
  intro hl
  have hlt : j < s.map.slots.length := by
    by_contra hge
    rw [List.getElem?_eq_none (Nat.not_lt.mp hge)] at he
    exact absurd he (by simp)
  have hmem : (j, e) ∈ (List.range s.map.slots.length).zip s.map.slots := by
    rw [List.mem_iff_getElem?]
    refine ⟨j, ?_⟩
    simp only [List.getElem?_zip_eq_some]
    exact ⟨by simp [hlt], he⟩
  have := List.any_eq_false.mp h _ hmem
  simp [hj, ho, hl] at this

theorem linkAs_kept (seg n label : Nat) (h : Kept M o s) : Kept M o (linkAs seg n label s).1 := by
  unfold linkAs
  split
  · exact freeSlot_kept n h
  · rename_i hl
    exact setSlot_kept n _ (fun k => slotsOwned_set k (fun _ => rfl) fun j e hj he _ ho =>
      ownsLabel_false (Bool.eq_false_iff.mpr hl) j e hj he ho) h

theorem linkSlot_kept (seg n : Nat) (h : Kept M o s) : Kept M o (linkSlot seg n s).1 :=
  linkAs_kept seg n _ h

theorem linkOffered_kept (seg low : Nat) (l : List StagedBlock) (h : Kept M o s) :
    Kept M o (linkOffered seg low l s).1 := by
  induction l generalizing s with
  | nil => exact h
  | cons b l ih =>
    unfold linkOffered
    split
    · exact ih (freeSlot_kept _ h)
    · exact ih (linkSlot_kept seg b.slot h)

theorem getLast?_ne_nil {l : List Segment} {g : Segment} (h : l.getLast? = some g) : l ≠ [] := by
  intro he
  rw [he] at h
  exact absurd h (by simp)

/-- Changing the last segment, but not its stream start or head kind. -/
theorem modLastSeg_kept (f : Segment → Segment) (hf : ∀ g, (f g).start = g.start ∧ (f g).kind = g.kind)
    (h : Kept M o s) : Kept M o (modLastSeg f s) := by
  unfold modLastSeg
  cases hl : s.map.segs.getLast? with
  | none =>
    refine h.onMap ⟨?_, ?_, ?_, ?_, ?_⟩ ?_ <;> rw [hl]
    all_goals exact id
  | some g =>
    have hne := getLast?_ne_nil hl
    refine h.onMap ⟨?_, ?_, ?_, ?_, ?_⟩ ?_ <;> rw [hl]
    · intro hc
      have := List.length_pos_iff.mpr hne
      simp only [List.length_append, List.length_dropLast, List.length_singleton]
      omega
    · exact id
    · exact id
    · exact fun k => segmentsOrdered_last k hl (hf g).1 (hf g).2
    · exact fun he => absurd he hne

theorem leadCheck_kept (h : Kept M o s) : Kept M o (leadCheck s) := by
  have k : ∀ b : Bool, Kept M o (s.onMap fun m => { m with below := b }) := fun b =>
    h.onMap ⟨rfl, id, id, id, id⟩ id
  unfold leadCheck
  split
  · split
    · exact h
    · exact raiseFlag_kept _ (k true)
  · exact k false

theorem retireFront_kept (h : Kept M o s) : Kept M o (retireFront s) := by
  unfold retireFront
  split
  · exact h
  · rename_i g rest hs
    split
    · have k : Kept M o (s.onMap fun m => { m with segs := rest, retireReport := true }) := by
        refine h.onMap ⟨rfl, fun hl => ?_, id, id, fun hg => ?_⟩ fun he => ?_
        · rw [hs] at hl
          exact Nat.le_of_succ_le hl
        · rw [hs] at hg
          exact segmentsOrdered_tail hg
        · rw [hs] at he
          exact absurd he (by simp)
      dsimp only
      split
      · exact k.onPlay id
      · exact k
    · exact h

theorem closeOpen_kept (h : Kept M o s) : Kept M o (closeOpen s) := by
  unfold closeOpen
  split
  · exact leadCheck_kept (retireFront_kept (modLastSeg_kept _ (fun _ => ⟨rfl, rfl⟩) h))
  · exact h

theorem truncateOpen_kept (p : Nat) (h : Kept M o s) : Kept M o (truncateOpen p s) := by
  unfold truncateOpen
  split
  · exact h
  · have d : ∀ {u : State}, Kept M o u →
        Kept M o (u.onMap fun m => { m with segs := m.segs.dropLast }) := fun {u} k =>
      k.onMap ⟨rfl, fun hl => le_trans (by simp) hl, id, id, segmentsOrdered_dropLast⟩ fun he => by
        show u.map.segs.dropLast = []
        rw [he]
        rfl
    refine leadCheck_kept (Kept.ite (d ?_) (retireFront_kept ?_)) <;>
      exact modLastSeg_kept _ (fun _ => ⟨rfl, rfl⟩) (freeSlots_kept _ h)

theorem modLastSeg_segs (f : Segment → Segment) (s : State) :
    (modLastSeg f s).map.segs = match s.map.segs.getLast? with
      | some g => s.map.segs.dropLast ++ [f g]
      | none => s.map.segs := by
  unfold modLastSeg State.onMap
  dsimp only
  cases s.map.segs.getLast? <;> rfl

theorem leadCheck_segs (s : State) :
    (leadCheck s).map.segs = s.map.segs ∧ (leadCheck s).map.nextId = s.map.nextId := by
  unfold leadCheck raiseFlag State.onCtl State.onMap
  repeat' split
  all_goals exact ⟨rfl, rfl⟩

/-- A retirement takes the first segment, or nothing. -/
theorem retireFront_segs (s : State) :
    ((retireFront s).map.segs = s.map.segs ∨ (retireFront s).map.segs = s.map.segs.tail) ∧
      (retireFront s).map.nextId = s.map.nextId := by
  unfold retireFront
  split
  · exact ⟨.inl rfl, rfl⟩
  · rename_i g rest hs
    split
    · dsimp only
      split <;> simp [hs, State.onMap, State.onPlay]
    · exact ⟨.inl rfl, rfl⟩

/-- What the closing of the open segment leaves of the list: the last segment, if one is left, ends where
the last one ended and is not open. -/
theorem closeOpen_segs (s : State) :
    (closeOpen s).map.nextId = s.map.nextId ∧
    (closeOpen s).map.segs.length ≤ s.map.segs.length ∧
    ∀ g, (closeOpen s).map.segs.getLast? = some g →
      g.isOpen = false ∧ ∃ x, lastSeg s = some x ∧ g.stop = x.stop := by
  unfold closeOpen
  cases ho : openSeg s with
  | none =>
    refine ⟨rfl, le_refl _, fun g hg => ⟨?_, g, hg, rfl⟩⟩
    have hg' : lastSeg s = some g := hg
    unfold openSeg at ho
    rw [hg'] at ho
    cases hb : g.isOpen with
    | false => rfl
    | true => simp [hb] at ho
  | some x =>
    have hx : s.map.segs.getLast? = some x := by
      unfold openSeg lastSeg at ho
      cases hl : s.map.segs.getLast? with
      | none => rw [hl] at ho; exact absurd ho (by simp)
      | some y =>
        rw [hl] at ho
        dsimp only at ho
        split at ho
        · exact ho
        · exact absurd ho (by simp)
    have hm := modLastSeg_segs (fun g => { g with isOpen := false }) s
    rw [hx] at hm
    dsimp only at hm
    have hid : (modLastSeg (fun g => { g with isOpen := false }) s).map.nextId = s.map.nextId := by
      unfold modLastSeg State.onMap
      dsimp only
      split <;> rfl
    have hlen := List.length_pos_iff.mpr (getLast?_ne_nil hx)
    revert hm hid
    generalize modLastSeg (fun g => { g with isOpen := false }) s = u
    intro hm hid
    obtain ⟨h1, h2⟩ := leadCheck_segs (retireFront u)
    obtain ⟨h3, h4⟩ := retireFront_segs u
    dsimp only
    rw [h1, h2, h4]
    refine ⟨hid, ?_, fun g hg => ?_⟩
    · rcases h3 with h3 | h3 <;> rw [h3, hm] <;>
        simp only [List.length_append, List.length_dropLast, List.length_singleton, List.length_tail] <;>
        omega
    · have hlast : u.map.segs.getLast? = some { x with isOpen := false } := by rw [hm]; simp
      have : g = { x with isOpen := false } := by
        rcases h3 with h3 | h3
        · rw [h3, hlast] at hg
          cases hg
          rfl
        · rw [h3] at hg
          cases hu : u.map.segs with
          | nil => rw [hu] at hg; exact absurd hg (by simp)
          | cons a b =>
            rw [hu] at hg hlast
            cases b with
            | nil => exact absurd hg (by simp)
            | cons c d =>
              rw [List.getLast?_cons_cons] at hlast
              rw [List.tail_cons, hlast] at hg
              cases hg
              rfl
      subst this
      exact ⟨rfl, x, hx, rfl⟩

/-- Between 16 live segments a fresh id exists below 32, or the counter stands. -/
theorem freshId_bound (k : StreamMap) : freshId k < 32 ∨ freshId k = k.nextId := by
  unfold freshId
  cases hf : ((List.range 32).map fun i => (k.nextId + i) % 32).find?
      fun i => k.segs.all fun g => g.id != i with
  | none => exact Or.inr rfl
  | some i =>
    have := List.mem_of_find?_eq_some hf
    simp only [List.mem_map] at this
    obtain ⟨n, _, hn⟩ := this
    left
    simp only [Option.getD_some]
    omega

/-- A new segment is the only operation that takes the list out of emptiness: its callers answer for
PARKED. -/
theorem createSegment_kept (start : Nat) (shift : Int) (kind : HeadKind) (offered : List StagedBlock)
    (hm : M.parked = false) (h : Kept M o s) : Kept M o (createSegment start shift kind offered s).1 := by
  unfold createSegment
  split
  · exact h
  · rename_i hlen
    refine leadCheck_kept (modLastSeg_kept _ (fun _ => ⟨rfl, rfl⟩) (linkOffered_kept _ _ _ ?_))
    obtain ⟨hc1, hc2, hc3⟩ := closeOpen_segs s
    refine (closeOpen_kept h).onMapOpen hm ⟨rfl, fun _ => ?_, fun hn => ?_, id, fun hs => ?_⟩
    · have : s.map.segs.length < 16 := by
        unfold Config.maxSegments at hlen
        omega
      simp only [List.length_append, List.length_singleton]
      omega
    · show (if freshId s.map = 31 then 0 else freshId s.map + 1) < 32
      rw [hc1] at hn
      split
      · decide
      · rcases freshId_bound s.map with hid | hid <;> omega
    · refine segmentsOrdered_append hs fun g hg => ?_
      obtain ⟨h1, x, hx, h2⟩ := hc3 g hg
      refine ⟨?_, ?_, h1⟩
      · rw [h2]
        simp only [startAfter, hx]
        exact Nat.le_max_right _ _
      · rw [h2]
        simp only [startAfter, kindAt, hx]
        split
        · exact .inl rfl
        · right
          omega

theorem splice_kept (start : Nat) (shift : Int) (kind : HeadKind) (offered : List StagedBlock)
    (hm : M.parked = false) (h : Kept M o s) : Kept M o (splice start shift kind offered s).1 := by
  unfold splice
  split
  · split
    · exact leadCheck_kept (modLastSeg_kept _ (fun _ => ⟨rfl, rfl⟩)
        (linkOffered_kept _ _ _ (modLastSeg_kept _ (fun _ => ⟨rfl, rfl⟩) h)))
    · exact createSegment_kept _ _ _ _ hm h
  · exact createSegment_kept _ _ _ _ hm h

/-- A refused creation changes nothing. -/
theorem createSegment_none {start : Nat} {shift : Int} {kind : HeadKind} {offered : List StagedBlock}
    {t : State} (h : createSegment start shift kind offered s = (t, none)) : t = s := by
  unfold createSegment at h
  split at h
  · cases h
    rfl
  · exact absurd (congrArg Prod.snd h) (by simp)

/-- A refused splice changes nothing. -/
theorem splice_none {start : Nat} {shift : Int} {kind : HeadKind} {offered : List StagedBlock}
    {t : State} (h : splice start shift kind offered s = (t, none)) : t = s := by
  unfold splice at h
  split at h
  · split at h
    · exact absurd (congrArg Prod.snd h) (by simp)
    · exact createSegment_none h
  · exact createSegment_none h

theorem appendSlot_kept (n label : Nat) (h : Kept M o s) : Kept M o (appendSlot n label s).1 := by
  unfold appendSlot
  split
  · exact freeSlot_kept n h
  · dsimp only
    have k := fun seg => linkAs_kept (M := M) (o := o) seg n label h
    split
    · exact leadCheck_kept (modLastSeg_kept _ (fun _ => ⟨rfl, rfl⟩) (k _))
    · exact k _

/-- A flush empties the map. -/
theorem flushMap_kept (h : Kept M o s) : Kept M o (flushMap s) :=
  h.onMap ⟨List.length_replicate, fun _ => Nat.zero_le _, fun _ => Nat.zero_lt_succ 31,
    fun _ => slotsOwned_replicate _, fun _ => trivial⟩ fun _ => rfl

/-! ### Attempts -/

theorem markStale_kept (h : Kept M o s) : Kept M o (markStale s) := by
  have k : ∀ n, Kept M o (modSlot n (fun d => { d with stale := true }) s) := fun n =>
    modSlot_kept n _ (fun _ => ⟨rfl, rfl, rfl⟩) h
  unfold markStale
  dsimp only
  (repeat' split) <;> (with_reducible repeat' first | assumption | apply Kept.onIntake | apply k)

theorem publish_kept (label : Nat) (loads : Bool) (h : Kept M o s) : Kept M o (publish label loads s) :=
  (markStale_kept h).onRc id id

theorem dropRrq_kept (h : Kept M o s) : Kept M o (dropRrq s) := h.onRc id id

theorem enterSeeking_kept (h : Kept M o s) : Kept M o (enterSeeking s) :=
  publish_kept _ _ (h.onRc id nofun)

theorem enterBridging_kept (h : Kept M o s) : Kept M o (enterBridging s) :=
  publish_kept _ _ (h.onRc id nofun)

theorem clearAttempt_kept (h : Kept M o s) : Kept M o (clearAttempt s) := h.onMe

theorem freeRun_kept (h : Kept M o s) : Kept M o (freeRun s) := (freeSlots_kept _ h).onRc id id

theorem attemptFail_kept (h : Kept M o s) : Kept M o (attemptFail s) := by
  have k : Kept M o (dropRrq (freeRun (clearAttempt s))) :=
    dropRrq_kept (freeRun_kept (clearAttempt_kept h))
  unfold attemptFail
  dsimp only
  split
  · rename_i hr
    exact enterSeeking_kept (k.onRc (fun _ => hr) id)
  · exact enterBridging_kept k

theorem failFullWait_kept (h : Kept M o s) : Kept M o (failFullWait s) := (attemptFail_kept h).ite h

/-! ### Intake -/

theorem holdTest_kept (h : Kept M o s) : Kept M o (holdTest s) := by
  unfold holdTest
  split
  · exact h.onIntake.onRc id nofun
  · exact h

theorem allocate_kept (label : Nat) (trusted : Bool) (h : Kept M o s) :
    Kept M o (allocate label trusted s) := by
  unfold allocate
  split
  · exact failFullWait_kept (holdTest_kept
      (((setSlot_free_kept _ _ rfl h).onMap ⟨rfl, id, id, id, id⟩ id).onIntake))
  · exact bump_kept _ (raiseFlag_kept _ h.onIntake)

theorem completeBlock_kept (n : Nat) (h : Kept M o s) : Kept M o (completeBlock n s) := by
  unfold completeBlock
  exact Kept.onIntake (modSlot_kept _ _ (fun _ => ⟨rfl, rfl, rfl⟩) h)

theorem intakeDiscard_kept (h : Kept M o s) : Kept M o (intakeDiscard s) := by
  unfold intakeDiscard
  (with_reducible repeat' first | assumption | apply bump_kept)

theorem dropFilling_kept (h : Kept M o s) : Kept M o (dropFilling s) := by
  unfold dropFilling
  (repeat' split) <;> (with_reducible repeat' first | assumption | apply Kept.onIntake | apply freeSlot_kept)

theorem takeHeader_kept (w : Word) (h : Kept M o s) : Kept M o (takeHeader w s) := by
  unfold takeHeader
  (repeat' split) <;>
    (with_reducible repeat' first | assumption | apply Kept.onIntake | apply intakeDiscard_kept
                                  | apply dropFilling_kept | apply completeBlock_kept | apply allocate_kept)

theorem writeFrame_kept (n i : Nat) (w : Word) (enables : BitVec 4) (ers : Bool) (h : Kept M o s) :
    Kept M o (writeFrame n i w enables ers s) := by
  have k : ∀ f g, (∀ d, (g d).state = d.state ∧ (g d).owner = d.owner ∧ (g d).label = d.label) →
      Kept M o (modSlot n g ((s.onMem fun m =>
        Memory.writeWord m (frameAddr s n i) w enables).onIntake f)) := fun f g hg =>
    modSlot_kept _ _ hg (h.onMem fun q => Memory.wf_writeWord q _ _ _).onIntake
  unfold writeFrame
  refine Kept.ite (completeBlock_kept n (k _ _ ?_)) (k _ _ ?_) <;> exact fun _ => ⟨rfl, rfl, rfl⟩

theorem takeFrame_kept (i : Nat) (w : Word) (enables : BitVec 4) (ers : Bool) (h : Kept M o s) :
    Kept M o (takeFrame i w enables ers s) := by
  unfold takeFrame
  split
  · exact h
  · split
    · exact intakeDiscard_kept h
    · split
      · exact writeFrame_kept _ _ _ _ _ h
      · exact h
      · exact intakeDiscard_kept h

theorem intakeBeat_kept (b : IntakeBeat) (h : Kept M o s) : Kept M o (intakeBeat b s) := by
  unfold intakeBeat
  (repeat' split) <;>
    (with_reducible repeat' first | assumption | apply Kept.onIntake | apply takeHeader_kept
                                  | apply accessDrop_kept | apply takeFrame_kept)

theorem finishD_kept (h : Kept M o s) : Kept M o (finishD s) := by
  unfold finishD
  (repeat' split) <;> (with_reducible repeat' first | assumption | refine Kept.onRouter ?_ rfl)

theorem drainHeld_kept (h : Kept M o s) : Kept M o (drainHeld s) :=
  finishD_kept (foldl_kept _ (fun _ b k => intakeBeat_kept b k) h.onIntake)

theorem intakeCut_kept (h : Kept M o s) : Kept M o (intakeCut s) := by
  unfold intakeCut
  (with_reducible repeat' first | assumption | apply dropFilling_kept)

theorem handOffEnd_kept (h : Kept M o s) : Kept M o (handOffEnd s) := by
  unfold handOffEnd
  (repeat' split) <;> (with_reducible repeat' first | assumption | apply Kept.onIntake | apply drainHeld_kept)

theorem flushIntake_kept (h : Kept M o s) : Kept M o (flushIntake s) := by
  unfold flushIntake
  (with_reducible repeat' first | assumption | apply Kept.onIntake)

end Sys2Proof.Machine
end

