-- ==== Sys2Proof/Laws/KeptRecovery.lean ====
section
/-! SUPPORT. The match engine, the gaps, recovery and the block paths: every operation keeps what `Kept` names. -/
namespace Sys2Proof.Machine

variable {M : Mask} {o s : State}

theorem loadCandidate_kept (h : Kept M o s) : Kept M o (loadCandidate s) := by
  unfold loadCandidate
  (with_reducible repeat' first | assumption | apply Kept.onMe)

theorem beginEvaluation_kept (e : Nat) (h : Kept M o s) : Kept M o (beginEvaluation e s) := by
  unfold beginEvaluation
  (with_reducible repeat' first | assumption | apply Kept.onMe | apply loadCandidate_kept)

theorem tryEvaluate_kept (h : Kept M o s) : Kept M o (tryEvaluate s) := by
  unfold tryEvaluate
  (repeat' split) <;> (with_reducible repeat' first | assumption | apply beginEvaluation_kept)

theorem scoreCandidate_kept (h : Kept M o s) : Kept M o (scoreCandidate s) := by
  unfold scoreCandidate
  (with_reducible repeat' first | assumption | apply Kept.onMe | apply loadCandidate_kept)

theorem beginAlignment_kept (label slot : Nat) (blocks : List StagedBlock)
    (h : Kept M o s) : Kept M o (beginAlignment label slot blocks s) := by
  unfold beginAlignment
  (with_reducible repeat' first | assumption | apply Kept.onMe)

theorem matchGrant_kept (h : Kept M o s) : Kept M o (matchGrant s) := by
  unfold matchGrant
  dsimp only
  (repeat' split) <;>
    (with_reducible repeat' first | assumption | apply Kept.onMe | apply performJob_kept
                                  | apply scoreCandidate_kept)

theorem endAlignment_kept (h : Kept M o s) : Kept M o (endAlignment s) := by
  unfold endAlignment
  (with_reducible repeat' first | assumption | apply Kept.onMe)

theorem flushMatch_kept (h : Kept M o s) : Kept M o (flushMatch s) := by
  unfold flushMatch
  (with_reducible repeat' first | assumption | apply Kept.onMe)

theorem gapEntryDecision_kept (n label erasures first : Nat) (h : Kept M o s) :
    Kept M o (gapEntryDecision n label erasures first s) := by
  unfold gapEntryDecision
  split
  · split
    · rename_i hl
      refine modSlot_kept _ _ (fun _ => ⟨rfl, rfl, rfl⟩) (h.onGaps fun _ => ?_)
      unfold Config.maxGaps at hl
      simp only [List.length_append, List.length_singleton]
      omega
    · exact bump_kept _ h
  · exact h

theorem emptyGaps_kept (h : Kept M o s) : Kept M o (emptyGaps s) :=
  foldl_kept _ (fun _ e k => removeGap_kept e.slot k) h

theorem gapReached_kept (n : Nat) (h : Kept M o s) : Kept M o (gapReached n s) := by
  unfold gapReached
  (with_reducible repeat' first | assumption | apply Kept.onGaps | apply bump_kept | apply raiseFlag_kept
                                | apply removeGap_kept) <;>
    simp

/-- Setting counter and level needs the pair to be one of R103's. -/
theorem setQuality_kept (counter : Nat) (level : QualityLevel) (h : Kept M o s)
    (hc : s.quality.ok → counter ≤ 255 ∧
      (level = if level = .abandon then .abandon else levelOf counter) ∧ (level = .abandon → counter = 255)) :
    Kept M o (setQuality counter level s) := by
  unfold setQuality
  have k : Kept M o (s.onQuality fun q => { q with counter := counter, level := level }) :=
    h.onQuality fun q => ⟨(hc q).1, q.2.1, (hc q).2.1, (hc q).2.2⟩
  exact (raiseFlag_kept _ k).ite k

theorem levelOf_ne_abandon (n : Nat) : levelOf n ≠ .abandon := by
  unfold levelOf
  split
  · decide
  · split <;> decide

theorem levelOf_ok (n : Nat) (hn : n ≤ 255) :
    n ≤ 255 ∧ (levelOf n = if levelOf n = .abandon then .abandon else levelOf n) ∧
      (levelOf n = .abandon → n = 255) :=
  ⟨hn, by rw [if_neg (levelOf_ne_abandon n)], fun h => absurd h (levelOf_ne_abandon n)⟩

theorem enterAbandon_kept (h : Kept M o s) : Kept M o (enterAbandon s) :=
  emptyGaps_kept ((setQuality_kept 255 .abandon h fun _ => ⟨le_refl _, rfl, fun _ => rfl⟩).onQuality
    fun q => ⟨q.1, (show 0 < 128 by decide), q.2.2⟩)

theorem qualityRise_kept (h : Kept M o s) : Kept M o (qualityRise s) := by
  unfold qualityRise
  split
  · exact h
  · split
    · exact enterAbandon_kept h
    · rename_i hl
      exact setQuality_kept _ _ h fun _ => levelOf_ok _ (by omega)

theorem qualityReport_kept (erasures : Nat) (h : Kept M o s) : Kept M o (qualityReport erasures s) := by
  have z : ∀ {u : State}, Kept M o u → Kept M o (u.onQuality fun q => { q with cleanRun := 0 }) :=
    fun k => k.onQuality fun q => ⟨q.1, (show 0 < 128 by decide), q.2.2⟩
  unfold qualityReport
  split
  · split
    · split
      · exact z (setQuality_kept 0 .normal h fun _ => levelOf_ok 0 (by decide))
      · rename_i hne
        exact h.onQuality fun q => ⟨q.1, (show s.quality.cleanRun + 1 < 128 by have := q.2.1; omega), q.2.2⟩
    · exact z h
  · split
    · exact qualityRise_kept h
    · split
      · exact setQuality_kept _ _ h fun q => levelOf_ok _ (by have := q.1; omega)
      · exact h

theorem qualityLoad_kept (f : Word) (h : Kept M o s) : Kept M o (qualityLoad f s) := by
  have z : Kept M o ((setQuality 0 .normal s).onQuality fun q => { q with cleanRun := 0 }) :=
    (setQuality_kept 0 .normal h fun _ => levelOf_ok 0 (by decide)).onQuality
      fun q => ⟨q.1, (show 0 < 128 by decide), q.2.2⟩
  have y : Kept M o (if f = 0 ∨ f ≠ s.quality.rated then
      (setQuality 0 .normal s).onQuality fun q => { q with cleanRun := 0 } else s) := z.ite h
  exact y.onQuality (f := fun q => { q with rated := f }) id

theorem endFetch_kept (h : Kept M o s) : Kept M o (endFetch s) := by
  unfold endFetch
  (repeat' split) <;> (with_reducible repeat' first | assumption | apply Kept.onGaps | apply freeSlots_kept) <;>
    simp

theorem abandonFetch_kept (h : Kept M o s) : Kept M o (abandonFetch s) := by
  unfold abandonFetch
  (repeat' split) <;>
    (with_reducible repeat' first | assumption | apply Kept.onGaps | apply endFetch_kept
                                  | apply endAlignment_kept) <;>
    simp

theorem flushGaps_kept (h : Kept M o s) : Kept M o (flushGaps s) := h.onGaps fun _ => Nat.zero_le _

theorem fillRecord_kept (c : Cause) (retries : Nat) (pending : Bool)
    (h : Kept M o s) : Kept M o (fillRecord c retries pending s) := by
  unfold fillRecord
  (with_reducible repeat' first | assumption | apply Kept.onRc) <;>
    simp

theorem recordBreak_kept (c : Cause) (retries : Nat) (pending : Bool)
    (h : Kept M o s) : Kept M o (recordBreak c retries pending s) := by
  unfold recordBreak
  (with_reducible repeat' first | assumption | apply bump_kept | apply raiseFlag_kept | apply fillRecord_kept)

theorem settleCapture_kept (h : Kept M o s) : Kept M o (settleCapture s) := by
  unfold settleCapture
  (with_reducible repeat' first | assumption | apply Kept.onRc) <;>
    simp

theorem startCapture_kept (returns : Bool) (h : Kept M o s) : Kept M o (startCapture returns s) := by
  unfold startCapture
  (with_reducible repeat' first | assumption | apply Kept.onRc | apply settleCapture_kept) <;>
    simp

theorem captureGrant_kept (h : Kept M o s) : Kept M o (captureGrant s) := by
  unfold captureGrant
  (repeat' split) <;>
    (with_reducible repeat' first | assumption | apply Kept.onRc | apply settleCapture_kept) <;>
    simp

theorem leaveLost_kept (h : Kept M o s) : Kept M o (leaveLost s) := by
  unfold leaveLost
  (repeat' split) <;>
    (with_reducible repeat' first | assumption | apply Kept.onRc | apply enterBridging_kept
                                  | apply enterSeeking_kept) <;>
    simp

theorem lostExit_kept (h : Kept M o s) : Kept M o (lostExit s) := by
  unfold lostExit
  (repeat' split) <;> (with_reducible repeat' first | assumption | apply leaveLost_kept)

theorem takeReturn_kept (c : Cause) (h : Kept M o s) : Kept M o (takeReturn c s) := by
  unfold takeReturn
  (with_reducible repeat' first | assumption | apply Kept.onRc | apply startCapture_kept
                                | apply closeOpen_kept) <;>
    simp

theorem holdReturn_kept (h : Kept M o s) : Kept M o (holdReturn s) := by
  unfold holdReturn
  (with_reducible repeat' first | assumption | apply Kept.onIntake | apply takeReturn_kept)

theorem gapReturn_kept (h : Kept M o s) : Kept M o (gapReturn s) := by
  unfold gapReturn
  (with_reducible repeat' first | assumption | apply takeReturn_kept)

theorem holdRelease_kept (h : Kept M o s) : Kept M o (holdRelease s) := by
  unfold holdRelease
  (repeat' split) <;> (with_reducible repeat' first | assumption | apply holdReturn_kept)

theorem freeReport_kept (h : Kept M o s) : Kept M o (freeReport s) := by
  unfold freeReport
  (with_reducible repeat' first | assumption | apply holdRelease_kept | apply holdTest_kept)

theorem fetchTest_kept (h : Kept M o s) : Kept M o (fetchTest s) := by
  unfold fetchTest
  split
  · exact h
  · dsimp only
    exact Kept.ite (publish_kept _ _ ((h.onGaps id).onRc id nofun)) h

theorem enterStreaming_kept (h : Kept M o s) : Kept M o (enterStreaming s) := by
  unfold enterStreaming
  exact fetchTest_kept (holdTest_kept (h.onRc id nofun))

theorem enterLost_kept (h : Kept M o s) : Kept M o (enterLost s) := by
  unfold enterLost
  (with_reducible repeat' first | assumption | apply Kept.onRc | apply drainHeld_kept) <;>
    simp

theorem beginSequence_kept (c : Cause) (p : Nat) (h : Kept M o s) : Kept M o (beginSequence c p s) := by
  unfold beginSequence
  (with_reducible repeat' first | assumption | apply Kept.onRc | apply startCapture_kept
                                | apply enterLost_kept | apply recordBreak_kept) <;>
    simp

theorem breakStreaming_kept (c : Cause) (h : Kept M o s) : Kept M o (breakStreaming c s) := by
  unfold breakStreaming
  (with_reducible repeat' first | assumption | apply Kept.onIntake | apply truncateOpen_kept
                                | apply beginSequence_kept | apply intakeCut_kept)

theorem breakRecovery_kept (c : Cause) (h : Kept M o s) : Kept M o (breakRecovery c s) := by
  have k : Kept M o (dropRrq (intakeCut (freeRun (clearAttempt s)))) :=
    dropRrq_kept (intakeCut_kept (freeRun_kept (clearAttempt_kept h)))
  unfold breakRecovery
  refine lostExit_kept (enterLost_kept (recordBreak_kept _ _ _ (k.onRc ?_ ?_)))
  · intro hr
    split
    · assumption
    · exact hr
  · split <;> exact id

theorem settleArbiter_kept (h : Kept M o s) : Kept M o (settleArbiter s) := by
  unfold settleArbiter
  (repeat' split) <;> (with_reducible repeat' first | assumption | apply Kept.onArb) <;>
    simp

theorem breakGapFetch_kept (c : Cause) (h : Kept M o s) : Kept M o (breakGapFetch c s) := by
  unfold breakGapFetch
  (with_reducible repeat' first | assumption | apply settleArbiter_kept | apply abandonFetch_kept
                                | apply beginSequence_kept | apply intakeCut_kept | apply closeOpen_kept)

theorem lineBreak_kept (c : Cause) (h : Kept M o s) : Kept M o (lineBreak c s) := by
  unfold lineBreak
  split
  · exact h
  · exact h
  · exact h
  · exact h
  · exact breakStreaming_kept c h
  · exact breakStreaming_kept c h
  · exact breakRecovery_kept c h
  · exact breakRecovery_kept c h
  · exact breakGapFetch_kept c h

theorem deferEvent_kept (d : Deferred) (h : Kept M o s) : Kept M o (deferEvent d s) := by
  unfold deferEvent
  (with_reducible repeat' first | assumption | apply Kept.onRc) <;>
    simp

/-- A flush enters PARKED before the list is emptied. -/
theorem flushRecovery_kept (hm : M.parked = false) (h : Kept M o s) : Kept M o (flushRecovery s) :=
  h.trans
    { queue := rfl
      core := fun ⟨i1, ⟨i2, i3, _, i5⟩, i6⟩ => ⟨i1, ⟨i2, i3, Nat.zero_le _, i5⟩, i6⟩
      parked := fun hp => by rw [hm] at hp; exact absurd hp (by decide)
      flags := fun _ => by simp [flagsKept, flushRecovery]
      entries := fun _ _ _ => rfl
      latch := fun _ => id }

theorem headFormed_kept (top : Nat) (h : Kept M o s) : Kept M o (headFormed top s) := by
  unfold headFormed
  exact enterStreaming_kept ((clearAttempt_kept h).onRc (fun _ => Nat.zero_le _) id)

/-! A head formed leaves PARKED behind. -/

theorem publish_phase (label : Nat) (loads : Bool) (s : State) :
    (publish label loads s).rc.phase = s.rc.phase := by
  unfold publish markStale modSlot setSlot State.onMap State.onIntake State.onRc
  dsimp only
  repeat' split
  all_goals rfl

theorem holdTest_phase (h : s.rc.phase ≠ .parked) : (holdTest s).rc.phase ≠ .parked := by
  unfold holdTest
  split
  · exact nofun
  · exact h

theorem fetchTest_phase (h : s.rc.phase ≠ .parked) : (fetchTest s).rc.phase ≠ .parked := by
  unfold fetchTest
  split
  · exact h
  · cases firstUsed s _ <;> dsimp only <;> split <;>
      first | exact h | (rw [publish_phase]; exact nofun)

theorem headFormed_phase (top : Nat) (s : State) : (headFormed top s).rc.phase ≠ .parked :=
  fetchTest_phase (holdTest_phase nofun)

theorem rejoined_kept (top : Nat) (h : Kept M o s) : Kept M o (rejoined top s) := by
  unfold rejoined
  (with_reducible repeat' first | assumption | apply headFormed_kept | apply bump_kept | apply raiseFlag_kept)

theorem bridged_kept (top : Nat) (h : Kept M o s) : Kept M o (bridged top s) := by
  unfold bridged
  (with_reducible repeat' first | assumption | apply headFormed_kept | apply bump_kept | apply raiseFlag_kept)

theorem trySplice_kept (d : Int) (h : Kept M o s) : Kept M o (trySplice d s) := by
  unfold trySplice
  dsimp only
  split
  · rename_i s1 top he
    have k := splice_kept (M := M.noParked) (o := s) s.rc.p d
      (if s.rc.origin = some .resume then .resumed else .matched) s.rc.run rfl (Kept.refl _ s)
    rw [he] at k
    exact h.trans ((rejoined_kept top k).strengthen fun _ hp => absurd hp (headFormed_phase _ _))
  · rename_i s1 he
    rw [splice_none he]
    split
    · exact attemptFail_kept h
    · exact (h.onMap ⟨rfl, id, id, id, id⟩ id).onRc id id

theorem acceptOffset_kept (d : Int) (h : Kept M o s) : Kept M o (acceptOffset d s) := by
  unfold acceptOffset
  dsimp only
  (repeat' split) <;>
    (with_reducible repeat' first | assumption | apply Kept.onRc | apply trySplice_kept
                                  | apply attemptFail_kept) <;>
    simp

theorem decideMatch_kept (best : Option Best) (h : Kept M o s) : Kept M o (decideMatch best s) := by
  unfold decideMatch
  dsimp only
  (repeat' split) <;>
    (with_reducible repeat' first | assumption | apply clearAttempt_kept | apply acceptOffset_kept
                                  | apply attemptFail_kept)

theorem addToRun_kept (n label : Nat) (h : Kept M o s) : Kept M o (addToRun n label s) := by
  unfold addToRun
  (with_reducible repeat' first | assumption | apply Kept.onRc | apply stageSlot_kept) <;>
    simp

theorem afterAdd_kept (h : Kept M o s) : Kept M o (afterAdd s) := by
  unfold afterAdd
  (repeat' split) <;>
    (with_reducible repeat' first | assumption | apply attemptFail_kept | apply tryEvaluate_kept)

theorem reportStarting_kept (n : Nat) (d : SlotDesc) (h : Kept M o s) :
    Kept M o (reportStarting n d s) := by
  unfold reportStarting
  dsimp only
  split
  · split
    · rename_i s1 top he
      have k := createSegment_kept (M := M.noParked) (o := s) (max s.rc.startFrame (blockStart (labelOf d))) 0
        s.rc.startKind [{ slot := n, label := labelOf d }] rfl (Kept.refl _ s)
      rw [he] at k
      exact h.trans ((headFormed_kept top k).strengthen fun _ hp => absurd hp (headFormed_phase _ _))
    · rename_i he
      rw [createSegment_none he]
      exact freeSlot_kept n h
  · exact freeSlot_kept n h

theorem blockReportSteps_kept (n label erasures first : Nat)
    (h : Kept M o s) : Kept M o (blockReportSteps n label erasures first s) := by
  unfold blockReportSteps
  (with_reducible repeat' first | assumption | apply fetchTest_kept | apply qualityReport_kept
                                | apply gapEntryDecision_kept)

theorem appendExpected_kept (n : Nat) (d : SlotDesc) (expected : Nat) (h : Kept M o s) :
    Kept M o (appendExpected n d expected s) := by
  unfold appendExpected
  dsimp only
  generalize (if labelOf d = expected then expected else Config.assignedLabel expected) = label
  have k := appendSlot_kept n label h
  split
  · rename_i he
    rw [he] at k
    exact blockReportSteps_kept _ _ _ _ (k.onRc id id)
  · rename_i he
    rw [he] at k
    exact k

theorem discontinuity_kept (n : Nat) (h : Kept M o s) : Kept M o (discontinuity n s) := by
  unfold discontinuity
  (with_reducible repeat' first | assumption | apply beginSequence_kept | apply intakeCut_kept
                                | apply closeOpen_kept | apply freeSlot_kept)

theorem reportStreaming_kept (n : Nat) (d : SlotDesc) (h : Kept M o s) : Kept M o (reportStreaming n d s) := by
  unfold reportStreaming
  dsimp only
  (repeat' split) <;>
    (with_reducible repeat' first | assumption | apply appendExpected_kept | apply discontinuity_kept)

theorem reportHolding_kept (n : Nat) (d : SlotDesc) (h : Kept M o s) : Kept M o (reportHolding n d s) := by
  unfold reportHolding
  dsimp only
  (repeat' split) <;>
    (with_reducible repeat' first | assumption | apply appendExpected_kept | apply freeSlot_kept)

theorem reportSeeking_kept (n : Nat) (d : SlotDesc) (h : Kept M o s) :
    Kept M o (reportSeeking n d s) := by
  unfold reportSeeking
  dsimp only
  split
  · exact freeSlot_kept n h
  · split
    · exact attemptFail_kept (freeSlot_kept n h)
    · exact afterAdd_kept ((addToRun_kept _ _ h).onRc id (by simp)).onMe

theorem reportOffered_kept (n : Nat) (d : SlotDesc) (h : Kept M o s) : Kept M o (reportOffered n d s) := by
  unfold reportOffered
  dsimp only
  (repeat' split) <;>
    (with_reducible repeat' first | assumption | apply addToRun_kept | apply attemptFail_kept
                                  | apply freeSlot_kept)

theorem reportMatching_kept (n : Nat) (d : SlotDesc) (h : Kept M o s) : Kept M o (reportMatching n d s) := by
  unfold reportMatching
  dsimp only
  (repeat' split) <;>
    (with_reducible repeat' first | assumption | apply trySplice_kept | apply addToRun_kept
                                  | apply attemptFail_kept | apply freeSlot_kept | apply splice_kept
                                  | apply reportOffered_kept | apply afterAdd_kept)

theorem tryBridge_kept (h : Kept M o s) : Kept M o (tryBridge s) := by
  unfold tryBridge
  split
  · exact h
  · rename_i b rest hb
    split
    · rename_i s1 top he
      have k := createSegment_kept (M := M.noParked) (o := s) (max s.rc.p (blockStart b.label)) 0 .bridged
        s.rc.run rfl (Kept.refl _ s)
      rw [he] at k
      exact h.trans ((bridged_kept top k).strengthen fun _ hp => absurd hp (headFormed_phase _ _))
    · rename_i he
      rw [createSegment_none he]
      exact dropRrq_kept ((h.onMap ⟨rfl, id, id, id, id⟩ id).onRc id id)

theorem reportBridging_kept (n : Nat) (d : SlotDesc) (h : Kept M o s) : Kept M o (reportBridging n d s) := by
  unfold reportBridging
  dsimp only
  (repeat' split) <;>
    (with_reducible repeat' first | assumption | apply addToRun_kept | apply enterBridging_kept
                                  | apply freeRun_kept | apply freeSlot_kept | apply tryBridge_kept)

theorem fetchOver_kept (h : Kept M o s) : Kept M o (fetchOver s) := by
  unfold fetchOver
  dsimp only
  (repeat' split) <;> (with_reducible repeat' first | assumption | apply endFetch_kept | apply gapReturn_kept)

theorem raiseRetries_kept (n : Nat) (h : Kept M o s) : Kept M o (raiseRetries n s) :=
  h.onGaps fun l => le_trans (le_of_eq (List.length_map ..)) l

theorem gapRepaired_kept (n : Nat) (h : Kept M o s) : Kept M o (gapRepaired n s) := by
  unfold gapRepaired
  (with_reducible repeat' first | assumption | apply bump_kept | apply raiseFlag_kept | apply removeGap_kept)

theorem mergeOutcome_kept (count : Nat) (h : Kept M o s) : Kept M o (mergeOutcome count s) := by
  unfold mergeOutcome
  (repeat' split) <;>
    (with_reducible repeat' first | assumption | apply fetchOver_kept | apply gapRepaired_kept
                                  | apply qualityRise_kept | apply raiseRetries_kept | apply removeGap_kept)

theorem fetchEnd_kept (h : Kept M o s) : Kept M o (fetchEnd s) := by
  unfold fetchEnd
  dsimp only
  (repeat' split) <;>
    (with_reducible repeat' first | assumption | apply Kept.onGaps | apply fetchOver_kept
                                  | apply mergeOutcome_kept | apply beginAlignment_kept) <;>
    simp

theorem stageForFetch_kept (n label : Nat) (r : FetchRecord)
    (h : Kept M o s) : Kept M o (stageForFetch n label r s) := by
  unfold stageForFetch
  (with_reducible repeat' first | assumption | apply Kept.onGaps | apply dropRrq_kept
                                | apply stageSlot_kept) <;>
    simp

theorem reportGapFetch_kept (n : Nat) (d : SlotDesc) (h : Kept M o s) : Kept M o (reportGapFetch n d s) := by
  unfold reportGapFetch
  (repeat' split) <;>
    (with_reducible repeat' first | assumption | apply freeSlot_kept | apply fetchEnd_kept
                                  | apply stageForFetch_kept)

theorem disposeBlock_kept (n : Nat) (h : Kept M o s) : Kept M o (disposeBlock n s) := by
  unfold disposeBlock
  dsimp only
  (repeat' split) <;>
    (with_reducible repeat' first | assumption | apply freeSlot_kept | apply reportStarting_kept
                                  | apply reportStreaming_kept | apply reportHolding_kept
                                  | apply reportSeeking_kept | apply reportMatching_kept
                                  | apply reportBridging_kept | apply reportGapFetch_kept)

theorem takeReport_kept (h : Kept M o s) : Kept M o (takeReport s) := by
  unfold takeReport
  (repeat' split) <;>
    (with_reducible repeat' first | assumption | apply handOffEnd_kept | apply freeReport_kept
                                  | apply settleArbiter_kept | apply disposeBlock_kept)

theorem blockReport_kept (h : Kept M o s) : Kept M o (blockReport s) := by
  unfold blockReport
  (repeat' split) <;>
    (with_reducible repeat' first | assumption | apply deferEvent_kept | apply settleArbiter_kept
                                  | apply takeReport_kept)

theorem shockEvent_kept (h : Kept M o s) : Kept M o (shockEvent s) := by
  unfold shockEvent
  dsimp only
  (repeat' split) <;>
    (with_reducible repeat' first | assumption | apply Kept.onPins | apply Kept.onLines
                                  | apply deferEvent_kept | apply settleArbiter_kept | apply lineBreak_kept) <;>
    exact id

theorem shkFall_kept (h : Kept M o s) : Kept M o (shkFall s) := by
  unfold shkFall
  (with_reducible repeat' first | assumption | apply Kept.onPins | apply Kept.onLines) <;>
    exact id

theorem trackLost_kept (h : Kept M o s) : Kept M o (trackLost s) := by
  unfold trackLost
  dsimp only
  (repeat' split) <;>
    (with_reducible repeat' first | assumption | apply Kept.onPins | apply Kept.onLines
                                  | apply deferEvent_kept | apply settleArbiter_kept | apply lineBreak_kept) <;>
    exact id

theorem trackRegained_kept (h : Kept M o s) : Kept M o (trackRegained s) := by
  unfold trackRegained
  dsimp only
  (repeat' split) <;>
    (with_reducible repeat' first | assumption | apply Kept.onPins | apply Kept.onLines
                                  | apply trackLost_kept | apply lostExit_kept) <;>
    exact id

theorem actDeferred_kept (d : Deferred) (h : Kept M o s) : Kept M o (actDeferred s d) := by
  unfold actDeferred
  split
  · exact deferEvent_kept d h
  · split
    · exact takeReport_kept h
    · exact lineBreak_kept _ h
    · exact lineBreak_kept _ h

theorem tailCaptureEnd_kept (h : Kept M o s) : Kept M o (tailCaptureEnd s) := by
  unfold tailCaptureEnd
  split
  · exact h
  · split
    · exact settleArbiter_kept (tryEvaluate_kept (foldl_kept _ (fun _ d k => actDeferred_kept d k)
        (Kept.ite (enterSeeking_kept (h.onRc id id)) (lostExit_kept (h.onRc id id)))))
    · exact h

theorem blockPeriodBoundary_kept (h : Kept M o s) : Kept M o (blockPeriodBoundary s) := by
  unfold blockPeriodBoundary
  (repeat' split) <;> (with_reducible repeat' first | assumption | apply Kept.onRc) <;>
    simp

theorem expire_kept (h : Kept M o s) : Kept M o (expire s) := by
  unfold expire
  (repeat' split) <;>
    (with_reducible repeat' first | assumption | apply attemptFail_kept | apply enterBridging_kept
                                  | apply dropRrq_kept | apply freeRun_kept | apply fetchEnd_kept)

theorem deadlineExpiry_kept (h : Kept M o s) : Kept M o (deadlineExpiry s) := by
  unfold deadlineExpiry
  (repeat' split) <;> (with_reducible repeat' first | assumption | apply settleArbiter_kept | apply expire_kept)

theorem evaluationEnd_kept (h : Kept M o s) : Kept M o (evaluationEnd s) := by
  unfold evaluationEnd
  split
  · split
    · exact settleArbiter_kept (Kept.ite (decideMatch_kept _ h.onMe) (tryEvaluate_kept h.onMe))
    · exact h
  · exact h

theorem takeRetireReport_kept (h : Kept M o s) :
    Kept M o (s.onMap fun m => { m with retireReport := false }) := h.onMap ⟨rfl, id, id, id, id⟩ id

theorem spliceRetry_kept (h : Kept M o s) : Kept M o (spliceRetry s) := by
  unfold spliceRetry
  split
  · exact (trySplice_kept _ (takeRetireReport_kept h)).ite h
  · exact h

theorem bridgeRetry_kept (h : Kept M o s) : Kept M o (bridgeRetry s) :=
  (tryBridge_kept (takeRetireReport_kept h)).ite h

theorem alignmentEnd_kept (h : Kept M o s) : Kept M o (alignmentEnd s) := by
  unfold alignmentEnd
  split
  · split
    · split
      · exact h.onMe
      · exact settleArbiter_kept (tryEvaluate_kept (mergeOutcome_kept _ (endAlignment_kept h)))
    · exact h
  · exact h

theorem mergeFramesWritten_kept (h : Kept M o s) : Kept M o (mergeFramesWritten s) := by
  unfold mergeFramesWritten
  (repeat' split) <;>
    (with_reducible repeat' first | assumption | apply Kept.onMe | apply settleArbiter_kept
                                  | apply tryEvaluate_kept | apply mergeOutcome_kept
                                  | apply endAlignment_kept | apply modSlot_kept | apply fetchOver_kept) <;>
    exact fun _ => ⟨rfl, rfl, rfl⟩

theorem mergeFlagMapWritten_kept (h : Kept M o s) : Kept M o (mergeFlagMapWritten s) := by
  unfold mergeFlagMapWritten
  (repeat' split) <;>
    (with_reducible repeat' first | assumption | apply modSlot_kept | apply settleArbiter_kept
                                  | apply tryEvaluate_kept | apply mergeOutcome_kept | apply endAlignment_kept) <;>
    exact fun _ => ⟨rfl, rfl, rfl⟩

end Sys2Proof.Machine
end

