-- ==== Sys2Proof/Laws/KeptPlay.lean ====
section
/-! SUPPORT. Apply, resume, play and the parameter area: every operation keeps what `Kept` names. -/
namespace Sys2Proof.Machine

variable {M : Mask} {o s : State}

theorem completion_kept (code : Word) (result : CmdResult) (h : Kept M o s) :
    Kept M o (completion code result s) :=
  raiseFlag_kept _ (h.onCtl rfl fun _ => BitVec.and_self)

theorem newHoldMargin_kept (h : Kept M o s) : Kept M o (newHoldMargin s) := by
  unfold newHoldMargin
  (repeat' split) <;> (with_reducible repeat' first | assumption | apply holdRelease_kept | apply holdTest_kept)

theorem clampTo_bounds {lo hi v : Nat} (h : lo ≤ hi) : lo ≤ clampTo lo hi v ∧ clampTo lo hi v ≤ hi := by
  unfold clampTo
  split
  · exact ⟨le_refl _, h⟩
  · split
    · exact ⟨h, le_refl _⟩
    · omega

theorem clampBase_bounds (v : Nat) : clampBase v ≤ 0xFFF000 ∧ clampBase v % 4096 = 0 := by
  unfold clampBase clampTo
  split
  · omega
  · split <;> omega

/-- Clamping puts every parameter in its range (R173). -/
theorem clampParams_inRange (staged : List Word) : (clampParams staged).inRange := by
  unfold clampParams Params.inRange
  dsimp only
  refine ⟨clampBase_bounds _, clampTo_bounds (by decide), clampBase_bounds _, clampBase_bounds _,
    clampTo_bounds (by decide), clampTo_bounds (by decide), (clampTo_bounds (by decide)).2,
    clampTo_bounds (by decide), (clampTo_bounds (by decide)).2, (clampTo_bounds (by decide)).2,
    clampTo_bounds (by decide), clampTo_bounds (by decide), (clampTo_bounds (by decide)).2,
    (clampTo_bounds (by decide)).2, clampTo_bounds (by decide), (clampTo_bounds (by decide)).2,
    (clampTo_bounds (by decide)).2, (clampTo_bounds (by decide)).2, clampTo_bounds (by decide),
    (clampTo_bounds (by decide)).2, (clampTo_bounds (by decide)).2⟩

/-- A new set that passes the checks, with the ring rebuilt and the retry counts lowered, keeps the
invariant (R3, R69, R178). -/
theorem newSet_kept (h : Kept M o s) (hp : applyPasses s = true) :
    Kept M o (lowerRetries (clampParams s.ctl.staged).retryLimit
      (rebuildRing s.ctl.params (clampParams s.ctl.staged)
        (s.onCtl fun c => { c with params := clampParams s.ctl.staged, applyInd := .done }))) := by
  have hr := clampParams_inRange s.ctl.staged
  simp only [applyPasses, Bool.and_eq_true] at hp
  revert hr hp
  generalize clampParams s.ctl.staged = new
  intro hr hp
  unfold rebuildRing
  split
  · rename_i hg
    refine h.of_core rfl rfl rfl (fun i => ?_) id
    obtain ⟨i1, ⟨i2, ⟨j1, j2, j3⟩, i4, i5, i6⟩, i7, i8⟩ := i
    refine ⟨i1, ⟨i2, ⟨?_, j2, j3⟩, Nat.min_le_right _ _, ?_, i6⟩, ⟨hr, hp.2⟩, i8⟩
    · exact j1.trans hg.2
    · exact le_trans (le_of_eq (List.length_map ..)) i5
  · refine h.of_core rfl rfl rfl (fun i => ?_) id
    obtain ⟨i1, ⟨i2, ⟨j1, j2, j3⟩, i4, i5, i6⟩, i7, i8, i9⟩ := i
    refine ⟨i1, ⟨i2, ⟨?_, j2, j3⟩, Nat.min_le_right _ _, ?_, i6⟩, ⟨hr, hp.2⟩,
      slotsOwned_replicate _, i9⟩
    · exact List.length_replicate
    · exact le_trans (le_of_eq (List.length_map ..)) i5

theorem applyNow_kept (h : Kept M o s) : Kept M o (applyNow s) := by
  have k : Kept M o (s.onCtl fun c => { c with applyPending := false }) :=
    h.onCtl rfl fun _ => BitVec.and_self
  unfold applyNow
  dsimp only
  split
  · rename_i hp
    refine completion_kept _ _ ?_
    unfold applyEffects
    have k1 := newSet_kept k hp
    have k2 := Kept.ite (p := s.ctl.params.lowWater = (clampParams s.ctl.staged).lowWater) k1 (leadCheck_kept
        k1)
    have k3 := Kept.ite (p := s.ctl.params.holdMargin = (clampParams s.ctl.staged).holdMargin) k2
        (newHoldMargin_kept k2)
    exact Kept.ite k3 (fetchTest_kept k3)
  · exact completion_kept _ _ (raiseFlag_kept _ (k.onCtl rfl fun _ => BitVec.and_self))

theorem applyIfPending_kept (h : Kept M o s) : Kept M o (applyIfPending s) := by
  unfold applyIfPending
  (repeat' split) <;> (with_reducible repeat' first | assumption | apply applyNow_kept)

/-- An entry of the changed table is an old one or the changed one. -/
theorem modResume_at (s : State) (n k : Nat) (f : ResumeEntry → ResumeEntry) :
    resumeAt (modResume n f s) k =
      if k = n ∧ n < s.resume.entries.length then f (resumeAt s k) else resumeAt s k := by
  unfold resumeAt modResume State.onResume
  simp only [List.getD_eq_getElem?_getD, List.getElem?_modify]
  by_cases hk : n = k
  · subst hk
    by_cases hn : n < s.resume.entries.length
    · simp [hn]
    · simp [hn]
  · simp [hk, Ne.symm hk]

/-- A valid entry of a table with entry n made invalid is an entry of the old table, and not entry n. -/
theorem invalidated {l : List ResumeEntry} {n i : Nat} {f : ResumeEntry → ResumeEntry}
    (hf : ∀ e, (f e).valid = false) {e : ResumeEntry} (h : (l.modify n f)[i]? = some e)
    (hv : e.valid = true) : i ≠ n ∧ l[i]? = some e := by
  rw [List.getElem?_modify] at h
  split at h
  · rename_i hn
    cases hi : l[i]? with
    | none =>
      rw [hi] at h
      exact absurd h (by simp)
    | some d =>
      rw [hi] at h
      obtain rfl := Option.some.inj h
      rw [hf] at hv
      exact absurd hv (by decide)
  · rename_i hn
    exact ⟨Ne.symm hn, by simpa using h⟩

/-- A change that makes an entry invalid. -/
theorem modResume_kept (n : Nat) (f : ResumeEntry → ResumeEntry) (hf : ∀ e, (f e).valid = false)
 (h : Kept M o s) : Kept M o (modResume n f s) := by
  refine h.onResume (List.length_modify ..) (fun d => ?_) (fun _ k hv => ?_) (fun _ => id)
  · exact distinct_of d (.inl rfl) fun i e he hv => ⟨e, (invalidated hf he hv).2, hv, rfl⟩
  · have e := modResume_at s n k f
    unfold modResume at e
    rw [e] at hv ⊢
    split at hv
    · rw [hf] at hv
      exact absurd hv (by decide)
    · rename_i hc
      rw [if_neg hc]

/-- No valid entry but the target holds the fingerprint that a snapshot is written for (R152, R155). -/
theorem targetEntry_distinct {f : Word} (hf : f ≠ 0) (hd : s.resume.distinct) (k : Nat) (e : ResumeEntry)
    (he : s.resume.entries[k]? = some e) (hk : k ≠ targetEntry s f) (hv : e.valid = true) :
    e.fingerprint ≠ f := by
  intro hef
  unfold targetEntry resumeEntry at hk
  rw [if_neg hf] at hk
  cases hr : s.resume.entries.findIdx? (fun e => e.valid && e.fingerprint == f) with
  | none =>
    rw [List.findIdx?_eq_none_iff] at hr
    have := hr e (List.mem_of_getElem? he)
    simp [hv, hef] at this
  | some n =>
    rw [hr] at hk
    rw [List.findIdx?_eq_some_iff_getElem] at hr
    obtain ⟨hn, hp, -⟩ := hr
    simp only [Bool.and_eq_true, beq_iff_eq] at hp
    exact hd.1 k n e _ he (List.getElem?_eq_getElem hn) hk hv hp.1 (hef.trans hp.2.symm)

theorem beginWrite_kept (h : Kept M o s) : Kept M o (beginWrite s) := by
  unfold beginWrite
  split
  · exact h
  · rename_i p hp
    split
    · rename_i hc
      unfold modResume
      dsimp only [State.onResume]
      have k := modResume_kept (targetEntry s p.fingerprint) (fun e => { e with valid := false })
        (fun _ => rfl) h
      refine h.onResume (f := fun t => { t with
        entries := t.entries.modify (targetEntry s p.fingerprint) (fun e => { e with valid := false })
        snap := some { p with target := some (targetEntry s p.fingerprint), timer := 0 } })
        (List.length_modify ..) (fun d => ?_) (fun _ k hv => ?_) (fun _ => id)
      · refine ⟨fun i j x y hx hy hij vx vy => ?_, fun q hq => ?_⟩
        · exact d.1 i j x y (invalidated (fun _ => rfl) hx vx).2 (invalidated (fun _ => rfl) hy vy).2 hij
            vx vy
        · obtain rfl := Option.some.inj hq
          refine ⟨(d.2 p hp).1, fun n hn k e hk hkn hv => ?_⟩
          obtain rfl := Option.some.inj hn
          exact targetEntry_distinct (d.2 p hp).1 d k e (invalidated (fun _ => rfl) hk hv).2 hkn hv
      · have e := modResume_at s (targetEntry s p.fingerprint) k fun e => { e with valid := false }
        have hv' : (resumeAt (modResume (targetEntry s p.fingerprint)
          (fun e => { e with valid := false }) s) k).valid = true := hv
        show resumeAt (modResume (targetEntry s p.fingerprint)
          (fun e => { e with valid := false }) s) k = _
        rw [e] at hv' ⊢
        split at hv'
        · exact absurd hv' (by simp)
        · rename_i hc
          rw [if_neg hc]
    · exact h

theorem requestSnapshot_kept (h : Kept M o s) : Kept M o (requestSnapshot s) := by
  unfold requestSnapshot
  split
  · exact h
  · rename_i f hf
    dsimp only
    refine Kept.ite h (beginWrite_kept (h.onResume rfl (fun d => ⟨d.1, fun p hp => ?_⟩) (fun _ _ _ => rfl)
      (fun _ => id)))
    obtain rfl := Option.some.inj hp
    refine ⟨?_, fun n hn => absurd hn (by simp)⟩
    unfold snapshotDisc at hf
    split at hf
    · split at hf
      · rename_i h1
        obtain rfl := Option.some.inj hf
        exact h1.1
      · exact absurd hf (by simp)
    · exact absurd hf (by simp)

theorem snapshotReceives_kept (values : List (Nat × TailFrame)) (h : Kept M o s) :
    Kept M o (snapshotReceives values s) := by
  refine beginWrite_kept (h.onResume rfl (fun d => ⟨d.1, fun p hp => ?_⟩) (fun _ _ _ => rfl) (fun _ => id))
  obtain ⟨q, hq, rfl⟩ := Option.map_eq_some_iff.mp hp
  exact d.2 q hq

/-- The ages go up and the entry written becomes valid: it alone holds the snapshot's fingerprint. -/
theorem endWrite_kept (p : Snapshot) (n : Nat) (hm : M.entries = false) (hs : s.resume.snap = some p)
    (hn : p.target = some n) (h : Kept M o s) : Kept M o (endWrite p n s) := by
  have no : ∀ {u v : State}, M.entries = true → noNewEntry u v := fun he => by
    rw [hm] at he
    exact absurd he (by decide)
  let aged := fun (e : ResumeEntry) => if e.valid then { e with age := min (e.age + 1) 255 } else e
  let written := fun (e : ResumeEntry) =>
    { valid := true, fingerprint := p.fingerprint, frame := p.frame, tailCount := p.tail.length,
      tail := savedTail e.tail p.tail, age := 0 : ResumeEntry }
  refine h.onResume (f := fun t => { t with entries := (t.entries.map aged).modify n written, snap := none })
    ((List.length_modify ..).trans (List.length_map ..)) (fun d => ?_) no (fun _ => id)
  have old : ∀ (i : Nat) (e : ResumeEntry), ((s.resume.entries.map aged).modify n written)[i]? = some e →
      i ≠ n → e.valid = true → ∃ x, s.resume.entries[i]? = some x ∧ x.valid = true ∧
        x.fingerprint = e.fingerprint := by
    intro i e he hi hv
    simp only [List.getElem?_modify, if_neg (Ne.symm hi), List.getElem?_map] at he
    cases hx : s.resume.entries[i]? with
    | none =>
      rw [hx] at he
      exact absurd he (by simp)
    | some x =>
      rw [hx] at he
      have he' : aged x = e := by simpa using he
      have hf : ∀ y, (aged y).valid = y.valid ∧ (aged y).fingerprint = y.fingerprint := fun y => by
        simp only [aged]
        split <;> exact ⟨rfl, rfl⟩
      rw [← he'] at hv ⊢
      exact ⟨x, rfl, (hf x).1 ▸ hv, (hf x).2.symm⟩
  have new : ∀ (e : ResumeEntry), ((s.resume.entries.map aged).modify n written)[n]? = some e →
      e.fingerprint = p.fingerprint := by
    intro e he
    simp only [List.getElem?_modify, if_true] at he
    obtain ⟨x, -, rfl⟩ := Option.map_eq_some_iff.mp he
    rfl
  have snap := (d.2 p hs).2 n hn
  refine ⟨fun i j x y hx hy hij vx vy => ?_, fun q hq => absurd hq (by simp)⟩
  by_cases hi : i = n
  · subst hi
    obtain ⟨z, hz, vz, fz⟩ := old j y hy (Ne.symm hij) vy
    rw [new x hx, ← fz]
    exact (snap j z hz (Ne.symm hij) vz).symm
  · obtain ⟨z, hz, vz, fz⟩ := old i x hx hi vx
    rw [← fz]
    by_cases hj : j = n
    · subst hj
      rw [new y hy]
      exact snap i z hz hi vz
    · obtain ⟨w, hw, vw, fw⟩ := old j y hy hj vy
      rw [← fw]
      exact d.1 i j z w hz hw hij vz vw

theorem forgetEntry_kept (n : Nat) (h : Kept M o s) : Kept M o (forgetEntry n s) :=
  modResume_kept _ _ (fun _ => rfl) h

theorem setCursor_kept (x : Nat) (h : Kept M o s) : Kept M o (setCursor x s) :=
  leadCheck_kept (h.onPlay fun _ => Nat.zero_le _)

theorem crossing_kept (old : Nat) (h : Kept M o s) : Kept M o (crossing old s) := by
  unfold crossing
  (repeat' split) <;> (with_reducible repeat' first | assumption | apply applyIfPending_kept)

theorem jump_kept (h : Kept M o s) : Kept M o (jump s) := by
  unfold jump
  (repeat' split) <;>
    (with_reducible repeat' first | assumption | apply Kept.onPlay | apply crossing_kept
                                  | apply leadCheck_kept) <;>
    simp

theorem passSlot_kept (g : Segment) (pos n : Nat) (h : Kept M o s) : Kept M o (passSlot g pos n s) := by
  have k := Kept.ite (p := (slotAt s n).gapMark = true) (gapReached_kept n h) h
  exact Kept.ite (freeSlot_kept n k) k

theorem afterRetire_kept (before : Nat) (h : Kept M o s) : Kept M o (afterRetire before s) := by
  unfold afterRetire
  (repeat' split) <;> (with_reducible repeat' first | assumption | apply fetchTest_kept)

theorem reserveHistory_length (pos : Nat) (l : List HistoryEntry) : (reserveHistory pos l).length ≤ 64 := by
  unfold reserveHistory
  simp only [List.length_drop, List.length_append, List.length_singleton]
  omega

theorem servePosition_kept (g : Segment) (loc : Option (Nat × Nat)) (h : Kept M o s) :
    Kept M o (servePosition g loc s) := by
  unfold servePosition
  dsimp only
  refine crossing_kept _ (afterRetire_kept _ (freeReport_kept (leadCheck_kept (retireFront_kept ?_))))
  refine Kept.onPlay ?_ (fun _ => reserveHistory_length _ _)
  split
  · exact passSlot_kept _ _ _ h
  · exact h

theorem planFill_kept (h : Kept M o s) : Kept M o (planFill s) := by
  unfold planFill
  (repeat' split) <;>
    (with_reducible repeat' first | assumption | apply Kept.onPlay | apply raiseFlag_kept
                                  | apply applyIfPending_kept) <;>
    simp

theorem planWord_kept {t : State} {w : BurstWord} (mode : PlayMode) (h : Kept M o s)
    (he : planWord mode s = some (t, w)) : Kept M o t := by
  unfold planWord at he
  split at he
  · cases he
    exact h
  · cases he
    exact h
  · split at he
    · cases he
      exact planFill_kept h
    · dsimp only at he
      split at he
      · cases he
        exact planFill_kept (jump_kept h)
      · split at he
        · exact absurd he (by simp)
        · cases he
          exact servePosition_kept _ _ (jump_kept h)

theorem addWord_kept (w : BurstWord) (h : Kept M o s) : Kept M o (addWord w s) := by
  unfold addWord
  (with_reducible repeat' first | assumption | apply Kept.onPlay) <;>
    simp

theorem planWords_kept (mode : PlayMode) (n : Nat) (h : Kept M o s) : Kept M o (planWords mode n s) := by
  induction n generalizing s with
  | zero => exact h
  | succ n ih =>
    unfold planWords
    split
    · rename_i he
      exact ih (addWord_kept _ (planWord_kept mode h he))
    · exact h

theorem addAhead_kept (fuel : Nat) (h : Kept M o s) : Kept M o (addAhead fuel s) := by
  induction fuel generalizing s with
  | zero => exact h
  | succ fuel ih =>
    unfold addAhead
    split
    · exact h
    · split
      · exact h
      · split
        · exact h
        · exact ih (h.onPlay id)

theorem settleAhead_kept (h : Kept M o s) : Kept M o (settleAhead s) := by
  unfold settleAhead
  split
  · exact addAhead_kept _ h
  · exact h

theorem playGrant_kept (h : Kept M o s) : Kept M o (playGrant s) := by
  unfold playGrant
  split
  · exact settleAhead_kept (h.onPlay id)
  · exact h

theorem addCounts_kept (served concealed fills : Nat) (h : Kept M o s) :
    Kept M o (addCounts served concealed fills s) := h.onCtl rfl fun _ => BitVec.and_self

theorem burstComposed_kept (c : Composed) (h : Kept M o s) : Kept M o (burstComposed c s) :=
  snapshotReceives_kept _ (settleCapture_kept (addCounts_kept _ _ _
    (h.onPlay fun l => le_trans (le_of_eq (List.length_map ..)) l)))

theorem flushPlay_kept (h : Kept M o s) : Kept M o (flushPlay s) := by
  unfold flushPlay
  (with_reducible repeat' first | assumption | apply Kept.onPlay) <;>
    simp

theorem holdRecord_kept (h : Kept M o s) : Kept M o (holdRecord s) := by
  unfold holdRecord
  (with_reducible repeat' first | assumption | apply Kept.onRc) <;>
    simp

theorem releaseRecord_kept (h : Kept M o s) : Kept M o (releaseRecord s) := by
  refine h.onRc (fun hr => ?_) (fun hp => ?_)
  · split
    · split <;> exact hr
    · exact hr
  · revert hp
    split
    · split <;> exact id
    · exact id

theorem captureEffect_kept (offset : Nat) (h : Kept M o s) : Kept M o (captureEffect offset s) := by
  unfold captureEffect
  (repeat' split) <;>
    (with_reducible repeat' first | assumption | apply holdRecord_kept | apply releaseRecord_kept)

theorem setLatch_kept (code : Word) (h : Kept M o s) : Kept M o (setLatch code s) := by
  unfold setLatch
  (with_reducible repeat' first | assumption | apply Kept.onCtl) <;>
    simp

theorem copyParameter_kept (offset : Nat) (data : Word) (enables : BitVec 4)
    (h : Kept M o s) : Kept M o (copyParameter offset data enables s) := by
  unfold copyParameter
  (repeat' split) <;> (with_reducible repeat' first | assumption | apply Kept.onCtl | apply setLatch_kept) <;>
    simp

theorem copyEnable_kept (data : Word) (enables : BitVec 4)
    (h : Kept M o s) : Kept M o (copyEnable data enables s) := by
  unfold copyEnable
  (with_reducible repeat' first | assumption | apply Kept.onCtl) <;>
    simp

theorem copyAcknowledge_kept (data : Word) (enables : BitVec 4) (hm : M.flags = false) (h : Kept M o s) :
    Kept M o (copyAcknowledge data enables s) := clearFlags_kept _ hm h

theorem copyBeat_kept (offset : Nat) (data : Word) (enables : BitVec 4)
    (hm : offset = acknowledgeOffset → M.flags = false) (h : Kept M o s) :
    Kept M o (copyBeat offset data enables s) := by
  unfold copyBeat
  split
  · exact copyEnable_kept _ _ h
  · split
    · rename_i ha
      exact copyAcknowledge_kept _ _ (hm ha) h
    · exact copyParameter_kept _ _ _ h

theorem parameterBeat_kept (offset : Nat) (data : Word) (enables : BitVec 4)
    (hm : offset = acknowledgeOffset → M.flags = false) (h : Kept M o s) :
    Kept M o (parameterBeat offset data enables s) := by
  unfold parameterBeat
  split
  · exact h
  · exact copyBeat_kept _ _ _ hm (h.onMem fun w => Memory.wf_writeWord w _ _ _)

theorem readCaptureWord_kept (offset : Nat) (h : Kept M o s) : Kept M o (readCaptureWord offset s) := by
  unfold readCaptureWord
  (with_reducible repeat' first | assumption | refine Kept.onRouter ?_ rfl | apply captureEffect_kept)

end Sys2Proof.Machine
end

