-- ==== Sys2Proof/Laws/KeptCommands.lean ====
section
/-! SUPPORT. The router, the arbiter and the commands: every operation keeps what `Kept` names;
and what the take of a command row does. -/
namespace Sys2Proof.Machine

variable {M : Mask} {o s : State}

theorem setRequest_kept (port : Port) (r : Option ActiveRequest)
    (h : Kept M o s) : Kept M o (setRequest port r s) := by
  unfold setRequest
  (repeat' split) <;> (with_reducible repeat' first | assumption | refine Kept.onRouter ?_ rfl)

theorem admitEach_kept (l : List PortRequest) (h : Kept M o s) : Kept M o (admitEach l s) := by
  induction l generalizing s with
  | nil => exact h
  | cons r l ih =>
    unfold admitEach
    split
    · exact ih (setRequest_kept _ _ h)
    · exact ih (h.onRouter rfl)

theorem admitWaiting_kept (h : Kept M o s) : Kept M o (admitWaiting s) := admitEach_kept _ (h.onRouter rfl)

theorem requestArrives_kept (r : PortRequest) (h : Kept M o s) : Kept M o (requestArrives r s) := by
  unfold requestArrives
  dsimp only
  (repeat' split) <;>
    (with_reducible repeat' first | assumption | refine Kept.onRouter ?_ rfl | apply admitWaiting_kept)

theorem passToMemory_kept (isWrite : Bool) (b : Beat) (h : Kept M o s) :
    Kept M o (passToMemory isWrite b s).1 := by
  unfold passToMemory
  split
  · exact h.onMem (f := fun m => Memory.writeWord m b.addr b.data.data b.data.enables)
      fun w => Memory.wf_writeWord w _ _ _
  · exact h

theorem takeBeat_kept (port : Port) (isWrite : Bool) (s0 : State) (b : Beat) (hm : M.flags = false)
 (h : Kept M o s) : Kept M o (takeBeat port isWrite s0 b s).1 := by
  unfold takeBeat
  split
  · exact accessDrop_kept h
  · split
    · dsimp only
      exact Kept.ite (captureEffect_kept _ h) h
    · split
      · exact parameterBeat_kept _ _ _ (fun _ => hm) h
      · exact passToMemory_kept _ _ h
    · split
      · exact intakeBeat_kept _ h
      · exact passToMemory_kept _ _ h
    · exact h
    · exact passToMemory_kept _ _ h
    · exact passToMemory_kept _ _ h

theorem putWord_kept (port : Port) (place : Nat) (w : Word)
    (h : Kept M o s) : Kept M o (putWord port place w s) := by
  unfold putWord
  (with_reducible repeat' first | assumption | apply setRequest_kept)

theorem takeBeats_kept (port : Port) (isWrite : Bool) (s0 : State) (l : List Beat) (hm : M.flags = false)
 (h : Kept M o s) : Kept M o (takeBeats port isWrite s0 l s).1 := by
  induction l generalizing s with
  | nil => exact h
  | cons b l ih =>
    have k := takeBeat_kept port isWrite s0 b hm h
    have k1 := Kept.ite (p := isWrite = true) k (putWord_kept port b.place (takeBeat port isWrite s0 b s).2 k)
    exact Kept.iteFst k1 (ih k1)

theorem finishP_kept (h : Kept M o s) : Kept M o (finishP s) := by
  unfold finishP
  (repeat' split) <;> (with_reducible repeat' first | assumption | refine Kept.onRouter ?_ rfl)

theorem takeMain_kept (port : Port) (r : ActiveRequest) (hm : M.flags = false) (h : Kept M o s) :
    Kept M o (takeMain port r s) := by
  have k := setRequest_kept port (some { r with main := [], held := false, opening := false }) h
  have k1 := fun s0 => takeBeats_kept port r.isWrite s0 r.main hm k
  unfold takeMain
  dsimp only
  split
  · exact settleAhead_kept (finishP_kept (setRequest_kept _ _ (k1 _)))
  · exact finishD_kept (setRequest_kept _ _ (k1 _))

theorem protectedBeat_kept (port : Port) (isWrite : Bool) (addr : BitVec 24)
    (h : Kept M o s) : Kept M o (protectedBeat port isWrite addr s) := by
  unfold protectedBeat
  (repeat' split) <;>
    (with_reducible repeat' first | assumption | refine Kept.onRouter ?_ rfl | apply accessDrop_kept)

theorem intakeGrant_kept (h : Kept M o s) : Kept M o (intakeGrant s) := by
  unfold intakeGrant
  (repeat' split) <;> (with_reducible repeat' first | assumption | apply Kept.onIntake | apply performJob_kept)

theorem zeroWriteGrant_kept (h : Kept M o s) : Kept M o (zeroWriteGrant s) :=
  (h.onMem fun w => Memory.wf_writeWord w _ _ _).onCtl rfl fun _ => BitVec.and_self

theorem engineGrant_kept (h : Kept M o s) : Kept M o (engineGrant s) := by
  unfold engineGrant
  split
  · exact h
  · have k := fun f => h.onArb (f := fun _ => f)
    dsimp only
    split
    · exact intakeGrant_kept (h.onArb fun _ => Nat.zero_le _)
    · exact captureGrant_kept (h.onArb fun _ => Nat.zero_le _)
    · exact matchGrant_kept (h.onArb fun _ => Nat.zero_le _)
    · exact zeroWriteGrant_kept (h.onArb fun _ => Nat.zero_le _)

theorem countWait_kept (h : Kept M o s) : Kept M o (countWait s) := by
  refine h.onArb fun _ => ?_
  dsimp only
  split
  · exact Nat.min_le_right _ _
  · exact Nat.zero_le _

theorem portPGrant_kept (hm : M.flags = false) (h : Kept M o s) : Kept M o (portPGrant s) := by
  unfold portPGrant
  split
  · split
    · exact playGrant_kept h
    · exact takeMain_kept _ _ hm h
  · exact playGrant_kept h

theorem portDGrant_kept (hm : M.flags = false) (h : Kept M o s) : Kept M o (portDGrant s) := by
  unfold portDGrant
  split
  · exact takeMain_kept _ _ hm h
  · exact h

theorem grant_kept (hm : M.flags = false) (h : Kept M o s) : Kept M o (grant s) := by
  unfold grant
  split
  · exact h
  · exact engineGrant_kept h
  · exact portPGrant_kept hm (countWait_kept h)
  · exact portDGrant_kept hm (countWait_kept h)

theorem memoryGrant_kept (hm : M.flags = false) (h : Kept M o s) : Kept M o (memoryGrant s) :=
  settleArbiter_kept (grant_kept hm (admitWaiting_kept h))

theorem openBurst_kept (n : Nat) (h : Kept M o s) : Kept M o (openBurst n s) := by
  unfold openBurst
  (with_reducible repeat' first | assumption | apply Kept.onPlay) <;>
    simp

theorem planBurst_kept (h : Kept M o s) : Kept M o (planBurst s) := by
  unfold planBurst
  split
  · exact planWords_kept _ _ h
  · exact h

theorem burstTake_kept (h : Kept M o s) : Kept M o (burstTake s) := by
  have k := admitWaiting_kept h
  unfold burstTake
  dsimp only
  split
  · exact k
  · split
    · exact settleArbiter_kept (settleAhead_kept (planBurst_kept (Kept.ite k (openBurst_kept _ k))))
    · exact k

theorem returnBurst_kept (c : Composed) (r : ActiveRequest) (h : Kept M o s) :
    Kept M o (returnBurst c r s) :=
  finishP_kept (setRequest_kept _ _ (burstComposed_kept c h))

theorem burstComplete_kept (h : Kept M o s) : Kept M o (burstComplete s) := by
  have k := settleAhead_kept h
  unfold burstComplete
  dsimp only
  split
  · exact k
  · split
    · exact k
    · exact returnBurst_kept _ _ k

theorem takeLatch_kept (h : Kept M o s) : Kept M o (takeLatch s) := by
  unfold takeLatch
  (with_reducible repeat' first | assumption | apply Kept.onCtl) <;>
    simp

theorem unitIdle_kept (h : Kept M o s) : Kept M o (unitIdle s) := by
  unfold unitIdle
  (with_reducible repeat' first | assumption | apply Kept.onCtl) <;>
    simp

theorem complete_kept (code : Word) (result : CmdResult)
    (h : Kept M o s) : Kept M o (complete code result s) := by
  unfold complete
  (with_reducible repeat' first | assumption | apply unitIdle_kept | apply completion_kept)

theorem writeArguments_kept (l : List (Nat × Word)) (hl : ∀ x ∈ l, x.1 ≠ acknowledgeOffset)
    (h : Kept M o s) :
    Kept M o (l.foldl (fun s (o, w) => parameterBeat o w allEnables s) s) := by
  induction l generalizing s with
  | nil => exact h
  | cons x l ih =>
    exact ih (fun y hy => hl y (List.mem_cons_of_mem _ hy))
      (parameterBeat_kept _ _ _ (fun hx => absurd hx (hl x List.mem_cons_self)) h)

/-- A command of at most two arguments writes no acknowledge word. -/
theorem writeCommand_kept (code : Word) (arguments : List Word) (ha : arguments.length ≤ 2)
    (h : Kept M o s) : Kept M o (writeCommand code arguments s) := by
  unfold writeCommand
  refine parameterBeat_kept _ _ _ (fun hx => absurd hx (by decide)) (writeArguments_kept _ (fun x hx => ?_) h)
  have h1 := (List.of_mem_zip hx).1
  simp only [List.mem_map, List.mem_range, commandOffset] at h1
  obtain ⟨i, hi, he⟩ := h1
  simp only [acknowledgeOffset]
  omega

theorem setArguments_same (arguments : List Word) (c : Control) :
    (setArguments arguments c).params = c.params ∧ (setArguments arguments c).flags = c.flags := by
  unfold setArguments
  split <;> exact ⟨rfl, rfl⟩

theorem issue_kept (code : Word) (arguments : List Word) (effect : State → State)
    (ha : arguments.length ≤ 2) (he : ∀ u : State, Kept M o u → Kept M o (effect u)) (h : Kept M o s) :
    Kept M o (issue code arguments effect s) := by
  have k : Kept M o (setLatch code (s.onCtl (setArguments arguments))) :=
    setLatch_kept code (h.onCtl (setArguments_same arguments _).1 fun _ => by
      rw [(setArguments_same arguments _).2, BitVec.and_self])
  unfold issue
  exact Kept.ite (settleArbiter_kept (writeCommand_kept code arguments ha h))
    (settleArbiter_kept (he _ (takeLatch_kept (settleArbiter_kept k))))

/-- A flush leaves PARKED and an empty list. -/
theorem flushed_kept (h : Kept M o s) : Kept M o (settleArbiter (flushMap (flushPlay (flushRecovery
    (flushGaps (flushIntake (flushMatch s))))))) := by
  have k : Kept M.noParked s (settleArbiter (flushMap (flushPlay (flushRecovery
      (flushGaps (flushIntake (flushMatch s))))))) := by
    refine settleArbiter_kept (flushMap_kept (flushPlay_kept (flushRecovery_kept rfl
      (flushGaps_kept (flushIntake_kept (flushMatch_kept (Kept.refl _ s)))))))
  refine h.trans (k.strengthen fun _ _ => ?_)
  unfold settleArbiter
  split <;> rfl

theorem flush_kept (h : Kept M o s) : Kept M o (flush s) := applyIfPending_kept (flushed_kept h)

theorem flushStream_kept (h : Kept M o s) : Kept M o (flushStream s) := by
  unfold flushStream
  (repeat' split) <;> (with_reducible repeat' first | assumption | apply flush_kept)

theorem beginStart_kept (x : Nat) (kind : HeadKind) (h : Kept M o s) : Kept M o (beginStart x kind s) :=
  publish_kept _ _ (h.onRc id nofun)

theorem beginResume_kept (e : ResumeEntry) (h : Kept M o s) : Kept M o (beginResume e s) :=
  enterSeeking_kept (h.onRc (fun _ => Nat.zero_le _) id)

theorem playFrom_kept (x : Nat) (h : Kept M o s) : Kept M o (playFrom x s) := by
  unfold playFrom
  (with_reducible repeat' first | assumption | apply Kept.onPlay | apply setCursor_kept) <;>
    simp

theorem started_kept (code : Word) (h : Kept M o s) : Kept M o (started code s) := by
  unfold started
  (with_reducible repeat' first | assumption | apply drainHeld_kept | apply complete_kept)

theorem startTaken_kept (x : Nat) (h : Kept M o s) : Kept M o (startTaken x s) := by
  unfold startTaken
  split
  · exact complete_kept _ _ h
  · exact started_kept _ (playFrom_kept _ (beginStart_kept _ _ (flushStream_kept h)))

theorem resumeFrom_kept (e : ResumeEntry) (h : Kept M o s) : Kept M o (resumeFrom e s) :=
  playFrom_kept _ (Kept.ite (beginResume_kept e (raiseFlag_kept _ h)) (beginStart_kept _ _ (raiseFlag_kept _
      h)))

theorem loadTaken_kept (f : Word) (x : Nat) (h : Kept M o s) : Kept M o (loadTaken f x s) := by
  unfold loadTaken
  split
  · exact complete_kept _ _ h
  · have k : Kept M o (qualityLoad f ((flushStream s).onRc fun r =>
        { r with loaded := some f, started := false })) :=
      qualityLoad_kept f ((flushStream_kept h).onRc id id)
    refine started_kept _ ?_
    split
    · exact resumeFrom_kept _ k
    · exact playFrom_kept _ (beginStart_kept _ _ k)

theorem leavePlaying_kept (mode : PlayMode) (h : Kept M o s) : Kept M o (leavePlaying mode s) :=
  Kept.ite (applyIfPending_kept (h.onPlay id)) (h.onPlay id)

theorem ejectUnload_kept (byCommand : Bool) (h : Kept M o s) : Kept M o (ejectUnload byCommand s) := by
  have k := (leavePlaying_kept .stopped (h.onRc
    (f := fun r => { r with loaded := none, started := false }) id id)).onEject (f := fun _ => none)
  exact drainHeld_kept (Kept.ite (complete_kept _ _ k) k)

theorem ejectFinish_kept (byCommand : Bool) (h : Kept M o s) : Kept M o (ejectFinish byCommand s) :=
  ejectUnload_kept _ (flushStream_kept h)

theorem driveVmain_kept (vmain : Nat) (h : Kept M o s) : Kept M o (driveVmain vmain s) := h.onPins

theorem setLow_kept (low : Bool) (h : Kept M o s) : Kept M o (setLow low s) := h.onSupply

theorem fallActs_kept (h : Kept M o s) : Kept M o (fallActs s) := requestSnapshot_kept (raiseFlag_kept _ h)

theorem supplyFall_kept (vmain : Nat) (h : Kept M o s) : Kept M o (supplyFall vmain s) := by
  unfold supplyFall
  split
  · exact fallActs_kept (setLow_kept _ (driveVmain_kept _ h))
  · exact h

theorem takeDueFall_kept (h : Kept M o s) : Kept M o (takeDueFall s) :=
  Kept.ite (supplyFall_kept _ h) h

theorem ejectBegin_kept (byCommand : Bool) (h : Kept M o s) : Kept M o (ejectBegin byCommand s) := by
  unfold ejectBegin
  (repeat' split) <;>
    (with_reducible repeat' first | assumption | apply Kept.onEject | apply requestSnapshot_kept
                                  | apply ejectFinish_kept)

theorem ejectTaken_kept (h : Kept M o s) : Kept M o (ejectTaken s) := by
  unfold ejectTaken
  (repeat' split) <;> (with_reducible repeat' first | assumption | apply Kept.onEject | apply ejectBegin_kept)

theorem pauseTaken_kept (h : Kept M o s) : Kept M o (pauseTaken s) := by
  unfold pauseTaken
  split
  · exact complete_kept _ _ h
  · split
    · refine complete_kept _ _ (leavePlaying_kept _ (h.onPlay fun l => ?_))
      split <;> exact l
    · exact complete_kept _ _ h

theorem playTaken_kept (h : Kept M o s) : Kept M o (playTaken s) := by
  unfold playTaken
  (repeat' split) <;> (with_reducible repeat' first | assumption | apply Kept.onPlay | apply complete_kept) <;>
    simp

theorem applyTaken_kept (h : Kept M o s) : Kept M o (applyTaken s) :=
  Kept.ite (h.onCtl rfl fun _ => BitVec.and_self) (unitIdle_kept (applyNow_kept h))

theorem forgetNow_kept (f : Word) (h : Kept M o s) : Kept M o (forgetNow f s) := by
  unfold forgetNow
  (repeat' split) <;> (with_reducible repeat' first | assumption | apply complete_kept | apply forgetEntry_kept)

theorem forgetTaken_kept (f : Word) (h : Kept M o s) : Kept M o (forgetTaken f s) := by
  unfold forgetTaken
  (repeat' split) <;> (with_reducible repeat' first | assumption | apply Kept.onCtl | apply forgetNow_kept) <;>
    simp

theorem forgetContinues_kept (h : Kept M o s) : Kept M o (forgetContinues s) := by
  unfold forgetContinues
  (repeat' split) <;> (with_reducible repeat' first | assumption | apply Kept.onCtl | apply forgetNow_kept) <;>
    simp

theorem ejectContinues_kept (h : Kept M o s) : Kept M o (ejectContinues s) := by
  unfold ejectContinues
  split
  · exact ejectUnload_kept _ (takeDueFall_kept (flushStream_kept h))
  · exact h

theorem snapshotWriteEnd_kept (hm : M.entries = false) (h : Kept M o s) :
    Kept M o (snapshotWriteEnd s) := by
  unfold snapshotWriteEnd
  split
  · exact h
  · rename_i hs
    split
    · exact h
    · rename_i hn
      exact settleArbiter_kept (ejectContinues_kept (forgetContinues_kept (endWrite_kept _ _ hm hs hn h)))

/-! ### The take of a command row (R140, R142, R174) -/

/-- With the code in the latch no engine client waits exactly when the Control Unit was the only one. -/
theorem engineClients_setLatch (code : Word) (hc : code ≠ 0) (arguments : List Word) (s : State) :
    engineClients (setLatch code (s.onCtl (setArguments arguments))) = [] ↔
      ∀ c ∈ engineClients s, c = .control := by
  have hz : (code == 0) = false := by simpa using hc
  have e1 : captureWants (setLatch code (s.onCtl (setArguments arguments))) = captureWants s := rfl
  have e2 : matchWants (setLatch code (s.onCtl (setArguments arguments))) = matchWants s := by
    rcases arguments with _ | ⟨x, _ | ⟨y, l⟩⟩ <;> rfl
  have e3 : (setLatch code (s.onCtl (setArguments arguments))).ctl.zeroWrite = false := by
    show ((setArguments arguments s.ctl).zeroWrite && code == 0) = false
    rw [hz, Bool.and_false]
  have e4 : (setLatch code (s.onCtl (setArguments arguments))).intake = s.intake := rfl
  unfold engineClients
  rw [e1, e2, e3, e4]
  cases s.ctl.zeroWrite <;> cases matchWants s <;> cases (captureWants s).isSome <;>
    by_cases hj : s.intake.flagJobs = [] <;> simp [hj]

/-- All that the take of a command row does before the command's effect. -/
theorem taken_eq (code : Word) (hc : code ≠ 0) (arguments : List Word) (s : State) :
    takeLatch (settleArbiter (setLatch code (s.onCtl (setArguments arguments)))) =
      { s with arb := s.arbiterAtTake
               ctl := { setArguments arguments s.ctl with latch := 0, zeroWrite := true, busy := true } } := by
  have h := engineClients_setLatch code hc arguments s
  unfold settleArbiter State.arbiterAtTake
  by_cases hh : ∀ c ∈ engineClients s, c = .control
  · rw [if_pos (h.2 hh), if_pos hh]; rfl
  · rw [if_neg (fun x => hh (h.1 x)), if_neg hh]; rfl

/-- With the zero-write asked for the engine presents, and the arbiter stands. -/
theorem settleArbiter_zeroWrite (s : State) (h : s.ctl.zeroWrite = true) : settleArbiter s = s := by
  unfold settleArbiter engineClients
  simp [h]

end Sys2Proof.Machine
end

