-- ==== Sys2Proof/Laws/KeptPower.lean ====
section
/-! SUPPORT. The tray, the power rows and the clock: every operation keeps what `Kept` names. -/
namespace Sys2Proof.Machine

variable {M : Mask} {o s : State}

theorem trayTick_ok (deb : Nat) (tray : TrayLevel) (l : Lines) (_ : l.ok) : (trayTick deb tray l).ok := by
  have hq : (if l.shk || l.riseLatch then 0 else min (l.quiet + 1) 64) ≤ 64 := by
    split
    · exact Nat.zero_le _
    · exact Nat.min_le_right _ _
  have hd : (if tray = l.taken then 0 else min (l.debounce + 1) 64) ≤ 64 := by
    split
    · exact Nat.zero_le _
    · exact Nat.min_le_right _ _
  unfold trayTick
  dsimp only
  split
  · unfold takeEdge
    split
    · exact ⟨Nat.zero_le _, hq⟩
    · exact ⟨hd, hq⟩
  · exact ⟨Nat.zero_le _, hq⟩

theorem tickTaken_kept (tray : TrayLevel) (h : Kept M o s) : Kept M o (tickTaken tray s) :=
  (h.onPins).onLines fun l => trayTick_ok _ _ _ l

theorem edgeActs_kept (tray : TrayLevel) (h : Kept M o s) : Kept M o (edgeActs tray s) :=
  raiseFlag_kept _ (h.onLines fun l => ⟨Nat.zero_le _, l.2⟩)

theorem trayOpenTaken_kept (h : Kept M o s) : Kept M o (trayOpenTaken s) := by
  unfold trayOpenTaken
  dsimp only
  (repeat' split) <;>
    (with_reducible repeat' first | assumption | apply edgeActs_kept | apply settleArbiter_kept
                                  | apply ejectBegin_kept)

theorem supplyRise_kept (vmain : Nat) (h : Kept M o s) : Kept M o (supplyRise vmain s) := by
  unfold supplyRise
  (repeat' split) <;> (with_reducible repeat' first | assumption | apply setLow_kept | apply driveVmain_kept)

theorem firstCompare_kept (vmain : Nat) (h : Kept M o s) : Kept M o (firstCompare vmain s) := by
  unfold firstCompare
  split
  · split
    · exact Kept.ite (fallActs_kept (setLow_kept _ (driveVmain_kept _ h))) (setLow_kept _ (driveVmain_kept _ h))
    · exact setLow_kept _ (driveVmain_kept _ h)
    · exact h
  · exact h

theorem defaults_ok (straps : BitVec 2) :
    (Params.defaults straps).inRange ∧ placementOk straps (Params.defaults straps) = true := by
  have h : ∀ b : BitVec 2, b = 0 ∨ b = 1 ∨ b = 2 ∨ b = 3 := by decide
  rcases h straps with h | h | h | h <;> subst h <;>
    exact ⟨by unfold Params.inRange; decide, by decide⟩

theorem quality_reset_ok : Quality.reset.ok := by unfold Quality.ok; decide

theorem lines_reset_ok : Lines.reset.ok := by unfold Lines.ok; decide

/-- A reset clears flags, so the mask must leave them out. -/
theorem resetBlocks_kept (straps : BitVec 2) (hm : M.flags = false) (h : Kept M o s) :
    Kept M o (resetBlocks straps s) :=
  h.trans
    { queue := rfl
      core := fun i => ⟨i.1, ⟨Nat.zero_le _, ⟨List.length_replicate, Nat.zero_le _, Nat.zero_lt_succ 31⟩,
        Nat.zero_le _, Nat.zero_le _, quality_reset_ok, Nat.zero_le _,
        lines_reset_ok, i.2.1.2.2.2.2.2.2.2⟩, defaults_ok straps, slotsOwned_replicate _, trivial,
        i.2.2.2.2.2.1, fun p hp => nomatch hp⟩
      parked := fun _ _ _ => rfl
      flags := fun hf => by rw [hm] at hf; exact absurd hf (by decide)
      entries := fun _ _ _ => rfl
      latch := fun _ => id }

theorem enterHeld_kept (hm : M.flags = false) (h : Kept M o s) : Kept M o (enterHeld s) :=
  ((resetBlocks_kept _ hm h).onSupply).onResume rfl id (fun _ _ _ => rfl) (fun _ => id)

theorem watchVbak_kept (vbak : Nat) (h : Kept M o s) : Kept M o (watchVbak vbak s) := by
  unfold watchVbak
  refine h.onPins.onResume ?_ (fun d => ?_) (fun _ n _ => ?_) (fun _ hl => ?_)
  · split <;> rfl
  · split <;> exact d
  · unfold resumeAt State.onResume
    dsimp only
    split <;> rfl
  · split at hl
    · exact absurd hl (by simp)
    · exact hl

theorem thresholdFall_kept (vmain vbak : Nat) (hm : M.flags = false) (h : Kept M o s) :
    Kept M o (thresholdFall vmain vbak s) := by
  unfold thresholdFall
  split
  · exact watchVbak_kept _ (Kept.ite (driveVmain_kept _ h).onSupply (enterHeld_kept hm (driveVmain_kept _ h)))
  · exact h

theorem retentionCheck_kept (hm : M.latch = false) (h : Kept M o s) : Kept M o (retentionCheck s) := by
  unfold retentionCheck
  split
  · exact h
  · refine raiseFlag_kept _ (h.onResume (List.length_map ..) (fun d => ?_) (fun _ n hv => ?_) (fun hl => ?_))
    · refine distinct_of d (.inl rfl) fun i e he hv => ?_
      rw [List.getElem?_map] at he
      obtain ⟨x, -, rfl⟩ := Option.map_eq_some_iff.mp he
      exact absurd hv (by simp)
    · unfold resumeAt State.onResume at hv
      simp only [List.getD_eq_getElem?_getD, List.getElem?_map] at hv
      cases hn : s.resume.entries[n]? <;> rw [hn] at hv <;> simp [ResumeEntry.blank] at hv
    · rw [hm] at hl
      exact absurd hl (by decide)

theorem powerOnSteps_kept (straps : BitVec 2) (hf : M.flags = false) (hl : M.latch = false)
 (h : Kept M o s) : Kept M o (powerOnSteps straps s) :=
  retentionCheck_kept hl (((resetBlocks_kept _ hf h).onPins).onResume rfl id (fun _ _ _ => rfl) (fun _ => id))

theorem resetEnds_kept (h : Kept M o s) : Kept M o (resetEnds s) := by
  unfold resetEnds
  (repeat' split) <;> (with_reducible repeat' first | assumption | apply admitWaiting_kept)

theorem powerOnDelayEnd_kept (vmain : Nat) (straps : BitVec 2) (hf : M.flags = false)
    (hl : M.latch = false) (h : Kept M o s) : Kept M o (powerOnDelayEnd vmain straps s) := by
  unfold powerOnDelayEnd
  split
  · exact resetEnds_kept (powerOnSteps_kept _ hf hl (driveVmain_kept _ h)).onSupply
  · exact h

theorem rstnAssert_kept (hm : M.flags = false) (h : Kept M o s) : Kept M o (rstnAssert s) := by
  unfold rstnAssert
  split
  · exact h
  · exact (Kept.ite h (resetBlocks_kept _ hm h)).onPins

theorem sampleStraps_kept (straps : BitVec 2) (h : Kept M o s) : Kept M o (sampleStraps straps s) :=
  h.trans
    { queue := rfl
      core := ((resetBlocks_kept (M := ⟨false, false, false, false⟩) straps rfl (Kept.refl _ s)).onCtl
        (f := fun c => { c with flags := s.ctl.flags }) rfl (fun hf => absurd hf (by decide))).core
      parked := fun _ _ _ => rfl
      flags := fun _ => BitVec.and_self
      entries := fun _ _ _ => rfl
      latch := fun _ => id }

theorem rstnRelease_kept (straps : BitVec 2) (h : Kept M o s) : Kept M o (rstnRelease straps s) := by
  unfold rstnRelease
  split
  · exact Kept.ite h.onPins (resetEnds_kept (sampleStraps_kept _ h.onPins))
  · exact h

theorem runDividers_kept (h : Kept M o s) : Kept M o (runDividers s) := by
  unfold runDividers
  (with_reducible repeat' first | assumption | apply Kept.onClock)

theorem runFilters_kept (h : Kept M o s) : Kept M o (runFilters s) := by
  unfold runFilters
  (with_reducible repeat' first | assumption | apply Kept.onLines) <;>
    exact id

theorem runSupply_kept (h : Kept M o s) : Kept M o (runSupply s) := by
  unfold runSupply
  (with_reducible repeat' first | assumption | apply Kept.onSupply)

theorem runSnapshot_kept (h : Kept M o s) : Kept M o (runSnapshot s) :=
  h.onResume rfl (fun d => ⟨d.1, fun p hp => by
    obtain ⟨q, hq, rfl⟩ := Option.map_eq_some_iff.mp hp
    have k := d.2 q hq
    split <;> exact k⟩) (fun _ _ _ => rfl) (fun _ => id)

theorem runDelay_kept (h : Kept M o s) : Kept M o (runDelay s) := by
  unfold runDelay
  (with_reducible repeat' first | assumption | apply Kept.onSupply)

end Sys2Proof.Machine
end

