-- ==== Sys2Proof/Laws/PerInstr.lean ====
section
/-! SUPPORT. What holds of every command as a term, one lemma for each constructor. -/
namespace Sys2Proof.Laws.NoWord

/-- No word of any length spells the command: the table gives no row bits. -/
def Statement (i : Instr) : Prop := ∀ nbits w : Nat, decodeTableWord nbits w ≠ some i

theorem of_decode (i : Instr) : Statement i := fun _ _ h => by cases h

theorem start (x : Word) : Statement (.start x) := of_decode _
theorem load (f x : Word) : Statement (.load f x) := of_decode _
theorem eject : Statement .eject := of_decode _
theorem pause : Statement .pause := of_decode _
theorem play : Statement .play := of_decode _
theorem apply : Statement .apply := of_decode _
theorem forget (f : Word) : Statement (.forget f) := of_decode _
theorem badCommand (code : Word) : Statement (.badCommand code) := of_decode _
theorem parameterWordWrite (offset : BitVec 10) (data : Word) (enables : BitVec 4) : Statement (.parameterWordWrite offset data enables) := of_decode _
theorem enableWordWrite (data : Word) (enables : BitVec 4) : Statement (.enableWordWrite data enables) := of_decode _
theorem acknowledgeWordWrite (data : Word) (enables : BitVec 4) : Statement (.acknowledgeWordWrite data enables) := of_decode _
theorem captureFirstWordRead : Statement .captureFirstWordRead := of_decode _
theorem captureLastWordRead : Statement .captureLastWordRead := of_decode _
theorem portRequestArrive (r : PortRequest) : Statement (.portRequestArrive r) := of_decode _
theorem memoryGrant : Statement .memoryGrant := of_decode _
theorem protectedBeat (port : Port) (isWrite : Bool) (addr : BitVec 24) : Statement (.protectedBeat port isWrite addr) := of_decode _
theorem intakeHeader (word : Word) (enables : BitVec 4) : Statement (.intakeHeader word enables) := of_decode _
theorem intakeFrame (index : Nat) (word : Word) (enables : BitVec 4) (ers : Bool) : Statement (.intakeFrame index word enables ers) := of_decode _
theorem intakeUnusedBeat (offset : Nat) : Statement (.intakeUnusedBeat offset) := of_decode _
theorem blockReport : Statement .blockReport := of_decode _
theorem shockEvent : Statement .shockEvent := of_decode _
theorem shkFall : Statement .shkFall := of_decode _
theorem trackLostEvent : Statement .trackLostEvent := of_decode _
theorem trackRegainedEvent : Statement .trackRegainedEvent := of_decode _
theorem tailCaptureEnd : Statement .tailCaptureEnd := of_decode _
theorem blockPeriodBoundary : Statement .blockPeriodBoundary := of_decode _
theorem deadlineExpiry : Statement .deadlineExpiry := of_decode _
theorem evaluationEnd : Statement .evaluationEnd := of_decode _
theorem spliceRetry : Statement .spliceRetry := of_decode _
theorem bridgeRetry : Statement .bridgeRetry := of_decode _
theorem alignmentEnd : Statement .alignmentEnd := of_decode _
theorem mergeFramesWritten : Statement .mergeFramesWritten := of_decode _
theorem mergeFlagMapWritten : Statement .mergeFlagMapWritten := of_decode _
theorem burstTake : Statement .burstTake := of_decode _
theorem burstComplete : Statement .burstComplete := of_decode _
theorem tick (tray : TrayLevel) : Statement (.tick tray) := of_decode _
theorem trayOpen : Statement .trayOpen := of_decode _
theorem trayClose : Statement .trayClose := of_decode _
theorem snapshotWriteEnd : Statement .snapshotWriteEnd := of_decode _
theorem supplyFallTaken (vmain : Nat) : Statement (.supplyFallTaken vmain) := of_decode _
theorem supplyRiseTaken (vmain : Nat) : Statement (.supplyRiseTaken vmain) := of_decode _
theorem firstSupplyCompare (vmain : Nat) : Statement (.firstSupplyCompare vmain) := of_decode _
theorem powerOnThresholdFall (vmain vbak : Nat) : Statement (.powerOnThresholdFall vmain vbak) := of_decode _
theorem powerOnDelayEnd (vmain : Nat) (straps : BitVec 2) : Statement (.powerOnDelayEnd vmain straps) := of_decode _
theorem vbakLow (vbak : Nat) : Statement (.vbakLow vbak) := of_decode _
theorem rstnAssert : Statement .rstnAssert := of_decode _
theorem rstnRelease (straps : BitVec 2) : Statement (.rstnRelease straps) := of_decode _

end Sys2Proof.Laws.NoWord
end

