-- ==== Sys2Proof/Tests/Slice0.lean ====
section
/-! SUPPORT. Tests: ill-formed terms, the spec's figures on one step, and for each statement with
hypotheses a state and operands that meet them. -/
namespace Sys2Proof.Tests
open Sys2Proof.Machine

/-! ### Small states -/

/-- The state a command gives (the state itself where it gives none). -/
def after (c : Instr) (s : State) : State :=
  match exec c s with
  | .next t => t
  | _ => s

/-- The state after reset with a ring of four slots, so that terms stay small. -/
def base : State := { State.reset with map := StreamMap.reset 4 }

/-- `base` in another recovery state. -/
def inPhase (p : RecoveryPhase) : State := base.onRc fun r => { r with phase := p }

/-- `base` with disc 7 loaded. -/
def withDisc : State := base.onRc fun r => { r with loaded := some 7 }

/-- A linked slot of a label, owned by segment 0. -/
def linkedSlot (l : Nat) : SlotDesc :=
  { SlotDesc.free with state := .linked, label := some l, trusted := true, owner := some 0, written := 588 }

/-- One segment of `n` frames from position 0. -/
def seg0 (n : Nat) (isOpen : Bool) : Segment :=
  { id := 0, start := 0, length := n, shift := 0, kind := .start, isOpen := isOpen }

/-- Disc 7 playing from position 0, block 0 linked in slot 0. -/
def playing (p : RecoveryPhase) : State :=
  ((inPhase p).onMap fun m =>
    { m with slots := [linkedSlot 0, .free, .free, .free], segs := [seg0 588 true], nextId := 1 }).onRc
      (fun r => { r with loaded := some 7, started := true, expected := some 1 }) |>.onPlay fun q =>
      { q with mode := .playing }

/-- A block of a label filling slot `n`, handed over with its flag map written. -/
def handing (n l : Nat) (s : State) : State :=
  (setSlot n { SlotDesc.free with state := .filling, label := some l, trusted := true, written := 588 } s).onIntake
    fun i => { i with phase := .handingOver, slot := some n }

/-- A port P read of `k` words of the play window, the main piece done. -/
def reading (k : Nat) (s : State) : State :=
  let q : ActiveRequest :=
    { isWrite := false, main := [], buffer := List.replicate k 0, plays := List.range k
      touchesIntake := false, held := false }
  s.onRouter fun r => { r with reqP := some q }

/-- HOLD_MARGIN as given. -/
def margin (k : Nat) (s : State) : State :=
  s.onCtl fun c => { c with params := { c.params with holdMargin := k } }

/-- The handed-over block of slot `n` comes from a re-read, or from a gap fetch. -/
def arrived (n : Nat) (a : Arrival) (s : State) : State := modSlot n (fun d => { d with arrival := a }) s

/-- The handed-over block of slot `n` has no trusted label. -/
def untrusted (n : Nat) (s : State) : State := modSlot n (fun d => { d with trusted := false }) s

/-! ### Ill-formed terms are refused -/

theorem test_wf_bad_command : (Instr.badCommand 7).wellFormed = false := by decide
theorem test_wf_parameter_gap : (Instr.parameterWordWrite 0x054 0 15).wellFormed = false := by decide
theorem test_wf_parameter_odd : (Instr.parameterWordWrite 0x002 0 15).wellFormed = false := by decide
theorem test_wf_read_none : (Instr.portRequestArrive ⟨.p, 0, .read 0⟩).wellFormed = false := by decide
theorem test_wf_read_nine : (Instr.portRequestArrive ⟨.p, 0, .read 9⟩).wellFormed = false := by decide
theorem test_wf_write_none : (Instr.portRequestArrive ⟨.d, 0, .write []⟩).wellFormed = false := by decide
theorem test_wf_frame_index : (Instr.intakeFrame 588 0 15 false).wellFormed = false := by decide
theorem test_wf_unused_offset : (Instr.intakeUnusedBeat 2352).wellFormed = false := by decide
theorem test_wf_unused_odd : (Instr.intakeUnusedBeat 2358).wellFormed = false := by decide
theorem test_wf_fall_level : (Instr.supplyFallTaken 3899).wellFormed = false := by decide
theorem test_wf_rise_level : (Instr.supplyRiseTaken 3899).wellFormed = false := by decide
theorem test_wf_first_level : (Instr.firstSupplyCompare 3899).wellFormed = false := by decide
theorem test_wf_threshold_level : (Instr.powerOnThresholdFall 3900 0).wellFormed = false := by decide
theorem test_wf_delay_level : (Instr.powerOnDelayEnd 3899 0).wellFormed = false := by decide
theorem test_wf_vbak_level : (Instr.vbakLow 2000).wellFormed = false := by decide

/-! ### The statements' hypotheses can be met -/

theorem test_witness_IdleCycleRunsDividers :
    let s := State.reset.onClock fun _ => { blockDiv := 451583, tickDiv := 32767 }
    s.pending = [] ∧ inReset s = false ∧ s.clock.blockDiv < 451584 ∧ s.clock.tickDiv < 32768 := by decide

theorem test_witness_ExecKeepsQueue : exec .shkFall base = .next (after .shkFall base) := rfl

theorem test_witness_EveryStepKeepsInvariant :
    let s := State.reset.onPlay fun q => { q with cursor := 588 }
    s.Inv ∧ step s = .next (clockCycle s) := by
  refine ⟨⟨⟨rfl, ⟨by decide, ⟨List.length_replicate, by decide, by decide⟩, by decide, by decide, ?_,
    by decide, ?_, by decide⟩, ⟨?_, by decide⟩, slotsOwned_replicate 512, trivial, distinct_of distinct_first
    (.inl rfl) fun i e he hv => ⟨e, he, hv, rfl⟩⟩, fun _ => rfl⟩, rfl⟩
  · exact ⟨by decide, by decide, by decide, by decide⟩
  · exact ⟨by decide, by decide⟩
  · unfold Params.inRange
    decide

theorem test_witness_FlagsStayThroughOtherCommands :
    exec .trayClose base = .next (after .trayClose base) ∧ base.ctl.flags = 0x8000 := ⟨rfl, rfl⟩

/-- Entry 0 valid, for disc 7. -/
def saved : State := base.onResume fun t => { t with
  entries := t.entries.modify 0 fun e => { e with valid := true, fingerprint := 7, frame := 588, tailCount := 8 } }

theorem test_witness_EntriesValidOnlyByWriteEnd :
    exec .shkFall saved = .next (after .shkFall saved) ∧ (resumeAt (after .shkFall saved) 0).valid = true :=
  ⟨rfl, by decide⟩

/-- The held reset, the latch clear. -/
def dark : State := (base.onSupply fun u => { u with held := true }).onResume fun t => { t with latch := false }

theorem test_witness_LatchClearsOnLowVbak :
    (base.onResume fun t => { t with onVbak := true }).resume.onVbak = true ∧ base.resume.onVbak = false ∧
    1999 < 2000 ∧ 3899 < 3900 ∧ base.supply.held = false ∧
    exec (.powerOnDelayEnd 3900 0) dark = .next (after (.powerOnDelayEnd 3900 0) dark) ∧
    dark.resume.latch = false ∧ (after (.powerOnDelayEnd 3900 0) dark).resume.latch = true :=
  ⟨rfl, rfl, by decide, by decide, rfl, rfl, rfl, by decide⟩

theorem test_witness_EnableAndAcknowledgeWords : inReset base = false ∧ (8 : BitVec 4) ≠ 0 := by decide

theorem test_witness_ParameterWordIsOnlyStaged :
    inReset base = false ∧ (1 : BitVec 4) ≠ 0 ∧ (0x050 : BitVec 10).toNat % 4 = 0 ∧
    (0x050 : BitVec 10).toNat ≤ 0x050 := by decide

theorem test_witness_CommandAndArgumentWords : inReset base = false ∧ Memory.wf base.mem = true := by decide

theorem test_witness_CaptureRecordHoldTable :
    inReset base = false ∧ 0x024 / 4 ≠ 8 ∧ 0x024 / 4 ≠ 11 ∧ 0x030 / 4 ≠ 8 ∧ 0x030 / 4 ≠ 11 := by decide

theorem test_witness_RegionsAreTheirBounds :
    ({ State.reset with router := Router.reset 3, ctl := Control.reset 3 } : State).parametersOk := by
  refine ⟨?_, by decide⟩
  unfold Params.inRange
  decide

/-- A port P read of 8 words that wraps at the top of the space. -/
def wrapping : PortRequest := { port := .p, addr := 0xFFFFF2, transfer := .read 8 }

theorem test_witness_ArrivingRequestIsClassified :
    inReset base = false ∧ wrapping.transfer.wellFormed = true ∧ requestAt base wrapping.port = none ∧
    base.router.waiting = [] ∧ inReset (base.onPins fun p => { p with rstn := true }) = true := by decide

theorem test_witness_ProtectedBeatIsDropped :
    inReset base = false ∧ regionOf base 0 = .ring ∧ regionOf base 0xFFD000 = .play ∧
    regionOf base 0xFFDFFC = .play ∧ regionOf base 0xFFF7FC = .status ∧ regionOf base 0xFFF3FC = .parameter := by
  decide

/-- The only beat of a port P read from outside every region. -/
def oneBeat : Beat :=
  { place := 0, addr := 0x200000, region := .elsewhere, data := { data := 0, enables := 0, ers := false } }

/-- Port P reads one word of memory. -/
def readsMemory : State :=
  let q : ActiveRequest :=
    { isWrite := false, main := [oneBeat], buffer := [0], plays := [], touchesIntake := false, held := false }
  (base.onRouter fun r => { r with reqP := some q }).onMem fun _ => [(0x200001, 5)]

theorem test_witness_GrantReadsMemoryForPortP :
    inReset readsMemory = false ∧ readsMemory.router.waiting = [] ∧
    (readsMemory.router.reqP.map fun r => (r.isWrite, r.main, r.plays, r.buffer)) =
      some (false, [oneBeat], [], [0]) ∧
    oneBeat.place = 0 ∧ oneBeat.region ≠ .play ∧ oneBeat.region ≠ .status ∧
    enginePresents readsMemory = false := by decide

/-- The command word is to be written zero, and nothing else waits. -/
def zeroWrites : State := base.onCtl fun c => { c with zeroWrite := true }

/-- Port D reads one word of memory. -/
def readsAtD : State := readsMemory.onRouter fun r => { r with reqD := r.reqP, reqP := none }

/-- Port P, or port D, writes one word of memory. -/
def oneWrite (atP : Bool) : State :=
  let q : ActiveRequest :=
    { isWrite := true, main := [oneBeat], buffer := [0], plays := [], touchesIntake := false, held := false }
  base.onRouter fun r => if atP then { r with reqP := some q } else { r with reqD := some q }

theorem test_witness_GrantOfTheZeroWrite :
    inReset zeroWrites = false ∧ zeroWrites.router.waiting = [] ∧ zeroWrites.router.reqP = none ∧
    zeroWrites.router.reqD = none ∧ zeroWrites.play.burst = none ∧ engineClients zeroWrites = [.control] ∧
    (∀ s ∈ [oneWrite true, oneWrite false, readsAtD],
      inReset s = false ∧ s.router.waiting = [] ∧ s.arb.waitCount ≠ 4 ∧ s.play.burst = none ∧
      s.intake.held = [] ∧
      ∀ r ∈ [s.router.reqP, s.router.reqD].filterMap id, r.main = [oneBeat] ∧ r.plays = [] ∧
        r.touchesIntake = false ∧ r.opening = false ∧ r.buffer.length = 1) ∧
    (oneWrite true).router.reqP.map (·.isWrite) = some true ∧
    (oneWrite false).router.reqP = none ∧ (oneWrite false).router.reqD.map (·.isWrite) = some true ∧
    readsAtD.router.reqP = none ∧ readsAtD.router.reqD.map (·.isWrite) = some false ∧
    oneBeat.region = .elsewhere ∧ oneBeat.place = 0 := by
  decide

/-- A burst of one fill frame at port P, taken whole, with nothing to read. -/
def fillTaken (w : BurstWord) (m : PlayMode) : State :=
  (reading 1 base).onPlay fun q => { q with mode := m, burst := some { mode := m, todo := 0, words := [w] } }

/-- A play burst whose take waits. -/
def takeWaits : State :=
  (reading 1 base).onPlay fun q => { q with burst := some { mode := .playing, todo := 1, words := [] } }

theorem test_witness_ArbiterOrder :
    (enginePresents (zeroWrites.onArb fun a => { a with waitCount := 4 }) = true) ∧
    (enginePresents readsMemory = false ∧ portPPresents readsMemory = true) ∧
    (enginePresents takeWaits = false ∧ portPPresents takeWaits = false ∧ portPRequesting takeWaits = true) ∧
    (let s := (takeWaits.onCtl fun c => { c with zeroWrite := true }).onArb fun a => { a with waitCount := 3 }
     enginePresents s = true ∧ s.arb.waitCount ≠ 4 ∧ portPPresents s = false ∧ portPRequesting s = true) ∧
    (enginePresents readsAtD = false ∧ portPPresents readsAtD = false ∧ portPRequesting readsAtD = false ∧
      portDPresents readsAtD = true) ∧
    (enginePresents zeroWrites = true ∧ portPPresents zeroWrites = false ∧ portDPresents zeroWrites = false ∧
      zeroWrites.arb.waitCount ≤ 4) := by decide

/-- STARTING, the allocation pointer at the last slot. -/
def lastSlot : State := (inPhase .starting).onMap fun m => { m with allocPtr := 3 }

/-- MATCHING with an accepted decision that waits, and one slot FREE. -/
def lastFree (w : Wait) : State :=
  ((inPhase .matching).onRc fun r => { r with wait := w, run := [⟨0, 10⟩], p := 5880 }).onMap fun m =>
    { m with slots := [linkedSlot 10, linkedSlot 1, linkedSlot 2, .free] }

theorem test_witness_HeaderAllocatesSlot :
    inReset lastSlot = false ∧ lastSlot.rc.phase ≠ .parked ∧ lastSlot.rc.phase ≠ .lost ∧
    lastSlot.intake.phase = .none ∧ findFree lastSlot = some 3 ∧
    ((after (.intakeHeader 0x80000005 15) lastSlot).intake.phase = .filling ∧
      (after (.intakeHeader 0x80000005 15) lastSlot).intake.slot = some 3 ∧
      3 < (after (.intakeHeader 0x80000005 15) lastSlot).map.slots.length) ∧
    (∀ k ∈ [2, 3], let s := margin k (inPhase .streaming)
      inReset s = false ∧ s.rc.phase = .streaming ∧ s.intake.phase = .none ∧ findFree s = some 0 ∧
      s.intake.hold = false ∧ (freeCount s ≤ s.ctl.params.holdMargin + 1 ↔ k = 3)) ∧
    (∀ w ∈ [Wait.start 1, .splice 0], let s := lastFree w
      inReset s = false ∧ s.rc.phase = .matching ∧ decisionWaits s.rc.wait = true ∧
      s.intake.phase = .none ∧ findFree s = some 3 ∧ freeCount s = 1 ∧ ∀ b ∈ s.rc.run, b.slot ≠ 3) := by
  decide +kernel

/-- STREAMING with no slot FREE, the last block refused. -/
def fullRing : State :=
  ((inPhase .streaming).onMap fun m => { m with slots := List.replicate 4 (linkedSlot 0) }).onIntake
    fun i => { i with phase := .refused }

/-- The same refusal with the last slot FREE since. -/
def refusing : State := lastSlot.onIntake fun i => { i with phase := .refused }

theorem test_witness_HeaderRefusedWithoutSlot :
    inReset fullRing = false ∧ fullRing.rc.phase ≠ .parked ∧ fullRing.rc.phase ≠ .lost ∧
    fullRing.intake.phase = .refused ∧ findFree fullRing = none ∧ 587 < 588 ∧
    (inReset refusing = false ∧ refusing.rc.phase ≠ .parked ∧ refusing.rc.phase ≠ .lost ∧
      refusing.intake.phase = .refused ∧ findFree refusing = some 3) := by decide

theorem test_witness_MisusedIntakeBeats :
    inReset base = false ∧ base.intake.phase ≠ .handingOver ∧ (7 : BitVec 4) ≠ 15 ∧
    (2356 % 4 = 0 ∧ 4092 % 4 = 0) := by decide

/-- A block being filled in slot 0. -/
def filling : State := after (.intakeHeader 0x80000005 15) (inPhase .starting)

theorem test_witness_FrameBeatIsWritten :
    inReset filling = false ∧ 587 < 588 ∧ (1 : BitVec 4) ≠ 0 ∧ filling.rc.phase ≠ .parked ∧
    filling.intake.phase = .filling ∧ filling.intake.slot = some 0 ∧ 0 < filling.map.slots.length ∧
    countMarks (setMark filling.intake.written 587 true) ≠ 588 ∧ Memory.wf filling.mem = true ∧
    countMarks (setMark (setMark (BitVec.allOnes 588) 587 false) 587 true) = 588 := by
  decide +kernel

theorem test_witness_FrameBeatIsDropped :
    inReset base = false ∧ 587 < 588 ∧ base.intake.phase ≠ .handingOver ∧
    (base.rc.phase = .parked ∨ base.intake.phase = .none) ∧
    ((inPhase .starting).rc.phase ≠ .parked ∧ (inPhase .starting).intake.phase = .none) ∧
    (fullRing.rc.phase ≠ .parked ∧ fullRing.intake.phase = .refused) := by decide

theorem test_witness_HandOffHoldsIntakeBeats :
    inReset (handing 0 5 base) = false ∧ (handing 0 5 base).intake.phase = .handingOver ∧ 587 < 588 ∧
    2356 % 4 = 0 ∧ 4092 % 4 = 0 := by decide

/-- STARTING at frame 588 of block 1, block 1 handed over in slot 3. -/
def headDue : State := handing 3 1 ((inPhase .starting).onRc fun r => { r with startFrame := 1175 })

/-- BRIDGING with P at the last frame of block 1, block 1 handed over in slot 3. -/
def bridgeDue (segs : List Segment) : State :=
  arrived 3 .reread (handing 3 1 (((inPhase .bridging).onRc fun r => { r with p := 1175 }).onMap
    fun m => { m with segs := segs, nextId := 1 }))

theorem test_witness_BridgeHead :
    (∀ g ∈ [[], [seg0 1175 false], List.replicate 16 (seg0 588 false)],
      (bridgeDue g).reports 3 ∧ (bridgeDue g).rc.phase = .bridging ∧ (bridgeDue g).rc.wait = .none ∧
      (bridgeDue g).rc.run = [] ∧ (slotAt (bridgeDue g) 3).label = some 1 ∧
      (slotAt (bridgeDue g) 3).trusted = true ∧ (slotAt (bridgeDue g) 3).stale = false ∧
      (slotAt (bridgeDue g) 3).arrival = .reread ∧ (bridgeDue g).rc.p / 588 ≤ 1 ∧
      openSeg (bridgeDue g) = none ∧ ((lastSeg (bridgeDue g)).all fun x => x.stop ≤ max 1175 588) = true ∧
      (∀ d ∈ (bridgeDue g).map.slots, d.owner ≠ some (freshId (bridgeDue g).map))) ∧
    (bridgeDue [seg0 1175 false]).map.segs.length < 16 ∧
    (bridgeDue (List.replicate 16 (seg0 588 false))).map.segs.length = 16 := by
  unfold State.reports
  decide

theorem test_witness_ReportFormsStartHead :
    inReset headDue = false ∧ headDue.rc.phase = .starting ∧ headDue.rc.capture = none ∧
    headDue.intake.phase = .handingOver ∧ headDue.intake.flagJobs = [] ∧ headDue.intake.slot = some 3 ∧
    headDue.intake.held = [] ∧ headDue.intake.hold = false ∧ 3 < headDue.map.slots.length ∧
    headDue.map.segs = [] ∧ headDue.map.nextId < 32 ∧ headDue.gaps.entries = [] ∧
    (∀ d ∈ headDue.map.slots, d.owner = none) ∧ (slotAt headDue 3).label = some 1 ∧
    (slotAt headDue 3).trusted = true ∧ (slotAt headDue 3).stale = false ∧
    headDue.rc.startFrame / 588 ≤ 1 := by decide

/-- HOLDING with block 1 handed over in slot 1. -/
def appendDue : State := handing 1 1 (playing .holding)

theorem test_witness_ReportAppendsInHolding :
    inReset appendDue = false ∧ appendDue.rc.phase = .holding ∧ appendDue.rc.capture = none ∧
    appendDue.intake.phase = .handingOver ∧ appendDue.intake.flagJobs = [] ∧
    appendDue.intake.slot = some 1 ∧ appendDue.intake.held = [] ∧ 1 < appendDue.map.slots.length ∧
    openSeg appendDue = some (seg0 588 true) ∧ appendDue.rc.expected = some 1 ∧
    (slotAt appendDue 1).label = some 1 ∧ (slotAt appendDue 1).stale = false ∧
    (slotAt appendDue 1).state = .filling ∧ ownsLabel appendDue 0 1 1 = false ∧
    ((1 * 588 : Nat) : Int) = (seg0 588 true).stop + (seg0 588 true).shift ∧
    freeCount appendDue < appendDue.ctl.params.holdMargin + 8 := by decide

/-- STREAMING with a block of a label handed over in slot 1, two slots FREE. -/
def streamDue (l : Nat) : State := handing 1 l (playing .streaming)

/-- The same with the block a scratch block, its first position one block ahead of the cursor. -/
def scratchDue : State :=
  modSlot 1 (fun d => { d with erasures := 13 }) (streamDue 1) |>.onCtl fun c =>
    { c with params := { c.params with gapLead := 1 } }

theorem test_witness_ReportsInStreaming :
    (∀ s ∈ [margin 1 (streamDue 1), margin 2 (streamDue 1), untrusted 1 (streamDue 7), scratchDue, streamDue 7],
      s.reports 1 ∧ s.rc.phase = .streaming ∧ (slotAt s 1).stale = false ∧
      openSeg s = some (seg0 588 true) ∧ s.rc.expected = some 1 ∧ (slotAt s 1).state = .filling ∧
      ownsLabel s 0 1 1 = false ∧ ((1 * 588 : Nat) : Int) = (seg0 588 true).stop + (seg0 588 true).shift ∧
      s.gaps.entries = []) ∧
    (∀ k ∈ [1, 2], let s := margin k (streamDue 1)
      (slotAt s 1).label = some 1 ∧ (slotAt s 1).erasures ≤ s.ctl.params.gapLimit ∧
      (freeCount s ≤ s.ctl.params.holdMargin ↔ k = 2)) ∧
    (slotAt (untrusted 1 (streamDue 7)) 1).trusted = false ∧
    ((slotAt scratchDue 1).label = some 1 ∧ scratchDue.ctl.params.gapLimit < (slotAt scratchDue 1).erasures ∧
      scratchDue.quality.level = .normal ∧ scratchDue.quality.counter + 8 ≤ 255 ∧
      scratchDue.play.cursor + scratchDue.ctl.params.gapLead * 588 ≤ (seg0 588 true).stop) ∧
    ((slotAt (streamDue 7) 1).label = some 7 ∧ (slotAt (streamDue 7) 1).trusted = true) := by
  unfold State.reports
  decide

/-- A stale block handed over in SEEKING, and a block handed over in LOST. -/
def staleDue : State := modSlot 0 (fun d => { d with stale := true }) (handing 0 5 (inPhase .seeking))

theorem test_witness_ReportDiscardsStaleBlock :
    (∀ s ∈ [staleDue, handing 0 5 (inPhase .lost)],
      inReset s = false ∧ s.rc.capture = none ∧ s.rc.phase ≠ .streaming ∧ s.intake.phase = .handingOver ∧
      s.intake.flagJobs = [] ∧ s.intake.slot = some 0 ∧ s.intake.held = [] ∧ s.intake.hold = false ∧
      (slotAt s 0).gapMark = false ∧ ((slotAt s 0).stale = true ∨ s.rc.phase = .lost)) := by decide

/-- SEEKING with P at block 3, K_eff 16 and SPAN 588, a re-read block handed over in slot 1. -/
def seekDue (l : Nat) : State :=
  arrived 1 .reread (handing 1 l ((inPhase .seeking).onRc fun r => { r with p := 1764, kEff := 16, span := 588 }))

theorem test_witness_ReportsInSeeking :
    (∀ s ∈ [untrusted 1 (seekDue 2), seekDue 0, seekDue 1, seekDue 4, seekDue 5],
      s.reports 1 ∧ s.rc.phase = .seeking ∧ (slotAt s 1).stale = false ∧ (slotAt s 1).arrival = .reread ∧
      (slotAt s 1).label.isSome = true ∧ (slotAt s 1).gapMark = false ∧ (slotAt s 1).state = .filling ∧
      s.rc.run = [] ∧ freeCount s ≠ 0 ∧ s.me.activity = .idle ∧
      (s.rc.p - s.rc.kEff - s.rc.span) / 588 = 1 ∧ s.rc.p / 588 + 1 = 4) ∧
    (slotAt (untrusted 1 (seekDue 2)) 1).trusted = false ∧ (slotAt (seekDue 4) 1).trusted = true := by
  unfold State.reports
  decide

/-- MATCHING with block 1 scored in slot 0, the run short of block 3's end, a block handed over in slot 1,
and the other slots FREE or linked. -/
def matchDue (l : Nat) (others : SlotDesc) : State :=
  let a : Attempt :=
    { p := 1764, kEff := 16, span := 588, runStart := 588, lowest := none, next := 0, best := none
      scoredTo := some 1175 }
  let first : SlotDesc := { linkedSlot 1 with state := .staged, owner := none }
  let s := (inPhase .matching).onRc fun r => { r with p := 1764, kEff := 16, span := 588, run := [⟨0, 1⟩] }
  let s := s.onMap fun m => { m with slots := [first, .free, others, others] }
  arrived 1 .reread (handing 1 l (s.onMe fun m => { m with attempt := some a }))

theorem test_witness_ReportsInMatching :
    (∀ s ∈ [matchDue 2 .free, matchDue 3 .free, untrusted 1 (matchDue 7 .free), matchDue 2 (linkedSlot 0)],
      s.reports 1 ∧ s.rc.phase = .matching ∧ (slotAt s 1).stale = false ∧ (slotAt s 1).arrival = .reread ∧
      (slotAt s 1).label.isSome = true ∧ (slotAt s 1).gapMark = false ∧ (slotAt s 1).state = .filling ∧
      s.rc.wait = .none ∧ s.rc.run.getLast? = some ⟨0, 1⟩ ∧ (1 + 1) * 588 < s.rc.p + s.rc.span ∧
      s.me.activity = .idle ∧ s.me.attempt.map (·.scoredTo) = some (some 1175)) ∧
    freeCount (matchDue 2 .free) ≠ 0 ∧ (slotAt (matchDue 3 .free) 1).trusted = true ∧
    freeCount (matchDue 2 (linkedSlot 0)) = 0 ∧ (1 + 2) * 588 < 1764 + 588 := by
  unfold State.reports
  decide

/-- GAPFETCH for block 10 of slot 0, with blocks staged or none, a block handed over in slot 1. -/
def fetchDue (l : Nat) (staged : List StagedBlock) : State :=
  arrived 1 .gapFetch (handing 1 l ((inPhase .gapFetch).onGaps fun _ =>
    { entries := [{ label := 10, slot := 0, retries := 0 }]
      fetch := some
        { phase := .fetching, label := 10, slot := 0, staged := staged, late := false, abandoned := false } }))

theorem test_witness_ReportsInGapFetch :
    (∀ s ∈ [untrusted 1 (fetchDue 9 []), fetchDue 8 [], fetchDue 9 [⟨2, 9⟩], untrusted 1 (fetchDue 9 [⟨2, 11⟩]),
        fetchDue 9 [], fetchDue 10 [⟨2, 9⟩], fetchDue 11 [], fetchDue 12 [⟨2, 9⟩]],
      s.reports 1 ∧ s.rc.phase = .gapFetch ∧ (slotAt s 1).stale = false ∧ (slotAt s 1).arrival = .gapFetch ∧
      (slotAt s 1).label.isSome = true ∧ (slotAt s 1).gapMark = false ∧
      (s.gaps.fetch.all fun r => r.phase == .fetching && r.label == 10 && gapPresent s r) = true ∧
      s.gaps.fetch.isSome = true) ∧
    (slotAt (untrusted 1 (fetchDue 9 [⟨2, 11⟩])) 1).trusted = false ∧
    (slotAt (fetchDue 12 [⟨2, 9⟩]) 1).trusted = true := by
  unfold State.reports
  decide

theorem test_witness_LineEventBreaksStream :
    (∀ p ∈ [RecoveryPhase.streaming, .holding, .seeking, .matching, .gapFetch],
      inReset (playing p) = false ∧ (playing p).rc.phase = p ∧ (playing p).rc.capture = none ∧
      (playing p).intake.held = []) := by decide

theorem test_witness_LineEventsOnlyMoveLevels :
    (∀ p ∈ [RecoveryPhase.parked, .starting, .lost, .bridging],
      inReset (inPhase p) = false ∧ (inPhase p).rc.capture = none ∧ (inPhase p).rc.phase = p) := by decide

/-- LOST by a lost track, bridge-pending or not. -/
def lostTrack (b : Bool) : State :=
  (inPhase .lost).onRc fun r => { r with cause := some .trackLost, bridgePending := b, p := 5880 }

theorem test_witness_TrackRegainedLeavesLost :
    (∀ b, inReset (lostTrack b) = false ∧ (lostTrack b).rc.phase = .lost ∧
      (lostTrack b).rc.cause = some .trackLost ∧ (lostTrack b).rc.capture = none ∧
      (lostTrack b).rc.bridgePending = b) := by decide

/-- A capture of one gathered frame, in LOST by a shock or for a return. -/
def captured (p : RecoveryPhase) (returns : Bool) : State :=
  (inPhase p).onRc fun r => { r with
    cause := some .shock, p := 5880
    capture := some { items := [{ pos := 5879, source := none, value := some ⟨1, false⟩ }], returns := returns } }

theorem test_witness_TailCaptureEndProceeds :
    (∀ s ∈ [captured .holding true, captured .lost false],
      inReset s = false ∧ (s.rc.capture.all fun c => c.items.all fun it => it.value.isSome) = true ∧
      s.rc.capture.isSome = true ∧ s.rc.deferred = [] ∧ s.me.attempt = none) ∧
    (captured .holding true).rc.capture.map (·.returns) = some true ∧
    (captured .lost false).rc.phase = .lost ∧ (captured .lost false).rc.cause = some .shock ∧
    (captured .lost false).rc.bridgePending = false := by decide

/-- An evaluation up to position e ends in MATCHING. -/
def evaluated (e n : Nat) (run : List StagedBlock) : State :=
  let a : Attempt :=
    { p := 5880, kEff := 16, span := 588, runStart := 8, lowest := none, next := 0
      best := some { offset := 0, mean := 5, count := 16 }, scoredTo := some e }
  ((inPhase .matching).onRc fun r => { r with p := 5880, retry := n, run := run }).onMe
    fun m => { m with activity := .scoring, attempt := some a }

/-- SEEKING with a deadline of `n`. -/
def seekingAt (n : Nat) : State := (inPhase .seeking).onRc fun r => { r with deadline := n, p := 5880 }

theorem test_witness_BoundaryCountsDeadline :
    inReset (seekingAt 1) = false ∧ (seekingAt 1).rc.phase = .seeking ∧ (seekingAt 1).rc.deadline = 1 ∧
    (seekingAt 1).me.activity ≠ .scoring ∧ (seekingAt 0).rc.deadline ≠ 1 ∧
    (let s := (evaluated 5879 0 []).onRc fun r => { r with deadline := 1 }
     s.rc.phase = .matching ∧ s.rc.deadline = 1 ∧ s.me.activity = .scoring) ∧
    base.rc.phase = .parked := by decide

/-- A deadline at 0: with `n` retries made, in a phase. -/
def expired (p : RecoveryPhase) (n : Nat) : State :=
  (inPhase p).onRc fun r => { r with deadline := 0, retry := n, p := 5880 }

/-- GAPFETCH, one block staged, the deadline at 0, the entry in the table or gone. -/
def fetchingGap (present : Bool) : State :=
  (expired .gapFetch 0).onGaps fun _ =>
    { entries := if present then [{ label := 10, slot := 0, retries := 0 }] else []
      fetch := some
        { phase := .fetching, label := 10, slot := 0, staged := [⟨1, 9⟩], late := false, abandoned := false } }

theorem test_witness_DeadlineExpiryOutcome :
    (∀ s ∈ [expired .seeking 2, expired .seeking 3, expired .bridging 3],
      inReset s = false ∧ s.rc.deadline = 0 ∧ s.rc.run = [] ∧
      (s.rc.phase = .seeking ∨ s.rc.phase = .bridging)) ∧
    (expired .seeking 2).rc.retry < (expired .seeking 2).ctl.params.retryLimit ∧
    (expired .seeking 3).ctl.params.retryLimit ≤ (expired .seeking 3).rc.retry ∧
    ((expired .matching 2).rc.phase = .matching ∧ (expired .matching 2).me.activity ≠ .scoring) ∧
    (∀ b : Bool, let s := fetchingGap b
      inReset s = false ∧ s.rc.deadline = 0 ∧ s.rc.phase = .gapFetch ∧ s.gaps.fetch.isSome = true ∧
      (s.gaps.fetch.all fun r => r.phase == .fetching && r.staged != [] && gapPresent s r == b) = true) := by
  decide

/-- An evaluation that ends with offset d accepted, block 10 staged in slot 0. -/
def accepted (d : Int) (segs : List Segment) : State :=
  let s := evaluated 6467 0 [⟨0, 10⟩]
  (s.onMe fun m => { m with attempt := m.attempt.map fun a =>
    { a with best := some { offset := d, mean := 4, count := 16 } } }).onMap fun m =>
    { m with
      slots := [{ linkedSlot 10 with state := .staged, owner := none }, .free, .free, .free], segs := segs
      nextId := 1 }

theorem test_witness_EvaluationEndDecides :
    (∀ s ∈ [evaluated 6467 2 [], evaluated 6467 3 [], evaluated 5879 0 [⟨0, 9⟩]],
      inReset s = false ∧ s.me.activity = .scoring ∧ s.me.fetch = [] ∧ s.me.attempt.isSome = true) ∧
    ((evaluated 6467 2 []).me.attempt.all fun a => a.p + a.span ≤ 6467 + 1 ∧ a.scoredTo = some 6467 ∧
      a.best.all fun b => (evaluated 6467 2 []).ctl.params.tol < b.mean) = true ∧
    (evaluated 6467 2 []).rc.retry < (evaluated 6467 2 []).ctl.params.retryLimit ∧
    (evaluated 6467 3 []).ctl.params.retryLimit ≤ (evaluated 6467 3 []).rc.retry ∧
    ((evaluated 5879 0 [⟨0, 9⟩]).me.attempt.all fun a => 5879 + 1 < a.p + a.span ∧
      a.scoredTo = some 5879) = true ∧
    runEnd (evaluated 5879 0 [⟨0, 9⟩]).rc.run = some 5879 ∧
    (let s := accepted 0 []
     inReset s = false ∧ s.me.activity = .scoring ∧ s.me.fetch = [] ∧
      s.me.attempt.map (fun a => (a.p + a.span, a.scoredTo)) = some (6468, some 6467) ∧
      (s.me.attempt.bind (·.best)).map (fun b => (b.offset, b.mean)) = some (0, 4) ∧
      s.ctl.params.tol = 4 ∧ runEnd s.rc.run = some 6467 ∧ s.map.segs.length < 16 ∧ freeCount s ≠ 0) ∧
    (accepted 0 (List.replicate 16 (seg0 588 false))).map.segs.length = 16 ∧
    (let s := accepted 0 (List.replicate 16 (seg0 5880 false))
     s.map.segs.length = 16 ∧ s.rc.origin ≠ some .resume ∧ lastSeg s = some (seg0 5880 false) ∧
      mergesWith (seg0 5880 false) s.rc.p 0 = true) ∧
    runEnd (accepted 588 []).rc.run = some 6467 ∧ 6467 < (accepted 588 []).rc.p + 588 := by decide

/-- The segment a decided offset forms, and the one it extends. -/
theorem test_witness_formed_segments :
    (accepted 0 []).offersSegment 5880 0 ∧ (accepted 0 []).rc.origin ≠ some .resume ∧
    lastSeg (accepted 0 []) = none ∧
    (let g : Segment := { seg0 5880 false with id := 3 }
     let s := accepted 0 [g]
     s.rc.origin ≠ some .resume ∧ lastSeg s = some g ∧ mergesWith g 5880 0 = true ∧ s.offersExtension g) := by
  refine ⟨⟨nofun, by decide, by decide, ⟨⟨0, 10⟩, by decide, by decide⟩⟩, by decide, rfl, by decide, rfl, by decide,
    by decide, ⟨⟨0, 10⟩, by decide, by decide⟩⟩

/-- MATCHING with a splice that waits for the list, and BRIDGING with a head that waits. -/
def waits (p : RecoveryPhase) (w : Wait) : State :=
  ((inPhase p).onRc fun r => { r with wait := w, run := [⟨0, 10⟩], p := 5880 }).onMap
    fun m => { m with retireReport := true }

theorem test_witness_RetryFormsSegment :
    (∀ s ∈ [waits .matching (.splice 3), waits .bridging .bridge],
      inReset s = false ∧ s.map.retireReport = true ∧ s.map.segs.length < 16 ∧ s.rc.run ≠ []) ∧
    ((waits .matching (.splice 3)).rc.wait = .splice 3 ∧ (waits .matching (.splice 3)).rc.phase = .matching) ∧
    ((waits .bridging .bridge).rc.wait = .bridge ∧ (waits .bridging .bridge).rc.phase = .bridging) := by
  decide

/-- An alignment or merge of slot 0, one of its two marked frames replaced. -/
def aligned (g : AlignStage) (act : Activity) : State :=
  let a : Align :=
    { stage := g, ring := 0, label := 10, slot := 0, blocks := [⟨1, 9⟩], k := 8, span := 588, tol := 4, marks := 3
      first := 0, reference := [], next := 0, best := some { offset := 0, mean := 4, count := 8 }
      unscored := false, targets := [], replaced := 1, writes := [], newMarks := 2, jobs := [] }
  let d : SlotDesc := { linkedSlot 10 with erasures := 13, gapMark := true }
  (((inPhase .gapFetch).onMe fun m => { m with activity := act, align := some a }).onMap fun m =>
    { m with slots := [d, .free, .free, .free], segs := [seg0 6468 true] }).onGaps fun _ =>
      { entries := [{ label := 10, slot := 0, retries := 0 }]
        fetch := some
          { phase := .merging, label := 10, slot := 0, staged := [⟨1, 9⟩], late := false, abandoned := false } }

theorem test_witness_AlignmentEndBeginsMerge :
    let s := aligned .scored .aligning
    inReset s = false ∧ s.me.activity = .aligning ∧
    (s.me.align.all fun a => a.stage == .scored && !a.unscored && a.best.all fun b => b.mean ≤ a.tol) = true ∧
    (s.me.align.bind (·.best)).isSome = true := by decide

/-- The scored alignment with no good run in the scratched block, or with no candidate, its entry at a
number of retries. -/
def poorlyAligned (unscored : Bool) (retries : Nat) : State :=
  ((aligned .scored .aligning).onMe fun m =>
    { m with align := m.align.map fun a => { a with unscored := unscored, best := none } }).onGaps fun g =>
      { g with entries := [{ label := 10, slot := 0, retries := retries }] }

theorem test_witness_AlignmentWithoutCandidate :
    (∀ s ∈ [poorlyAligned true 0, poorlyAligned false 2, poorlyAligned false 3],
      inReset s = false ∧ s.me.activity = .aligning ∧ s.me.attempt = none ∧
      (s.me.align.all fun a => a.stage == .scored && a.best == none && a.slot == 0) = true ∧
      s.me.align.isSome = true ∧ s.gaps.fetch.isSome = true ∧
      (s.gaps.fetch.all fun r => r.slot == 0 && !r.abandoned && gapPresent s r &&
        r.staged.all fun b => b.slot != 0 && !(slotAt s b.slot).gapMark) = true ∧
      s.ctl.params.gapLimit < (slotAt s 0).erasures ∧ s.quality.counter + 8 ≤ 255 ∧ s.rc.phase = .gapFetch) ∧
    (poorlyAligned true 0).me.align.map (·.unscored) = some true ∧
    (poorlyAligned false 2).me.align.map (·.unscored) = some false ∧
    gapRetries (poorlyAligned false 2) 0 < (poorlyAligned false 2).ctl.params.retryLimit ∧
    (poorlyAligned false 3).ctl.params.retryLimit ≤ gapRetries (poorlyAligned false 3) 0 := by decide

/-- R84, R86: without a good run d is 0, so the staged block below the gap label replaces none; at an offset
of one block down it holds both marked frames. -/
theorem test_alignment_targets :
    (after .alignmentEnd (poorlyAligned true 0)).me.align.map (fun a => (a.stage, a.targets)) =
      some (.mergeWrite, []) ∧
    (after .alignmentEnd ((aligned .scored .aligning).onMe fun m => { m with align := m.align.map fun a =>
      { a with best := some { offset := -588, mean := 4, count := 8 } } })).me.align.map
        (fun a => (a.stage, a.targets)) = some (.mergeMarks, [0, 1]) := by decide +kernel

theorem test_witness_MergeTakeIsGranted :
    let s := aligned .mergeWrite .merging
    inReset s = false ∧ s.me.activity = .merging ∧ s.me.align.isSome = true ∧
    (s.me.align.all fun a => a.stage == .mergeWrite && a.writes == [] && a.replaced != 0 && a.slot == 0) = true ∧
    s.gaps.fetch.isSome = true ∧
    (s.gaps.fetch.all fun r => !r.late && !r.abandoned && gapPresent s r) = true ∧
    0 < s.map.slots.length := by decide

theorem test_witness_MergedFlagMapRepairsGap :
    let s := aligned .flagMap .merging
    inReset s = false ∧ s.me.align.isSome = true ∧
    (s.me.align.all fun a => a.stage == .flagMap && a.jobs == [] && a.slot == 0 && a.replaced == 1) = true ∧
    s.gaps.fetch.isSome = true ∧
    (s.gaps.fetch.all fun r => gapPresent s r && r.slot == 0 &&
      r.staged.all fun b => b.slot != 0 && !(slotAt s b.slot).gapMark) = true ∧
    0 < s.map.slots.length ∧ s.me.attempt = none ∧
    (slotAt s 0).erasures - 1 ≤ s.ctl.params.gapLimit := by decide

/-- A quality counter at `n`, in its state. -/
def counterAt (n : Nat) (l : QualityLevel) : State :=
  base.onQuality fun q => { q with counter := n, level := l }

theorem test_witness_QualityFollowsReports :
    (∀ s ∈ [counterAt 247 (levelOf 247), counterAt 248 (levelOf 248), counterAt 0 (levelOf 0)],
      s.quality.counter ≤ 255 ∧ s.quality.cleanRun < 128 ∧ s.quality.level = levelOf s.quality.counter ∧
      s.quality.level ≠ .abandon ∧ s.ctl.params.gapLimit < 13) ∧
    (let s := counterAt 255 .abandon
     s.quality.counter ≤ 255 ∧ s.quality.cleanRun < 128 ∧ s.quality.level = .abandon) ∧
    (let s := (aligned .flagMap .merging).onQuality fun q => { q with counter := 248, level := .degraded }
     s.quality.cleanRun < 128 ∧ s.quality.level = levelOf s.quality.counter ∧ s.gaps.fetch.isSome = true ∧
      (s.gaps.fetch.all fun r => !r.abandoned && gapPresent s r) = true) := by decide

theorem test_witness_BurstTakenWithoutServes :
    (∀ m ∈ [PlayMode.stopped, .paused, .playing],
      let s := (reading 1 base).onPlay fun q => { q with mode := m }
      inReset s = false ∧ s.router.waiting = [] ∧ (s.router.reqP.all fun r => r.plays != []) = true ∧
      s.router.reqP.isSome = true ∧ s.play.burst = none ∧ s.ctl.applyPending = false ∧
      s.play.mode = m ∧ s.lead = 0) := by decide

/-- STREAMING with a segment of two blocks buffered, playing at its second frame. -/
def serving : State :=
  (reading 1 (inPhase .streaming)).onMap (fun m =>
    { m with slots := [linkedSlot 0, linkedSlot 1, .free, .free], segs := [seg0 1176 false] })
    |>.onPlay fun q => { q with mode := .playing, cursor := 1 }

theorem test_witness_BurstTakesOneServe :
    inReset serving = false ∧ serving.router.waiting = [] ∧
    serving.router.reqP.map (·.plays) = some [0] ∧ serving.play.burst = none ∧
    serving.play.mode = .playing ∧ serving.ctl.applyPending = false ∧ serving.rc.phase = .streaming ∧
    serving.intake.hold = false ∧ serving.map.segs = [seg0 1176 false] ∧ 0 ≤ serving.play.cursor ∧
    serving.play.cursor + 1 < (seg0 1176 false).stop ∧
    locate serving (seg0 1176 false) serving.play.cursor = some (0, 1) ∧
    (slotAt serving 0).merging = false ∧ (slotAt serving 0).gapMark = false ∧
    serving.play.cursor ≠ highestUsed (seg0 1176 false) (labelOf (slotAt serving 0)) := by decide

/-- `serving` with the cursor at a position and other segments. -/
def servingAt (cursor : Nat) (segs : List Segment) : State :=
  (serving.onPlay fun q => { q with cursor := cursor }).onMap fun m => { m with segs := segs }

/-- `serving` with slot 0 a gap slot, whose fetch is under way. -/
def servingGap : State :=
  (modSlot 0 (fun d => { d with gapMark := true }) serving).onGaps fun _ =>
    { entries := [{ label := 0, slot := 0, retries := 0 }]
      fetch := some
        { phase := .fetching, label := 0, slot := 0, staged := [], late := false, abandoned := false } }

theorem test_witness_ServeFreesAndRetires :
    (∀ s ∈ [servingAt 587 [seg0 1176 false], servingGap, servingAt 1175 [seg0 1176 false],
        servingAt 1175 [seg0 1176 false, { seg0 588 true with id := 1, start := 1200 }],
        servingAt 0 [{ seg0 1175 false with start := 1 }]],
      inReset s = false ∧ s.router.waiting = [] ∧ s.router.reqP.map (·.plays) = some [0] ∧
      s.play.burst = none ∧ s.play.mode = .playing ∧ s.ctl.applyPending = false ∧ s.rc.phase = .streaming ∧
      s.intake.hold = false ∧ (slotAt s 0).merging = false ∧ (slotAt s 1).merging = false) ∧
    (locate (servingAt 587 [seg0 1176 false]) (seg0 1176 false) 587 = some (0, 587) ∧
      ((587 : Nat) : Int) = highestUsed (seg0 1176 false) 0) ∧
    (servingGap.map.segs = [seg0 1176 false] ∧ locate servingGap (seg0 1176 false) 1 = some (0, 1) ∧
      (slotAt servingGap 0).gapMark = true ∧ ((1 : Nat) : Int) ≠ highestUsed (seg0 1176 false) 0) ∧
    (locate (servingAt 1175 [seg0 1176 false]) (seg0 1176 false) 1175 = some (1, 587) ∧
      1175 + 1 = (seg0 1176 false).stop ∧ (seg0 1176 false).isOpen = false ∧ serving.gaps.entries = []) ∧
    (let g : Segment := { seg0 1175 false with start := 1 }
     locate (servingAt 0 [g]) g 1 = some (0, 1) ∧ 0 < g.start ∧ 1 + 1 < g.stop ∧
      ((1 : Nat) : Int) ≠ highestUsed g 0) := by decide

/-- R17, R94, R18, R112 on those states. -/
theorem test_serve_effects :
    (slotAt (after .burstTake (servingAt 587 [seg0 1176 false])) 0).state = .free ∧
    (after .burstTake servingGap).flag .gapLate = true ∧
    (after .burstTake (servingAt 1175
      [seg0 1176 false, { seg0 588 true with id := 1, start := 1200 }])).play.cursor = 1200 ∧
    (after .burstTake (servingAt 0 [{ seg0 1175 false with start := 1 }])).play.cursor = 2 := by decide +kernel

/-- R87: the play piece of a slot that is being merged waits, and port P is requesting meanwhile. -/
theorem test_piece_waits_for_merge :
    let s := after .burstTake serving
    let w := modSlot 0 (fun d => { d with merging := true }) s
    (playPiece s).isSome = true ∧ portPPresents s = true ∧
    playPiece w = none ∧ portPPresents w = false ∧ portPRequesting w = true := by decide +kernel

/-- Frame 1 of slot 0, read with its mark. -/
def oneItem (mark : Bool) : FetchItem :=
  { base := 0, slot := 0, index := 1, word := some (frameOf 30 0), mark := some mark }

/-- A burst of one serve whose frame has been read, with a concealment run in progress or none. -/
def served (mark : Bool) (run : ConcealRun) : State :=
  (fillTaken (.serve 1 0 0 .start 8 (some (oneItem mark))) .playing).onPlay fun q => { q with run := run }

theorem test_witness_BurstReturnsFadeAndZeros :
    (∀ w ∈ [BurstWord.zero, .fill, .pause],
      let s := fillTaken w .playing
      inReset s = false ∧ s.router.reqP.map (·.main) = some [] ∧ s.router.reqP.map (·.plays) = some [0] ∧
      s.router.reqP.map (·.isWrite) = some false ∧
      s.play.burst = some { mode := .playing, todo := 0, words := [w] } ∧ s.rc.capture = none ∧
      s.resume.snap = none) ∧
    (∀ mark : Bool, ∀ run ∈ [ConcealRun.none, .interp 0 5 2 1 1 0], let s := served mark run
      inReset s = false ∧ s.router.reqP.map (·.main) = some [] ∧ s.router.reqP.map (·.plays) = some [0] ∧
      s.router.reqP.map (·.isWrite) = some false ∧ s.rc.capture = none ∧ s.resume.snap = none ∧
      s.play.burst.map (fun b => (b.words, b.ahead, b.todo)) =
        some ([.serve 1 0 0 .start 8 (some (oneItem mark))], [], 0) ∧
      itemRead (oneItem mark) = true ∧ (itemFrame (oneItem mark)).erased = mark ∧ s.play.endRun = false ∧
      s.play.run = run ∧ s.play.lastKind ≠ .real 0 0) ∧
    interpContinues (served false .none).play.run 1 0 = false := by decide

/-! ### More cases of the statements on grants, breaks, holds, scoring, APPLY and concealment -/

/-- The engine's Intake Unit, Controller or Match Engine alone waits. -/
def jobWaits : State := base.onIntake fun i => { i with flagJobs := [⟨2352, [1]⟩, ⟨2384, [2]⟩] }

/-- A return's capture reads one frame of slot 0, its mark, and its word too, still to come. -/
def captureReading (word : Bool) : State :=
  (inPhase .holding).onRc fun r =>
    { r with capture := some { returns := true, items := [
        { pos := 4, source := none, value := some ⟨1, false⟩ },
        { pos := 5, value := none,
          source := some { oneItem false with word := if word then some 7 else none, mark := none } }] } }

/-- The Match Engine reads one frame of slot 0, its mark, and its word too, still to come. -/
def matchReading (word : Bool) : State :=
  base.onMe fun m => { m with
    activity := .scoring
    fetch := [{ oneItem false with word := if word then some 7 else none, mark := none }] }

/-- The merge of slot 0 writes from index 3 on. -/
def mergeWriting (writes : List (Nat × Word)) (jobs : List WriteJob) : State :=
  (aligned (if jobs = [] then .mergeWrite else .flagMap) .merging).onMe fun m =>
    { m with align := m.align.map fun a => { a with writes := writes, jobs := jobs } }

theorem test_witness_EngineGrants :
    (zeroWrites.engineOnly .control ∧ jobWaits.engineOnly .intake ∧
      jobWaits.intake.flagJobs = [⟨2352, [1]⟩, ⟨2384, [2]⟩]) ∧
    (∀ w : Bool, (captureReading w).engineOnly .recovery ∧
      (captureReading w).play.cursor = 0 ∧ (captureWants (captureReading w)).isSome = true ∧
      (matchReading w).engineOnly .matcher ∧ matchWrite (matchReading w) = none ∧
      (matchReading w).me.orphans = [] ∧ (nextPiece (matchReading w).me.fetch).isSome = true) ∧
    (∀ p, nextPiece (matchReading false).me.fetch = some p →
      ∃ f ∈ (matchReading false).me.fetch.map (fillItem (matchReading false) p), itemRead f = false) ∧
    (let ws : List (Nat × Word) := [(3, 1), (4, 2)]
     (mergeWriting (ws ++ [(6, 9)]) []).engineOnly .matcher ∧
      ws = ((List.range [(1 : Word), 2].length).map fun k => 3 + k).zip [1, 2]) ∧
    (mergeWriting [] [⟨2352, [1]⟩]).engineOnly .matcher := by
  unfold State.engineOnly
  refine ⟨by decide, by decide +kernel, ?_, by decide, by decide⟩
  intro p h
  have : p = .frames 0 1 1 := by
    have e : nextPiece (matchReading false).me.fetch = some (.frames 0 1 1) := by decide
    rw [e] at h
    exact (Option.some.inj h).symm
  subst this
  exact ⟨{ oneItem false with word := some 0, mark := none }, by decide, by decide⟩

/-- R33, R52, R86: what these grants read and write. -/
theorem test_engine_grants :
    (after .memoryGrant jobWaits).mem = [(2352, 1)] ∧
    (after .memoryGrant jobWaits).intake.flagJobs = [⟨2384, [2]⟩] ∧
    ((after .memoryGrant ((captureReading true).onMem fun _ => [(2352, 2)])).rc.capture.map fun c =>
      c.items.map CaptureItem.value) = some [some ⟨1, false⟩, some ⟨7, true⟩] ∧
    (after .memoryGrant (mergeWriting [(3, 1), (4, 2), (6, 9)] [])).mem = [(12, 1), (16, 2)] := by
  decide +kernel

/-- STREAMING with blocks 0 and 1 in slots 0 and 1 of the open segment, a block filling in slot 2, the cursor and
DISTRUST as given. -/
def breaking (cursor distrust : Nat) : State :=
  let s := (playing .streaming).onMap fun m =>
    { m with slots := [linkedSlot 0, linkedSlot 1, { SlotDesc.free with state := .filling }, .free]
             segs := [seg0 1176 true] }
  let s := s.onIntake fun i => { i with phase := .filling, slot := some 2 }
  (s.onPlay fun q => { q with cursor := cursor }).onCtl fun c =>
    { c with params := { c.params with distrust := distrust } }

theorem test_witness_BreakTruncates :
    (∀ c ∈ [0, 588, 700], ∀ k ∈ [0, 1, 2],
      inReset (breaking c k) = false ∧ (breaking c k).rc.phase = .streaming ∧ (breaking c k).rc.capture = none ∧
      (breaking c k).intake.held = [] ∧ openSeg (breaking c k) = some (seg0 1176 true) ∧
      (breaking c k).ctl.params.distrust = k) ∧
    (let owned := (breaking 0 1).map.slots.filter fun d => d.owner == some 0
     owned = [linkedSlot 0, linkedSlot 1] ∧
      (owned.countP fun x => decide (labelOf (linkedSlot 0) < labelOf x)) = 1 ∧ owned.length ≤ 2) := by decide

/-- R15, R51 on those states. -/
theorem test_break_truncates :
    (∀ s ∈ [after .shockEvent (breaking 0 1)],
      s.rc.p = 588 ∧ s.map.segs = [seg0 588 false] ∧ s.map.slots = [linkedSlot 0, .free, .free, .free]) ∧
    (after .shockEvent (breaking 0 2)).map.segs = [] ∧ (after .shockEvent (breaking 700 1)).map.segs = [] ∧
    (after .shockEvent (breaking 700 0)).map.segs = [seg0 1176 false] := by decide +kernel

/-- HOLDING with a block of another label handed over, and the FREE count one below HOLD_MARGIN + 8 or lower. -/
def holdDue (free : Nat) : State :=
  let s := (handing 1 7 (playing .holding)).onIntake fun i => { i with hold := true }
  s.onMap fun m => { m with slots := m.slots ++ List.replicate (free - 2) .free }

/-- The serve of the last frame of slot 0 in HOLDING, and the FREE count one below HOLD_MARGIN + 8. -/
def holdServe : State :=
  let s := (servingAt 587 [seg0 1176 true]).onRc fun r => { r with phase := .holding }
  (s.onIntake fun i => { i with hold := true }).onMap fun m =>
    { m with slots := m.slots ++ List.replicate 9 .free }

theorem test_witness_HoldReturn :
    (∀ n ∈ [10, 11], let s := holdDue n
      inReset s = false ∧ s.rc.phase = .holding ∧ s.rc.capture = none ∧ s.intake.phase = .handingOver ∧
      s.intake.flagJobs = [] ∧ s.intake.slot = some 1 ∧ s.intake.held = [] ∧ s.intake.hold = true ∧
      openSeg s = some (seg0 588 true) ∧ s.rc.expected = some 1 ∧ (slotAt s 1).label = some 7 ∧
      (slotAt s 1).trusted = true ∧ (slotAt s 1).stale = false ∧ (slotAt s 1).state = .filling ∧
      s.map.segs = [seg0 588 true] ∧ s.play.cursor = 0 ∧
      (s.ctl.params.holdMargin + 8 ≤ freeCount s + 1 ↔ n = 11)) ∧
    (inReset holdServe = false ∧ holdServe.router.waiting = [] ∧
      holdServe.router.reqP.map (·.plays) = some [0] ∧ holdServe.play.burst = none ∧
      holdServe.play.mode = .playing ∧ holdServe.rc.phase = .holding ∧ holdServe.intake.hold = true ∧
      freeCount holdServe + 1 = holdServe.ctl.params.holdMargin + 8 ∧
      locate holdServe (seg0 1176 true) 587 = some (0, 587) ∧ (slotAt holdServe 0).merging = false ∧
      (slotAt holdServe 0).gapMark = false ∧ (slotAt holdServe 0).state = .linked ∧
      holdServe.ctl.applyPending = false) := by decide

/-- R39, R63: the hold return, at a report and at a serve. -/
theorem test_hold_return :
    (∀ s ∈ [after .blockReport (holdDue 11), after .burstTake holdServe],
      s.intake.hold = false ∧ s.rc.cause = some .holdReturn ∧ openSeg s = none) ∧
    (after .blockReport (holdDue 11)).rc.p = 588 ∧ (after .burstTake holdServe).rc.p = 1176 ∧
    (after .blockReport (holdDue 10)).intake.hold = true := by decide +kernel

/-- `scratchDue` with the fetch to follow, or lead one block short of it. -/
theorem test_witness_ReportBeginsFetch :
    (scratchDue.gaps.fetch = none ∧ scratchDue.ctl.params.gapLead * 588 ≤ scratchDue.lead + 588 ∧
      scratchDue.map.segs.length < 16 ∧ scratchDue.map.segs.dropLast = []) ∧
    (after .blockReport scratchDue).rc.phase = .gapFetch ∧ (after .blockReport scratchDue).rc.target = 0 := by
  decide +kernel

/-- The last mark of a candidate's one frame is to be read, the candidates up to position e covered. -/
def scoringLast (e : Nat) : State :=
  (matchReading true).onMe fun m => { m with
    attempt := some
      { p := 588, kEff := 16, span := 588, runStart := 0, lowest := none, next := 5, best := none
        scoredTo := some e } }

theorem test_witness_CandidateScored :
    (∀ e ∈ [592, 593], (scoringLast e).engineOnly .matcher ∧ matchWrite (scoringLast e) = none ∧
      (scoringLast e).me.activity = .scoring ∧
      (scoringLast e).me.attempt.map (fun a => (a.scoredTo, decide ((a.p : Int) + a.next ≤ (e : Int)))) =
        some (some e, e == 593) ∧
      nextPiece (scoringLast e).me.fetch = some (.flags 0 0 1) ∧
      ∀ f ∈ (scoringLast e).me.fetch.map (fillItem (scoringLast e) (.flags 0 0 1)), itemRead f = true) ∧
    (after .memoryGrant (scoringLast 593)).me.attempt.map (·.next) = some 6 ∧
    (after .memoryGrant (scoringLast 593)).me.fetch.length = 16 ∧
    (after .memoryGrant (scoringLast 592)).me.fetch = [] := by
  unfold State.engineOnly
  decide +kernel

/-- R76: half of an odd K is rounded up. -/
theorem test_half_of_odd :
    (let ring : List TailFrame := [⟨5, false⟩, ⟨9, false⟩, ⟨5, false⟩]
     (candidateResult 3 0 [⟨5, false⟩, ⟨5, false⟩, ⟨5, true⟩] ring).map (·.mean) = some 1 ∧
      candidateResult 3 0 [⟨5, false⟩, ⟨5, true⟩, ⟨5, true⟩] ring = none) := by decide

/-- An APPLY pending, whose set passes the checks or has a ring that does not fit. -/
def pendingApply (fits : Bool) (s : State) : State :=
  s.onCtl fun c =>
    { c with applyPending := true, staged := if fits then c.staged.set 4 40 else c.staged.set 0 0xFFF000 }

theorem test_witness_PendingApply :
    (∀ fits : Bool,
      (let s := pendingApply fits ((reading 1 base).onPlay fun q => { q with mode := .playing })
       inReset s = false ∧ s.router.waiting = [] ∧ s.play.burst = none ∧ s.play.mode = .playing ∧ s.lead = 0 ∧
        s.ctl.applyPending = true ∧ s.map.segs.length ≤ 1 ∧ applyPasses s = fits) ∧
      (∀ c ∈ [1, 587], let s := pendingApply fits (servingAt c [seg0 1176 false])
        s.ctl.applyPending = true ∧ s.map.segs = [seg0 1176 false] ∧ c + 1 < (seg0 1176 false).stop ∧
        locate s (seg0 1176 false) c = some (0, c) ∧ (slotAt s 0).gapMark = false ∧ s.intake.hold = false ∧
        applyPasses s = fits ∧ ((c + 1) % 588 = 0 ↔ c = 587)) ∧
      (let s := pendingApply fits (playing .streaming)
       inReset s = false ∧ s.ctl.busy = false ∧ s.rc.loaded.isSome = true ∧ s.eject = none ∧
        s.rc.phase ≠ .parked ∧ s.intake.held = [] ∧ s.ctl.applyPending = true ∧ s.play.mode = .playing ∧
        applyPasses s = fits ∧ placementOk s.router.pblk (clampParams s.ctl.staged) = fits)) := by
  decide +kernel

/-- R177: the pending APPLY at a fill frame, at a crossing and at a PAUSE. -/
theorem test_pending_apply :
    (∀ s ∈ [after .burstTake (pendingApply true ((reading 1 base).onPlay fun q => { q with mode := .playing })),
        after .burstTake (pendingApply true (servingAt 587 [seg0 1176 false])),
        after .pause (pendingApply true (playing .streaming))],
      s.ctl.params.lowWater = 40 ∧ s.ctl.applyPending = false) ∧
    (after .burstTake (pendingApply true (servingAt 1 [seg0 1176 false]))).ctl.applyPending = true ∧
    (after .pause (pendingApply false (playing .streaming))).ctl.applyInd = .refusedConfig := by decide +kernel

/-- A marked frame just after a real one, the two positions after it known, INTERP_MAX 2. -/
def runDue (first second : AheadPlace) : State :=
  (served true .none).onPlay fun q => { q with
    lastKind := .real 0 0
    burst := some
      { mode := .playing, todo := 0, words := [.serve 1 0 0 .start 2 (some (oneItem true))]
        ahead := [{ pos := 2, seg := 0, place := first }, { pos := 3, seg := 0, place := second }] } }

theorem test_witness_RunDecision :
    (∀ f ∈ [AheadPlace.frame (oneItem false), .frame (oneItem true), .missing],
      ∀ g ∈ [AheadPlace.frame (oneItem false), .frame (oneItem true), .outside],
      let s := runDue f g
      inReset s = false ∧ s.router.reqP.map (fun r => (r.main, r.plays, r.isWrite)) = some ([], [0], false) ∧
      s.rc.capture = none ∧ s.resume.snap = none ∧ s.play.endRun = false ∧ s.play.run = .none ∧
      s.play.lastKind = .real 0 0 ∧ (0 + 1 ≠ 0) ∧ itemRead (oneItem true) = true) := by decide

/-- R116: the run is interpolated up to the good frame at the last position looked at, and fades without one. -/
theorem test_run_decision :
    (after .burstComplete (runDue .missing (.frame (oneItem false)))).play.run =
      .interp 0 (frameOf 0 0) 2 2 2 0 ∧
    (after .burstComplete (runDue (.frame (oneItem false)) .outside)).play.run = .none ∧
    (after .burstComplete (runDue .missing .outside)).play.run = .fade 2 0 ∧
    (after .burstComplete (runDue .missing (.frame (oneItem true)))).play.run = .fade 2 0 := by decide +kernel

theorem test_witness_FadedSamplesNeverGrow : 64 ≤ 64 := by decide

theorem test_witness_InterpolatedSamplesLieBetween : 16 ≤ 16 := by decide

theorem test_witness_StartFlushesAndStarts :
    let s := playing .streaming
    inReset s = false ∧ s.ctl.busy = false ∧ s.rc.loaded.isSome = true ∧ s.eject = none ∧
    s.rc.phase ≠ .parked ∧ s.intake.held = [] ∧ s.ctl.applyPending = false ∧ 0 < s.ctl.params.lowWater := by
  decide

theorem test_witness_RefusedCommandsChangeNothing :
    inReset base = false ∧ base.ctl.busy = false ∧ base.rc.loaded = none ∧ base.lines.taken = .opened ∧
    (inReset (playing .streaming) = false ∧ (playing .streaming).rc.phase ≠ .parked) := by decide

/-- PARKED, the tray closed, entry 0 for disc 7 with a tail of `n`. -/
def loadable (n : Nat) : State :=
  (saved.onResume fun t => { t with entries := t.entries.modify 0 fun e => { e with tailCount := n } }).onLines
    fun l => { l with taken := .closed }

theorem test_witness_LoadStartsOrResumes :
    (∀ s ∈ [loadable 7, loadable 8],
      inReset s = false ∧ s.ctl.busy = false ∧ s.rc.phase = .parked ∧ s.lines.taken = .closed ∧
      s.eject = none ∧ s.intake.held = [] ∧ resumeEntry s 7 = some 0 ∧ resumeEntry s 8 = none ∧
      (resumeAt s 0).tailCount ≤ (resumeAt s 0).tail.length) ∧
    (resumeAt (loadable 7) 0).tailCount < 8 ∧ 8 ≤ (resumeAt (loadable 8) 0).tailCount := by decide

theorem test_witness_EjectBegins :
    (base.rc.loaded = none ∧ base.rc.phase = .parked ∧ base.intake.held = [] ∧
      base.ctl.applyPending = false ∧ base.eject = none) ∧
    (let s := playing .streaming
     inReset s = false ∧ s.ctl.busy = false ∧ s.eject = none ∧ s.rc.loaded = some 7 ∧
      s.rc.started = true ∧ s.resume.snap = none) ∧
    (let s := (playing .streaming).onRc fun r => { r with started := false }
     s.eject = none ∧ s.rc.loaded = some 7 ∧ s.rc.started = false ∧ s.rc.phase ≠ .parked ∧
      s.intake.held = [] ∧ s.ctl.applyPending = false) := by decide

theorem test_witness_PauseAndPlay :
    (∀ m ∈ [PlayMode.playing, .paused],
      let s := withDisc.onPlay fun q => { q with mode := m }
      inReset s = false ∧ s.ctl.busy = false ∧ s.rc.loaded.isSome = true ∧ s.ctl.applyPending = false ∧
      s.play.mode = m ∧ s.play.burst = none) ∧
    (let s := (fillTaken .fill .playing).onRc fun r => { r with loaded := some 7 }
     inReset s = false ∧ s.ctl.busy = false ∧ s.rc.loaded.isSome = true ∧ s.ctl.applyPending = false ∧
      s.play.mode = .playing ∧ s.play.burst.isSome = true) := by decide

/-- A staged ring that does not fit below the top of the space. -/
def misplaced : State :=
  base.onCtl fun c => { c with staged := c.staged.set 0 0xFFF000 }

theorem test_witness_ApplyTakesEffectOrWaits :
    ((playing .streaming).ctl.busy = false ∧ inReset (playing .streaming) = false ∧
      (playing .streaming).play.mode = .playing ∧ 0 < (playing .streaming).lead) ∧
    (base.ctl.busy = false ∧ inReset base = false ∧ base.play.mode ≠ .playing ∧ base.lead = 0 ∧
      applyPasses base = true) ∧
    (misplaced.ctl.busy = false ∧ inReset misplaced = false ∧ misplaced.play.mode ≠ .playing ∧
      applyPasses misplaced = false) := by decide

/-- A snapshot of disc 7 being written into entry 5. -/
def writing : State := base.onResume fun t => { t with
  snap := some { fingerprint := 7, frame := 588, tail := [⟨587, some ⟨1, false⟩⟩], target := some 5, timer := 0 } }

theorem test_witness_ForgetAndBadCommand :
    (saved.ctl.busy = false ∧ inReset saved = false ∧ writingFor saved 7 = false ∧
      resumeEntry saved 7 = some 0 ∧ resumeEntry saved 8 = none) ∧
    (writing.ctl.busy = false ∧ inReset writing = false ∧ writingFor writing 7 = true) ∧
    8 ≤ (8 : Word).toNat := by decide

/-- The tray logic with given counts, sampled. -/
def trayAt (debounce quiet : Nat) : State :=
  base.onLines fun l => { l with sampled := true, debounce := debounce, quiet := quiet }

theorem test_witness_TickUpdatesTrayLogic :
    inReset base = false ∧ base.lines.sampled = false ∧
    ((trayAt 23 23).lines.sampled = true ∧ (trayAt 23 23).ctl.params.deb ≤ min (23 + 1) 64) ∧
    ((trayAt 22 64).lines.sampled = true ∧ min (22 + 1) 64 < (trayAt 22 64).ctl.params.deb) := by decide

theorem test_witness_TrayEdgesAct :
    inReset base = false ∧ base.rc.loaded = none ∧
    (let s := playing .streaming
     inReset s = false ∧ s.rc.loaded = some 7 ∧ s.rc.started = true ∧ s.eject = none ∧
      s.resume.snap = none) := by decide

/-- An eject action waiting for the snapshot of disc 7, with a supply fall due or not. -/
def ejecting (byCommand falls : Bool) : State :=
  (((playing .streaming).onResume fun _ => writing.resume).onEject fun _ => some { byCommand := byCommand })
    |>.onSupply (fun u => { u with first := false, timer := 4000000 })
    |>.onPins fun p => { p with vmain := if falls then 4000 else 5000 }

theorem test_witness_SnapshotWriteMakesEntryValid :
    inReset writing = false ∧ writing.resume.snap.map (·.target) = some (some 5) ∧
    5 < writing.resume.entries.length ∧ writing.ctl.forgetWait = none ∧ writing.eject = none ∧
    (∀ (byCommand falls : Bool), let s := ejecting byCommand falls
      inReset s = false ∧ s.resume.snap.map (·.target) = some (some 5) ∧ s.ctl.forgetWait = none ∧
      s.eject = some { byCommand := byCommand } ∧ s.rc.phase ≠ .parked ∧ s.intake.held = [] ∧
      s.ctl.applyPending = false ∧ s.rc.loaded.isSome = true ∧ fallDue s = falls ∧
      (falls = true → 3900 ≤ s.pins.vmain) ∧ snapshotDisc s = some 7) := by decide +kernel

/-- A FORGET of the disc whose snapshot is being written. -/
theorem test_witness_forget_waits :
    let s := writing.onCtl fun c => { c with busy := true, forgetWait := some 7 }
    inReset s = false ∧ s.ctl.forgetWait = some 7 ∧ s.resume.snap.map (·.fingerprint) = some 7 ∧
    s.eject = none ∧ s.resume.distinct := by
  refine ⟨rfl, rfl, rfl, rfl, ⟨distinct_first.1, fun p hp => ?_⟩⟩
  obtain rfl := Option.some.inj hp
  refine ⟨by decide, fun n _ k e he _ hv => ?_⟩
  have := List.eq_of_mem_replicate (List.mem_of_getElem? he)
  rw [this] at hv
  exact absurd hv (by decide)

/-- The supply comparison with the given indications, a stream started or not. -/
def supplied (first low : Bool) (s : State) : State := s.onSupply fun u => { u with first := first, low := low }

theorem test_witness_SupplyComparisons :
    (∀ s ∈ [supplied false false base, supplied false false (playing .streaming),
        supplied false true base, supplied true false base, supplied true false (playing .streaming)],
      inReset s = false ∧ s.resume.snap = none ∧ s.ctl.params.supplyLevel = 2) ∧
    snapshotDisc (supplied false false base) = none ∧
    (snapshotDisc (supplied false false (playing .streaming))).isSome = true ∧
    (supplied true false base).rc.loaded = none ∧
    (supplied true false (playing .streaming)).rc.loaded.isSome = true ∧
    3900 ≤ 4399 ∧ 4399 < 4300 + 50 * 2 ∧ 4300 + 50 * 2 + 50 ≤ 4450 := by decide

theorem test_witness_ResetsEmptyEveryBlock :
    3899 < 3900 ∧ base.supply.held = false ∧ base.pins.rstn = false ∧
    (reading 8 base).router.reqP.map (·.isWrite) = some false := by decide

theorem test_witness_PowerOnChecksRetention :
    exec .rstnAssert saved = .next (after .rstnAssert saved) ∧
    (∀ b : Bool, let s := dark.onResume fun t => { t with latch := b }
      s.supply.held = true ∧ s.router.waiting = [] ∧ s.resume.latch = b ∧
      s.resume.entries ≠ []) := ⟨rfl, by decide⟩

theorem test_witness_RstnReleaseSamplesStraps :
    let s := base.onPins fun p => { p with rstn := true }
    s.pins.rstn = true ∧ s.supply.held = false ∧ s.router.waiting = [] := by decide

/-! ### The spec's figures, one step each -/

/-- 01 section 1.1: slot 300, frame 100 and the flag map. -/
theorem test_ring_addresses :
    slotBase base 300 = 0x0B2200 ∧ frameAddr base 300 100 = 0x0B2390 ∧ flagAddr base 300 0 = 0x0B2B30 ∧
    flagAddr base 300 (100 / 32) = 0x0B2B3C ∧ markIn 0x10 100 = true := by decide

/-- 01 section 1.4: position 1,003,000 of a segment with shift 1 lies in block 1705, index 461. -/
def lookupState : State := base.onMap fun m =>
  { m with
    slots := [.free, { linkedSlot 1705 with owner := some 5 }, .free, .free]
    segs := [{ id := 5, start := 1002540, length := 1763, shift := 1, kind := .matched, isOpen := false }] }

theorem test_lookup : lookup lookupState 1003000 = some (1, 461) := by decide

/-- 01 section 1.6: lead over three segments is 5,655, with the cursor at 1,001,000. -/
theorem test_lead :
    leadOf
      [{ id := 4, start := 999600, length := 2940, shift := 0, kind := .start, isOpen := false },
       { id := 5, start := 1002540, length := 1763, shift := 1, kind := .matched, isOpen := false },
       { id := 6, start := 1009596, length := 2352, shift := 0, kind := .bridged, isOpen := true }]
      1001000 = 5655 := by decide

/-- 01 section 1.2: with only slots 0 and 2 of four FREE and the pointer at 3, the search wraps to 0. -/
theorem test_allocation_wraps :
    findFree (base.onMap fun m => { m with slots := [.free, linkedSlot 1, .free, linkedSlot 2], allocPtr := 3 }) =
      some 0 := by decide

/-- 02: the header of a trusted label, and one whose label value is out of range (11 section 11.1). -/
theorem test_header_fields :
    headerLabel 0x80000407 = 1031 ∧ headerTrusted 0x80000407 = true ∧ headerTrusted 0x00000407 = false ∧
    headerTrusted 0x8006DDD0 = false := by decide

/-- R29: a frame word is stored low byte first, and only in its enabled bytes (R185). -/
theorem test_frame_bytes :
    (after (.intakeFrame 1 0x11223344 5 true) filling).mem = [(4, 0x44), (6, 0x22)] ∧
    (after (.intakeFrame 1 0x11223344 5 true) filling).intake.marks.getLsbD 1 = true := by decide +kernel

/-- 02: the 588th frame completes the block: three flag-map requests and a hand-off. -/
theorem test_block_completes :
    let s := filling.onIntake fun i => { i with written := setMark (BitVec.allOnes 588) 587 false }
    let t := after (.intakeFrame 587 0 15 true) s
    t.intake.phase = .handingOver ∧
    t.intake.flagJobs.map (fun j => (j.addr, j.words.length)) = [(2352, 8), (2384, 8), (2416, 4)] ∧
    (t.intake.flagJobs.map fun j => j.words.getD 2 0) = [0, 0, 0x800] := by decide +kernel

/-- R50, R63: another trusted label is a discontinuity in STREAMING and no break in HOLDING. -/
theorem test_discontinuity :
    (after .blockReport (handing 1 7 (playing .streaming))).rc.cause = some .discontinuity ∧
    (after .blockReport (handing 1 7 (playing .streaming))).rc.p = 588 ∧
    (after .blockReport (handing 1 7 (playing .holding))).rc.phase = .holding ∧
    (slotAt (after .blockReport (handing 1 7 (playing .holding))) 1).state = .free := by decide +kernel

/-- 03: at a track regained the re-read target stands PREROLL blocks before the break's block. -/
theorem test_target : (after .trackRegainedEvent (lostTrack false)).rc.target = 10 - 3 := by decide +kernel

/-- R54: a target below 0 is 0. -/
theorem test_target_floor :
    (after .trackRegainedEvent ((lostTrack false).onRc fun r => { r with p := 600 })).rc.target = 0 := by
  decide +kernel

/-- 04 section 4.2: with P = 593,292, K = 16, S = 588 and a run from block 1007 the lowest offset is
−588. -/
theorem test_lowest_offset : lowestOffset 593292 16 588 592116 = some (-588) := by decide

/-- 04 section 4.5: the tail of the worked case. -/
def caseTail : List TailFrame :=
  [(1000, -200), (1040, -180), (1075, -150), (1100, -110), (1110, -60), (1100, 0), (1070, 70), (1020, 140)].map
    fun (x : Int × Int) => ⟨frameOf x.1 x.2, false⟩

/-- 04 section 4.5: offset +1 has mean 0 over 7 frames, offset 0 mean 37. -/
theorem test_worked_scores :
    candidateResult 8 1 caseTail (caseTail.set 4 ⟨0, true⟩) = some { offset := 1, mean := 0, count := 7 } ∧
    candidateResult 8 0 caseTail ((⟨frameOf 955 (-215), false⟩ :: caseTail.dropLast).set 5 ⟨0, true⟩) =
      some { offset := 0, mean := 37, count := 7 } := by decide

/-- R76: with c below ceil(K ÷ 2) a candidate is not valid. -/
theorem test_candidate_invalid :
    candidateResult 8 0 caseTail ((List.replicate 5 ⟨0, true⟩) ++ caseTail.drop 5) = none := by decide

/-- 05 section 5.7: a scratch block takes 90 to 98 and WARNED with QUALITY raised, 252 to ABANDON. -/
theorem test_quality_rises :
    (qualityReport 40 (counterAt 90 .normal)).quality.level = .warned ∧
    (qualityReport 40 (counterAt 90 .normal)).flag .quality = true ∧
    (qualityReport 30 (counterAt 252 .degraded)).quality.level = .abandon := by decide

/-- 05 section 5.7: in ABANDON a marked block ends the clean run, the 128th clean block ends ABANDON. -/
theorem test_quality_returns :
    let s := (counterAt 255 .abandon).onQuality fun q => { q with cleanRun := 127 }
    (qualityReport 3 s).quality.cleanRun = 0 ∧ (qualityReport 0 s).quality.level = .normal ∧
    (qualityReport 0 s).quality.counter = 0 := by decide

/-- The word a serve of position 1 of segment 0 returns under a run in progress, if it needs no look-ahead. -/
def wordAt1 (run : ConcealRun) : Option Word :=
  match composeServe [] [] { PlayServer.reset with run := run, fadeIn := 0 } 1 0 0 .start 8
      (some (oneItem false)) with
  | .done x => some x.2.1
  | .needs _ _ _ => none

/-- R116, R118: over a frame that is good by now an interpolated run goes on, and a faded run ends. -/
theorem test_run_over_good_frame :
    wordAt1 (.interp 0 (frameOf 3 0) 2 1 1 0) = some (frameOf 1 0) ∧
    wordAt1 (.fade 1 0) = some (frameOf 30 0) := by decide

/-- 06 section 6.7: interpolated runs, with truncation toward zero. -/
theorem test_interpolation :
    interpSample 100 (-20) 3 1 = 70 ∧ interpSample 100 (-20) 3 3 = 10 ∧
    interpFrame (frameOf 1000 (-7)) (frameOf 1003 10) 2 1 = frameOf 1001 (-2) ∧
    interpFrame (frameOf 1000 (-7)) (frameOf 1003 10) 2 2 = frameOf 1002 4 ∧
    interpSample 0 (-10) 2 1 = -3 := by decide

/-- 06 section 6.7: the fade-out from (6,400, −1,000). -/
theorem test_fade_out :
    fadeOutFrame (frameOf 6400 (-1000)) 1 = frameOf 6300 (-984) ∧
    fadeOutFrame (frameOf 6400 (-1000)) 2 = frameOf 6200 (-968) ∧
    fadeOutFrame (frameOf 6400 (-1000)) 63 = frameOf 100 (-15) ∧
    fadeOutFrame (frameOf 6400 (-1000)) 64 = 0 := by decide

/-- 06 section 6.7: the fade-in of (10,000, −3). -/
theorem test_fade_in :
    fadeInFrame (frameOf 10000 (-3)) 1 = frameOf 156 0 ∧ fadeInFrame (frameOf 10000 (-3)) 22 = frameOf 3437 (-1) ∧
    fadeInFrame (frameOf 10000 (-3)) 43 = frameOf 6718 (-2) ∧
    fadeInFrame (frameOf 10000 (-3)) 64 = frameOf 10000 (-3) := by decide

/-- 07 section 7.3: an 8-word read at 0xFFDFF8 has two play beats and six intake beats. -/
theorem test_classification :
    (classify State.reset { port := .p, addr := 0xFFDFF8, transfer := .read 8 }).map (·.region) =
      [.play, .play, .intake, .intake, .intake, .intake, .intake, .intake] := by decide

/-- 07 section 7.3: of a 3-word write at 0x12FFF8 two beats are dropped. -/
theorem test_dropped_beats :
    let r : PortRequest :=
      { port := .p, addr := 0x12FFF8, transfer := .write (List.replicate 3 { data := 9, enables := 15, ers := false }) }
    let t := after .memoryGrant (after (.portRequestArrive r) base)
    t.count .accessDrops = 2 ∧ t.mem = [(0x130000, 9)] ∧ t.router.reqP = none := by decide +kernel

/-- 08 section 8.1: tick 35 of the table takes the tray-close, tick 24 does not. -/
theorem test_tray_ticks :
    (after (.tick .closed) (trayAt 34 23)).lines.edge = some .closed ∧
    (after (.tick .closed) (trayAt 23 12)).lines.edge = none ∧
    (after (.tick .closed) (trayAt 23 12)).lines.debounce = 24 := by decide +kernel

/-- 09: level 2 falls at 4.40 V and releases at 4.45 V. -/
theorem test_supply_levels :
    supplyCondition base.ctl.params 4399 = .below ∧ supplyCondition base.ctl.params 4400 = .between ∧
    supplyCondition base.ctl.params 4450 = .above := by decide

/-- 10 section 10.4: INTERP_MAX 30 is clamped to 16, RING_BASE loses its low twelve bits. -/
theorem test_clamps :
    let p := clampParams ((base.ctl.staged.set 16 30).set 0 0x1FFF)
    p.interpMax = 16 ∧ p.ringBase = 0x1000 ∧ p.tol = 4 := by decide

/-- 11 section 11.2: the status word 0x0161_0012. -/
theorem test_modes_word :
    statusWord ((((playing .streaming).onQuality fun q => { q with counter := 97 })).onSupply
      fun u => { u with low := true }) 0x008 = 0x01610012 := by decide +kernel

/-- R158: LOAD with no entry starts at X; the command word then waits to be zeroed. -/
theorem test_load :
    let t := after (.load 9 5880) (loadable 8)
    t.rc.phase = .starting ∧ t.rc.target = 10 ∧ t.ctl.zeroWrite = true := by decide +kernel

/-- R167, R169: below 2.0 V on VBAK the latch is lost, and the next power-on raises RETAIN_LOST. -/
theorem test_retention :
    let s := after (.powerOnThresholdFall 0 1999) saved
    let t := after (.powerOnDelayEnd 3900 3) s
    s.resume.latch = false ∧ t.flag .retainLost = true ∧ (resumeAt t 0).valid = false ∧
    t.ctl.params.playBase = 0x3FD000 := by decide +kernel

/-- A step takes the front command, and an empty queue passes one cycle. -/
theorem test_step :
    step { base with pending := [.shkFall] } = .next (after .shkFall base) ∧
    (match step base with | .next t => t.clock.blockDiv | _ => 0) = 1 := ⟨rfl, by decide +kernel⟩

/-- R48, R130, R178: a header that waits in port D's held request is marked stale at a publication, though an
APPLY has moved the intake window since it arrived. -/
theorem test_held_header_after_move :
    let b : PortRequest := { port := .d, addr := 0xFFE000, transfer := .write [⟨0x80000005, 15, false⟩] }
    let s := after (.portRequestArrive b) (handing 1 7 (playing .streaming))
    let moved := s.onCtl fun c => { c with params := { c.params with intakeBase := 0x400000 } }
    (s.router.reqD.map fun r => (r.held, r.main.map Beat.region)) = some (true, [.intake]) ∧
    (publish 3 true s).intake.staleHeld = true ∧ (publish 3 true moved).intake.staleHeld = true := by
  decide +kernel

/-! ### A withdrawal that leaves no engine client returns the wait count to 0 (R140, R142) -/

/-- The wait count stands at 3. -/
def waited (s : State) : State := s.onArb fun a => { a with waitCount := 3 }

/-- The zero-write of an earlier command is withdrawn and a new one asked for. -/
theorem test_take_withdraws_zeroWrite :
    (after .pause (waited (withDisc.onCtl fun c => { c with zeroWrite := true }))).arb.waitCount = 0 := by
  decide +kernel

/-- Another client still waits. -/
theorem test_take_with_a_client_waiting :
    (after .pause (waited (withDisc.onIntake fun i => { i with flagJobs := [⟨0, [0]⟩] }))).arb.waitCount = 3 := by
  decide +kernel

/-- GAPFETCH with the reads of an alignment presented, and disc 7 in the ring. -/
def alignmentReads : State :=
  waited ((playing .gapFetch).onMe fun _ => { (aligned .readFlags .aligning).me with fetch := [frameItem 0 0 5] })

theorem test_break_withdraws_alignment :
    engineClients alignmentReads = [.matcher] ∧
    (after .shockEvent alignmentReads).rc.phase = .lost ∧
    engineClients (after .shockEvent alignmentReads) = [.recovery] ∧
    (after .shockEvent alignmentReads).arb.waitCount = 0 := by
  decide +kernel

end Sys2Proof.Tests
end

section
/-! PROOFS. Time and the release of RSTn (00): what the admission of waiting requests leaves unchanged, what
one REFCLK cycle does to the dividers and the queue, and the state in which a release of RSTn leaves the part. -/
namespace Sys2Proof.Machine

/-! ### The admission of waiting requests touches the router only -/

section
variable (s : State)

theorem setRequest_eq_onRouter (port : Port) (r : Option ActiveRequest) :
    setRequest port r s = s.onRouter fun _ => (setRequest port r s).router := by
  cases port <;> rfl

theorem admitEach_eq_onRouter (l : List PortRequest) :
    admitEach l s = s.onRouter fun _ => (admitEach l s).router := by
  induction l generalizing s with
  | nil => rfl
  | cons r rest ih =>
    unfold admitEach
    split
    · rw [ih, setRequest_eq_onRouter]
      rfl
    · rw [ih]
      rfl

/-- The frame of an admission (R129): every field but the router is read off this equation. -/
theorem admitWaiting_eq_onRouter : admitWaiting s = s.onRouter fun _ => (admitWaiting s).router := by
  unfold admitWaiting
  rw [admitEach_eq_onRouter]
  rfl

theorem admitWaiting_pending : (admitWaiting s).pending = s.pending := by rw [admitWaiting_eq_onRouter]; rfl

theorem admitWaiting_pins : (admitWaiting s).pins = s.pins := by rw [admitWaiting_eq_onRouter]; rfl

theorem admitWaiting_clock : (admitWaiting s).clock = s.clock := by rw [admitWaiting_eq_onRouter]; rfl

variable {s}

theorem admitWaiting_of_waiting_nil (h : s.router.waiting = []) : admitWaiting s = s := by
  have hr : ({ s.router with waiting := [] } : Router) = s.router := by rw [← h]
  unfold admitWaiting
  rw [h]
  show ({ s with router := { s.router with waiting := [] } } : State) = s
  rw [hr]

end

/-! ### The dividers (R1) -/

theorem divide_eq_mod {period n : Nat} (h : n < period) : divide period n = (n + 1) % period := by
  unfold divide
  split
  case isTrue hwrap => rw [hwrap, Nat.mod_self]
  case isFalse hne => exact (Nat.mod_eq_of_lt (by omega)).symm

theorem divide_eq_zero_iff (period n : Nat) : divide period n = 0 ↔ n + 1 = period := by
  unfold divide
  split <;> omega

/-! ### The rows that fall due -/

@[simp] theorem mem_due {b : Bool} {c d : Instr} : c ∈ due b d ↔ b = true ∧ c = d := by
  cases b <;> simp [due]

/-- The rows that the ends of the dividers append (R1). -/
inductive DividerRow : Instr → Prop where
  | boundary : DividerRow .blockPeriodBoundary
  | tick (tray : TrayLevel) : DividerRow (.tick tray)

section
variable {c : Instr} (s : State)

/-- The latch holds a command, and no code spells a row of elapsed time. -/
theorem DividerRow.not_mem_latchedCommand (hc : DividerRow c) : c ∉ latchedCommand s := by
  unfold latchedCommand
  cases hc
  all_goals
    split
    · exact List.not_mem_nil
    · split <;> simp

theorem DividerRow.not_mem_edgeRow (hc : DividerRow c) : c ∉ edgeRow s := by
  unfold edgeRow
  cases hc
  all_goals split <;> simp

theorem DividerRow.not_mem_ownRows (hc : DividerRow c) : c ∉ ownRows s := by
  unfold ownRows
  simp only [List.mem_append, hc.not_mem_latchedCommand, hc.not_mem_edgeRow, mem_due]
  cases hc <;> simp

theorem boundary_mem_timedRows : .blockPeriodBoundary ∈ timedRows s ↔ s.clock.blockDiv = 0 := by
  simp [timedRows]

theorem tick_mem_timedRows (tray : TrayLevel) :
    .tick tray ∈ timedRows s ↔ s.clock.tickDiv = 0 ∧ tray = s.pins.tray := by
  simp [timedRows]

end

/-! ### One cycle out of reset (log 6) -/

/-- The state in which a cycle out of reset looks for the rows that have fallen due. -/
def timersRun (s : State) : State := runSnapshot (runSupply (runFilters (runDividers (admitWaiting s))))

section
variable {s : State}

theorem clockCycle_out_of_reset (h : inReset s = false) :
    clockCycle s = enqueue (timedRows (timersRun s) ++ ownRows (timersRun s)) (timersRun s) := by
  unfold clockCycle
  rw [h]
  rfl

theorem timersRun_pending : (timersRun s).pending = s.pending := admitWaiting_pending s

theorem timersRun_pins : (timersRun s).pins = s.pins := admitWaiting_pins s

theorem timersRun_clock :
    (timersRun s).clock =
      { blockDiv := divide Config.blockPeriodCycles s.clock.blockDiv
        tickDiv := divide Config.tickCycles s.clock.tickDiv } := by
  rw [← admitWaiting_clock s]
  rfl

theorem clockCycle_clock (h : inReset s = false) :
    (clockCycle s).clock =
      { blockDiv := divide Config.blockPeriodCycles s.clock.blockDiv
        tickDiv := divide Config.tickCycles s.clock.tickDiv } := by
  rw [clockCycle_out_of_reset h, ← timersRun_clock]
  rfl

/-- Of the rows a cycle appends to an empty queue, only the rows of elapsed times hold a divider row. -/
theorem dividerRow_mem_clockCycle {c : Instr} (hc : DividerRow c) (hq : s.pending = [])
    (h : inReset s = false) : c ∈ (clockCycle s).pending ↔ c ∈ timedRows (timersRun s) := by
  have hp : (clockCycle s).pending = timedRows (timersRun s) ++ ownRows (timersRun s) := by
    rw [clockCycle_out_of_reset h]
    show (timersRun s).pending ++ _ = _
    rw [timersRun_pending, hq, List.nil_append]
  rw [hp, List.mem_append, or_iff_left (hc.not_mem_ownRows _)]

theorem boundary_mem_clockCycle (hq : s.pending = []) (h : inReset s = false) :
    .blockPeriodBoundary ∈ (clockCycle s).pending ↔ s.clock.blockDiv + 1 = Config.blockPeriodCycles := by
  rw [dividerRow_mem_clockCycle .boundary hq h, boundary_mem_timedRows, timersRun_clock, divide_eq_zero_iff]

theorem tick_mem_clockCycle (tray : TrayLevel) (hq : s.pending = []) (h : inReset s = false) :
    .tick tray ∈ (clockCycle s).pending ↔ s.clock.tickDiv + 1 = Config.tickCycles ∧ tray = s.pins.tray := by
  rw [dividerRow_mem_clockCycle (.tick tray) hq h, tick_mem_timedRows, timersRun_clock, timersRun_pins,
    divide_eq_zero_iff]

theorem step_of_pending_nil (hq : s.pending = []) : step s = .next (clockCycle s) := by
  unfold step
  rw [hq]

end

/-- Settles O2: with an empty queue the step is one cycle, whose divider rows are those of the dividers' ends. -/
theorem idleCycleRunsDividers : Obligations.IdleCycleRunsDividers := by
  intro s hq hr hblock htick
  refine ⟨clockCycle s, step_of_pending_nil hq, ?_, ?_, ?_, ?_⟩
  · rw [clockCycle_clock hr]
    exact divide_eq_mod hblock
  · rw [clockCycle_clock hr]
    exact divide_eq_mod htick
  · rw [boundary_mem_clockCycle hq hr]
    exact Nat.succ_inj
  · rw [tick_mem_clockCycle _ hq hr, and_iff_left rfl]
    exact Nat.succ_inj

/-! ### The release of RSTn (R1, R130, R143; log 28) -/

section
variable {s : State} (straps : BitVec 2)

/-- Sampling the straps ends no reset condition: it leaves the pins and the held reset alone. -/
theorem inReset_sampleStraps : inReset (sampleStraps straps s) = inReset s := rfl

/-- With no request waiting, a reset that has ended leaves the blocks as they stand (R143). -/
theorem resetEnds_of_waiting_nil (h : s.router.waiting = []) : resetEnds s = s := by
  unfold resetEnds
  rw [admitWaiting_of_waiting_nil h, ite_self]

/-- Out of the held reset, a release with no request waiting leaves every block in its reset state under the
new straps. -/
theorem rstnRelease_out_of_held (hrst : s.pins.rstn = true) (hheld : s.supply.held = false)
    (hw : s.router.waiting = []) :
    rstnRelease straps s = sampleStraps straps (s.onPins fun p => { p with rstn := false, pblk := straps }) := by
  unfold rstnRelease
  rw [if_pos hrst]
  dsimp only
  rw [State.onPins_supply, hheld]
  exact resetEnds_of_waiting_nil hw

end

/-- Settles O60: the released part stands in the reset state of the sampled straps, and no reset condition
is left. -/
theorem rstnReleaseSamplesStraps : Obligations.RstnReleaseSamplesStraps := by
  intro straps s hrst hheld hw
  refine ⟨_, congrArg Host.Outcome.next (rstnRelease_out_of_held straps hrst hheld hw), ?_,
    rfl, rfl, rfl, rfl, rfl, rfl, rfl, rfl, rfl, rfl⟩
  rw [inReset_sampleStraps]
  unfold inReset
  rw [State.onPins_supply, hheld]
  rfl

end Sys2Proof.Machine
end

section
/-! PROOFS. The invariant (O4, O5): it holds at reset, and each command and each REFCLK cycle keeps it. -/
namespace Sys2Proof.Machine

/-! ### At reset -/

/-- Settles O4: every clause is read off the reset values; the ring's 512 slots are all FREE. -/
theorem invariantAtReset : Obligations.InvariantAtReset :=
  ⟨⟨State.reset_mem_wf,
    ⟨Nat.zero_le _, ⟨List.length_replicate, Nat.zero_le _, Nat.zero_lt_succ 31⟩, Nat.zero_le _, Nat.zero_le _,
      quality_reset_ok, Nat.zero_le _, lines_reset_ok, List.length_replicate⟩,
    defaults_ok 0, slotsOwned_replicate _, trivial, distinct_first⟩, fun _ => rfl⟩

/-! ### Every step keeps it -/

/-- The queue and the invariant, and nothing else, are asked for. -/
def Mask.invariant : Mask := { flags := false, entries := false, latch := false, parked := true }

section
variable {M : Mask} {o s : State}

theorem live_kept {f : State → State} (hf : ∀ {u : State}, Kept M o u → Kept M o (f u)) (h : Kept M o s) :
    Kept M o (live f s) := Kept.ite h (hf h)

/-- Appending rows to the queue touches no block. -/
theorem enqueue_inv (l : List Instr) (i : s.Inv) : (enqueue l s).Inv := i

theorem clockCycle_inv (i : s.Inv) : (clockCycle s).Inv := by
  unfold clockCycle
  split
  · exact enqueue_inv _ ((runDelay_kept (.refl .invariant s)).inv rfl i)
  · exact enqueue_inv _ ((runSnapshot_kept (runSupply_kept (runFilters_kept (runDividers_kept
      (admitWaiting_kept (.refl .invariant s)))))).inv rfl i)

/-- Every command keeps the queue and the invariant, whatever it does to flags, entries and latch. -/
theorem exec_kept (hf : M.flags = false) (he : M.entries = false) (hl : M.latch = false) (c : Instr)
    {t : State} (h : Kept M o s) (ht : exec c s = .next t) : Kept M o t := by
  cases c <;> cases ht
  case start x => exact live_kept (issue_kept _ _ _ one_le_two fun _ => startTaken_kept _) h
  case load f x => exact live_kept (issue_kept _ _ _ le_rfl fun _ => loadTaken_kept _ _) h
  case eject => exact live_kept (issue_kept _ _ _ (Nat.zero_le _) fun _ => ejectTaken_kept) h
  case pause => exact live_kept (issue_kept _ _ _ (Nat.zero_le _) fun _ => pauseTaken_kept) h
  case play => exact live_kept (issue_kept _ _ _ (Nat.zero_le _) fun _ => playTaken_kept) h
  case apply => exact live_kept (issue_kept _ _ _ (Nat.zero_le _) fun _ => applyTaken_kept) h
  case forget f => exact live_kept (issue_kept _ _ _ one_le_two fun _ => forgetTaken_kept _) h
  case badCommand code =>
    exact live_kept (fun k => k.ite (issue_kept _ _ _ (Nat.zero_le _) (fun _ => complete_kept _ _) k)) h
  case parameterWordWrite =>
    exact live_kept (fun k => (settleArbiter_kept (parameterBeat_kept _ _ _ (fun _ => hf) k)).ite k) h
  case enableWordWrite => exact live_kept (parameterBeat_kept _ _ _ fun _ => hf) h
  case acknowledgeWordWrite => exact live_kept (parameterBeat_kept _ _ _ fun _ => hf) h
  case captureFirstWordRead => exact live_kept (readCaptureWord_kept _) h
  case captureLastWordRead => exact live_kept (readCaptureWord_kept _) h
  case portRequestArrive r => exact requestArrives_kept r h
  case memoryGrant => exact live_kept (memoryGrant_kept hf) h
  case protectedBeat => exact live_kept (protectedBeat_kept _ _ _) h
  case intakeHeader => exact live_kept (intakeBeat_kept _) h
  case intakeFrame => exact live_kept (fun k => (intakeBeat_kept _ k).ite k) h
  case intakeUnusedBeat => exact live_kept (fun k => (intakeBeat_kept _ k).ite k) h
  case blockReport => exact live_kept blockReport_kept h
  case shockEvent => exact live_kept shockEvent_kept h
  case shkFall => exact live_kept shkFall_kept h
  case trackLostEvent => exact live_kept trackLost_kept h
  case trackRegainedEvent => exact live_kept trackRegained_kept h
  case tailCaptureEnd => exact live_kept tailCaptureEnd_kept h
  case blockPeriodBoundary => exact live_kept blockPeriodBoundary_kept h
  case deadlineExpiry => exact live_kept deadlineExpiry_kept h
  case evaluationEnd => exact live_kept evaluationEnd_kept h
  case spliceRetry => exact live_kept (fun k => settleArbiter_kept (spliceRetry_kept k)) h
  case bridgeRetry => exact live_kept (fun k => settleArbiter_kept (bridgeRetry_kept k)) h
  case alignmentEnd => exact live_kept alignmentEnd_kept h
  case mergeFramesWritten => exact live_kept mergeFramesWritten_kept h
  case mergeFlagMapWritten => exact live_kept mergeFlagMapWritten_kept h
  case burstTake => exact live_kept burstTake_kept h
  case burstComplete => exact live_kept burstComplete_kept h
  case tick => exact live_kept (tickTaken_kept _) h
  case trayOpen => exact live_kept trayOpenTaken_kept h
  case trayClose => exact live_kept (edgeActs_kept _) h
  case snapshotWriteEnd => exact live_kept (snapshotWriteEnd_kept he) h
  case supplyFallTaken => exact live_kept (supplyFall_kept _) h
  case supplyRiseTaken => exact live_kept (supplyRise_kept _) h
  case firstSupplyCompare => exact live_kept (firstCompare_kept _) h
  case powerOnThresholdFall => exact thresholdFall_kept _ _ hf h
  case powerOnDelayEnd => exact powerOnDelayEnd_kept _ _ hf hl h
  case vbakLow => exact (watchVbak_kept _ h).ite h
  case rstnAssert => exact rstnAssert_kept hf h
  case rstnRelease => exact rstnRelease_kept _ h

end

/-- Settles O5: on an empty queue by what one cycle keeps, otherwise by what every command keeps. -/
theorem everyStepKeepsInvariant : Obligations.EveryStepKeepsInvariant := by
  intro s t i ht
  unfold step at ht
  split at ht
  case h_1 =>
    cases ht
    exact clockCycle_inv i
  case h_2 c rest _ =>
    exact (exec_kept rfl rfl rfl c (.refl .invariant { s with pending := rest }) ht).inv rfl i

end Sys2Proof.Machine
end

section
/-! PROOFS. Frames: which parts of the state an operation leaves as they are. -/
namespace Sys2Proof.Machine

/-- The parts of a state that an operation may change: the blocks, and the parts of a block that are often
kept by an operation that changes the block (`params` and `counters` of `ctl`, `segs` and `slots` of `map` and
the number of slots `ring`, `record` of `rc`, `hold` of `intake`). -/
inductive Part where
  | pending | pins | clock | mem | router | arb | intake | map | rc | me | gaps | quality | play | lines
  | resume | supply | ctl | eject | params | counters | segs | slots | ring | record | hold
deriving DecidableEq, Repr

/-- `t` agrees with `s` on a part. -/
def State.agrees (s t : State) : Part → Prop
  | .pending => t.pending = s.pending
  | .pins => t.pins = s.pins
  | .clock => t.clock = s.clock
  | .mem => t.mem = s.mem
  | .router => t.router = s.router
  | .arb => t.arb = s.arb
  | .intake => t.intake = s.intake
  | .map => t.map = s.map
  | .rc => t.rc = s.rc
  | .me => t.me = s.me
  | .gaps => t.gaps = s.gaps
  | .quality => t.quality = s.quality
  | .play => t.play = s.play
  | .lines => t.lines = s.lines
  | .resume => t.resume = s.resume
  | .supply => t.supply = s.supply
  | .ctl => t.ctl = s.ctl
  | .eject => t.eject = s.eject
  | .params => t.ctl.params = s.ctl.params
  | .counters => t.ctl.counters = s.ctl.counters
  | .segs => t.map.segs = s.map.segs
  | .slots => t.map.slots = s.map.slots
  | .ring => t.map.slots.length = s.map.slots.length
  | .record => t.rc.record = s.rc.record
  | .hold => t.intake.hold = s.intake.hold

/-- `t` follows from `s` by an operation that changes no part outside `l`. -/
def Touches (l : List Part) (s t : State) : Prop := ∀ b, l.contains b = false → s.agrees t b

section
variable {l k : List Part} {s t u : State}

theorem Touches.refl (l : List Part) (s : State) : Touches l s s := fun b _ => by cases b <;> rfl

theorem Touches.mono (h : Touches k s t) (hk : k.all l.contains = true) : Touches l s t :=
  fun b hb => h b (Bool.eq_false_iff.mpr fun hm => by
    rw [List.all_eq_true.mp hk b (List.elem_iff.mp hm)] at hb
    exact Bool.noConfusion hb)

theorem Touches.comp (h : Touches l s t) (h' : Touches k t u) : Touches (l ++ k) s u := fun b hb => by
  rw [List.contains_append, Bool.or_eq_false_iff] at hb
  have h1 := h b hb.1
  have h2 := h' b hb.2
  cases b <;> exact Eq.trans h2 h1

theorem Touches.ite {p : Prop} [Decidable p] (h : Touches l s t) (h' : Touches l s u) :
    Touches l s (if p then t else u) := by split <;> assumption

theorem Touches.foldl {α : Type} {f : State → α → State} (hf : ∀ s x, Touches l s (f s x)) (xs : List α)
    (s : State) : Touches l s (xs.foldl f s) := by
  induction xs generalizing s with
  | nil => exact .refl l s
  | cons x xs ih => exact ((hf s x).comp (ih (f s x))).mono (by simp)

/-! ### What a frame says of each part -/

section
variable (h : Touches l s t)
include h
theorem Touches.mem (hm : l.contains .mem = false) : t.mem = s.mem := h .mem hm
theorem Touches.router (hm : l.contains .router = false) : t.router = s.router := h .router hm
theorem Touches.intake (hm : l.contains .intake = false) : t.intake = s.intake := h .intake hm
theorem Touches.map (hm : l.contains .map = false) : t.map = s.map := h .map hm
theorem Touches.rc (hm : l.contains .rc = false) : t.rc = s.rc := h .rc hm
theorem Touches.me (hm : l.contains .me = false) : t.me = s.me := h .me hm
theorem Touches.gaps (hm : l.contains .gaps = false) : t.gaps = s.gaps := h .gaps hm
theorem Touches.quality (hm : l.contains .quality = false) : t.quality = s.quality := h .quality hm
theorem Touches.play (hm : l.contains .play = false) : t.play = s.play := h .play hm
theorem Touches.lines (hm : l.contains .lines = false) : t.lines = s.lines := h .lines hm
theorem Touches.ctl (hm : l.contains .ctl = false) : t.ctl = s.ctl := h .ctl hm
theorem Touches.params (hm : l.contains .params = false) : t.ctl.params = s.ctl.params := h .params hm
theorem Touches.segs (hm : l.contains .segs = false) : t.map.segs = s.map.segs := h .segs hm
theorem Touches.slots (hm : l.contains .slots = false) : t.map.slots = s.map.slots := h .slots hm
theorem Touches.ring (hm : l.contains .ring = false) : t.map.slots.length = s.map.slots.length := h .ring hm
theorem Touches.record (hm : l.contains .record = false) : t.rc.record = s.rc.record := h .record hm
theorem Touches.hold (hm : l.contains .hold = false) : t.intake.hold = s.intake.hold := h .hold hm

theorem Touches.count (c : Counter) (hm : l.contains .counters = false) : t.count c = s.count c := by
  have e : t.ctl.counters = s.ctl.counters := h .counters hm
  unfold State.count
  rw [e]

theorem Touches.flag (f : EventFlag) (hm : l.contains .ctl = false) : t.flag f = s.flag f :=
  congrArg (fun c : Control => c.flags.getLsbD f.bit) (h.ctl hm)

theorem Touches.slotAt (n : Nat) (hm : l.contains .slots = false) : slotAt t n = slotAt s n :=
  congrArg (List.getD · n SlotDesc.free) (h.slots hm)

theorem Touches.freeCount (hm : l.contains .slots = false) : freeCount t = freeCount s :=
  congrArg (List.countP _) (h.slots hm)

theorem Touches.lead (hs : l.contains .segs = false) (hp : l.contains .play = false) : t.lead = s.lead := by
  unfold State.lead
  rw [h.segs hs, h.play hp]

theorem Touches.lastSeg (hs : l.contains .segs = false) : lastSeg t = lastSeg s :=
  congrArg List.getLast? (h.segs hs)

theorem Touches.openSeg (hs : l.contains .segs = false) : openSeg t = openSeg s := by
  unfold Machine.openSeg
  rw [h.lastSeg hs]
end

/-! ### The block updates -/

theorem onPins_touches (f : Pins → Pins) : Touches [.pins] s (s.onPins f) := fun b hb => by
  cases b <;> first | rfl | exact Bool.noConfusion hb

theorem onLines_touches (f : Lines → Lines) : Touches [.lines] s (s.onLines f) := fun b hb => by
  cases b <;> first | rfl | exact Bool.noConfusion hb

theorem onMem_touches (f : List Host.Cell → List Host.Cell) : Touches [.mem] s (s.onMem f) := fun b hb => by
  cases b <;> first | rfl | exact Bool.noConfusion hb

theorem onMe_touches (f : MatchEngine → MatchEngine) : Touches [.me] s (s.onMe f) := fun b hb => by
  cases b <;> first | rfl | exact Bool.noConfusion hb

theorem onGaps_touches (f : GapScheduler → GapScheduler) : Touches [.gaps] s (s.onGaps f) := fun b hb => by
  cases b <;> first | rfl | exact Bool.noConfusion hb

theorem onArb_touches (f : Arbiter → Arbiter) : Touches [.arb] s (s.onArb f) := fun b hb => by
  cases b <;> first | rfl | exact Bool.noConfusion hb

theorem onRouter_touches (f : Router → Router) : Touches [.router] s (s.onRouter f) := fun b hb => by
  cases b <;> first | rfl | exact Bool.noConfusion hb

theorem onQuality_touches (f : Quality → Quality) : Touches [.quality] s (s.onQuality f) := fun b hb => by
  cases b <;> first | rfl | exact Bool.noConfusion hb

theorem onPlay_touches (f : PlayServer → PlayServer) : Touches [.play] s (s.onPlay f) := fun b hb => by
  cases b <;> first | rfl | exact Bool.noConfusion hb

theorem onRc_touches (f : Recovery → Recovery) (h : (f s.rc).record = s.rc.record) :
    Touches [.rc] s (s.onRc f) := fun b hb => by
  cases b <;> first | rfl | exact h | exact Bool.noConfusion hb

theorem onIntake_touches (f : Intake → Intake) (h : (f s.intake).hold = s.intake.hold) :
    Touches [.intake] s (s.onIntake f) := fun b hb => by
  cases b <;> first | rfl | exact h | exact Bool.noConfusion hb

theorem onIntake_touches_hold (f : Intake → Intake) : Touches [.intake, .hold] s (s.onIntake f) := fun b hb => by
  cases b <;> first | rfl | exact Bool.noConfusion hb

/-- A change of the Stream Map that leaves the slots alone. -/
theorem onMap_touches (f : StreamMap → StreamMap) (h : (f s.map).slots = s.map.slots) :
    Touches [.map, .segs] s (s.onMap f) := fun b hb => by
  cases b <;> first | rfl | exact h | exact congrArg List.length h | exact Bool.noConfusion hb

/-- A change of the Stream Map that leaves slots and segments alone. -/
theorem onMap_touches_rest (f : StreamMap → StreamMap) (h : (f s.map).slots = s.map.slots)
    (h' : (f s.map).segs = s.map.segs) : Touches [.map] s (s.onMap f) := fun b hb => by
  cases b <;> first | rfl | exact h | exact h' | exact congrArg List.length h | exact Bool.noConfusion hb

/-! ### Flags, counters and slots -/

theorem raiseFlag_touches (f : EventFlag) : Touches [.ctl] s (raiseFlag f s) := fun b hb => by
  cases b <;> first | rfl | exact Bool.noConfusion hb

theorem bump_touches (c : Counter) : Touches [.ctl, .counters] s (bump c s) := fun b hb => by
  cases b <;> first | rfl | exact Bool.noConfusion hb

theorem setSlot_touches (n : Nat) (d : SlotDesc) : Touches [.map, .slots] s (setSlot n d s) := fun b hb => by
  cases b <;> first | rfl | exact List.length_set .. | exact Bool.noConfusion hb

theorem modSlot_touches (n : Nat) (f : SlotDesc → SlotDesc) : Touches [.map, .slots] s (modSlot n f s) :=
  setSlot_touches n _

theorem removeGap_touches (n : Nat) : Touches [.gaps, .map, .slots] s (removeGap n s) :=
  (onGaps_touches _).comp (modSlot_touches n _)

theorem freeSlot_touches (n : Nat) : Touches [.gaps, .map, .slots] s (freeSlot n s) :=
  (((removeGap_touches n).ite (.refl _ s)).comp (setSlot_touches n _)).mono rfl

theorem freeSlots_touches (ns : List Nat) : Touches [.gaps, .map, .slots] s (freeSlots ns s) :=
  .foldl (fun _ n => freeSlot_touches n) ns s

theorem stageSlot_touches (n label : Nat) : Touches [.map, .slots] s (stageSlot n label s) := modSlot_touches n _

theorem linkAs_touches (seg n label : Nat) : Touches [.gaps, .map, .slots] s (linkAs seg n label s).1 := by
  unfold linkAs
  split
  · exact freeSlot_touches n
  · exact (modSlot_touches n _).mono rfl

theorem linkOffered_touches (seg low : Nat) (bs : List StagedBlock) :
    Touches [.gaps, .map, .slots] s (linkOffered seg low bs s).1 := by
  induction bs generalizing s with
  | nil => exact .refl _ s
  | cons b bs ih =>
    unfold linkOffered
    split
    · exact ((freeSlot_touches b.slot).comp ih).mono rfl
    · exact ((linkAs_touches seg b.slot _).comp ih).mono rfl

/-! ### Segments -/

theorem modLastSeg_touches (f : Segment → Segment) : Touches [.map, .segs] s (modLastSeg f s) :=
  onMap_touches _ (by split <;> rfl)

theorem leadCheck_touches : Touches [.map, .ctl] s (leadCheck s) := by
  unfold leadCheck
  split
  · split
    · exact .refl _ s
    · exact ((onMap_touches_rest _ rfl rfl).comp (raiseFlag_touches _)).mono rfl
  · exact (onMap_touches_rest _ rfl rfl).mono rfl

theorem retireFront_touches : Touches [.map, .segs, .play] s (retireFront s) := by
  unfold retireFront
  split
  · exact .refl _ s
  · split
    · dsimp only
      split
      · exact ((onMap_touches _ rfl).comp (onPlay_touches _)).mono rfl
      · exact (onMap_touches _ rfl).mono rfl
    · exact .refl _ s

theorem closeOpen_touches : Touches [.map, .segs, .play, .ctl] s (closeOpen s) := by
  unfold closeOpen
  split
  · exact (((modLastSeg_touches _).comp retireFront_touches).comp leadCheck_touches).mono rfl
  · exact .refl _ s

theorem createSegment_touches (start : Nat) (shift : Int) (kind : HeadKind) (offered : List StagedBlock) :
    Touches [.map, .segs, .play, .ctl, .gaps, .slots] s (createSegment start shift kind offered s).1 := by
  unfold createSegment
  split
  · exact .refl _ s
  · exact ((((closeOpen_touches.comp (onMap_touches _ rfl)).comp (linkOffered_touches _ _ _)).comp
      (modLastSeg_touches _)).comp leadCheck_touches).mono rfl

theorem splice_touches (start : Nat) (shift : Int) (kind : HeadKind) (offered : List StagedBlock) :
    Touches [.map, .segs, .play, .ctl, .gaps, .slots] s (splice start shift kind offered s).1 := by
  unfold splice
  split
  · split
    · exact ((((modLastSeg_touches _).comp (linkOffered_touches _ _ _)).comp (modLastSeg_touches _)).comp
        leadCheck_touches).mono rfl
    · exact createSegment_touches _ _ _ _
  · exact createSegment_touches _ _ _ _

theorem truncateOpen_touches (p : Nat) :
    Touches [.map, .segs, .play, .ctl, .gaps, .slots] s (truncateOpen p s) := by
  unfold truncateOpen
  split
  · exact .refl _ s
  · exact ((((freeSlots_touches _).comp (modLastSeg_touches _)).comp
      (((onMap_touches _ rfl).mono (l := [.map, .segs, .play]) rfl).ite retireFront_touches)).comp leadCheck_touches).mono rfl

/-! ### Publication and failed attempts -/

theorem markStale_touches : Touches [.map, .slots, .intake] s (markStale s) := by
  unfold markStale
  dsimp only
  split
  case h_1 n _ =>
    have h := ((modSlot_touches n fun d => { d with stale := true }).mono (l := [.map, .slots, .intake]) rfl).ite
      (p := (slotAt s n).state = .filling) (.refl _ s)
    exact ((h.comp (onIntake_touches _ rfl)).mono rfl).ite h
  case h_2 => exact ((onIntake_touches _ rfl).mono rfl).ite (.refl _ s)

theorem publish_touches (label : Nat) (loads : Bool) :
    Touches [.map, .slots, .intake, .rc] s (publish label loads s) :=
  markStale_touches.comp (onRc_touches _ rfl)

theorem dropRrq_touches : Touches [.rc] s (dropRrq s) := onRc_touches _ rfl

theorem enterSeeking_touches : Touches [.map, .slots, .intake, .rc] s (enterSeeking s) :=
  ((onRc_touches _ rfl).comp (publish_touches _ _)).mono rfl

theorem enterBridging_touches : Touches [.map, .slots, .intake, .rc] s (enterBridging s) :=
  ((onRc_touches _ rfl).comp (publish_touches _ _)).mono rfl

theorem clearAttempt_touches : Touches [.me] s (clearAttempt s) := onMe_touches _

theorem freeRun_touches : Touches [.gaps, .map, .slots, .rc] s (freeRun s) :=
  (freeSlots_touches _).comp (onRc_touches _ rfl)

theorem attemptFail_touches : Touches [.me, .gaps, .map, .slots, .intake, .rc] s (attemptFail s) := by
  have h := (clearAttempt_touches.comp freeRun_touches).comp (dropRrq_touches (s := freeRun (clearAttempt s)))
  unfold attemptFail
  dsimp only
  split
  · exact ((h.comp (onRc_touches _ rfl)).comp enterSeeking_touches).mono rfl
  · exact (h.comp enterBridging_touches).mono rfl

/-! ### Intake -/

theorem holdTest_touches : Touches [.intake, .hold, .rc] s (holdTest s) :=
  ((onIntake_touches_hold _).comp (onRc_touches _ rfl)).ite (.refl _ s)

theorem dropFilling_touches : Touches [.gaps, .map, .slots, .intake] s (dropFilling s) := by
  unfold dropFilling
  dsimp only
  split
  · exact ((((freeSlot_touches _).ite (.refl _ s)).comp (onIntake_touches _ rfl))).mono rfl
  · exact (onIntake_touches _ rfl).mono rfl

theorem finishD_touches : Touches [.router] s (finishD s) := by
  unfold finishD
  split
  · exact (onRouter_touches _).ite (.refl _ s)
  · exact .refl _ s

theorem settleArbiter_touches : Touches [.arb] s (settleArbiter s) := (onArb_touches _).ite (.refl _ s)

/-! ### The Match Engine -/

theorem loadCandidate_touches : Touches [.me] s (loadCandidate s) := onMe_touches _

theorem tryEvaluate_touches : Touches [.me] s (tryEvaluate s) := by
  unfold tryEvaluate
  split
  · exact (((onMe_touches _).comp loadCandidate_touches).mono rfl).ite (.refl _ s)
  · exact .refl _ s

theorem endAlignment_touches : Touches [.me] s (endAlignment s) := onMe_touches _

theorem beginAlignment_touches (label slot : Nat) (blocks : List StagedBlock) :
    Touches [.me] s (beginAlignment label slot blocks s) := onMe_touches _

/-! ### Gaps and quality -/

theorem gapEntryDecision_touches (n label erasures first : Nat) :
    Touches [.gaps, .map, .slots, .ctl, .counters] s (gapEntryDecision n label erasures first s) := by
  unfold gapEntryDecision
  split
  · exact (((onGaps_touches _).comp (modSlot_touches n _)).mono rfl).ite ((bump_touches _).mono rfl)
  · exact .refl _ s

theorem emptyGaps_touches : Touches [.gaps, .map, .slots] s (emptyGaps s) :=
  .foldl (fun _ (e : GapEntry) => removeGap_touches e.slot) _ s

theorem setQuality_touches (counter : Nat) (level : QualityLevel) :
    Touches [.quality, .ctl] s (setQuality counter level s) :=
  (((onQuality_touches _).comp (raiseFlag_touches _)).mono rfl).ite ((onQuality_touches _).mono rfl)

theorem qualityRise_touches : Touches [.quality, .ctl, .gaps, .map, .slots] s (qualityRise s) := by
  unfold qualityRise
  split
  · exact .refl _ s
  · exact ((((setQuality_touches _ _).comp (onQuality_touches _)).comp emptyGaps_touches).mono rfl).ite
      ((setQuality_touches _ _).mono rfl)

theorem qualityReport_touches (erasures : Nat) :
    Touches [.quality, .ctl, .gaps, .map, .slots] s (qualityReport erasures s) := by
  unfold qualityReport
  split
  · split
    · exact (((setQuality_touches _ _).comp (onQuality_touches _)).mono rfl).ite ((onQuality_touches _).mono rfl)
    · exact (onQuality_touches _).mono rfl
  · split
    · exact qualityRise_touches
    · exact ((setQuality_touches _ _).mono rfl).ite (.refl _ s)

theorem endFetch_touches : Touches [.gaps, .map, .slots] s (endFetch s) := by
  unfold endFetch
  split
  · exact ((freeSlots_touches _).comp (onGaps_touches _)).mono rfl
  · exact .refl _ s

theorem abandonFetch_touches : Touches [.me, .gaps, .map, .slots] s (abandonFetch s) := by
  unfold abandonFetch
  split
  · exact (onGaps_touches _).mono rfl
  · exact ((endAlignment_touches.ite (.refl _ s)).comp endFetch_touches).mono rfl

/-! ### Breaks, captures, returns -/

theorem recordBreak_touches (c : Cause) (retries : Nat) (pending : Bool) :
    Touches [.rc, .record, .ctl, .counters] s (recordBreak c retries pending s) := by
  have h : Touches [.rc, .record] s (fillRecord c retries pending s) := fun b hb => by
    cases b <;> first | rfl | exact Bool.noConfusion hb
  exact ((h.comp (raiseFlag_touches _)).comp (bump_touches _)).mono rfl

theorem startCapture_touches (returns : Bool) : Touches [.rc] s (startCapture returns s) :=
  ((onRc_touches _ rfl).comp (onRc_touches _ rfl)).mono rfl

theorem takeReturn_touches (c : Cause) : Touches [.map, .segs, .play, .ctl, .rc] s (takeReturn c s) :=
  ((closeOpen_touches.comp (onRc_touches _ rfl)).comp (startCapture_touches true)).mono rfl

theorem holdReturn_touches : Touches [.intake, .hold, .map, .segs, .play, .ctl, .rc] s (holdReturn s) :=
  ((onIntake_touches_hold _).comp (takeReturn_touches _)).mono rfl

theorem fetchTest_touches : Touches [.gaps, .map, .slots, .intake, .rc] s (fetchTest s) := by
  unfold fetchTest
  split
  · exact .refl _ s
  · exact ((((onGaps_touches _).comp (onRc_touches _ rfl)).comp (publish_touches _ _)).mono rfl).ite (.refl _ s)

theorem enterStreaming_touches : Touches [.intake, .hold, .rc, .gaps, .map, .slots] s (enterStreaming s) :=
  (((onRc_touches _ rfl).comp holdTest_touches).comp fetchTest_touches).mono rfl

theorem headFormed_touches (top : Nat) :
    Touches [.me, .intake, .hold, .rc, .gaps, .map, .slots] s (headFormed top s) :=
  ((clearAttempt_touches.comp (onRc_touches _ rfl)).comp enterStreaming_touches).mono rfl

end

end Sys2Proof.Machine
end

section
/-! PROOFS. Laws of the shared operations: a command out of reset, slots and their count, publication, failed
attempts, and the tests of the FREE slot count. -/
namespace Sys2Proof.Machine

section
variable {s : State}

/-! ### A command out of reset -/

theorem live_eq {f : State → State} (h : inReset s = false) : live f s = f s := by
  unfold live
  rw [h]
  rfl

theorem next_live {f : State → State} (h : inReset s = false) :
    (.next (live f s) : Host.Outcome State Fault Refusal) = .next (f s) := congrArg _ (live_eq h)

/-! ### Slots (R4, R9) -/

theorem slotAt_of_getElem? {n : Nat} {d : SlotDesc} (h : s.map.slots[n]? = some d) : slotAt s n = d := by
  unfold slotAt
  rw [List.getD_eq_getElem?_getD, h]
  rfl

theorem getElem?_of_lt {n : Nat} (h : n < s.map.slots.length) : s.map.slots[n]? = some (slotAt s n) := by
  unfold slotAt
  rw [List.getD_eq_getElem?_getD, List.getElem?_eq_getElem h]
  rfl

/-- Past the last slot there is only the FREE descriptor. -/
theorem slotAt_of_ge {n : Nat} (h : s.map.slots.length ≤ n) : slotAt s n = SlotDesc.free := by
  unfold slotAt
  rw [List.getD_eq_getElem?_getD, List.getElem?_eq_none h]
  rfl

theorem lt_of_slotAt_ne_free {n : Nat} (h : slotAt s n ≠ SlotDesc.free) : n < s.map.slots.length :=
  Nat.lt_of_not_le fun hn => h (slotAt_of_ge hn)

theorem slotAt_setSlot_same {n : Nat} {d : SlotDesc} (h : n < s.map.slots.length) : slotAt (setSlot n d s) n = d := by
  refine slotAt_of_getElem? ?_
  show (s.map.slots.set n d)[n]? = some d
  rw [List.getElem?_set_self h]

theorem slotAt_setSlot_of_ne {n k : Nat} {d : SlotDesc} (h : k ≠ n) : slotAt (setSlot n d s) k = slotAt s k := by
  show (s.map.slots.set n d).getD k _ = s.map.slots.getD k _
  rw [List.getD_eq_getElem?_getD, List.getElem?_set_ne (Ne.symm h), ← List.getD_eq_getElem?_getD]

theorem slotAt_setSlot {n : Nat} {d : SlotDesc} (h : n < s.map.slots.length) (k : Nat) :
    slotAt (setSlot n d s) k = if k = n then d else slotAt s k := by
  split
  case isTrue hk => rw [hk, slotAt_setSlot_same h]
  case isFalse hk => exact slotAt_setSlot_of_ne hk

theorem slotAt_modSlot {n : Nat} {f : SlotDesc → SlotDesc} (h : n < s.map.slots.length) (k : Nat) :
    slotAt (modSlot n f s) k = if k = n then f (slotAt s n) else slotAt s k := slotAt_setSlot h k

theorem slotAt_modSlot_of_ne {n k : Nat} {f : SlotDesc → SlotDesc} (h : k ≠ n) :
    slotAt (modSlot n f s) k = slotAt s k := slotAt_setSlot_of_ne h

theorem slotAt_setSlot_free (n k : Nat) :
    slotAt (setSlot n SlotDesc.free s) k = if k = n then SlotDesc.free else slotAt s k := by
  rcases Nat.lt_or_ge n s.map.slots.length with h | h
  · exact slotAt_setSlot h k
  · split
    case isTrue hk =>
      refine slotAt_of_ge ?_
      rw [(setSlot_touches n _).ring rfl, hk]
      exact h
    case isFalse hk => exact slotAt_setSlot_of_ne hk

theorem slotAt_removeGap_of_ne {n k : Nat} (h : k ≠ n) : slotAt (removeGap n s) k = slotAt s k :=
  slotAt_modSlot_of_ne h

theorem slotAt_removeGap_same {n : Nat} (h : n < s.map.slots.length) :
    slotAt (removeGap n s) n = { slotAt s n with gapMark := false } := by
  have := slotAt_modSlot (s := s.onGaps fun g => { g with entries := g.entries.filter fun e => e.slot != n })
    (f := fun d => { d with gapMark := false }) h n
  rwa [if_pos rfl] at this

/-- A slot made FREE has the FREE values, and no other slot changes (R4, R19). -/
theorem slotAt_freeSlot (n k : Nat) :
    slotAt (freeSlot n s) k = if k = n then SlotDesc.free else slotAt s k := by
  unfold freeSlot
  rw [slotAt_setSlot_free]
  split
  case isTrue => rfl
  case isFalse hk =>
    split
    · exact slotAt_removeGap_of_ne hk
    · rfl

theorem slotAt_freeSlots (ns : List Nat) (k : Nat) :
    slotAt (freeSlots ns s) k = if k ∈ ns then SlotDesc.free else slotAt s k := by
  induction ns generalizing s with
  | nil => rfl
  | cons n ns ih =>
    show slotAt (freeSlots ns (freeSlot n s)) k = _
    rw [ih, slotAt_freeSlot]
    by_cases hk : k = n <;> by_cases hm : k ∈ ns <;> simp [hk, hm]

/-- Without a gap mark only the descriptor changes. -/
theorem freeSlot_of_unmarked {n : Nat} (h : (slotAt s n).gapMark = false) :
    freeSlot n s = setSlot n SlotDesc.free s := by
  unfold freeSlot
  rw [h]
  rfl

/-- What a change of one descriptor does to the FREE slot count (R9). -/
theorem freeCount_setSlot {n : Nat} (d : SlotDesc) (h : n < s.map.slots.length) :
    freeCount (setSlot n d s) + (if (slotAt s n).state = .free then 1 else 0) =
      freeCount s + (if d.state = .free then 1 else 0) := by
  have hn : s.map.slots[n] = slotAt s n := by
    have := getElem?_of_lt h
    rw [List.getElem?_eq_getElem h] at this
    exact Option.some.inj this
  show (s.map.slots.set n d).countP _ + _ = _
  rw [List.countP_set h, hn]
  have hpos : (slotAt s n).state = .free → 0 < freeCount s := fun hf =>
    List.countP_pos_iff.mpr ⟨_, List.getElem_mem h, by rw [hn]; simp [hf]⟩
  unfold freeCount at hpos ⊢
  simp only [beq_iff_eq]
  split <;> rename_i hf
  · have := hpos hf
    omega
  · omega

/-- A descriptor that changes but neither from nor to FREE leaves the count. -/
theorem freeCount_setSlot_same {n : Nat} {d : SlotDesc} (h : (slotAt s n).state ≠ .free) (hd : d.state ≠ .free) :
    freeCount (setSlot n d s) = freeCount s := by
  have hn := lt_of_slotAt_ne_free (s := s) (n := n) fun e => h (by rw [e]; rfl)
  have := freeCount_setSlot d hn
  rwa [if_neg h, if_neg hd] at this

/-- A change that leaves every slot's state leaves the count. -/
theorem freeCount_modSlot {n : Nat} {f : SlotDesc → SlotDesc} (hf : ∀ d, (f d).state = d.state) :
    freeCount (modSlot n f s) = freeCount s := by
  rcases Nat.lt_or_ge n s.map.slots.length with h | h
  · have := freeCount_setSlot (f (slotAt s n)) h
    rw [hf] at this
    unfold modSlot
    omega
  · show (s.map.slots.set n _).countP _ = s.map.slots.countP _
    rw [List.set_eq_of_length_le h]

/-- A slot in use made FREE adds one to the count. -/
theorem freeCount_freeSlot {n : Nat} (h : (slotAt s n).state ≠ .free) :
    freeCount (freeSlot n s) = freeCount s + 1 := by
  have hn := lt_of_slotAt_ne_free (s := s) (n := n) fun e => h (by rw [e]; rfl)
  unfold freeSlot
  split
  case isTrue =>
    have hr : n < (removeGap n s).map.slots.length := by rw [(removeGap_touches n).ring rfl]; exact hn
    have hs : (slotAt (removeGap n s) n).state = (slotAt s n).state := by rw [slotAt_removeGap_same hn]
    have := freeCount_setSlot SlotDesc.free hr
    rw [hs, if_neg h, if_pos (show SlotDesc.free.state = .free from rfl)] at this
    rw [← freeCount_modSlot (s := s) (n := n) (f := fun d => { d with gapMark := false }) fun _ => rfl]
    exact this
  case isFalse =>
    have := freeCount_setSlot SlotDesc.free hn
    rwa [if_neg h, if_pos (show SlotDesc.free.state = .free from rfl)] at this

/-- The slot found is a FREE slot of the ring (R5). -/
theorem findFree_some {n : Nat} (h : findFree s = some n) :
    n < s.map.slots.length ∧ (slotAt s n).state = .free := by
  unfold findFree at h
  have hm := List.mem_of_find?_eq_some h
  have hf := List.find?_some h
  obtain ⟨k, hk, rfl⟩ := List.mem_map.mp hm
  exact ⟨Nat.mod_lt _ (by have := List.mem_range.mp hk; omega), by simpa using hf⟩

/-! ### Publication (R48, R54, R55) -/

/-- The block in FILLING is marked stale, and no other descriptor changes (R48). -/
theorem slotAt_markStale (k : Nat) :
    slotAt (markStale s) k =
      if s.intake.slot = some k ∧ (slotAt s k).state = .filling then { slotAt s k with stale := true }
      else slotAt s k := by
  have hI : ∀ (u : State) (c : Prop) [Decidable c] (f : Intake → Intake),
      slotAt (if c then u.onIntake f else u) k = slotAt u k := fun u c _ f => by split <;> rfl
  unfold markStale
  dsimp only
  rw [hI]
  split
  case h_1 n hn =>
    split
    case isTrue hf =>
      have hlt := lt_of_slotAt_ne_free (s := s) (n := n) fun e => by rw [e] at hf; exact absurd hf (by decide)
      rw [slotAt_modSlot hlt]
      by_cases hk : k = n
      · rw [hk, if_pos rfl, if_pos ⟨hn, hf⟩]
      · rw [if_neg hk, if_neg fun h => hk (Option.some.inj (hn.symm.trans h.1)).symm]
    case isFalse hf =>
      rw [if_neg]
      rintro ⟨he, hk⟩
      rw [hn] at he
      exact hf (Option.some.inj he ▸ hk)
  case h_2 hn => rw [if_neg fun h => by rw [hn] at h; exact absurd h.1 (by simp)]

theorem markStale_intake :
    (markStale s).intake = { s.intake with staleHeld := (markStale s).intake.staleHeld } := by
  unfold markStale
  dsimp only
  split <;> split <;> (try split) <;> rfl

theorem publish_rc (label : Nat) (loads : Bool) :
    (publish label loads s).rc =
      { s.rc with
        target := label, rrq := true, rrqEdges := s.rc.rrqEdges + 1
        deadline := if loads then s.ctl.params.seekTimeout else s.rc.deadline } := by
  unfold publish
  rw [State.onRc_rc, markStale_touches.rc rfl]

/-- Between a target and the blocks it marks, a publication changes nothing else of the Intake Unit. -/
theorem publish_intake (label : Nat) (loads : Bool) :
    (publish label loads s).intake = { s.intake with staleHeld := (publish label loads s).intake.staleHeld } :=
  markStale_intake

theorem slotAt_publish (label : Nat) (loads : Bool) (k : Nat) :
    slotAt (publish label loads s) k =
      if s.intake.slot = some k ∧ (slotAt s k).state = .filling then { slotAt s k with stale := true }
      else slotAt s k := slotAt_markStale k

/-- The target, RRQ and the deadline as an entry into SEEKING or BRIDGING sets them (R54, R55). -/
def Recovery.seeks (r : Recovery) (p : Params) : Recovery :=
  { r with
    phase := .seeking, target := r.p / 588 - p.preroll, rrq := true, rrqEdges := r.rrqEdges + 1
    deadline := p.seekTimeout }

/-- BRIDGING as `Recovery.seeks` says SEEKING (R54, R55). -/
def Recovery.bridges (r : Recovery) (p : Params) : Recovery :=
  { r with
    phase := .bridging, target := r.p / 588, rrq := true, rrqEdges := r.rrqEdges + 1
    deadline := p.seekTimeout }

theorem enterSeeking_rc : (enterSeeking s).rc = s.rc.seeks s.ctl.params := publish_rc _ _

theorem enterBridging_rc : (enterBridging s).rc = s.rc.bridges s.ctl.params := publish_rc _ _

/-! ### Failed attempts (R60) -/

theorem freeRun_rc : (freeRun s).rc = { s.rc with run := [], wait := .none } := by
  unfold freeRun
  rw [State.onRc_rc, (freeSlots_touches _).rc rfl]

theorem slotAt_freeRun (k : Nat) :
    slotAt (freeRun s) k = if k ∈ s.rc.run.map StagedBlock.slot then SlotDesc.free else slotAt s k :=
  slotAt_freeSlots _ k

/-- The recovery registers after a failed attempt (R54, R55, R60). -/
theorem attemptFail_rc :
    (attemptFail s).rc =
      if s.rc.retry < s.ctl.params.retryLimit then
        ({ s.rc with run := [], wait := .none, rrq := false, retry := s.rc.retry + 1 } : Recovery).seeks s.ctl.params
      else ({ s.rc with run := [], wait := .none, rrq := false } : Recovery).bridges s.ctl.params := by
  have hrc : (dropRrq (freeRun (clearAttempt s))).rc = { s.rc with run := [], wait := .none, rrq := false } :=
    congrArg (fun r : Recovery => { r with rrq := false }) freeRun_rc
  have hp : (dropRrq (freeRun (clearAttempt s))).ctl.params = s.ctl.params :=
    ((clearAttempt_touches.comp freeRun_touches).comp dropRrq_touches).params rfl
  unfold attemptFail
  dsimp only
  rw [hp, hrc]
  split
  · rw [enterSeeking_rc, State.onRc_rc, State.onRc_ctl, hp, hrc]
  · rw [enterBridging_rc, hp, hrc]

/-- A failed attempt ends with a publication from a state in which the run has been freed. -/
theorem attemptFail_publishes :
    ∃ u label, attemptFail s = publish label true u ∧ Touches [.rc] (freeRun (clearAttempt s)) u := by
  unfold attemptFail enterSeeking enterBridging
  dsimp only
  split
  · exact ⟨_, _, rfl, ((dropRrq_touches.comp (onRc_touches _ rfl)).comp (onRc_touches _ rfl)).mono rfl⟩
  · exact ⟨_, _, rfl, (dropRrq_touches.comp (onRc_touches _ rfl)).mono rfl⟩

theorem attemptFail_me : (attemptFail s).me = (clearAttempt s).me := by
  obtain ⟨u, label, he, hu⟩ := attemptFail_publishes (s := s)
  rw [he, (publish_touches label true).me rfl, hu.me rfl, freeRun_touches.me rfl]

/-- A failed attempt empties the run's slots, and the block being filled, if it is none of them, is stale
(R48, R60). -/
theorem slotAt_attemptFail (k : Nat) :
    slotAt (attemptFail s) k =
      if k ∈ s.rc.run.map StagedBlock.slot then SlotDesc.free
      else if s.intake.slot = some k ∧ (slotAt s k).state = .filling then { slotAt s k with stale := true }
      else slotAt s k := by
  obtain ⟨u, label, he, hu⟩ := attemptFail_publishes (s := s)
  have hr : slotAt u k = if k ∈ s.rc.run.map StagedBlock.slot then SlotDesc.free else slotAt s k :=
    (hu.slotAt k rfl).trans (slotAt_freeRun k)
  rw [he, slotAt_publish, hu.intake rfl, freeRun_touches.intake rfl, clearAttempt_touches.intake rfl, hr]
  by_cases hk : k ∈ s.rc.run.map StagedBlock.slot
  · rw [if_pos hk, if_pos hk]
    exact if_neg fun h => absurd h.2 (by decide)
  · rw [if_neg hk, if_neg hk]

theorem attemptFail_intake :
    (attemptFail s).intake = { s.intake with staleHeld := (attemptFail s).intake.staleHeld } := by
  obtain ⟨u, label, he, hu⟩ := attemptFail_publishes (s := s)
  rw [he, publish_intake, hu.intake rfl, freeRun_touches.intake rfl, clearAttempt_touches.intake rfl]

/-- What `State.attemptFailed` names, of a failed attempt (R60). -/
theorem attemptFailed_attemptFail : s.attemptFailed (attemptFail s) := by
  have ha : (clearAttempt s).me.attempt = none := by
    unfold clearAttempt State.onMe
    dsimp only
    split <;> rfl
  unfold State.attemptFailed
  rw [attemptFail_me, attemptFail_rc]
  refine ⟨ha, ?_⟩
  split
  case isTrue h => exact ⟨rfl, rfl, rfl, rfl, rfl, fun _ => ⟨rfl, rfl, rfl⟩, fun h' => absurd h (Nat.not_lt.mpr h')⟩
  case isFalse h => exact ⟨rfl, rfl, rfl, rfl, rfl, fun h' => absurd h' h, fun _ => ⟨rfl, rfl, rfl⟩⟩

/-! ### The tests of the FREE slot count (R38, R39, R59, R81) -/

theorem holdTest_asserts (hh : s.intake.hold = false) (hp : s.rc.phase = .streaming)
    (hf : freeCount s ≤ s.ctl.params.holdMargin) :
    holdTest s = (s.onIntake fun i => { i with hold := true }).onRc fun r => { r with phase := .holding } :=
  if_pos ⟨hh, hp, hf⟩

theorem holdTest_stands (h : s.rc.phase ≠ .streaming ∨ s.intake.hold = true ∨
    s.ctl.params.holdMargin < freeCount s) : holdTest s = s := by
  refine if_neg ?_
  rintro ⟨hh, hp, hf⟩
  rcases h with h | h | h
  · exact h hp
  · rw [hh] at h; exact absurd h (by decide)
  · omega

theorem holdRelease_stands (h : s.intake.hold = true → freeCount s < s.ctl.params.holdMargin + 8) :
    holdRelease s = s := if_neg fun ⟨hh, hf⟩ => absurd (h hh) (Nat.not_lt.mpr hf)

theorem failFullWait_stands
    (h : s.rc.phase = .matching → decisionWaits s.rc.wait = true → freeCount s ≠ 0) : failFullWait s = s :=
  if_neg fun ⟨hp, hw, hf⟩ => h hp hw hf

end

end Sys2Proof.Machine
end

section
/-! PROOFS. Block intake (O21, O22, O24): the header that allocates, the header and the frame that complete a
block, and the header that is refused. -/
namespace Sys2Proof.Machine

section
variable {s : State} {w : Word} {n : Nat}

/-! ### Headers (R5, R25, R27, R28) -/

theorem exec_intakeHeader (h : inReset s = false) (en : BitVec 4) :
    exec (.intakeHeader w en) s = .next (intakeBeat (.header w en) s) := next_live h

theorem exec_intakeFrame {i : Nat} {en : BitVec 4} {ers : Bool} (h : inReset s = false) (hi : i < 588) :
    exec (.intakeFrame i w en ers) s = .next (intakeBeat (.frame i w en ers) s) := by
  show Host.Outcome.next (live _ s) = _
  rw [live_eq h, if_pos hi]

/-- Outside a hand-off a frame is taken (R29). -/
theorem intakeBeat_frame {i : Nat} {en : BitVec 4} {ers : Bool} (h : s.intake.phase ≠ .handingOver) :
    intakeBeat (.frame i w en ers) s = takeFrame i w en ers s := by
  unfold intakeBeat
  rw [if_neg h]

/-- Outside a hand-off a full header is taken (R25, R27). -/
theorem intakeBeat_fullHeader (h : s.intake.phase ≠ .handingOver) :
    intakeBeat (.header w 15) s = takeHeader w s := by
  unfold intakeBeat
  rw [if_neg h]
  exact if_pos rfl

/-- With no block being filled a header asks for a slot (R27). -/
theorem takeHeader_unfilled (hp : s.rc.phase ≠ .parked) (hl : s.rc.phase ≠ .lost)
    (hi : s.intake.phase = .none ∨ s.intake.phase = .refused) :
    takeHeader w s = allocate (headerLabel w) (headerTrusted w) s := by
  unfold takeHeader
  split
  · contradiction
  · contradiction
  · split
    case h_1 hf _ => rw [hf] at hi; exact absurd hi (by decide)
    case h_2 => rfl

/-- A header during FILLING completes the block and is held (R32). -/
theorem takeHeader_filling (hp : s.rc.phase ≠ .parked) (hl : s.rc.phase ≠ .lost)
    (hi : s.intake.phase = .filling) (hn : s.intake.slot = some n) :
    takeHeader w s = (completeBlock n s).onIntake fun i => { i with held := i.held ++ [.header w allEnables] } := by
  unfold takeHeader
  rw [hi, hn]
  split
  · contradiction
  · contradiction
  · rfl

/-- The state in which an allocation of slot `n` makes its tests (R5, R27). -/
def allocated (n label : Nat) (trusted : Bool) (s : State) : State :=
  ((setSlot n
    { SlotDesc.free with
      state := .filling, label := some label, trusted := trusted
      arrival := arrivalIn s.rc.phase, stale := s.intake.staleHeld } s).onMap fun m =>
    { m with allocPtr := if n + 1 = m.slots.length then 0 else n + 1 }).onIntake fun i =>
    { i with phase := .filling, slot := some n, written := 0, marks := 0, staleHeld := false }

theorem allocate_of_findFree {label : Nat} {trusted : Bool} (h : findFree s = some n) :
    allocate label trusted s = failFullWait (holdTest (allocated n label trusted s)) := by
  unfold allocate
  rw [h]
  rfl

section
variable (label : Nat) (trusted : Bool)

theorem allocated_touches : Touches [.map, .slots, .intake] s (allocated n label trusted s) :=
  (((setSlot_touches n _).comp (onMap_touches_rest _ rfl rfl)).comp (onIntake_touches _ rfl)).mono rfl

theorem slotAt_allocated (hn : n < s.map.slots.length) (k : Nat) :
    slotAt (allocated n label trusted s) k = if k = n then
      { SlotDesc.free with
        state := .filling, label := some label, trusted := trusted
        arrival := arrivalIn s.rc.phase, stale := s.intake.staleHeld }
      else slotAt s k := slotAt_setSlot hn k

theorem allocated_allocPtr :
    (allocated n label trusted s).map.allocPtr = if n + 1 = s.map.slots.length then 0 else n + 1 := by
  rw [← (setSlot_touches (s := s) n _).ring rfl]
  rfl

/-- An allocation takes one slot from the FREE slot count (R9). -/
theorem freeCount_allocated (h : findFree s = some n) : freeCount (allocated n label trusted s) + 1 = freeCount s := by
  obtain ⟨hn, hf⟩ := findFree_some h
  have := freeCount_setSlot
    { SlotDesc.free with
      state := .filling, label := some label, trusted := trusted
      arrival := arrivalIn s.rc.phase, stale := s.intake.staleHeld } hn
  rw [if_pos hf] at this
  exact this

end

/-- The intake state of an allocation, whatever its tests did. -/
theorem allocate_intake {label : Nat} {trusted : Bool} (h : findFree s = some n) :
    (allocate label trusted s).intake.phase = .filling ∧ (allocate label trusted s).intake.slot = some n := by
  have hI : ∀ u : State, u.intake.phase = .filling ∧ u.intake.slot = some n →
      (failFullWait u).intake.phase = .filling ∧ (failFullWait u).intake.slot = some n := fun u hu => by
    unfold failFullWait
    split
    · rw [attemptFail_intake]
      exact hu
    · exact hu
  rw [allocate_of_findFree h]
  refine hI _ ?_
  unfold holdTest
  split <;> exact ⟨rfl, rfl⟩

/-- With no FREE slot the header is refused (R6, R28). -/
theorem allocate_refused {label : Nat} {trusted : Bool} (h : findFree s = none) :
    allocate label trusted s = { s with
      intake := { s.intake with phase := .refused, staleHeld := false }
      ctl := { s.ctl with
        flags := s.ctl.flags ||| BitVec.twoPow 16 5
        counters := { s.ctl.counters with droppedBlocks := s.ctl.counters.droppedBlocks + 1 } } } := by
  unfold allocate
  rw [h]
  rfl

end

/-- Settles O22: a refusal is the allocation without a FREE slot; a frame of a refused block is dropped before
any slot is looked at. -/
theorem headerRefusedWithoutSlot : Obligations.HeaderRefusedWithoutSlot := by
  intro w s hr hpark
  refine ⟨fun hl hi hf => ?_, fun i en ers hi hp => ?_, fun n hl hi hf => ?_⟩
  · have hph : s.intake.phase ≠ .handingOver := by rcases hi with hi | hi <;> rw [hi] <;> decide
    rw [exec_intakeHeader hr, intakeBeat_fullHeader hph, takeHeader_unfilled hpark hl hi, allocate_refused hf]
  · rw [exec_intakeFrame hr hi, intakeBeat_frame (by rw [hp]; decide)]
    unfold takeFrame
    rw [hp, if_neg hpark, ite_self]
  · have hph : s.intake.phase ≠ .handingOver := by rcases hi with hi | hi <;> rw [hi] <;> decide
    refine ⟨_, exec_intakeHeader hr 15, ?_⟩
    rw [intakeBeat_fullHeader hph, takeHeader_unfilled hpark hl hi]
    exact allocate_intake hf

/-! ### Completion (R32, R33) -/

section
variable {s : State} {n : Nat}

theorem slotAt_completeBlock (hn : n < s.map.slots.length) (k : Nat) :
    slotAt (completeBlock n s) k = if k = n then
      { slotAt s n with written := 588, erasures := countMarks (s.intake.marks ||| ~~~s.intake.written) }
      else slotAt s k :=
  slotAt_modSlot (f := fun d =>
    { d with written := 588, erasures := countMarks (s.intake.marks ||| ~~~s.intake.written) }) hn k

theorem completeBlock_intake :
    (completeBlock n s).intake = { s.intake with
      phase := .handingOver, marks := s.intake.marks ||| ~~~s.intake.written
      flagJobs := s.intake.flagJobs ++ flagMapJobs s n (s.intake.marks ||| ~~~s.intake.written) } := rfl

theorem completeBlock_touches : Touches [.map, .slots, .intake] s (completeBlock n s) :=
  ((modSlot_touches n _).comp (onIntake_touches _ rfl)).mono rfl

/-- What a beat of a block can change is memory, the block's descriptor and the Intake Unit. -/
theorem eq_of_touches_beat {t : State} (h : Touches [.mem, .map, .slots, .intake] s t) :
    t = { s with mem := t.mem, map := t.map, intake := t.intake } := by
  have h' := fun b hb => h b hb
  obtain ⟨_⟩ := t
  obtain ⟨_⟩ := s
  simp only [State.mk.injEq, true_and]
  exact ⟨h' .pending rfl, h' .pins rfl, h' .clock rfl, h' .router rfl,
    h' .arb rfl, h' .rc rfl, h' .me rfl, h' .gaps rfl,
    h' .quality rfl, h' .play rfl, h' .lines rfl, h' .resume rfl,
    h' .supply rfl, h' .ctl rfl, h' .eject rfl⟩

theorem eq_of_touches_intake {t : State} (h : Touches [.map, .slots, .intake] s t) :
    t = { s with map := t.map, intake := t.intake } := by
  have e := eq_of_touches_beat (h.mono rfl)
  rwa [h.mem rfl] at e

/-- The flag map's 20 words stand in three requests (R33). -/
theorem flagMapJobs_words (marks : BitVec 588) : ∃ a b c, flagMapJobs s n marks = [a, b, c] ∧
    a.addr = flagAddr s n 0 ∧ a.words.length = 8 ∧ b.addr = flagAddr s n 8 ∧ b.words.length = 8 ∧
    c.addr = flagAddr s n 16 ∧ c.words.length = 4 ∧
    a.words ++ b.words ++ c.words = (List.range 20).map (flagMapWord marks) :=
  ⟨_, _, _, rfl, rfl, rfl, rfl, rfl, rfl, rfl, rfl⟩

/-- Bit i mod 32 of flag-map word i / 32 is the mark of frame i, and 0 beyond frame 587 (R2, R185). -/
theorem getLsbD_flagMapWord (marks : BitVec 588) (i : Nat) :
    (flagMapWord marks (i / 32)).getLsbD (i % 32) = marks.getLsbD i := by
  unfold flagMapWord
  rw [BitVec.getLsbD_setWidth, BitVec.getLsbD_ushiftRight, Nat.div_add_mod]
  simp [Nat.mod_lt]

end

/-- Settles O21: with a slot to take the header is the allocation and its tests, in FILLING it is the
completion, and the last FREE slot in a wait is the failed attempt. -/
theorem headerAllocatesSlot : Obligations.HeaderAllocatesSlot := by
  intro w s n hr hpark hl
  refine ⟨fun hi hf hwait => ?_, fun hi hs hn => ?_, fun hi hf hc hm hw hrun => ?_⟩
  · have hph : s.intake.phase ≠ .handingOver := by rcases hi with hi | hi <;> rw [hi] <;> decide
    obtain ⟨hn, -⟩ := findFree_some hf
    have hcount := freeCount_allocated (headerLabel w) (headerTrusted w) hf
    have htest : takeHeader w s = holdTest (allocated n (headerLabel w) (headerTrusted w) s) := by
      rw [takeHeader_unfilled hpark hl hi, allocate_of_findFree hf]
      refine failFullWait_stands fun hp hd => ?_
      unfold holdTest at hp hd ⊢
      split at hp
      · exact absurd (show RecoveryPhase.holding = .matching from hp) (by decide)
      · rw [if_neg ‹_›] at hd ⊢
        have := hwait hp hd
        omega
    refine ⟨_, exec_intakeHeader hr 15, ?_⟩
    rw [intakeBeat_fullHeader hph, htest]
    have hslots := slotAt_allocated (headerLabel w) (headerTrusted w) hn
    have hptr := allocated_allocPtr (s := s) (n := n) (headerLabel w) (headerTrusted w)
    unfold holdTest
    split
    case isTrue hc =>
      refine ⟨rfl, rfl, rfl, rfl, hslots, hptr, rfl, fun _ _ _ => ⟨rfl, rfl⟩, fun h => ?_, rfl⟩
      obtain ⟨hh, hp, hfree⟩ := hc
      have hm : (allocated n (headerLabel w) (headerTrusted w) s).ctl.params.holdMargin =
        s.ctl.params.holdMargin := rfl
      rcases h with h | h | h
      · exact absurd hp h
      · exact absurd (hh.symm.trans h) (by decide)
      · omega
    case isFalse hc =>
      refine ⟨rfl, rfl, rfl, rfl, hslots, hptr, rfl, fun hp hh hfree => absurd ⟨hh, hp, ?_⟩ hc,
        fun _ => ⟨rfl, rfl⟩, rfl⟩
      have hm : (allocated n (headerLabel w) (headerTrusted w) s).ctl.params.holdMargin =
        s.ctl.params.holdMargin := rfl
      omega
  · have hph : s.intake.phase ≠ .handingOver := by rw [hi]; decide
    obtain ⟨a, b, c, hjobs, ha, hal, hb, hbl, hc, hcl, hwords⟩ :=
      flagMapJobs_words (s := s) (n := n) (s.intake.marks ||| ~~~s.intake.written)
    have hbase : flagAddr s n 0 = s.ctl.params.ringBase + n * 2432 + 2352 := rfl
    refine ⟨_, a, b, c, exec_intakeHeader hr 15, ?_⟩
    rw [intakeBeat_fullHeader hph, takeHeader_filling hpark hl hi hs]
    refine ⟨eq_of_touches_intake ((completeBlock_touches.comp (onIntake_touches _ rfl)).mono rfl), ?_,
      slotAt_completeBlock hn, ha.trans hbase, hal, ?_, hbl, ?_, hcl, fun i hi => ?_⟩
    · rw [State.onIntake_intake, completeBlock_intake, hjobs]
      rfl
    · rw [hb, ha]; rfl
    · rw [hc, ha]; rfl
    · rw [hwords, List.getElem?_map, List.getElem?_range (by omega)]
      exact congrArg some (getLsbD_flagMapWord _ i)
  · have hph : s.intake.phase ≠ .handingOver := by rcases hi with hi | hi <;> rw [hi] <;> decide
    obtain ⟨hn, -⟩ := findFree_some hf
    have hcount := freeCount_allocated (headerLabel w) (headerTrusted w) hf
    have hstands : holdTest (allocated n (headerLabel w) (headerTrusted w) s) =
        allocated n (headerLabel w) (headerTrusted w) s :=
      holdTest_stands (.inl fun h : s.rc.phase = .streaming => by rw [hm] at h; exact absurd h (by decide))
    have hfail : takeHeader w s = attemptFail (allocated n (headerLabel w) (headerTrusted w) s) := by
      rw [takeHeader_unfilled hpark hl hi, allocate_of_findFree hf, hstands]
      exact if_pos ⟨hm, hw, by omega⟩
    obtain ⟨hat, hrn, hwt, -, hrrq, hdl, hseek, hbr⟩ :=
      attemptFailed_attemptFail (s := allocated n (headerLabel w) (headerTrusted w) s)
    refine ⟨_, exec_intakeHeader hr 15, ?_⟩
    rw [intakeBeat_fullHeader hph, hfail]
    refine ⟨?_, ?_, ?_, hrn, hwt, hat, hrrq, hdl, hseek, hbr⟩
    · rw [attemptFail_intake]; rfl
    · rw [attemptFail_intake]; rfl
    · have hnot : n ∉ s.rc.run.map StagedBlock.slot := fun h => by
        obtain ⟨b, hb, hbn⟩ := List.mem_map.mp h
        exact hrun b hb hbn
      rw [slotAt_attemptFail, 
        if_neg (show n ∉ (allocated n _ _ s).rc.run.map StagedBlock.slot from hnot), if_pos]
      refine ⟨rfl, ?_⟩
      rw [slotAt_allocated _ _ hn, if_pos rfl]

/-! ### Frames (R29, R30, R32) -/

/-- As many bits set as are counted: all of them. -/
theorem testBit_of_countBits {bits : Nat} : ∀ {n : Nat}, countBits bits n = n → ∀ i < n, bits.testBit i = true
  | 0, _, i, hi => absurd hi (Nat.not_lt_zero i)
  | n + 1, h, i, hi => by
    have hle : ∀ n, countBits bits n ≤ n := fun n => by
      induction n with
      | zero => exact le_rfl
      | succ n ih =>
        unfold countBits
        split <;> omega
    have hn := hle n
    unfold countBits at h
    split at h
    case isTrue ht =>
      rcases Nat.lt_succ_iff_lt_or_eq.mp hi with hi | rfl
      · exact testBit_of_countBits (by omega) i hi
      · exact ht
    case isFalse => omega

/-- With the written set full no frame is left to be marked (R32). -/
theorem not_written_eq_zero {written : BitVec 588} (h : countMarks written = 588) : ~~~written = 0#588 := by
  apply BitVec.eq_of_getLsbD_eq
  intro i hi
  rw [BitVec.getLsbD_not, decide_eq_true hi]
  have : written.getLsbD i = true := testBit_of_countBits h i hi
  simp [this]

/-- A block completed by count keeps its marks (R32). -/
theorem completeBlock_of_written {s : State} {n : Nat} (h : countMarks s.intake.written = 588)
    (hn : n < s.map.slots.length) :
    (completeBlock n s).intake = { s.intake with
      phase := .handingOver, flagJobs := s.intake.flagJobs ++ flagMapJobs s n s.intake.marks } ∧
    ∀ k, slotAt (completeBlock n s) k =
      if k = n then { slotAt s n with written := 588, erasures := countMarks s.intake.marks } else slotAt s k := by
  have hm : s.intake.marks ||| ~~~s.intake.written = s.intake.marks := by
    rw [not_written_eq_zero h, BitVec.or_zero]
  rw [completeBlock_intake, hm]
  exact ⟨rfl, fun k => by rw [slotAt_completeBlock hn, hm]⟩

section
variable {s : State} {i n : Nat} {w : Word} {en : BitVec 4} {ers : Bool}

/-- A frame of the block being filled is written (R29). -/
theorem intakeBeat_frame_filling (he : en ≠ 0) (hp : s.rc.phase ≠ .parked) (hi : s.intake.phase = .filling)
    (hs : s.intake.slot = some n) : intakeBeat (.frame i w en ers) s = writeFrame n i w en ers s := by
  rw [intakeBeat_frame (by rw [hi]; decide)]
  unfold takeFrame
  rw [hi, hs, if_neg he, if_neg hp]

/-- The state after a frame beat's write, before the count is looked at (R29, R30). -/
def frameWritten (n i : Nat) (w : Word) (en : BitVec 4) (ers : Bool) (s : State) : State :=
  modSlot n
    (fun d => { d with
      written := countMarks (setMark s.intake.written i true), erasures := countMarks (setMark s.intake.marks i ers) })
    ((s.onMem fun m => Memory.writeWord m (frameAddr s n i) w en).onIntake fun k =>
      { k with written := setMark k.written i true, marks := setMark k.marks i ers })

theorem writeFrame_eq :
    writeFrame n i w en ers s =
      if countMarks (setMark s.intake.written i true) = 588 then completeBlock n (frameWritten n i w en ers s)
      else frameWritten n i w en ers s := rfl

theorem frameWritten_touches : Touches [.mem, .map, .slots, .intake] s (frameWritten n i w en ers s) :=
  (((onMem_touches _).comp (onIntake_touches _ rfl)).comp (modSlot_touches n _)).mono rfl

theorem slotAt_frameWritten (hn : n < s.map.slots.length) (k : Nat) :
    slotAt (frameWritten n i w en ers s) k = if k = n then
      { slotAt s n with
        written := countMarks (setMark s.intake.written i true)
        erasures := countMarks (setMark s.intake.marks i ers) }
      else slotAt s k := slotAt_modSlot (s := (s.onMem _).onIntake _) hn k

/-- The byte lanes of a word write (R134, R185). -/
theorem read_writeWord_lane {m : List Host.Cell} (h : Memory.wf m = true) (a k : Nat) (hk : k < 4) (w : Word)
    (en : BitVec 4) : Memory.read (Memory.writeWord m a w en) (a + k) =
      if en.getLsbD k then byteOf w k else Memory.read m (a + k) := by
  rw [Memory.read_writeWord h]
  match k, hk with
  | 0, _ => simp
  | 1, _ => simp
  | 2, _ => simp
  | 3, _ => simp

/-- A word write reaches no byte outside its word (R134). -/
theorem read_writeWord_outside {m : List Host.Cell} (h : Memory.wf m = true) (a b : Nat)
    (hb : ¬ (a ≤ b ∧ b < a + 4)) (w : Word) (en : BitVec 4) :
    Memory.read (Memory.writeWord m a w en) b = Memory.read m b := by
  rw [Memory.read_writeWord h, if_neg, if_neg, if_neg, if_neg]
  all_goals rintro ⟨he, -⟩; omega

end

/-- Settles O24: the write, the marks and the descriptor are `frameWritten`; with the 588th frame the completion
follows, in which no frame is left to be marked. -/
theorem frameBeatIsWritten : Obligations.FrameBeatIsWritten := by
  intro i w en ers s n hr hi he hp hf hs hn hwf written marks
  refine ⟨_, exec_intakeFrame hr hi, ?_⟩
  rw [intakeBeat_frame_filling he hp hf hs, writeFrame_eq]
  have hout := fun a ha => read_writeWord_outside hwf (frameAddr s n i) a ha w en
  have hin := fun k hk => read_writeWord_lane hwf (frameAddr s n i) k hk w en
  have hslots := slotAt_frameWritten (s := s) (i := i) (w := w) (en := en) (ers := ers) hn
  split
  case isTrue hc =>
    have hring : n < (frameWritten n i w en ers s).map.slots.length := by rwa [frameWritten_touches.ring rfl]
    have hmem := (completeBlock_touches (s := frameWritten n i w en ers s) (n := n)).mem rfl
    obtain ⟨hint, hdesc⟩ := completeBlock_of_written (s := frameWritten n i w en ers s) (n := n) hc hring
    rw [hmem]
    refine ⟨eq_of_touches_beat ((frameWritten_touches.comp completeBlock_touches).mono rfl),
      fun h => absurd hc h, fun _ => hint, fun k => ?_, hout, hin⟩
    rw [hdesc, hslots, hslots, if_pos rfl, hc]
    by_cases hk : k = n
    · rw [if_pos hk, if_pos hk]
      rfl
    · rw [if_neg hk, if_neg hk]
  case isFalse hc => exact ⟨rfl, fun _ => rfl, fun h => absurd h hc, hslots, hout, hin⟩

end Sys2Proof.Machine
end

section
/-! PROOFS. Block reports: the frame of a report, and what a report does with a stale block and with the blocks
of SEEKING, MATCHING and GAPFETCH (O29). -/
namespace Sys2Proof.Machine

section
variable {s d : State} {n : Nat}

/-! ### The end of the hand-off (R34, R35) -/

/-- With no beat held, taking the held beats only lets port D's request complete. -/
theorem drainHeld_of_held_nil (h : s.intake.held = []) : drainHeld s = finishD s := by
  have hi : (s.onIntake fun i => { i with held := [] }) = s := by
    show ({ s with intake := { s.intake with held := [] } } : State) = s
    rw [← h]
  unfold drainHeld
  rw [h, hi]
  rfl

/-- The end of a hand-off with no beat held: the Intake Unit is empty again. -/
theorem handOffEnd_of_held_nil (hp : s.intake.phase = .handingOver) (h : s.intake.held = []) :
    Touches [.intake, .router] s (handOffEnd s) ∧ (handOffEnd s).intake.phase = .none ∧
      (handOffEnd s).intake.slot = none := by
  have he : handOffEnd s =
      finishD (s.onIntake fun i => { i with phase := .none, slot := none, written := 0, marks := 0 }) := by
    unfold handOffEnd
    rw [if_pos hp]
    exact drainHeld_of_held_nil h
  rw [he, finishD_touches.intake rfl]
  exact ⟨((onIntake_touches _ rfl).comp finishD_touches).mono rfl, rfl, rfl⟩

theorem handOffEnd_of_not_handing (hp : s.intake.phase ≠ .handingOver) : handOffEnd s = s := if_neg hp

/-! ### The frame of a report -/

/-- The completed block of slot `n` can be reported, and no tail capture keeps the report (R34, R52). -/
structure State.hands (s : State) (n : Nat) : Prop where
  live : inReset s = false
  captured : s.rc.capture = none
  phase : s.intake.phase = .handingOver
  jobs : s.intake.flagJobs = []
  slot : s.intake.slot = some n
  held : s.intake.held = []

theorem State.reports.hands (h : s.reports n) : s.hands n :=
  ⟨h.1, h.2.1, h.2.2.1, h.2.2.2.1, h.2.2.2.2.1, h.2.2.2.2.2.1⟩

theorem State.reports.hold (h : s.reports n) : s.intake.hold = false := h.2.2.2.2.2.2.1

theorem State.reports.lt (h : s.reports n) : n < s.map.slots.length := h.2.2.2.2.2.2.2

/-- A report disposes of the block, reports the FREE slot count and ends the hand-off (R34). -/
theorem exec_blockReport (h : s.hands n) : exec .blockReport s =
    .next (settleArbiter (handOffEnd (freeReport (settleArbiter (disposeBlock n s))))) := by
  have hr : reportReady s = some n := by
    unfold reportReady
    rw [if_pos ⟨h.phase, h.jobs⟩, h.slot]
  have hb : blockReport s = settleArbiter (takeReport s) := by
    unfold blockReport
    rw [hr, h.captured]
    rfl
  have ht : takeReport s = handOffEnd (freeReport (settleArbiter (disposeBlock n s))) := by
    unfold takeReport
    rw [hr]
  rw [← ht, ← hb]
  exact next_live h.live

theorem settleArbiter_holdTest_stands (h : s.rc.phase ≠ .streaming ∨ s.intake.hold = true ∨
    s.ctl.params.holdMargin < freeCount s) : holdTest (settleArbiter s) = settleArbiter s := by
  refine holdTest_stands ?_
  rw [settleArbiter_touches.rc rfl, settleArbiter_touches.intake rfl, settleArbiter_touches.ctl rfl,
    settleArbiter_touches.freeCount rfl]
  exact h

theorem settleArbiter_holdRelease_stands
    (h : s.intake.hold = true → freeCount s < s.ctl.params.holdMargin + 8) :
    holdRelease (settleArbiter s) = settleArbiter s := by
  refine holdRelease_stands ?_
  rw [settleArbiter_touches.intake rfl, settleArbiter_touches.ctl rfl, settleArbiter_touches.freeCount rfl]
  exact h

/-- After a disposal that neither asserts nor releases HOLD, a report only empties the Intake Unit. -/
theorem report_of_disposed (h : s.hands n) (hd : disposeBlock n s = d)
    (hi : d.intake.phase = .handingOver ∧ d.intake.held = [])
    (ht : d.rc.phase ≠ .streaming ∨ d.intake.hold = true ∨ d.ctl.params.holdMargin < freeCount d)
    (hr : d.intake.hold = true → freeCount d < d.ctl.params.holdMargin + 8) :
    ∃ t, exec .blockReport s = .next t ∧ Touches [.arb, .intake, .router] d t ∧ t.intake.phase = .none ∧
      t.intake.slot = none := by
  refine ⟨_, exec_blockReport h, ?_⟩
  rw [hd]
  have hf : freeReport (settleArbiter d) = settleArbiter d := by
    unfold freeReport
    rw [settleArbiter_holdTest_stands ht, settleArbiter_holdRelease_stands hr]
  rw [hf]
  have hsi : (settleArbiter d).intake = d.intake := settleArbiter_touches.intake rfl
  obtain ⟨hto, hph, hsl⟩ := handOffEnd_of_held_nil (s := settleArbiter d) (by rw [hsi]; exact hi.1)
    (by rw [hsi]; exact hi.2)
  rw [settleArbiter_touches.intake rfl]
  exact ⟨((settleArbiter_touches.comp hto).comp settleArbiter_touches).mono rfl, hph, hsl⟩

/-- `report_of_disposed` with HOLD released and recovery out of STREAMING. -/
theorem report_of_disposed_off (h : s.hands n) (hd : disposeBlock n s = d)
    (hi : d.intake = { s.intake with staleHeld := d.intake.staleHeld }) (hh : s.intake.hold = false)
    (hp : d.rc.phase ≠ .streaming) :
    ∃ t, exec .blockReport s = .next t ∧ Touches [.arb, .intake, .router] d t ∧ t.intake.phase = .none ∧
      t.intake.slot = none := by
  have hhold : d.intake.hold = false := by rw [hi]; exact hh
  exact report_of_disposed h hd ⟨by rw [hi]; exact h.phase, by rw [hi]; exact h.held⟩ (.inl hp)
    fun ht => absurd (hhold.symm.trans ht) (by decide)

/-! ### Which disposal a block gets (R48, R53) -/

theorem disposeBlock_discards (h : (slotAt s n).stale = true ∨ s.rc.phase = .lost) :
    disposeBlock n s = freeSlot n s := by
  unfold disposeBlock
  dsimp only
  rcases h with h | h
  · rw [h, Bool.true_or]; rfl
  · rw [h, ite_self]

section
variable (hs : (slotAt s n).stale = false)
include hs

theorem disposeBlock_streaming (hp : s.rc.phase = .streaming) :
    disposeBlock n s = reportStreaming n (slotAt s n) s := by
  unfold disposeBlock
  simp only [hs, hp, arrivalFits]
  rfl

theorem disposeBlock_holding (hp : s.rc.phase = .holding) :
    disposeBlock n s = reportHolding n (slotAt s n) s := by
  unfold disposeBlock
  simp only [hs, hp, arrivalFits]
  rfl

theorem disposeBlock_seeking (hp : s.rc.phase = .seeking) (ha : (slotAt s n).arrival = .reread) :
    disposeBlock n s = reportSeeking n (slotAt s n) s := by
  unfold disposeBlock
  simp only [hs, hp, ha, arrivalFits]
  rfl

theorem disposeBlock_matching (hp : s.rc.phase = .matching) (ha : (slotAt s n).arrival = .reread) :
    disposeBlock n s = reportMatching n (slotAt s n) s := by
  unfold disposeBlock
  simp only [hs, hp, ha, arrivalFits]
  rfl

theorem disposeBlock_gapFetch (hp : s.rc.phase = .gapFetch) (ha : (slotAt s n).arrival = .gapFetch) :
    disposeBlock n s = reportGapFetch n (slotAt s n) s := by
  unfold disposeBlock
  simp only [hs, hp, ha, arrivalFits]
  rfl

end

/-! ### Staging (R4, R57, R58) -/

theorem assignedLabel_of_lt {l : Nat} (h : l < 450000) : Config.assignedLabel l = l := if_pos h

theorem slotAt_stageSlot (hn : n < s.map.slots.length) (l k : Nat) : slotAt (stageSlot n l s) k = if k = n then
    { slotAt s n with state := .staged, label := some (Config.assignedLabel l), owner := none }
    else slotAt s k :=
  slotAt_modSlot (f := fun d =>
    { d with state := .staged, label := some (Config.assignedLabel l), owner := none }) hn k

theorem addToRun_touches (n l : Nat) : Touches [.map, .slots, .rc] s (addToRun n l s) :=
  ((stageSlot_touches n l).comp (onRc_touches _ rfl)).mono rfl

theorem addToRun_rc (n l : Nat) : (addToRun n l s).rc =
    { s.rc with run := s.rc.run ++ [{ slot := n, label := Config.assignedLabel l }] } := rfl

theorem freeCount_addToRun (l : Nat) (h : (slotAt s n).state = .filling) :
    freeCount (addToRun n l s) = freeCount s :=
  freeCount_setSlot_same (s := s) (by rw [h]; decide) nofun

theorem runEnd_append (run : List StagedBlock) (b : StagedBlock) :
    runEnd (run ++ [b]) = some (b.label * 588 + 587) := by
  unfold runEnd
  rw [List.getLast?_append]
  rfl

/-- The run covers what any offset can need, or is short of it (R58). -/
theorem runCovers_eq_false {e : Nat} (h : runEnd s.rc.run = some e) (he : e + 1 < s.rc.p + s.rc.span) :
    runCovers s = false := by
  unfold runCovers
  rw [h]
  exact decide_eq_false (by omega)

theorem runEnd_of_getLast? {run : List StagedBlock} {m : StagedBlock} (h : run.getLast? = some m) :
    runEnd run = some (m.label * 588 + 587) := by
  unfold runEnd
  rw [h]
  rfl

/-- An evaluation begins at the run's labelled end (R73). -/
theorem tryEvaluate_begins {a : Attempt} {e : Nat} (ha : s.me.attempt = some a) (he : runEnd s.rc.run = some e)
    (hi : s.me.activity = .idle) (hc : s.rc.capture = none) (hs : a.scoredTo ≠ some e) :
    (tryEvaluate s).me.activity = .scoring ∧
      (tryEvaluate s).me.attempt = some { a with scoredTo := some e } := by
  unfold tryEvaluate
  rw [ha, he]
  dsimp only
  rw [if_pos ⟨hi, hc, hs⟩]
  unfold beginEvaluation loadCandidate
  simp only [State.onMe_me, ha, Option.map_some]
  split <;> exact ⟨rfl, rfl⟩

/-- A block added to a run that is still short, with some slot FREE, is scored (R58, R73). -/
theorem afterAdd_evaluates (hf : freeCount s ≠ 0) : afterAdd s = tryEvaluate s :=
  if_neg fun h => hf h.2

/-! ### SEEKING (R57) -/

section
variable {l : Nat} (hl : (slotAt s n).label = some l)
include hl

theorem labelOf_of_label : labelOf (slotAt s n) = l := by
  unfold labelOf
  rw [hl]
  rfl

theorem reportSeeking_discards
    (h : (slotAt s n).trusted = false ∨ l < (s.rc.p - s.rc.kEff - s.rc.span) / 588) :
    reportSeeking n (slotAt s n) s = freeSlot n s := by
  unfold reportSeeking
  rw [labelOf_of_label hl]
  exact if_pos h

theorem reportSeeking_fails (ht : (slotAt s n).trusted = true)
    (hlow : (s.rc.p - s.rc.kEff - s.rc.span) / 588 ≤ l) (h : s.rc.p / 588 + 1 < l) :
    reportSeeking n (slotAt s n) s = attemptFail (freeSlot n s) := by
  unfold reportSeeking
  rw [labelOf_of_label hl, ht]
  exact (if_neg (not_or.mpr ⟨by decide, Nat.not_lt.mpr hlow⟩)).trans (if_pos h)

theorem reportSeeking_stages (ht : (slotAt s n).trusted = true)
    (hlow : (s.rc.p - s.rc.kEff - s.rc.span) / 588 ≤ l) (h : l ≤ s.rc.p / 588 + 1) :
    reportSeeking n (slotAt s n) s =
      afterAdd (((addToRun n l s).onRc fun r => { r with phase := .matching, rrq := false }).onMe fun m =>
        { m with attempt := some (newAttempt
          ({ (addToRun n l s).rc with phase := .matching, rrq := false } : Recovery) l) }) := by
  unfold reportSeeking
  rw [labelOf_of_label hl, ht]
  exact (if_neg (not_or.mpr ⟨by decide, Nat.not_lt.mpr hlow⟩)).trans (if_neg (Nat.not_lt.mpr h))

end

/-! ### MATCHING (R58) -/

section
variable {m : StagedBlock} (hw : s.rc.wait = .none) (hm : s.rc.run.getLast? = some m)
  (hshort : (m.label + 1) * 588 < s.rc.p + s.rc.span)
include hw hm hshort

theorem reportMatching_short :
    reportMatching n (slotAt s n) s =
      if (!(slotAt s n).trusted || labelOf (slotAt s n) == m.label + 1) = true
      then afterAdd (addToRun n (m.label + 1) s) else attemptFail (freeSlot n s) := by
  have hnext : nextOfRun s = m.label + 1 := by
    unfold nextOfRun
    rw [hm]
  have hc : runCovers s = false := runCovers_eq_false (runEnd_of_getLast? hm) (by omega)
  unfold reportMatching
  rw [hw, hc, hnext]
  rfl

end

/-! ### GAPFETCH (R97, R98) -/

section
variable {r : FetchRecord} (hr : s.gaps.fetch = some r) (hp : r.phase = .fetching)
include hr hp

theorem reportGapFetch_unlabelled (hl : fetchLabel (slotAt s n) r = none) :
    reportGapFetch n (slotAt s n) s = freeSlot n s := by
  unfold reportGapFetch
  rw [hr]
  dsimp only
  rw [hp, if_neg (by decide), hl]

/-- The five ways of a block with a label to judge by (R97). -/
theorem reportGapFetch_labelled {q : Nat} (hl : fetchLabel (slotAt s n) r = some q) :
    reportGapFetch n (slotAt s n) s =
      if q + 1 < r.label then freeSlot n s
      else if q ≤ r.label + 1 then
        if r.staged.any (fun b => b.label == q) then freeSlot n s
        else if q = r.label + 1 then fetchEnd (stageForFetch n q r s)
        else stageForFetch n q r s
      else if (slotAt s n).trusted then fetchEnd (freeSlot n s)
      else freeSlot n s := by
  unfold reportGapFetch
  rw [hr]
  dsimp only
  rw [hp, if_neg (by decide), hl]

end

/-- A maximum taken from `a` on is the largest element, where one is as large as `a`. -/
theorem foldl_max_eq {l : List Nat} {a m : Nat} (hl : ∀ x ∈ l, x ≤ m) (ha : a ≤ m) (h : a = m ∨ m ∈ l) :
    l.foldl max a = m := by
  induction l generalizing a with
  | nil => exact h.resolve_right List.not_mem_nil
  | cons x l ih =>
    have hx := hl x List.mem_cons_self
    refine ih (fun y hy => hl y (List.mem_cons_of_mem x hy)) (Nat.max_le.mpr ⟨ha, hx⟩) ?_
    rcases h with rfl | h
    · exact .inl (Nat.max_eq_left hx)
    · rcases List.mem_cons.mp h with rfl | h
      · exact .inl (Nat.max_eq_right ha)
      · exact .inr h

/-- The label a block of the fetch is judged by, as the rule words it (R97). -/
theorem fetchLabel_eq {d : SlotDesc} {r : FetchRecord} {q : Nat}
    (h : (d.trusted = true ∧ d.label = some q) ∨
      (d.trusted = false ∧ ∃ b ∈ r.staged, (∀ x ∈ r.staged, x.label ≤ b.label) ∧ q = b.label + 1)) :
    fetchLabel d r = some q := by
  unfold fetchLabel
  rcases h with ⟨ht, hl⟩ | ⟨ht, b, hb, hmax, rfl⟩
  · rw [ht, if_pos rfl, hl]
  · rw [ht, if_neg (by decide), if_neg (List.ne_nil_of_mem hb)]
    have hfold : (r.staged.map StagedBlock.label).foldl max 0 = b.label := by
      refine foldl_max_eq (fun x hx => ?_) (Nat.zero_le _) (.inr (List.mem_map_of_mem hb))
      obtain ⟨y, hy, rfl⟩ := List.mem_map.mp hx
      exact hmax y hy
    rw [hfold]

/-- A fetch with its entry present and something staged ends in the alignment (R98). -/
theorem fetchEnd_aligns {r : FetchRecord} (hr : s.gaps.fetch = some r) (hg : gapPresent s r = true)
    (hs : r.staged ≠ []) : fetchEnd s =
      beginAlignment r.label r.slot r.staged
        (s.onGaps fun g => { g with fetch := some { r with phase := .merging } }) := by
  have hg' : gapPresent (s.onGaps fun g => { g with fetch := some { r with phase := .merging } }) r = true := hg
  unfold fetchEnd
  rw [hr]
  dsimp only
  rw [hg', if_neg (by decide), if_neg hs]

end

end Sys2Proof.Machine
end

section
/-! PROOFS. What a report does with a block outside STREAMING and HOLDING (O29). -/
namespace Sys2Proof.Machine

/-- In `t` the report of `s` has made slot `n` FREE and emptied the Intake Unit. -/
def State.reportFrees (s t : State) (n : Nat) : Prop :=
  exec .blockReport s = .next t ∧ slotAt t n = SlotDesc.free ∧ t.intake.phase = .none ∧ t.mem = s.mem

/-- In `t` the report of `s` has staged the block of slot `n` under label `x` and emptied the Intake Unit. -/
def State.reportStages (s t : State) (n x : Nat) : Prop :=
  exec .blockReport s = .next t ∧
    slotAt t n = { slotAt s n with state := .staged, label := some x, owner := none } ∧
    t.intake.phase = .none ∧ t.mem = s.mem

section
variable {s d : State} {n l : Nat}

/-! ### From a disposal to its report -/

section
variable (h : s.hands n) (hh : s.intake.hold = false) (hd : disposeBlock n s = d)
  (hi : d.intake = { s.intake with staleHeld := d.intake.staleHeld }) (hp : d.rc.phase ≠ .streaming)
  (hm : d.mem = s.mem)
include h hh hd hi hp hm

theorem reportFrees_of_disposed (hs : slotAt d n = SlotDesc.free) :
    ∃ t, s.reportFrees t n ∧ Touches [.arb, .intake, .router] d t := by
  obtain ⟨t, he, ht, hph, -⟩ := report_of_disposed_off h hd hi hh hp
  exact ⟨t, ⟨he, (ht.slotAt n rfl).trans hs, hph, (ht.mem rfl).trans hm⟩, ht⟩

theorem reportStages_of_disposed {x : Nat}
    (hs : slotAt d n = { slotAt s n with state := .staged, label := some x, owner := none }) :
    ∃ t, s.reportStages t n x ∧ Touches [.arb, .intake, .router] d t := by
  obtain ⟨t, he, ht, hph, -⟩ := report_of_disposed_off h hd hi hh hp
  exact ⟨t, ⟨he, (ht.slotAt n rfl).trans hs, hph, (ht.mem rfl).trans hm⟩, ht⟩

end

/-- A block that the disposal only makes FREE. -/
theorem reportFrees_of_freed (h : s.hands n) (hh : s.intake.hold = false) (hp : s.rc.phase ≠ .streaming)
    (hd : disposeBlock n s = freeSlot n s) :
    ∃ t, s.reportFrees t n ∧ Touches [.gaps, .map, .slots, .arb, .intake, .router] s t := by
  have hf : Touches [.gaps, .map, .slots] s (freeSlot n s) := freeSlot_touches n
  have hs : slotAt (freeSlot n s) n = SlotDesc.free := (slotAt_freeSlot n n).trans (if_pos rfl)
  obtain ⟨t, ht, hto⟩ := reportFrees_of_disposed h hh hd (by rw [hf.intake rfl]) (by rwa [hf.rc rfl])
    (hf.mem rfl) hs
  exact ⟨t, ht, (hf.comp hto).mono rfl⟩

/-- With no gap mark on the slot the Gap Table stands too. -/
theorem reportFrees_of_freed_unmarked (h : s.hands n) (hh : s.intake.hold = false) (hp : s.rc.phase ≠ .streaming)
    (hg : (slotAt s n).gapMark = false) (hd : disposeBlock n s = freeSlot n s) :
    ∃ t, s.reportFrees t n ∧ t.rc = s.rc ∧ t.gaps = s.gaps := by
  rw [freeSlot_of_unmarked hg] at hd
  have hf : Touches [.map, .slots] s (setSlot n SlotDesc.free s) := setSlot_touches n _
  have hs : slotAt (setSlot n SlotDesc.free s) n = SlotDesc.free := (slotAt_setSlot_free n n).trans (if_pos rfl)
  obtain ⟨t, ht, hto⟩ := reportFrees_of_disposed h hh hd (by rw [hf.intake rfl]) (by rwa [hf.rc rfl])
    (hf.mem rfl) hs
  exact ⟨t, ht, (hto.rc rfl).trans (hf.rc rfl), (hto.gaps rfl).trans (hf.gaps rfl)⟩

/-! ### A failed attempt, seen from before it -/

/-- What a failed attempt is measured by: P, the retry count and the parameters. -/
theorem State.attemptFailed.of_eq {u t : State} (h : u.attemptFailed d) (hrc : t.rc = d.rc)
    (hme : t.me = d.me) (hp : u.rc.p = s.rc.p) (hr : u.rc.retry = s.rc.retry)
    (hc : u.ctl.params = s.ctl.params) : s.attemptFailed t := by
  unfold State.attemptFailed at h ⊢
  rwa [hrc, hme, ← hp, ← hr, ← hc]

theorem attemptFail_phase : (attemptFail s).rc.phase ≠ .streaming := by
  rw [attemptFail_rc]
  split <;> nofun

/-- A disposal that ends in a failed attempt, from a state `u` whose run and block become FREE. -/
theorem report_attemptFail {u : State} (h : s.hands n) (hh : s.intake.hold = false)
    (hd : disposeBlock n s = attemptFail u) (hu : Touches [.gaps, .map, .slots, .rc] s u)
    (hp : u.rc.p = s.rc.p) (hr : u.rc.retry = s.rc.retry)
    (hs : n ∈ u.rc.run.map StagedBlock.slot ∨ slotAt u n = SlotDesc.free) :
    ∃ t, s.reportFrees t n ∧ s.attemptFailed t ∧
      ∀ k, k ∈ u.rc.run.map StagedBlock.slot → slotAt t k = SlotDesc.free := by
  have hfree : slotAt (attemptFail u) n = SlotDesc.free := by
    rw [slotAt_attemptFail]
    split
    · rfl
    · have hs := hs.resolve_left ‹_›
      rw [hs, if_neg]
      exact fun hf => nomatch hf.2
  obtain ⟨t, ht, hto⟩ := reportFrees_of_disposed h hh hd
    (by rw [attemptFail_intake, hu.intake rfl]) attemptFail_phase
    ((attemptFail_touches.mem rfl).trans (hu.mem rfl)) hfree
  refine ⟨t, ht, attemptFailed_attemptFail.of_eq (hto.rc rfl) (hto.me rfl) hp hr (hu.params rfl), fun k hk => ?_⟩
  rw [hto.slotAt k rfl, slotAt_attemptFail, if_pos hk]

/-- The block is freed and the attempt fails: its run becomes FREE with it (R57, R58, R60). -/
theorem report_frees_and_fails (h : s.hands n) (hh : s.intake.hold = false)
    (hd : disposeBlock n s = attemptFail (freeSlot n s)) :
    ∃ t, s.reportFrees t n ∧ s.attemptFailed t ∧ ∀ x ∈ s.rc.run, slotAt t x.slot = SlotDesc.free := by
  have hf : Touches [.gaps, .map, .slots] s (freeSlot n s) := freeSlot_touches n
  obtain ⟨t, h1, h2, h3⟩ := report_attemptFail h hh hd (hf.mono rfl) (by rw [hf.rc rfl]) (by rw [hf.rc rfl])
    (.inr ((slotAt_freeSlot n n).trans (if_pos rfl)))
  rw [hf.rc rfl] at h3
  exact ⟨t, h1, h2, fun x hx => h3 _ (List.mem_map_of_mem hx)⟩

/-! ### SEEKING: the first block of a run (R57, R71, R73) -/

theorem report_seeking_stages (h : s.reports n) (hst : (slotAt s n).stale = false)
    (hl : (slotAt s n).label = some l) (hp : s.rc.phase = .seeking) (ha : (slotAt s n).arrival = .reread)
    (htr : (slotAt s n).trusted = true) (hlow : (s.rc.p - s.rc.kEff - s.rc.span) / 588 ≤ l)
    (hhigh : l ≤ s.rc.p / 588 + 1) (hlt : l < 450000) (hrun : s.rc.run = [])
    (hf : (slotAt s n).state = .filling) (hfree : freeCount s ≠ 0) (hidle : s.me.activity = .idle) :
    ∃ t a, s.reportStages t n l ∧
      t.rc = { s.rc with phase := .matching, rrq := false, run := [{ slot := n, label := l }] } ∧
      t.me.activity = .scoring ∧ t.me.attempt = some a ∧ a.p = s.rc.p ∧ a.runStart = l * 588 ∧
      a.scoredTo = some (l * 588 + 587) := by
  let r : Recovery := { s.rc with phase := .matching, rrq := false, run := [{ slot := n, label := l }] }
  let a : Attempt := newAttempt r l
  let u : State := ((addToRun n l s).onRc fun r => { r with phase := .matching, rrq := false }).onMe fun m =>
    { m with attempt := some a }
  have hrc : ({ (addToRun n l s).rc with phase := .matching, rrq := false } : Recovery) = r := by
    rw [addToRun_rc, hrun, assignedLabel_of_lt hlt]
    rfl
  have hur : u.rc = r := hrc
  have hd : disposeBlock n s = tryEvaluate u := by
    rw [disposeBlock_seeking hst hp ha, reportSeeking_stages hl htr hlow hhigh, hrc]
    refine afterAdd_evaluates ?_
    show freeCount (addToRun n l s) ≠ 0
    rwa [freeCount_addToRun l hf]
  have hto : Touches [.map, .slots, .rc, .me] s (tryEvaluate u) :=
    ((((addToRun_touches n l).comp (onRc_touches _ rfl)).comp (onMe_touches _)).comp tryEvaluate_touches).mono rfl
  have hslot : slotAt (tryEvaluate u) n = { slotAt s n with state := .staged, label := some l, owner := none } := by
    rw [tryEvaluate_touches.slotAt n rfl]
    show slotAt (stageSlot n l s) n = _
    rw [slotAt_stageSlot h.lt, if_pos rfl, assignedLabel_of_lt hlt]
  obtain ⟨hact, hatt⟩ := tryEvaluate_begins (s := u) (a := a) (e := l * 588 + 587) rfl
    (by rw [hur]; exact runEnd_append [] _) hidle (by rw [hur]; exact h.hands.captured) nofun
  obtain ⟨t, ht, htt⟩ := reportStages_of_disposed h.hands h.hold hd (by rw [hto.intake rfl])
    (by rw [tryEvaluate_touches.rc rfl, hur]; nofun) (hto.mem rfl) hslot
  refine ⟨t, { a with scoredTo := some (l * 588 + 587) }, ht, ?_, ?_, ?_, rfl, rfl, rfl⟩
  · rw [htt.rc rfl, tryEvaluate_touches.rc rfl, hur]
  · rw [htt.me rfl, hact]
  · rw [htt.me rfl, hatt]

/-! ### MATCHING: the next block of a short run (R58) -/

section
variable {m : StagedBlock} (h : s.reports n) (hst : (slotAt s n).stale = false) (hp : s.rc.phase = .matching)
  (ha : (slotAt s n).arrival = .reread) (hw : s.rc.wait = .none) (hm : s.rc.run.getLast? = some m)
  (hshort : (m.label + 1) * 588 < s.rc.p + s.rc.span)
  (hnext : (slotAt s n).trusted = false ∨ labelOf (slotAt s n) = m.label + 1)
  (hlt : m.label + 1 < 450000) (hf : (slotAt s n).state = .filling)
include h hst hp ha hw hm hshort hnext hlt hf

omit h hlt hf in
theorem disposeBlock_joins : disposeBlock n s = afterAdd (addToRun n (m.label + 1) s) := by
  rw [disposeBlock_matching hst hp ha, reportMatching_short hw hm hshort, if_pos]
  rcases hnext with hn | hn <;> simp [hn]

theorem report_matching_scores {a : Attempt} (hfree : freeCount s ≠ 0) (hidle : s.me.activity = .idle)
    (hat : s.me.attempt = some a) (hsc : a.scoredTo ≠ some ((m.label + 1) * 588 + 587)) :
    ∃ t, s.reportStages t n (m.label + 1) ∧
      t.rc = { s.rc with run := s.rc.run ++ [{ slot := n, label := m.label + 1 }] } ∧ t.me.activity = .scoring ∧
      t.me.attempt = some { a with scoredTo := some ((m.label + 1) * 588 + 587) } := by
  have hrc := addToRun_rc (s := s) n (m.label + 1)
  rw [assignedLabel_of_lt hlt] at hrc
  have hd : disposeBlock n s = tryEvaluate (addToRun n (m.label + 1) s) := by
    rw [disposeBlock_joins hst hp ha hw hm hshort hnext, afterAdd_evaluates]
    rwa [freeCount_addToRun _ hf]
  have hadd := addToRun_touches (s := s) n (m.label + 1)
  have hto : Touches [.map, .slots, .rc, .me] s (tryEvaluate (addToRun n (m.label + 1) s)) :=
    (hadd.comp tryEvaluate_touches).mono rfl
  have hslot : slotAt (tryEvaluate (addToRun n (m.label + 1) s)) n =
      { slotAt s n with state := .staged, label := some (m.label + 1), owner := none } := by
    rw [tryEvaluate_touches.slotAt n rfl]
    show slotAt (stageSlot n (m.label + 1) s) n = _
    rw [slotAt_stageSlot h.lt, if_pos rfl, assignedLabel_of_lt hlt]
  obtain ⟨hact, hatt⟩ := tryEvaluate_begins (s := addToRun n (m.label + 1) s) (a := a)
    (by rw [hadd.me rfl]; exact hat) (by rw [hrc]; exact runEnd_append _ _) (by rw [hadd.me rfl]; exact hidle)
    (by rw [hrc]; exact h.hands.captured) hsc
  obtain ⟨t, ht, htt⟩ := reportStages_of_disposed h.hands h.hold hd (by rw [hto.intake rfl])
    (by rw [tryEvaluate_touches.rc rfl, hrc]; exact hp ▸ nofun) (hto.mem rfl) hslot
  refine ⟨t, ht, ?_, ?_, ?_⟩
  · rw [htt.rc rfl, tryEvaluate_touches.rc rfl, hrc]
  · rw [htt.me rfl, hact]
  · rw [htt.me rfl, hatt]

theorem report_matching_full (hfree : freeCount s = 0) (hstill : (m.label + 2) * 588 < s.rc.p + s.rc.span) :
    ∃ t, s.reportFrees t n ∧ s.attemptFailed t := by
  have hrc := addToRun_rc (s := s) n (m.label + 1)
  rw [assignedLabel_of_lt hlt] at hrc
  have hd : disposeBlock n s = attemptFail (addToRun n (m.label + 1) s) := by
    rw [disposeBlock_joins hst hp ha hw hm hshort hnext]
    refine if_pos ⟨runCovers_eq_false (e := (m.label + 1) * 588 + 587) ?_ ?_, ?_⟩
    · rw [hrc]; exact runEnd_append _ _
    · rw [hrc]
      exact (Nat.succ_mul (m.label + 1) 588).symm.trans_lt hstill
    · rwa [freeCount_addToRun _ hf]
  obtain ⟨t, h1, h2, -⟩ := report_attemptFail h.hands h.hold hd ((addToRun_touches n _).mono rfl)
    (by rw [hrc]) (by rw [hrc]) (.inl (by rw [hrc]; simp))
  exact ⟨t, h1, h2⟩

end

/-! ### GAPFETCH (R97, R98) -/

section
variable {r : FetchRecord} {q : Nat} (h : s.reports n) (hst : (slotAt s n).stale = false)
  (hp : s.rc.phase = .gapFetch) (ha : (slotAt s n).arrival = .gapFetch) (hr : s.gaps.fetch = some r)
  (hrp : r.phase = .fetching) (hg : (slotAt s n).gapMark = false)

include h hst hp ha in
/-- A block the fetch has no use for is made FREE. -/
theorem report_gapFetch_frees (hd : reportGapFetch n (slotAt s n) s = freeSlot n s)
    (hg : (slotAt s n).gapMark = false) : ∃ t, s.reportFrees t n ∧ t.rc = s.rc ∧ t.gaps = s.gaps :=
  reportFrees_of_freed_unmarked h.hands h.hold (by rw [hp]; nofun) hg
    ((disposeBlock_gapFetch hst hp ha).trans hd)

theorem stageForFetch_touches (x : Nat) (r : FetchRecord) :
    Touches [.map, .slots, .rc, .gaps] s (stageForFetch n x r s) :=
  (((stageSlot_touches n x).comp dropRrq_touches).comp (onGaps_touches _)).mono rfl

theorem slotAt_stageForFetch (hn : n < s.map.slots.length) (hq : q < 450000) (r : FetchRecord) :
    slotAt (stageForFetch n q r s) n =
      { slotAt s n with state := .staged, label := some q, owner := none } := by
  show slotAt (stageSlot n q s) n = _
  rw [slotAt_stageSlot hn, if_pos rfl, assignedLabel_of_lt hq]

include h hst hp ha in
/-- A block staged for the fetch, after which the fetch may end in `f`. -/
theorem report_gapFetch_stages {f : State → State} (hq : q < 450000)
    (hd : reportGapFetch n (slotAt s n) s = f (stageForFetch n q r s))
    (hf : Touches [.me, .gaps] (stageForFetch n q r s) (f (stageForFetch n q r s))) :
    ∃ t, s.reportStages t n q ∧ t.rc = { s.rc with rrq := false } ∧
      Touches [.arb, .intake, .router] (f (stageForFetch n q r s)) t := by
  have hto := (stageForFetch_touches (s := s) (n := n) q r).comp hf
  obtain ⟨t, ht, htt⟩ := reportStages_of_disposed h.hands h.hold ((disposeBlock_gapFetch hst hp ha).trans hd)
    (by rw [hto.intake rfl])
    (by
      rw [hf.rc rfl]
      show s.rc.phase ≠ .streaming
      rw [hp]
      nofun)
    (hto.mem rfl) ((hf.slotAt n rfl).trans (slotAt_stageForFetch h.lt hq r))
  exact ⟨t, ht, (htt.rc rfl).trans (hf.rc rfl), htt⟩

/-- In `t` the fetch `r` has ended in the alignment of the blocks `l` (R98). -/
def State.aligns (t : State) (r : FetchRecord) (l : List StagedBlock) : Prop :=
  t.me.activity = .aligning ∧ t.gaps.fetch = some { r with phase := .merging, staged := l } ∧
    ∃ a, t.me.align = some a ∧ a.label = r.label ∧ a.slot = r.slot ∧ a.blocks = l

theorem State.aligns.of_touches {u t : State} {bs : List StagedBlock} (h : u.aligns r bs)
    (ht : Touches [.arb, .intake, .router] u t) : t.aligns r bs := by
  unfold State.aligns
  rw [ht.me rfl, ht.gaps rfl]
  exact h

/-- The end of a fetch with its entry present and something staged (R98). -/
theorem fetchEnd_spec (hr : s.gaps.fetch = some r) (hg : gapPresent s r = true) (hs : r.staged ≠ []) :
    Touches [.me, .gaps] s (fetchEnd s) ∧ (fetchEnd s).aligns r r.staged := by
  rw [fetchEnd_aligns hr hg hs]
  exact ⟨((onGaps_touches _).comp (beginAlignment_touches _ _ _)).mono rfl, rfl, rfl, _, rfl, rfl, rfl, rfl⟩

include h hst hp ha hr hrp in
theorem report_gapFetch_stages_only (hl : fetchLabel (slotAt s n) r = some q)
    (hq : q = r.label ∨ q + 1 = r.label) (hnew : ∀ b ∈ r.staged, b.label ≠ q) (hlt : q < 450000) :
    ∃ t, s.reportStages t n q ∧ t.rc = { s.rc with rrq := false } ∧
      t.gaps = { s.gaps with fetch := some { r with staged := r.staged ++ [{ slot := n, label := q }] } } := by
  have hd : reportGapFetch n (slotAt s n) s = stageForFetch n q r s := by
    rw [reportGapFetch_labelled hr hrp hl, if_neg (by omega), if_pos (by omega), if_neg (by simpa using hnew),
      if_neg (by omega)]
  obtain ⟨t, h1, h2, h3⟩ := report_gapFetch_stages (f := id) h hst hp ha hlt hd (.refl _ _)
  exact ⟨t, h1, h2, h3.gaps rfl⟩

include h hst hp ha hr hrp in
theorem report_gapFetch_ends (hl : fetchLabel (slotAt s n) r = some q) (hq : q = r.label + 1)
    (hnew : ∀ b ∈ r.staged, b.label ≠ q) (hlt : q < 450000) (hpres : gapPresent s r = true) :
    ∃ t, s.reportStages t n q ∧ t.rc = { s.rc with rrq := false } ∧
      t.aligns r (r.staged ++ [{ slot := n, label := q }]) := by
  have hd : reportGapFetch n (slotAt s n) s = fetchEnd (stageForFetch n q r s) := by
    rw [reportGapFetch_labelled hr hrp hl, if_neg (by omega), if_pos (by omega), if_neg (by simpa using hnew),
      if_pos hq]
  obtain ⟨hto, hal⟩ := fetchEnd_spec (s := stageForFetch n q r s)
    (r := { r with staged := r.staged ++ [{ slot := n, label := q }] }) rfl hpres (by simp)
  obtain ⟨t, h1, h2, h3⟩ := report_gapFetch_stages (f := fetchEnd) h hst hp ha hlt hd hto
  exact ⟨t, h1, h2, State.aligns.of_touches (r := r) hal h3⟩

include h hst hp ha hr hrp hg in
theorem report_gapFetch_passed (hl : fetchLabel (slotAt s n) r = some q) (hq : r.label + 1 < q)
    (htr : (slotAt s n).trusted = true) (hs : r.staged ≠ []) (hpres : gapPresent s r = true) :
    ∃ t, s.reportFrees t n ∧ t.rc = s.rc ∧ t.aligns r r.staged := by
  have hd : reportGapFetch n (slotAt s n) s = fetchEnd (setSlot n SlotDesc.free s) := by
    rw [reportGapFetch_labelled hr hrp hl, if_neg (by omega), if_neg (by omega), if_pos htr,
      freeSlot_of_unmarked hg]
  obtain ⟨hto, hal⟩ := fetchEnd_spec (s := setSlot n SlotDesc.free s) (r := r) hr hpres hs
  have hall := (setSlot_touches (s := s) n SlotDesc.free).comp hto
  have hslot : slotAt (fetchEnd (setSlot n SlotDesc.free s)) n = SlotDesc.free :=
    (hto.slotAt n rfl).trans ((slotAt_setSlot_free n n).trans (if_pos rfl))
  obtain ⟨t, ht, htt⟩ := reportFrees_of_disposed h.hands h.hold ((disposeBlock_gapFetch hst hp ha).trans hd)
    (by rw [hall.intake rfl]) (by rw [hall.rc rfl, hp]; nofun) (hall.mem rfl) hslot
  exact ⟨t, ht, (htt.rc rfl).trans (hall.rc rfl), hal.of_touches htt⟩

end

/-! ### A stale block, and any block in LOST (R48, R53) -/

theorem report_discards (h : s.hands n) (hh : s.intake.hold = false) (hp : s.rc.phase ≠ .streaming)
    (hg : (slotAt s n).gapMark = false) (hd : (slotAt s n).stale = true ∨ s.rc.phase = .lost) :
    ∃ t, exec .blockReport s = .next t ∧
      (∀ k, slotAt t k = if k = n then SlotDesc.free else slotAt s k) ∧
      t.intake.phase = .none ∧ t.intake.slot = none ∧ t.rc = s.rc ∧ t.ctl = s.ctl ∧ t.mem = s.mem ∧
      t.map.segs = s.map.segs ∧ t.play = s.play := by
  have hf : Touches [.map, .slots] s (setSlot n SlotDesc.free s) := setSlot_touches n _
  obtain ⟨t, he, ht, hph, hsl⟩ := report_of_disposed_off h
    ((disposeBlock_discards hd).trans (freeSlot_of_unmarked hg)) (by rw [hf.intake rfl]) hh (by rwa [hf.rc rfl])
  have hall := hf.comp ht
  exact ⟨t, he, fun k => (ht.slotAt k rfl).trans (slotAt_setSlot_free n k), hph, hsl, hall.rc rfl, hall.ctl rfl,
    hall.mem rfl, hall.segs rfl, hall.play rfl⟩

end

/-- Settles O29: each way of disposing of the block, by the state it comes in. -/
theorem reportDiscardsStaleBlock : Obligations.ReportDiscardsStaleBlock := by
  refine ⟨fun s n hr hc hp hi hj hs hb hh hg hd => report_discards ⟨hr, hc, hi, hj, hs, hb⟩ hh hp hg hd, ?_⟩
  intro s n l h hst hl hg freed staged low
  refine ⟨fun hp ha => ⟨fun hd => ?_, fun htr hlow hhigh => ?_, ?_⟩, fun hp ha hw m hm hshort => ⟨?_, ?_⟩,
    fun hp ha r hr hrp => ⟨?_, fun q hq => ?_⟩⟩
  · obtain ⟨t, ht, hrc, -⟩ := reportFrees_of_freed_unmarked h.hands h.hold (by rw [hp]; nofun) hg
      ((disposeBlock_seeking hst hp ha).trans (reportSeeking_discards hl hd))
    exact ⟨t, ht, hrc⟩
  · obtain ⟨t, ht, hf, -⟩ := report_frees_and_fails h.hands h.hold
      ((disposeBlock_seeking hst hp ha).trans (reportSeeking_fails hl htr hlow hhigh))
    exact ⟨t, ht, hf⟩
  · exact report_seeking_stages h hst hl hp ha
  · intro htr hne
    have hd : disposeBlock n s = attemptFail (freeSlot n s) := by
      rw [disposeBlock_matching hst hp ha, reportMatching_short hw hm hshort, htr, labelOf_of_label hl, if_neg]
      simpa using hne
    obtain ⟨t, ht, hf, hrun⟩ := report_frees_and_fails h.hands h.hold hd
    exact ⟨t, ht, hf, fun x hx _ => hrun x hx⟩
  · intro hnext hlt hf
    rw [← labelOf_of_label hl] at hnext
    exact ⟨fun a => report_matching_scores h hst hp ha hw hm hshort hnext hlt hf,
      report_matching_full h hst hp ha hw hm hshort hnext hlt hf⟩
  · intro htr hs
    refine report_gapFetch_frees h hst hp ha (reportGapFetch_unlabelled hr hrp ?_) hg
    unfold fetchLabel
    rw [htr, hs]
    rfl
  · have hlab : fetchLabel (slotAt s n) r = some q := by
      refine fetchLabel_eq (hq.imp_left ?_)
      rintro ⟨htr, rfl⟩
      exact ⟨htr, hl⟩
    intro blocks aligns
    refine ⟨fun hw => ?_, report_gapFetch_stages_only h hst hp ha hr hrp hlab,
      report_gapFetch_ends h hst hp ha hr hrp hlab, report_gapFetch_passed h hst hp ha hr hrp hg hlab⟩
    refine report_gapFetch_frees h hst hp ha ?_ hg
    rw [reportGapFetch_labelled hr hrp hlab]
    rcases hw with hw | ⟨hle, b, hb, hbq⟩ | ⟨hlt, htr⟩
    · rw [if_pos hw]
    · have hany : r.staged.any (fun b => b.label == q) = true := List.any_eq_true.mpr ⟨b, hb, by simpa using hbq⟩
      rw [if_pos hle, if_pos hany, ite_self]
    · rw [if_neg (by omega), if_neg (by omega), htr, if_neg (by decide)]

end Sys2Proof.Machine
end

section
/-! PROOFS. Laws of the Segment List and of breaks: retirement, closing and truncation of segments, the discard of
the block being filled, tail captures and sequences. -/
namespace Sys2Proof.Machine

section
variable {s : State} {g : Segment}

/-! ### The Segment List (R10, R15, R18) -/

theorem segs_of_lastSeg (h : lastSeg s = some g) : s.map.segs = s.map.segs.dropLast ++ [g] := by
  obtain ⟨l, hl⟩ := List.getLast?_eq_some_iff.mp h
  rw [hl, List.dropLast_concat]

theorem openSeg_eq_some : openSeg s = some g ↔ lastSeg s = some g ∧ g.isOpen = true := by
  unfold openSeg
  cases lastSeg s with
  | none => simp
  | some x =>
    by_cases hx : x.isOpen = true
    · simp only [hx, if_true, Option.some.injEq]
      exact ⟨fun h => ⟨h, h ▸ hx⟩, And.left⟩
    · simp only [hx, Option.some.injEq]
      exact ⟨nofun, fun h => absurd (h.1 ▸ h.2) hx⟩

theorem openSeg_eq_none : openSeg s = none ↔ ∀ g, lastSeg s = some g → g.isOpen = false := by
  rw [Option.eq_none_iff_forall_ne_some]
  refine ⟨fun h g hg => Bool.eq_false_iff.mpr fun ho => h g (openSeg_eq_some.mpr ⟨hg, ho⟩), fun h g hg => ?_⟩
  obtain ⟨hl, ho⟩ := openSeg_eq_some.mp hg
  exact absurd (h g hl) (by rw [ho]; decide)

theorem openEnd_of_openSeg (h : openSeg s = some g) : openEnd s = g.stop := by
  unfold openEnd
  rw [h]

/-- A segment list after the retirement of its first segment, if the cursor stands at its end (R18). -/
def retiredList (cursor : Nat) : List Segment → List Segment
  | [] => []
  | g :: rest => if cursor = g.stop ∧ (g.isOpen = false ∨ rest ≠ []) then rest else g :: rest

theorem retiredList_cons (cursor : Nat) (g : Segment) (rest : List Segment) : retiredList cursor (g :: rest) =
    if cursor = g.stop ∧ (g.isOpen = false ∨ rest ≠ []) then rest else g :: rest := rfl

/-- A segment list after the closing of its open segment (R15, R18). -/
def closedList (cursor : Nat) (segs : List Segment) : List Segment :=
  match segs.getLast? with
  | some g => if g.isOpen then retiredList cursor (segs.dropLast ++ [{ g with isOpen := false }]) else segs
  | none => segs

theorem retireFront_map_segs : (retireFront s).map.segs = retiredList s.play.cursor s.map.segs := by
  unfold retireFront
  split
  case h_1 h => rw [h]; rfl
  case h_2 x rest h =>
    rw [h, retiredList_cons]
    by_cases hc : s.play.cursor = x.stop ∧ (x.isOpen = false ∨ rest ≠ [])
    · rw [if_pos hc, if_pos hc]
      dsimp only
      split <;> rfl
    · rw [if_neg hc, if_neg hc]
      exact h

/-- With no segment ending at the cursor in front, nothing retires. -/
theorem retireFront_stands (h : ∀ x, s.map.segs.head? = some x → x.stop ≠ s.play.cursor) : retireFront s = s := by
  unfold retireFront
  split
  · rfl
  · rename_i x rest hx
    rw [hx] at h
    exact if_neg fun hc => h x rfl hc.1.symm

theorem retiredList_of_head {cursor : Nat} {l : List Segment} (h : ∀ x, l.head? = some x → x.stop ≠ cursor) :
    retiredList cursor l = l := by
  cases l with
  | nil => rfl
  | cons x rest => exact if_neg fun hc => h x rfl hc.1.symm

/-- A retirement leaves the last segment, unless it takes the only one. -/
theorem retiredList_getLast? {cursor : Nat} {l : List Segment} {x : Segment}
    (h : (retiredList cursor l).getLast? = some x) : l.getLast? = some x := by
  cases l with
  | nil => exact h
  | cons y rest =>
    rw [retiredList_cons] at h
    split at h
    · cases rest with
      | nil => exact nomatch h
      | cons z rest => rwa [List.getLast?_cons_cons]
    · exact h

theorem closeOpen_map_segs : (closeOpen s).map.segs = closedList s.play.cursor s.map.segs := by
  unfold closeOpen closedList openSeg lastSeg
  cases hl : s.map.segs.getLast? with
  | none => rfl
  | some x =>
    dsimp only
    by_cases hx : x.isOpen = true
    · rw [if_pos hx, if_pos hx]
      dsimp only
      rw [leadCheck_touches.segs rfl, retireFront_map_segs, modLastSeg_segs, hl, (modLastSeg_touches _).play rfl]
    · rw [if_neg hx, if_neg hx]

/-- No open segment is left. -/
theorem openSeg_closeOpen : openSeg (closeOpen s) = none :=
  openSeg_eq_none.mpr fun g hg => ((closeOpen_segs s).2.2 g hg).1

/-- The open segment closed where it stays in the list (R15). -/
theorem closeOpen_of_stays (h : openSeg s = some g)
    (hs : ∀ x, s.map.segs.head? = some x → x.stop ≠ s.play.cursor) :
    (closeOpen s).map.segs = s.map.segs.dropLast ++ [{ g with isOpen := false }] ∧ (closeOpen s).play = s.play := by
  obtain ⟨hl, ho⟩ := openSeg_eq_some.mp h
  have hsegs := segs_of_lastSeg hl
  have hhead : ∀ x, (s.map.segs.dropLast ++ [{ g with isOpen := false }]).head? = some x →
      x.stop ≠ s.play.cursor := fun x hx => by
    rw [hsegs] at hs
    generalize s.map.segs.dropLast = rest at hx hs
    cases rest with
    | nil =>
      cases hx
      exact hs g rfl
    | cons y rest => exact hs x hx
  have hm : (modLastSeg (fun g => { g with isOpen := false }) s).map.segs =
      s.map.segs.dropLast ++ [{ g with isOpen := false }] := by
    rw [modLastSeg_segs, show s.map.segs.getLast? = some g from hl]
  have hp : (modLastSeg (fun g => { g with isOpen := false }) s).play = s.play := (modLastSeg_touches _).play rfl
  unfold closeOpen
  rw [h]
  dsimp only
  rw [leadCheck_touches.segs rfl, leadCheck_touches.play rfl, retireFront_stands (by rw [hm, hp]; exact hhead)]
  exact ⟨hm, hp⟩

/-! ### Truncation (R15) -/

theorem mem_range_zip {α : Type} {l : List α} {n : Nat} {d : α} :
    (n, d) ∈ (List.range l.length).zip l ↔ l[n]? = some d := by
  constructor
  · intro h
    obtain ⟨k, hk⟩ := List.mem_iff_getElem?.mp h
    obtain ⟨hr, hd⟩ := List.getElem?_zip_eq_some.mp hk
    obtain ⟨hlt, he⟩ := List.getElem?_eq_some_iff.mp hr
    rw [List.getElem_range] at he
    subst he
    exact hd
  · intro h
    have hlt : n < l.length := (List.getElem?_eq_some_iff.mp h).1
    exact List.mem_iff_getElem?.mpr ⟨n, List.getElem?_zip_eq_some.mpr ⟨List.getElem?_range hlt, h⟩⟩

/-- Does slot descriptor `d` hold no frame of `g` below `p`? (R15) -/
def SlotDesc.cutBy (d : SlotDesc) (g : Segment) (p : Nat) : Prop :=
  d.owner = some g.id ∧ (p : Int) ≤ (labelOf d * 588 : Nat) - g.shift

section
variable (h : openSeg s = some g) (p : Nat)
include h

theorem truncateOpen_segs : (truncateOpen p s).map.segs =
    if p ≤ g.start then s.map.segs.dropLast
    else retiredList s.play.cursor (s.map.segs.dropLast ++ [{ g with length := p - g.start, isOpen := false }]) := by
  have hl := (openSeg_eq_some.mp h).1
  have hm : ∀ ns, (modLastSeg (fun g => { g with length := p - g.start, isOpen := false }) (freeSlots ns s)).map.segs =
      s.map.segs.dropLast ++ [{ g with length := p - g.start, isOpen := false }] := fun ns => by
    rw [modLastSeg_segs, (freeSlots_touches ns).segs rfl, show s.map.segs.getLast? = some g from hl]
  unfold truncateOpen
  rw [h]
  dsimp only
  rw [leadCheck_touches.segs rfl]
  split
  · rw [State.onMap_map, hm, List.dropLast_concat]
  · rw [retireFront_map_segs, hm, (modLastSeg_touches _).play rfl, (freeSlots_touches _).play rfl]

/-- The slots of the open segment with no frame below `p` are FREE, every other as it was (R15). -/
theorem slotAt_truncateOpen {n : Nat} {d : SlotDesc} (hd : s.map.slots[n]? = some d) :
    (d.cutBy g p → slotAt (truncateOpen p s) n = SlotDesc.free) ∧
      (¬ d.cutBy g p → slotAt (truncateOpen p s) n = d) := by
  have hslot : slotAt (truncateOpen p s) n = slotAt (freeSlots
      (((List.range s.map.slots.length).zip s.map.slots).filterMap fun (n, d) =>
        if d.owner == some g.id && decide ((p : Int) ≤ (blockStart (labelOf d) : Int) - g.shift)
        then some n else none) s) n := by
    unfold truncateOpen
    rw [h]
    dsimp only
    rw [leadCheck_touches.slotAt n rfl]
    split
    · exact ((modLastSeg_touches _).comp (onMap_touches _ rfl)).slotAt n rfl
    · exact ((modLastSeg_touches _).comp retireFront_touches).slotAt n rfl
  have hmem : n ∈ (((List.range s.map.slots.length).zip s.map.slots).filterMap fun (n, d) =>
      if d.owner == some g.id && decide ((p : Int) ≤ (blockStart (labelOf d) : Int) - g.shift)
      then some n else none) ↔ d.cutBy g p := by
    simp only [List.mem_filterMap, Prod.exists, Bool.and_eq_true, beq_iff_eq, decide_eq_true_eq,
      Option.ite_none_right_eq_some, Option.some.injEq]
    constructor
    · rintro ⟨k, e, hke, hc, rfl⟩
      rw [mem_range_zip, hd] at hke
      exact Option.some.inj hke ▸ hc
    · exact fun hc => ⟨n, d, mem_range_zip.mpr hd, hc, rfl⟩
  rw [hslot, slotAt_freeSlots, slotAt_of_getElem? hd]
  exact ⟨fun hc => if_pos (hmem.mpr hc), fun hc => if_neg fun hm => hc (hmem.mp hm)⟩

end

/-! ### The discard of the block being filled (R36) -/

theorem slotAt_dropFilling (k : Nat) : slotAt (dropFilling s) k =
    if s.intake.slot = some k ∧ (slotAt s k).state = .filling then SlotDesc.free else slotAt s k := by
  unfold dropFilling
  dsimp only
  split
  case h_1 n hn =>
    rw [(onIntake_touches _ rfl).slotAt k rfl]
    split
    case isTrue hf =>
      rw [slotAt_freeSlot]
      by_cases hk : k = n
      · rw [if_pos hk, if_pos ⟨by rw [hn, hk], by rw [hk]; exact hf⟩]
      · rw [if_neg hk, if_neg fun h => hk (Option.some.inj (hn.symm.trans h.1)).symm]
    case isFalse hf =>
      rw [if_neg]
      rintro ⟨he, hk⟩
      rw [hn] at he
      exact hf (Option.some.inj he ▸ hk)
  case h_2 hn => exact (if_neg fun h => Option.some_ne_none k (h.1.symm.trans hn)).symm

theorem dropFilling_intake : (dropFilling s).intake = { s.intake with
    phase := .none, slot := none, written := 0, marks := 0, flagJobs := s.intake.flagJobs.take 1 } := by
  unfold dropFilling
  dsimp only
  split
  · split
    · rw [State.onIntake_intake, (freeSlot_touches _).intake rfl]
    · rfl
  · rfl

/-! ### The tail capture and the start of a sequence (R51, R52, R66) -/

/-- A capture begun: as many positions as MATCH_LEN, and K_eff and SPAN of the sequence (R52, R69). -/
theorem startCapture_rc (returns : Bool) : ∃ items : List CaptureItem,
    items.length = s.ctl.params.matchLen ∧
    (startCapture returns s).rc = { s.rc with
      kEff := s.ctl.params.matchLen, span := s.ctl.params.span
      capture := some { items := items, returns := returns } } :=
  ⟨_, by rw [List.length_map, List.length_map, List.length_range], rfl⟩

/-- Entering LOST with no beat held (R36, R50). -/
theorem enterLost_of_held_nil (h : s.intake.held = []) :
    enterLost s = finishD (s.onRc fun r => { r with phase := .lost, rrq := false }) := drainHeld_of_held_nil h

theorem recordBreak_rc (c : Cause) (retries : Nat) (pending : Bool) :
    (recordBreak c retries pending s).rc = { s.rc with record :=
      { cause := some c, p := s.rc.p, lead := s.lead, retries := retries, pending := pending
        renewed := s.rc.record.renewed || s.rc.record.held, held := s.rc.record.held } } := rfl

theorem recordBreak_flag (c : Cause) (retries : Nat) (pending : Bool) :
    (recordBreak c retries pending s).flag .breakTaken = true := by
  show (s.ctl.flags ||| BitVec.twoPow 16 0).getLsbD 0 = true
  simp

theorem recordBreak_count (c : Cause) (retries : Nat) (pending : Bool) :
    (recordBreak c retries pending s).count .breaks = s.count .breaks + 1 := rfl

/-- The recovery registers at the start of a sequence, but for the capture's items (R50, R51, R66). -/
def Recovery.sequence (r : Recovery) (c : Cause) (p lead : Nat) (params : Params) (items : List CaptureItem) :
    Recovery :=
  { r with
    phase := .lost, rrq := false, p := p, origin := some c, cause := some c, retry := 0, bridgePending := false
    seqBroken := true, kEff := params.matchLen, span := params.span
    capture := some { items := items, returns := false }
    record :=
      { cause := some c, p := p, lead := lead, retries := r.retry, pending := false
        renewed := r.record.renewed || r.record.held, held := r.record.held } }

section
variable (h : s.intake.held = []) (c : Cause) (p : Nat)
include h

theorem beginSequence_of_held_nil : beginSequence c p s = startCapture false
    (finishD ((recordBreak c s.rc.retry false (s.onRc fun r =>
      { r with
        p := p, origin := some c, cause := some c, retry := 0, bridgePending := false, seqBroken := true })).onRc
      fun r => { r with phase := .lost, rrq := false })) :=
  congrArg (startCapture false) (enterLost_of_held_nil (s := recordBreak c _ false _) h)

theorem beginSequence_touches :
    Touches [.rc, .record, .ctl, .counters, .router] s (beginSequence c p s) := by
  rw [beginSequence_of_held_nil h]
  exact (((((onRc_touches _ rfl).comp (recordBreak_touches _ _ _)).comp (onRc_touches _ rfl)).comp
    finishD_touches).comp (startCapture_touches _)).mono rfl

theorem beginSequence_rc : ∃ items : List CaptureItem,
    (beginSequence c p s).rc = s.rc.sequence c p s.lead s.ctl.params items := by
  rw [beginSequence_of_held_nil h]
  obtain ⟨items, -, hrc⟩ := startCapture_rc (s := finishD ((recordBreak c s.rc.retry false (s.onRc fun r =>
    { r with
      p := p, origin := some c, cause := some c, retry := 0, bridgePending := false, seqBroken := true })).onRc
    fun r => { r with phase := .lost, rrq := false })) false
  refine ⟨items, ?_⟩
  rw [hrc, finishD_touches.rc rfl, finishD_touches.ctl rfl]
  rfl

theorem beginSequence_flag : (beginSequence c p s).flag .breakTaken = true := by
  rw [beginSequence_of_held_nil h, (((onRc_touches _ rfl).comp finishD_touches).comp
    (startCapture_touches false)).flag .breakTaken rfl]
  exact recordBreak_flag ..

theorem beginSequence_count : (beginSequence c p s).count .breaks = s.count .breaks + 1 := by
  rw [beginSequence_of_held_nil h, (((onRc_touches _ rfl).comp finishD_touches).comp
    (startCapture_touches false)).count .breaks rfl]
  exact recordBreak_count ..

end

end

end Sys2Proof.Machine
end

section
/-! PROOFS. O30: what a shock or track loss does in STREAMING, HOLDING, SEEKING, MATCHING and GAPFETCH. -/
namespace Sys2Proof.Machine

/-! ### The distrusted end (R15) -/

section
variable {labels : List Nat}

theorem countP_above_lt_length {l : Nat} (h : l ∈ labels) :
    labels.countP (fun x => decide (l < x)) < labels.length := by
  refine Nat.lt_of_le_of_ne List.countP_le_length fun he => ?_
  have := List.countP_eq_length.mp he l h
  exact absurd (of_decide_eq_true this) (Nat.lt_irrefl l)

/-- A label below another of the list has more labels above it. -/
theorem countP_above_lt {a b : Nat} (hab : a < b) (hb : b ∈ labels) :
    labels.countP (fun x => decide (b < x)) < labels.countP (fun x => decide (a < x)) := by
  induction labels with
  | nil => exact absurd hb List.not_mem_nil
  | cons x labels ih =>
    have hle : labels.countP (fun x => decide (b < x)) ≤ labels.countP (fun x => decide (a < x)) :=
      List.countP_mono_left fun y _ hy => decide_eq_true (Nat.lt_trans hab (of_decide_eq_true hy))
    rw [List.countP_cons, List.countP_cons]
    rcases List.mem_cons.mp hb with rfl | hb
    · simp only [Nat.lt_irrefl, decide_false, hab, decide_true, if_true]
      exact Nat.lt_succ_of_le hle
    · have h1 := ih hb
      by_cases hx : b < x
      · simp only [hx, Nat.lt_trans hab hx, decide_true, if_true]
        exact Nat.succ_lt_succ h1
      · simp only [hx, decide_false]
        exact Nat.lt_of_lt_of_le h1 (Nat.le_add_right _ _)

theorem rankedLabel_eq_none {k : Nat} (h : labels.length ≤ k) : rankedLabel labels k = none := by
  unfold rankedLabel
  refine List.find?_eq_none.mpr fun l hl he => ?_
  have := countP_above_lt_length hl
  rw [beq_iff_eq] at he
  omega

theorem rankedLabel_eq_some {k l : Nat} (hl : l ∈ labels)
    (h : labels.countP (fun x => decide (l < x)) = k) : rankedLabel labels k = some l := by
  unfold rankedLabel
  cases hf : labels.find? fun l => labels.countP (fun x => decide (l < x)) == k with
  | none => exact absurd (beq_iff_eq.mpr h) (List.find?_eq_none.mp hf l hl)
  | some m =>
    have hm := List.mem_of_find?_eq_some hf
    have hc : labels.countP (fun x => decide (m < x)) = k := by
      have := List.find?_some hf
      rwa [beq_iff_eq] at this
    rcases Nat.lt_trichotomy l m with hlt | rfl | hlt
    · have := countP_above_lt hlt hm
      omega
    · rfl
    · have := countP_above_lt hlt hl
      omega

end

section
variable {s : State} {g : Segment}

section
variable (h : openSeg s = some g)
include h

theorem distrustedEnd_zero : distrustedEnd 0 s = g.stop := by
  unfold distrustedEnd
  rw [h]
  rfl

theorem distrustedEnd_of_few {k : Nat} (hk : k ≠ 0)
    (hf : (s.map.slots.filter fun d => d.owner == some g.id).length ≤ k) : distrustedEnd k s = g.start := by
  unfold distrustedEnd
  rw [h]
  dsimp only
  rw [if_neg hk, rankedLabel_eq_none (by unfold ownedLabels; rwa [List.length_map])]

theorem distrustedEnd_of_rank {k e : Nat} {d : SlotDesc} (hk : k ≠ 0)
    (hd : d ∈ s.map.slots.filter fun d => d.owner == some g.id)
    (hc : ((s.map.slots.filter fun d => d.owner == some g.id).countP fun x => decide (labelOf d < labelOf x)) = k)
    (he : (e : Int) = ((labelOf d + 1) * 588 : Nat) - g.shift) (h1 : g.start ≤ e) (h2 : e ≤ g.stop) :
    distrustedEnd k s = e := by
  have hr : rankedLabel (ownedLabels s g.id) k = some (labelOf d) :=
    rankedLabel_eq_some (List.mem_map_of_mem hd) (by unfold ownedLabels; rwa [List.countP_map])
  unfold distrustedEnd
  rw [h]
  dsimp only
  rw [if_neg hk, hr]
  dsimp only
  rw [show (((labelOf d + 1) * Config.frames : Nat) - g.shift : Int) = (e : Int) from he.symm, Int.toNat_natCast]
  unfold Segment.within
  rw [Nat.min_eq_left h2, Nat.max_eq_right h1]

end

/-! ### A line event and its break -/

/-- A shock or track loss sets its level and acts by the recovery state (R43, R44, R45). -/
theorem exec_lineEvent {c : Instr} {k : Cause} (hr : inReset s = false) (hc : s.rc.capture = none)
    (h : (c = .shockEvent ∧ k = .shock) ∨ (c = .trackLostEvent ∧ k = .trackLost)) :
    ∃ (p : Pins) (l : Lines), (k = .trackLost → l.tlost = true) ∧
      exec c s = .next (settleArbiter (lineBreak k { s with pins := p, lines := l })) := by
  rcases h with ⟨rfl, rfl⟩ | ⟨rfl, rfl⟩
  · refine ⟨{ s.pins with shk := true }, { s.lines with shk := true, shkTimer := 0, riseLatch := true }, nofun,
      (next_live hr).trans ?_⟩
    unfold shockEvent
    dsimp only
    rw [if_neg (by show ¬ s.rc.capture.isSome = true; rw [hc]; decide)]
    rfl
  · refine ⟨{ s.pins with tlost := true }, { s.lines with tlost := true, tlostTimer := 0 }, fun _ => rfl,
      (next_live hr).trans ?_⟩
    unfold trackLost
    dsimp only
    rw [if_neg (by show ¬ s.rc.capture.isSome = true; rw [hc]; decide)]
    rfl

theorem dropFilling_fetch : (dropFilling s).gaps.fetch = s.gaps.fetch := by
  have hf : ∀ n, (freeSlot n s).gaps.fetch = s.gaps.fetch := fun n => by
    unfold freeSlot
    split <;> rfl
  unfold dropFilling
  dsimp only
  split
  · split
    · exact hf _
    · rfl
  · rfl

/-! ### In STREAMING and HOLDING (R50, R51) -/

/-- The state of a break just before its sequence begins: HOLD released, the open segment truncated, the block
being filled discarded. -/
def State.cutAt (s : State) (p : Nat) : State := dropFilling (truncateOpen p (s.onIntake fun i => { i with hold := false }))

theorem breakStreaming_eq (c : Cause) : breakStreaming c s =
    beginSequence c (max (distrustedEnd s.ctl.params.distrust s) s.play.cursor)
      (s.cutAt (max (distrustedEnd s.ctl.params.distrust s) s.play.cursor)) := rfl

theorem cutAt_touches (p : Nat) :
    Touches [.map, .segs, .play, .ctl, .gaps, .slots, .intake, .hold] s (s.cutAt p) :=
  (((onIntake_touches_hold _).comp (truncateOpen_touches p)).comp dropFilling_touches).mono rfl

theorem cutAt_intake (p : Nat) : (s.cutAt p).intake = { s.intake with
    hold := false, phase := .none, slot := none, written := 0, marks := 0
    flagJobs := s.intake.flagJobs.take 1 } := by
  unfold State.cutAt
  rw [dropFilling_intake, (truncateOpen_touches p).intake rfl]
  rfl

theorem cutAt_params (p : Nat) : (s.cutAt p).ctl.params = s.ctl.params :=
  ((dropFilling_touches).params rfl).trans ((truncateOpen_touches p).params rfl)

theorem truncated_cutAt (h : openSeg s = some g) (p : Nat) : s.truncated (s.cutAt p) g p := by
  have hdrop := dropFilling_touches (s := truncateOpen p (s.onIntake fun i => { i with hold := false }))
  have hsegs : (s.cutAt p).map.segs = _ := (hdrop.segs rfl).trans
    (truncateOpen_segs (s := s.onIntake fun i => { i with hold := false }) h p)
  refine ⟨fun hh => ?_, fun hone hlt hp => ?_, fun hclosed => ?_, fun n d hd => ?_⟩
  · rw [hsegs]
    split
    case isTrue hle => rw [if_neg (Nat.not_lt.mpr hle), List.append_nil]; rfl
    case isFalse hgt =>
      rw [if_pos (Nat.lt_of_not_le hgt)] at hh ⊢
      exact retiredList_of_head (hh (Nat.lt_of_not_le hgt))
  · rw [hsegs, if_neg (Nat.not_le.mpr hlt)]
    show retiredList s.play.cursor (s.map.segs.dropLast ++ _) = []
    rw [hone]
    refine if_pos ⟨?_, .inl rfl⟩
    show s.play.cursor = g.start + (p - g.start)
    omega
  · refine openSeg_eq_none.mpr fun x hx => ?_
    have hx' : (s.cutAt p).map.segs.getLast? = some x := hx
    rw [hsegs] at hx'
    split at hx'
    · exact hclosed x (List.mem_of_getLast? hx')
    · have := retiredList_getLast? hx'
      rw [List.getLast?_append] at this
      exact Option.some.inj this ▸ rfl
  · have hslot := slotAt_truncateOpen (s := s.onIntake fun i => { i with hold := false }) h p hd
    unfold State.cutAt
    rw [slotAt_dropFilling, (truncateOpen_touches p).intake rfl]
    by_cases hc : d.cutBy g p
    · rw [hslot.1 hc, ite_self]
      exact (if_pos (.inl hc)).symm
    · rw [hslot.2 hc]
      exact if_congr (or_iff_right hc).symm rfl rfl

/-! ### In SEEKING and MATCHING (R61) -/

/-- Is bridge-pending recorded for a recovery broken anew (R61, R66)? -/
def Recovery.interruptedPending (r : Recovery) : Bool :=
  r.seqBroken || r.origin == some .shock || r.origin == some .trackLost || r.origin == some .discontinuity

/-- The recovery registers in the LOST of a recovery broken anew (R61, R66). -/
def Recovery.interrupted (r : Recovery) (c : Cause) (lead limit : Nat) : Recovery :=
  { r with
    phase := .lost, rrq := false, run := [], wait := .none, cause := some c, seqBroken := true
    retry := if r.retry < limit then r.retry + 1 else r.retry
    bridgePending := r.bridgePending || !decide (r.retry < limit)
    record :=
      { cause := some c, p := r.p, lead := lead, retries := r.retry, pending := r.interruptedPending
        renewed := r.record.renewed || r.record.held, held := r.record.held } }

theorem clearAttempt_attempt : (clearAttempt s).me.attempt = none := by
  unfold clearAttempt State.onMe
  dsimp only
  split <;> rfl

/-- A recovery broken anew is in LOST, and leaves it if it may. -/
theorem breakRecovery_spec (c : Cause) (h : s.intake.held = []) : ∃ u, breakRecovery c s = lostExit u ∧
    Touches [.me, .gaps, .map, .slots, .intake, .rc, .record, .ctl, .counters, .router] s u ∧
    u.rc = s.rc.interrupted c s.lead s.ctl.params.retryLimit ∧ u.me.attempt = none ∧ u.intake.phase = .none ∧
    u.ctl.params = s.ctl.params ∧ u.flag .breakTaken = true ∧ u.count .breaks = s.count .breaks + 1 := by
  let v := dropRrq (intakeCut (freeRun (clearAttempt s)))
  have hv : Touches [.me, .gaps, .map, .slots, .intake, .rc] s v :=
    ((clearAttempt_touches.comp freeRun_touches).comp (dropFilling_touches.comp dropRrq_touches)).mono rfl
  have hvrc : v.rc = { s.rc with run := [], wait := .none, rrq := false } := by
    show { (dropFilling (freeRun (clearAttempt s))).rc with rrq := false } = _
    rw [dropFilling_touches.rc rfl, freeRun_rc, clearAttempt_touches.rc rfl]
  have hvme : v.me = (clearAttempt s).me :=
    (dropFilling_touches (s := freeRun (clearAttempt s))).me rfl |>.trans (freeRun_touches.me rfl)
  have hvin : v.intake = { s.intake with
      phase := .none, slot := none, written := 0, marks := 0, flagJobs := s.intake.flagJobs.take 1 } := by
    show (dropFilling (freeRun (clearAttempt s))).intake = _
    rw [dropFilling_intake, freeRun_touches.intake rfl, clearAttempt_touches.intake rfl]
  let w := v.onRc fun r =>
    if r.retry < v.ctl.params.retryLimit then
      { r with cause := some c, seqBroken := true, retry := r.retry + 1 }
    else { r with cause := some c, seqBroken := true, bridgePending := true }
  let b := recordBreak c s.rc.retry s.rc.interruptedPending w
  have hw : Touches [.rc] v w := onRc_touches _ (by split <;> rfl)
  have hwb : Touches [.rc, .record, .ctl, .counters] w b := recordBreak_touches _ _ _
  have hbin : b.intake = v.intake := (hwb.intake rfl).trans (hw.intake rfl)
  refine ⟨enterLost b, rfl, ?_⟩
  rw [enterLost_of_held_nil (by rw [hbin, hvin]; exact h)]
  have hl : Touches [.rc, .router] b (finishD (b.onRc fun r => { r with phase := .lost, rrq := false })) :=
    (onRc_touches _ rfl).comp finishD_touches
  refine ⟨(((hv.comp hw).comp hwb).comp hl).mono rfl, ?_, ?_, ?_, ?_, ?_, ?_⟩
  · have hlead : w.lead = s.lead := (hv.comp hw).lead rfl rfl
    have hwrc : w.rc = if s.rc.retry < s.ctl.params.retryLimit then
        { s.rc with
          run := [], wait := .none, rrq := false, cause := some c, seqBroken := true, retry := s.rc.retry + 1 }
      else
        { s.rc with
          run := [], wait := .none, rrq := false, cause := some c, seqBroken := true, bridgePending := true } := by
      show (if v.rc.retry < v.ctl.params.retryLimit then _ else _) = _
      rw [hvrc, hv.ctl rfl]
    rw [finishD_touches.rc rfl, State.onRc_rc, recordBreak_rc, hlead, hwrc]
    unfold Recovery.interrupted
    split
    case isTrue hlt => simp only [decide_eq_true hlt, Bool.not_true, Bool.or_false]
    case isFalse hge => simp only [decide_eq_false hge, Bool.not_false, Bool.or_true]
  · rw [hl.me rfl, hwb.me rfl, hw.me rfl, hvme]
    exact clearAttempt_attempt
  · rw [hl.intake rfl, hbin, hvin]
  · rw [hl.params rfl, hwb.params rfl, hw.params rfl, hv.params rfl]
  · rw [hl.flag _ rfl]
    exact recordBreak_flag ..
  · rw [hl.count _ rfl, recordBreak_count, (hv.comp hw).count _ rfl]

theorem publish_intake_phase (label : Nat) (loads : Bool) : (publish label loads s).intake.phase = s.intake.phase := by
  rw [publish_intake]

theorem lostExit_stays (hc : s.rc.cause = some .trackLost) (hl : s.lines.tlost = true) : lostExit s = s :=
  if_neg fun ⟨_, _, h⟩ => h.elim (fun h => h hc) fun h => by rw [hl] at h; exact Bool.noConfusion h

/-- LOST left for a cause other than a track loss (R53, R54). -/
theorem lostExit_leaves (hp : s.rc.phase = .lost) (hc : s.rc.capture = none) (hk : s.rc.cause ≠ some .trackLost) :
    Touches [.map, .slots, .intake, .rc] s (lostExit s) ∧ (lostExit s).intake.phase = s.intake.phase ∧
    (lostExit s).rc =
      if s.rc.bridgePending = true then ({ s.rc with bridgePending := false } : Recovery).bridges s.ctl.params
      else s.rc.seeks s.ctl.params := by
  unfold lostExit
  rw [if_pos ⟨hp, hc, .inl hk⟩]
  unfold leaveLost
  split
  · exact ⟨((onRc_touches _ rfl).comp enterBridging_touches).mono rfl, publish_intake_phase _ _,
      enterBridging_rc⟩
  · exact ⟨enterSeeking_touches, publish_intake_phase _ _, enterSeeking_rc⟩

/-- The recovery registers after a recovery broken anew: a shock leaves LOST at once (R53, R61). -/
def Recovery.afterInterrupt (r : Recovery) (c : Cause) (lead : Nat) (params : Params) : Recovery :=
  if c = .trackLost then r.interrupted c lead params.retryLimit
  else if r.bridgePending = true ∨ params.retryLimit ≤ r.retry then
    ({ r.interrupted c lead params.retryLimit with bridgePending := false } : Recovery).bridges params
  else (r.interrupted c lead params.retryLimit).seeks params

/-- Leaving LOST publishes, and the rest of the registers stand as the break left them. -/
theorem afterInterrupt_keeps (r : Recovery) (c : Cause) (lead : Nat) (params : Params) :
    let t := r.afterInterrupt c lead params
    t.p = r.p ∧ t.origin = r.origin ∧ t.cause = some c ∧ t.tail = r.tail ∧ t.run = [] ∧ t.wait = .none ∧
      t.record = (r.interrupted c lead params.retryLimit).record ∧
      t.retry = if r.retry < params.retryLimit then r.retry + 1 else r.retry := by
  unfold Recovery.afterInterrupt
  split
  · exact ⟨rfl, rfl, rfl, rfl, rfl, rfl, rfl, rfl⟩
  · split <;> exact ⟨rfl, rfl, rfl, rfl, rfl, rfl, rfl, rfl⟩

theorem interrupted_bridgePending (r : Recovery) (c : Cause) (lead limit : Nat) :
    (r.interrupted c lead limit).bridgePending = true ↔ r.bridgePending = true ∨ limit ≤ r.retry := by
  simp [Recovery.interrupted]

theorem lostExit_of_interrupted {r : Recovery} {c : Cause} {lead : Nat}
    (h : s.rc = r.interrupted c lead s.ctl.params.retryLimit) (hc : r.capture = none)
    (hl : c = .trackLost → s.lines.tlost = true) :
    Touches [.map, .slots, .intake, .rc] s (lostExit s) ∧ (lostExit s).intake.phase = s.intake.phase ∧
      (lostExit s).rc = r.afterInterrupt c lead s.ctl.params := by
  unfold Recovery.afterInterrupt
  by_cases hk : c = .trackLost
  · rw [lostExit_stays (by rw [h, hk]; rfl) (hl hk), if_pos hk]
    exact ⟨.refl _ s, rfl, h⟩
  · obtain ⟨ht, hin, hrc⟩ := lostExit_leaves (s := s) (by rw [h]; rfl) (by rw [h]; exact hc)
      (by rw [h]; exact fun e => hk (Option.some.inj e))
    refine ⟨ht, hin, ?_⟩
    rw [hrc, if_neg hk, h]
    exact if_congr (interrupted_bridgePending ..) rfl rfl

/-! ### In GAPFETCH (R65) -/

theorem abandonFetch_fetch : (abandonFetch s).gaps.fetch =
    if mergeGranted s then s.gaps.fetch.map (fun r => { r with abandoned := true }) else none := by
  have he : ∀ u : State, (endFetch u).gaps.fetch = none := fun u => by
    unfold endFetch
    split
    · rfl
    · assumption
  unfold abandonFetch
  split
  · rfl
  · exact he _

/-- The state of a break in GAPFETCH just before its sequence begins. -/
def State.fetchCut (s : State) : State := dropFilling (closeOpen (settleArbiter (abandonFetch s)))

theorem fetchCut_touches : Touches [.me, .gaps, .map, .slots, .arb, .segs, .play, .ctl, .intake] s s.fetchCut :=
  (((abandonFetch_touches.comp settleArbiter_touches).comp closeOpen_touches).comp dropFilling_touches).mono rfl

theorem openEnd_abandonFetch : openEnd (settleArbiter (abandonFetch s)) = openEnd s := by
  have h := abandonFetch_touches (s := s) |>.comp settleArbiter_touches
  unfold openEnd
  rw [h.openSeg rfl, h.play rfl]

theorem breakGapFetch_eq (c : Cause) : breakGapFetch c s = beginSequence c (openEnd s) s.fetchCut :=
  congrArg (fun p => beginSequence c p s.fetchCut) openEnd_abandonFetch

theorem fetchCut_params : s.fetchCut.ctl.params = s.ctl.params :=
  (((abandonFetch_touches.comp settleArbiter_touches).comp closeOpen_touches).comp dropFilling_touches).params rfl

theorem fetchCut_intake : s.fetchCut.intake = { s.intake with
    phase := .none, slot := none, written := 0, marks := 0, flagJobs := s.intake.flagJobs.take 1 } := by
  unfold State.fetchCut
  rw [dropFilling_intake, closeOpen_touches.intake rfl, settleArbiter_touches.intake rfl,
    abandonFetch_touches.intake rfl]


/-- A sequence begun, and the arbiter settled: the capture record holds the lead that stands now (R66). -/
theorem sequence_begins (c : Cause) (p : Nat) (h : s.intake.held = []) : ∃ t items,
    settleArbiter (beginSequence c p s) = t ∧ Touches [.rc, .record, .ctl, .counters, .router, .arb] s t ∧
    t.rc = s.rc.sequence c p t.lead s.ctl.params items ∧ t.flag .breakTaken = true ∧
    t.count .breaks = s.count .breaks + 1 := by
  have hb := beginSequence_touches h c p
  have ht : Touches [.rc, .record, .ctl, .counters, .router, .arb] s (settleArbiter (beginSequence c p s)) :=
    (hb.comp settleArbiter_touches).mono rfl
  obtain ⟨items, hrc⟩ := beginSequence_rc h c p
  refine ⟨_, items, rfl, ht, ?_, ?_, ?_⟩
  · rw [settleArbiter_touches.rc rfl, hrc, ht.lead rfl rfl]
  · rw [settleArbiter_touches.flag _ rfl, beginSequence_flag h]
  · rw [settleArbiter_touches.count _ rfl, beginSequence_count h]

theorem State.truncated.of_segs {d t : State} {p : Nat} (h : s.truncated d g p) {l : List Part} (ht : Touches l d t)
    (hl : l.contains .segs = false) (hl' : l.contains .slots = false) : s.truncated t g p := by
  unfold State.truncated at h ⊢
  simp only [ht.segs hl, ht.openSeg hl, ht.slotAt _ hl']
  exact h

end

/-- Settles O30: the breaks of R51, R61 and R65, each from the state just before it records itself. -/
theorem lineEventBreaksStream : Obligations.LineEventBreaksStream := by
  intro s hr hcap hheld c k hck
  obtain ⟨pins, lines, htl, he⟩ := exec_lineEvent hr hcap hck
  let u : State := { s with pins := pins, lines := lines }
  refine ⟨fun hp => ?_, fun hp => ?_, fun hp => ?_⟩
  · let p := max (distrustedEnd s.ctl.params.distrust s) s.play.cursor
    have hb : lineBreak k u = beginSequence k p (u.cutAt p) := by
      unfold lineBreak
      rcases hp with hp | hp <;> rw [show u.rc.phase = _ from hp] <;> exact breakStreaming_eq k
    have hcut := cutAt_touches (s := u) p
    obtain ⟨t, items, ht, hto, hrc, hflag, hcount⟩ :=
      sequence_begins (s := u.cutAt p) k p (by rw [cutAt_intake]; exact hheld)
    rw [hcut.rc rfl, cutAt_params] at hrc
    have hin : t.intake = _ := (hto.intake rfl).trans (cutAt_intake p)
    refine ⟨t, he.trans (congrArg _ ((congrArg settleArbiter hb).trans ht)), ?_⟩
    rw [hrc, hin]
    refine ⟨rfl, rfl, rfl, rfl, rfl, rfl, rfl, fun g hg => ⟨?_, ?_, ?_, ?_⟩, rfl, hflag, ?_, rfl, rfl, rfl, rfl, rfl,
      (hto.mem rfl).trans (hcut.mem rfl)⟩
    · exact (truncated_cutAt (s := u) hg p).of_segs hto rfl rfl
    · intro h0
      show max (distrustedEnd s.ctl.params.distrust s) _ = _
      rw [h0, distrustedEnd_zero hg]
    · intro h0 hf
      show max (distrustedEnd s.ctl.params.distrust s) _ = _
      rw [distrustedEnd_of_few hg h0 hf]
    · intro h0 d hd hrank e hee h1 h2
      show max (distrustedEnd s.ctl.params.distrust s) _ = _
      rw [distrustedEnd_of_rank hg h0 hd hrank hee h1 h2]
    · exact hcount.trans (congrArg (· + 1) (hcut.count .breaks rfl))
  · have hb : lineBreak k u = breakRecovery k u := by
      unfold lineBreak
      rcases hp with hp | hp <;> rw [show u.rc.phase = _ from hp]
    obtain ⟨v, hv, hvt, hvrc, hvme, hvin, hvpar, hvflag, hvcount⟩ := breakRecovery_spec (s := u) k hheld
    obtain ⟨hwt, hwin, hwrc⟩ := lostExit_of_interrupted (hvpar ▸ hvrc) hcap (hvt.lines rfl ▸ htl)
    have hwrc : (lostExit v).rc = s.rc.afterInterrupt k s.lead s.ctl.params := by
      rw [hwrc, hvpar]
      rfl
    have hall : Touches [.map, .slots, .intake, .rc, .arb] v (settleArbiter (lostExit v)) :=
      (hwt.comp settleArbiter_touches).mono rfl
    have hlead : (settleArbiter (lostExit v)).lead = s.lead := (hall.lead rfl rfl).trans (hvt.lead rfl rfl)
    refine ⟨settleArbiter (lostExit v), he.trans (congrArg _ (congrArg settleArbiter (hb.trans hv))), ?_⟩
    rw [hlead, hall.me rfl, hall.flag _ rfl, hall.count _ rfl, settleArbiter_touches.rc rfl, hwrc,
      settleArbiter_touches.intake rfl, hwin, hvin]
    obtain ⟨hP, horigin, hcause, htail, hrun, hwait, hrecord, hretry⟩ :=
      afterInterrupt_keeps s.rc k s.lead s.ctl.params
    refine ⟨hP, horigin, hcause, htail, hrun, hwait, hvme, rfl, hrecord, hvflag, hvcount,
      (hall.segs rfl).trans (hvt.segs rfl), (hall.mem rfl).trans (hvt.mem rfl), hretry, fun hk => ?_, fun hk => ?_⟩
    · unfold Recovery.afterInterrupt
      rw [if_pos hk]
      exact ⟨rfl, rfl, rfl⟩
    · unfold Recovery.afterInterrupt
      rw [if_neg (by rw [hk]; decide)]
      by_cases hb : s.rc.bridgePending = true ∨ s.ctl.params.retryLimit ≤ s.rc.retry
      · rw [if_pos hb, if_pos hb]
        exact ⟨rfl, rfl, rfl, rfl, rfl⟩
      · rw [if_neg hb, if_neg hb]
        refine ⟨rfl, rfl, ?_, rfl, rfl⟩
        exact Bool.eq_false_iff.mpr fun h => hb ((interrupted_bridgePending s.rc k s.lead _).mp h)
  · have hb : lineBreak k u = beginSequence k (openEnd s) u.fetchCut := by
      unfold lineBreak
      rw [show u.rc.phase = _ from hp]
      exact breakGapFetch_eq k
    have hcut := fetchCut_touches (s := u)
    obtain ⟨t, items, ht, hto, hrc, hflag, hcount⟩ :=
      sequence_begins (s := u.fetchCut) k (openEnd s) (by rw [fetchCut_intake]; exact hheld)
    rw [hcut.rc rfl, fetchCut_params] at hrc
    have hin : t.intake = _ := (hto.intake rfl).trans fetchCut_intake
    refine ⟨t, he.trans (congrArg _ ((congrArg settleArbiter hb).trans ht)), ?_⟩
    rw [hrc, hin]
    refine ⟨rfl, rfl, rfl, rfl, rfl, rfl, rfl, rfl, hflag, ?_, ?_, ?_, rfl, rfl, (hto.mem rfl).trans (hcut.mem rfl)⟩
    · exact hcount.trans (congrArg (· + 1) (hcut.count .breaks rfl))
    · rw [hto.gaps rfl]
      unfold State.fetchCut
      rw [dropFilling_fetch, closeOpen_touches.gaps rfl, settleArbiter_touches.gaps rfl]
      exact abandonFetch_fetch
    · rw [hto.openSeg rfl]
      unfold State.fetchCut
      rw [dropFilling_touches.openSeg rfl, openSeg_closeOpen]

end Sys2Proof.Machine
end

section
/-! PROOFS. O28: a report in STREAMING and HOLDING: the append, the Gap Table entry and its fetch, the
discontinuity and the hold return. -/
namespace Sys2Proof.Machine

section
variable {s t u : State} {n e : Nat} {g : Segment}

/-! ### Slots but for their marks -/

/-- A descriptor without its gap mark and stale mark. -/
def SlotDesc.unmarked (d : SlotDesc) : SlotDesc := { d with gapMark := false, stale := false }

/-- The slots of `s` and `t` differ at most in their gap marks and stale marks. -/
def State.sameSlots (s t : State) : Prop :=
  t.map.slots.map SlotDesc.unmarked = s.map.slots.map SlotDesc.unmarked

theorem State.sameSlots.trans (h : s.sameSlots t) (h' : t.sameSlots u) : s.sameSlots u := Eq.trans h' h

theorem State.sameSlots.of_touches {l : List Part} (h : Touches l s t) (hl : l.contains .slots = false) :
    s.sameSlots t := congrArg (List.map SlotDesc.unmarked) (h.slots hl)

theorem State.sameSlots.slotAt (h : s.sameSlots t) (k : Nat) :
    (slotAt t k).unmarked = (Machine.slotAt s k).unmarked := by
  have hm : ∀ u : State, (Machine.slotAt u k).unmarked = (u.map.slots.map SlotDesc.unmarked).getD k SlotDesc.free :=
    fun u => by
      unfold Machine.slotAt
      rw [List.getD_eq_getElem?_getD, List.getD_eq_getElem?_getD, List.getElem?_map]
      cases u.map.slots[k]? <;> rfl
  rw [hm, hm]
  exact congrArg (List.getD · k SlotDesc.free) h

theorem State.sameSlots.state (h : s.sameSlots t) (k : Nat) : (Machine.slotAt t k).state = (Machine.slotAt s k).state :=
  show (Machine.slotAt t k).unmarked.state = (Machine.slotAt s k).unmarked.state from congrArg SlotDesc.state (h.slotAt k)

theorem State.sameSlots.owner (h : s.sameSlots t) (k : Nat) : (Machine.slotAt t k).owner = (Machine.slotAt s k).owner :=
  show (Machine.slotAt t k).unmarked.owner = (Machine.slotAt s k).unmarked.owner from congrArg SlotDesc.owner (h.slotAt k)

theorem State.sameSlots.label (h : s.sameSlots t) (k : Nat) : (Machine.slotAt t k).label = (Machine.slotAt s k).label :=
  show (Machine.slotAt t k).unmarked.label = (Machine.slotAt s k).unmarked.label from congrArg SlotDesc.label (h.slotAt k)

theorem State.sameSlots.freeCount (h : s.sameSlots t) : freeCount t = Machine.freeCount s := by
  have hm : ∀ u : State, Machine.freeCount u =
      (u.map.slots.map SlotDesc.unmarked).countP fun d => decide (d.state = .free) := fun u => by
    rw [List.countP_map]
    rfl
  rw [hm, hm]
  exact congrArg _ h

theorem sameSlots_modSlot (n : Nat) {f : SlotDesc → SlotDesc} (hf : ∀ d, (f d).unmarked = d.unmarked) :
    s.sameSlots (modSlot n f s) := by
  show (s.map.slots.set n (f (slotAt s n))).map _ = _
  rw [List.map_set, hf]
  rcases Nat.lt_or_ge n s.map.slots.length with h | h
  · refine List.ext_getElem? fun k => ?_
    rw [List.getElem?_set]
    split
    case isTrue hk =>
      subst hk
      rw [List.getElem?_map, getElem?_of_lt h, List.length_map, if_pos h]
      rfl
    case isFalse => rfl
  · rw [List.set_eq_of_length_le (by rwa [List.length_map])]

theorem sameSlots_removeGap (n : Nat) : s.sameSlots (removeGap n s) :=
  (State.sameSlots.of_touches (onGaps_touches _) rfl).trans (sameSlots_modSlot n fun _ => rfl)

theorem sameSlots_emptyGaps : s.sameSlots (emptyGaps s) := by
  unfold emptyGaps
  generalize s.gaps.entries = l
  induction l generalizing s with
  | nil => rfl
  | cons e l ih => exact (sameSlots_removeGap e.slot).trans ih

theorem sameSlots_gapEntryDecision (n label erasures first : Nat) :
    s.sameSlots (gapEntryDecision n label erasures first s) := by
  unfold gapEntryDecision
  split
  · split
    · exact (State.sameSlots.of_touches (onGaps_touches _) rfl).trans (sameSlots_modSlot n fun _ => rfl)
    · exact .of_touches (bump_touches _) rfl
  · rfl

theorem sameSlots_qualityRise : s.sameSlots (qualityRise s) := by
  unfold qualityRise
  split
  · rfl
  · split
    · exact (State.sameSlots.of_touches ((setQuality_touches _ _).comp (onQuality_touches _)) rfl).trans
        sameSlots_emptyGaps
    · exact .of_touches (setQuality_touches _ _) rfl

/-- Out of ABANDON with no scratch block, the quality report leaves the Gap Table alone (R102, R105). -/
theorem qualityReport_touches_of_not_scratch {erasures : Nat} (h : isScratch s erasures = false) :
    Touches [.quality, .ctl] s (qualityReport erasures s) := by
  unfold qualityReport
  split
  · split
    · split
      · exact ((setQuality_touches _ _).comp (onQuality_touches _)).mono rfl
      · exact (onQuality_touches _).mono rfl
    · exact (onQuality_touches _).mono rfl
  · rw [if_neg (by rw [h]; decide)]
    split
    · exact setQuality_touches _ _
    · exact .refl _ s

/-- A scratch block that does not carry the counter past 255 leaves the Gap Table alone (R102). -/
theorem qualityReport_touches_of_scratch {erasures : Nat} (h : isScratch s erasures = true)
    (hl : s.quality.level ≠ .abandon) (hc : s.quality.counter + 8 ≤ 255) :
    Touches [.quality, .ctl] s (qualityReport erasures s) := by
  unfold qualityReport
  rw [if_neg hl, if_pos h]
  unfold qualityRise
  rw [if_neg hl, if_neg (Nat.not_lt.mpr hc)]
  exact setQuality_touches _ _

theorem sameSlots_qualityReport (erasures : Nat) : s.sameSlots (qualityReport erasures s) := by
  cases h : isScratch s erasures with
  | false => exact .of_touches (qualityReport_touches_of_not_scratch h) rfl
  | true =>
    unfold qualityReport
    split
    · split
      · split
        · exact .of_touches ((setQuality_touches _ _).comp (onQuality_touches _)) rfl
        · exact .of_touches (onQuality_touches _) rfl
      · exact .of_touches (onQuality_touches _) rfl
    · exact sameSlots_qualityRise

theorem sameSlots_publish (label : Nat) (loads : Bool) : s.sameSlots (publish label loads s) := by
  have hm : s.sameSlots (markStale s) := by
    unfold markStale
    dsimp only
    split
    · split
      · exact (sameSlots_modSlot (f := fun d => { d with stale := true }) _ fun _ => rfl).trans (by split <;> rfl)
      · split <;> rfl
    · split <;> rfl
  exact hm

/-! ### The fetch test (R95, R96) -/

/-- The record of a fetch begun for entry `e`. -/
def GapEntry.fetchRecord (e : GapEntry) : FetchRecord :=
  { phase := .fetching, label := e.label, slot := e.slot, staged := [], late := false, abandoned := false }

/-- GAPFETCH entered for entry `e`. -/
def State.fetches (s : State) (e : GapEntry) : State :=
  publish (e.label - 1) true ((s.onGaps fun g => { g with fetch := some e.fetchRecord }).onRc fun r =>
    { r with phase := .gapFetch })

theorem fetchTest_cases : fetchTest s = s ∨ ∃ e, fetchTest s = s.fetches e := by
  unfold fetchTest
  split
  · exact .inl rfl
  · dsimp only
    exact (ite_eq_or_eq _ _ _).symm.imp_right fun h => ⟨_, h⟩

theorem fetchTest_stands_of_phase (h : s.rc.phase ≠ .streaming) : fetchTest s = s := by
  unfold fetchTest
  split
  · rfl
  · exact if_neg fun hc => h hc.1

theorem fetchTest_stands_of_entries (h : s.gaps.entries = []) : fetchTest s = s := by
  have hc : chosenGap s = none := by
    unfold chosenGap
    rw [h]
    split <;> rfl
  unfold fetchTest
  rw [hc]

/-- No fetch begins with the lead short, a fetch in progress or 16 segments (R95). -/
theorem fetchTest_stands (h : s.lead < s.ctl.params.gapLead * 588 ∨ s.gaps.fetch.isSome = true ∨
    16 ≤ s.map.segs.length) : fetchTest s = s := by
  unfold fetchTest
  split
  · rfl
  · refine if_neg ?_
    rintro ⟨-, hf, hl, -, hs, -⟩
    rcases h with h | h | h
    · exact Nat.not_lt.mpr hl h
    · rw [hf] at h
      exact Bool.noConfusion h
    · exact Nat.not_lt.mpr h hs

theorem fetchTest_fetches {e : GapEntry} {f : Nat} (he : s.gaps.entries = [e]) (hu : firstUsed s e.slot = some f)
    (hc : s.play.cursor ≤ f) (hp : s.rc.phase = .streaming) (hf : s.gaps.fetch = none)
    (hl : s.ctl.params.gapLead * 588 ≤ s.lead) (hh : s.intake.hold = false) (hs : s.map.segs.length < 16) :
    fetchTest s = s.fetches e := by
  have hchosen : chosenGap s = some e := by
    unfold chosenGap
    rw [he]
    split
    · simp
    · rfl
  unfold fetchTest
  rw [hchosen]
  dsimp only
  rw [hu]
  exact if_pos ⟨hp, hf, hl, hh, hs, decide_eq_true hc⟩

theorem fetches_rc (e : GapEntry) : (s.fetches e).rc = { s.rc with
    phase := .gapFetch, target := e.label - 1, rrq := true, rrqEdges := s.rc.rrqEdges + 1
    deadline := s.ctl.params.seekTimeout } := publish_rc _ _

theorem fetches_touches (e : GapEntry) : Touches [.gaps, .map, .slots, .intake, .rc] s (s.fetches e) :=
  (((onGaps_touches _).comp (onRc_touches _ rfl)).comp (publish_touches _ _)).mono rfl

theorem fetches_gaps (e : GapEntry) : (s.fetches e).gaps = { s.gaps with fetch := some e.fetchRecord } :=
  (publish_touches _ _).gaps rfl

theorem sameSlots_fetches (e : GapEntry) : s.sameSlots (s.fetches e) :=
  (State.sameSlots.of_touches ((onGaps_touches _).comp (onRc_touches _ rfl)) rfl).trans (sameSlots_publish _ _)

theorem fetches_intake (e : GapEntry) :
    (s.fetches e).intake = { s.intake with staleHeld := (s.fetches e).intake.staleHeld } := publish_intake _ _

theorem sameSlots_fetchTest : s.sameSlots (fetchTest s) := by
  rcases fetchTest_cases (s := s) with h | ⟨e, h⟩
  · rw [h]
    rfl
  · rw [h]
    exact sameSlots_fetches e

theorem fetchTest_intake :
    (fetchTest s).intake = { s.intake with staleHeld := (fetchTest s).intake.staleHeld } := by
  rcases fetchTest_cases (s := s) with h | ⟨e, h⟩
  · rw [h]
  · rw [h]
    exact fetches_intake e

theorem fetchTest_entries : (fetchTest s).gaps.entries = s.gaps.entries := by
  rcases fetchTest_cases (s := s) with h | ⟨e, h⟩
  · rw [h]
  · rw [h, fetches_gaps]

theorem fetchTest_gapMark (k : Nat) : (slotAt (fetchTest s) k).gapMark = (slotAt s k).gapMark := by
  rcases fetchTest_cases (s := s) with h | ⟨e, h⟩
  · rw [h]
  · rw [h]
    unfold State.fetches
    rw [slotAt_publish]
    split <;> rfl

theorem fetchTest_expected : (fetchTest s).rc.expected = s.rc.expected := by
  rcases fetchTest_cases (s := s) with h | ⟨e, h⟩
  · rw [h]
  · rw [h, fetches_rc]

/-! ### The append (R13, R49) -/

/-- Slot `n` appended to the open segment `g` under label `e`, and the expected label raised. -/
def State.appended (s : State) (n e : Nat) (g : Segment) : State :=
  (leadCheck (modLastSeg (fun g => { g with length := g.length + 588 })
    (modSlot n (fun d => { d with state := .linked, owner := some g.id, label := some e }) s))).onRc fun r =>
      { r with expected := some (e + 1) }

theorem appended_touches : Touches [.map, .slots, .segs, .ctl, .rc] s (s.appended n e g) :=
  ((((modSlot_touches n _).comp (modLastSeg_touches _)).comp leadCheck_touches).comp (onRc_touches _ rfl)).mono rfl

theorem appended_rc : (s.appended n e g).rc = { s.rc with expected := some (e + 1) } := by
  unfold State.appended
  rw [State.onRc_rc, leadCheck_touches.rc rfl]
  rfl

theorem appended_params : (s.appended n e g).ctl.params = s.ctl.params := by
  unfold State.appended
  rw [(onRc_touches _ rfl).params rfl, leadCheck_touches.params rfl]
  rfl

theorem appended_segs (h : openSeg s = some g) :
    (s.appended n e g).map.segs = s.map.segs.dropLast ++ [{ g with length := g.length + 588 }] := by
  have hl : s.map.segs.getLast? = some g := (openSeg_eq_some.mp h).1
  unfold State.appended
  rw [(onRc_touches _ rfl).segs rfl, leadCheck_touches.segs rfl, modLastSeg_segs, (modSlot_touches n _).segs rfl, hl]

theorem slotAt_appended (hn : n < s.map.slots.length) (k : Nat) : slotAt (s.appended n e g) k =
    if k = n then { slotAt s n with state := .linked, owner := some g.id, label := some e } else slotAt s k := by
  unfold State.appended
  rw [(onRc_touches _ rfl).slotAt k rfl, leadCheck_touches.slotAt k rfl, (modLastSeg_touches _).slotAt k rfl]
  exact slotAt_modSlot (f := fun d => { d with state := .linked, owner := some g.id, label := some e }) hn k

theorem freeCount_appended (h : (slotAt s n).state = .filling) : freeCount (s.appended n e g) = freeCount s := by
  unfold State.appended
  rw [(onRc_touches _ rfl).freeCount rfl, leadCheck_touches.freeCount rfl, (modLastSeg_touches _).freeCount rfl]
  exact freeCount_setSlot_same (s := s) (by rw [h]; decide) nofun

/-- An append at the cursor or ahead of it gives 588 frames of lead (R20). -/
theorem lead_appended (h : openSeg s = some g) (hc : s.play.cursor ≤ g.stop) :
    (s.appended n e g).lead = s.lead + 588 := by
  have hsegs := segs_of_lastSeg (openSeg_eq_some.mp h).1
  have hlast : ({ g with length := g.length + 588 } : Segment).stop - max g.start s.play.cursor =
      g.stop - max g.start s.play.cursor + 588 := by
    show g.start + (g.length + 588) - _ = g.start + g.length - _ + 588
    have hc : s.play.cursor ≤ g.start + g.length := hc
    omega
  unfold State.lead
  rw [appended_segs h, appended_touches.play rfl, hsegs, List.dropLast_concat]
  unfold leadOf
  rw [List.map_append, List.map_append, List.sum_append, List.sum_append, List.map_singleton, List.map_singleton,
    List.sum_singleton, List.sum_singleton, hlast, Nat.add_assoc]

/-- An untrusted block, or one with the expected label, is appended and reported on (R49, R90). -/
theorem appendExpected_eq (h : openSeg s = some g) (hl : labelOf (slotAt s n) = e ∨ e < 450000)
    (ho : ownsLabel s g.id e n = false) (he : (e * 588 : Int) = g.stop + g.shift) :
    appendExpected n (slotAt s n) e s =
      blockReportSteps n e (slotAt s n).erasures g.stop (s.appended n e g) := by
  have hlabel : (if labelOf (slotAt s n) = e then e else Config.assignedLabel e) = e := by
    split
    · rfl
    case isFalse hne => exact assignedLabel_of_lt (hl.resolve_left hne)
  have hgain : ((blockStart e : Int) - g.shift + 588 - max ((blockStart e : Int) - g.shift) (g.stop : Int)).toNat =
      588 := by
    have : (blockStart e : Int) = (e * 588 : Int) := Nat.cast_mul e 588
    rw [this, he]
    simp
  have hlink : linkAs g.id n e s =
      (modSlot n (fun d => { d with state := .linked, owner := some g.id, label := some e }) s, true) :=
    if_neg (by rw [ho]; decide)
  unfold appendExpected
  dsimp only
  rw [hlabel, openEnd_of_openSeg h]
  unfold appendSlot
  rw [h]
  dsimp only
  rw [hlink]
  dsimp only
  rw [hgain]
  rfl

theorem sameSlots_blockReportSteps (erasures first : Nat) :
    s.sameSlots (blockReportSteps n e erasures first s) :=
  ((sameSlots_gapEntryDecision _ _ _ _).trans (sameSlots_qualityReport _)).trans sameSlots_fetchTest

/-! ### The report around an append (R34, R38) -/

theorem holdTest_rc : (holdTest s).rc =
    if s.intake.hold = false ∧ s.rc.phase = .streaming ∧ freeCount s ≤ s.ctl.params.holdMargin then
      { s.rc with phase := .holding } else s.rc := by
  unfold holdTest
  split <;> rfl

theorem holdTest_intake : (holdTest s).intake =
    if s.intake.hold = false ∧ s.rc.phase = .streaming ∧ freeCount s ≤ s.ctl.params.holdMargin then
      { s.intake with hold := true } else s.intake := by
  unfold holdTest
  split <;> rfl

theorem settleArbiter_holdTest : (holdTest (settleArbiter s)).rc = (holdTest s).rc ∧
    (holdTest (settleArbiter s)).intake = (holdTest s).intake := by
  rw [holdTest_rc, holdTest_rc, holdTest_intake, holdTest_intake, settleArbiter_touches.rc rfl,
    settleArbiter_touches.intake rfl, settleArbiter_touches.ctl rfl, settleArbiter_touches.freeCount rfl]
  exact ⟨rfl, rfl⟩

/-- After a disposal with HOLD released a report may assert HOLD, and empties the Intake Unit. -/
theorem report_of_disposed_holdTest {d : State} (h : s.hands n) (hd : disposeBlock n s = d)
    (hi : d.intake = { s.intake with staleHeld := d.intake.staleHeld }) (hh : s.intake.hold = false) :
    ∃ t, exec .blockReport s = .next t ∧ Touches [.arb, .intake, .hold, .router, .rc] d t ∧
      t.rc = (holdTest d).rc ∧ t.intake.hold = (holdTest d).intake.hold ∧ t.intake.phase = .none ∧
      t.intake.slot = none := by
  obtain ⟨hrc, hin⟩ := settleArbiter_holdTest (s := d)
  have hf : freeReport (settleArbiter d) = holdTest (settleArbiter d) := by
    refine holdRelease_stands fun hhold => ?_
    have hdh : d.intake.hold = false := by rw [hi]; exact hh
    rw [hin, holdTest_intake] at hhold
    rw [holdTest_touches.freeCount rfl, holdTest_touches.ctl rfl, settleArbiter_touches.freeCount rfl,
      settleArbiter_touches.ctl rfl]
    split at hhold
    case isTrue hc => exact Nat.lt_of_le_of_lt hc.2.2 (Nat.lt_add_of_pos_right (by decide))
    case isFalse => exact absurd (hdh.symm.trans hhold) (by decide)
  have hI : (holdTest (settleArbiter d)).intake.phase = .handingOver ∧
      (holdTest (settleArbiter d)).intake.held = [] := by
    rw [hin, holdTest_intake, hi]
    split <;> exact ⟨h.phase, h.held⟩
  obtain ⟨hto, hph, hsl⟩ := handOffEnd_of_held_nil hI.1 hI.2
  refine ⟨_, exec_blockReport h, ?_⟩
  rw [hd, hf, settleArbiter_touches.rc rfl, settleArbiter_touches.intake rfl]
  exact ⟨(((settleArbiter_touches.comp holdTest_touches).comp hto).comp settleArbiter_touches).mono rfl,
    (hto.rc rfl).trans hrc, (hto.hold rfl).trans (congrArg Intake.hold hin), hph, hsl⟩

/-- Slot `n` appended and its block report handed on, before the fetch test (R90). -/
def State.reported (s : State) (n e : Nat) (g : Segment) : State :=
  qualityReport (slotAt s n).erasures (gapEntryDecision n e (slotAt s n).erasures g.stop (s.appended n e g))

theorem reported_touches_appended :
    Touches [.gaps, .map, .slots, .ctl, .counters, .quality] (s.appended n e g) (s.reported n e g) :=
  ((gapEntryDecision_touches _ _ _ _).comp (qualityReport_touches _)).mono rfl

theorem reported_rc : (s.reported n e g).rc = { s.rc with expected := some (e + 1) } :=
  (reported_touches_appended.rc rfl).trans appended_rc

theorem reported_params : (s.reported n e g).ctl.params = s.ctl.params :=
  (reported_touches_appended.params rfl).trans appended_params

theorem reported_intake : (s.reported n e g).intake = s.intake :=
  (reported_touches_appended.intake rfl).trans (appended_touches.intake rfl)

theorem reported_segs (h : openSeg s = some g) :
    (s.reported n e g).map.segs = s.map.segs.dropLast ++ [{ g with length := g.length + 588 }] :=
  (reported_touches_appended.segs rfl).trans (appended_segs h)

theorem length_reported_segs (h : openSeg s = some g) :
    (s.reported n e g).map.segs.length = s.map.segs.length := by
  have := congrArg List.length (segs_of_lastSeg (openSeg_eq_some.mp h).1)
  rw [this, reported_segs h, List.length_append, List.length_append]
  rfl

theorem sameSlots_reported : (s.appended n e g).sameSlots (s.reported n e g) :=
  (sameSlots_gapEntryDecision _ _ _ _).trans (sameSlots_qualityReport _)

theorem freeCount_reported (h : (slotAt s n).state = .filling) : freeCount (s.reported n e g) = freeCount s :=
  sameSlots_reported.freeCount.trans (freeCount_appended h)

/-- In `t` slot `n` is linked to the open segment `g` of `s` under label `e`, and `g` is a block longer (R13). -/
def State.appendsTo (s t : State) (n e : Nat) (g : Segment) : Prop :=
  t.map.segs = s.map.segs.dropLast ++ [{ g with length := g.length + 588 }] ∧ (slotAt t n).state = .linked ∧
  (slotAt t n).owner = some g.id ∧ (slotAt t n).label = some e ∧ t.mem = s.mem ∧ t.play = s.play

theorem appendsTo_fetchTest (h : openSeg s = some g) (hn : n < s.map.slots.length)
    (ht : Touches [.arb, .intake, .hold, .router, .rc] (fetchTest (s.reported n e g)) t) : s.appendsTo t n e g := by
  have hall := appended_touches.comp (reported_touches_appended.comp (fetchTest_touches.comp ht))
  have hslots := sameSlots_reported.trans (sameSlots_fetchTest.trans (.of_touches ht rfl))
  have hs := slotAt_appended (e := e) (g := g) hn n
  rw [if_pos rfl] at hs
  refine ⟨?_, ?_, ?_, ?_, hall.mem rfl, hall.play rfl⟩
  · rw [ht.segs rfl, fetchTest_touches.segs rfl, reported_segs h]
  · rw [hslots.state, hs]
  · rw [hslots.owner, hs]
  · rw [hslots.label, hs]

/-! ### The Gap Table after an append (R92, R95, R96) -/

theorem reported_gaps_of_few (h : (slotAt s n).erasures ≤ s.ctl.params.gapLimit) :
    (s.reported n e g).gaps = s.gaps := by
  have hscratch : ∀ u : State, u.ctl.params = s.ctl.params → isScratch u (slotAt s n).erasures = false := fun u hu => by
    unfold isScratch
    rw [hu]
    exact decide_eq_false (Nat.not_lt.mpr h)
  have hentry : gapEntryDecision n e (slotAt s n).erasures g.stop (s.appended n e g) = s.appended n e g := by
    unfold gapEntryDecision
    rw [hscratch _ appended_params, if_neg nofun]
  unfold State.reported
  rw [hentry, (qualityReport_touches_of_not_scratch (hscratch _ appended_params)).gaps rfl]
  exact appended_touches.gaps rfl

section
variable (hn : n < s.map.slots.length) (hs : s.ctl.params.gapLimit < (slotAt s n).erasures)
  (hq : s.quality.level = .normal ∨ s.quality.level = .warned) (hc : s.quality.counter + 8 ≤ 255)
  (hg : s.gaps.entries = []) (hlead : s.play.cursor + s.ctl.params.gapLead * 588 ≤ g.stop)
include hn hs hq hc hg hlead

/-- A scratch block far enough ahead of the cursor gets an entry (R92). -/
theorem reported_gaps_of_many : (s.reported n e g).gaps = { s.gaps with
    entries := [{ label := e, slot := n, retries := 0 }] } ∧ (slotAt (s.reported n e g) n).gapMark = true := by
  have hgaps : (s.appended n e g).gaps = s.gaps := appended_touches.gaps rfl
  have hquality : (s.appended n e g).quality = s.quality := appended_touches.quality rfl
  have hscratch : ∀ u : State, u.ctl.params = s.ctl.params → isScratch u (slotAt s n).erasures = true := fun u hu => by
    unfold isScratch
    rw [hu]
    exact decide_eq_true hs
  have hlevel : recordsGaps s.quality.level = true := by rcases hq with hq | hq <;> rw [hq] <;> rfl
  have hentry : gapEntryDecision n e (slotAt s n).erasures g.stop (s.appended n e g) =
      modSlot n (fun d => { d with gapMark := true }) ((s.appended n e g).onGaps fun g =>
        { g with entries := g.entries ++ [{ label := e, slot := n, retries := 0 }] }) := by
    unfold gapEntryDecision
    rw [hscratch _ appended_params, hquality, hlevel, hgaps, hg, appended_touches.play rfl, appended_params,
      if_pos (by rw [List.all_nil]; exact decide_eq_true hlead)]
    exact if_pos (by decide)
  have hlen : n < ((s.appended n e g).onGaps fun g =>
      { g with entries := g.entries ++ [{ label := e, slot := n, retries := 0 }] }).map.slots.length := by
    show n < (s.appended n e g).map.slots.length
    rwa [appended_touches.ring rfl]
  unfold State.reported
  rw [hentry]
  have hto := qualityReport_touches_of_scratch
    (s := modSlot n (fun d => { d with gapMark := true }) ((s.appended n e g).onGaps fun g =>
      { g with entries := g.entries ++ [{ label := e, slot := n, retries := 0 }] }))
    (hscratch _ appended_params)
    (by
      show (s.appended n e g).quality.level ≠ _
      rw [hquality]
      rcases hq with hq | hq <;> rw [hq] <;> decide)
    (by
      show (s.appended n e g).quality.counter + 8 ≤ 255
      rw [hquality]
      exact hc)
  rw [hto.gaps rfl, hto.slotAt n rfl, slotAt_modSlot hlen, if_pos rfl]
  refine ⟨?_, rfl⟩
  show ({ (s.appended n e g).gaps with
    entries := (s.appended n e g).gaps.entries ++ [{ label := e, slot := n, retries := 0 }] } : GapScheduler) = _
  rw [hgaps, hg]
  rfl

variable (ho : openSeg s = some g) (hl : (e * 588 : Int) = g.stop + g.shift)
include ho hl

/-- The new entry is fetched at once where the conditions of R95 hold. -/
theorem fetchTest_reported (hp : s.rc.phase = .streaming) (hh : s.intake.hold = false) (hf : s.gaps.fetch = none)
    (hlead' : s.ctl.params.gapLead * 588 ≤ s.lead + 588) (hlen : s.map.segs.length < 16)
    (hid : ∀ x ∈ s.map.segs.dropLast, x.id ≠ g.id) :
    fetchTest (s.reported n e g) = State.fetches (s.reported n e g) { label := e, slot := n, retries := 0 } := by
  obtain ⟨hgaps, -⟩ := reported_gaps_of_many (e := e) hn hs hq hc hg hlead
  have hcur : (s.reported n e g).play.cursor = s.play.cursor := by
    rw [reported_touches_appended.play rfl, appended_touches.play rfl]
  have hsl := slotAt_appended (e := e) (g := g) hn n
  rw [if_pos rfl] at hsl
  have hsegs := reported_segs (n := n) (e := e) ho
  have hused : firstUsed (s.reported n e g) n = some (max g.start g.stop) := by
    unfold firstUsed labelOf
    rw [sameSlots_reported.owner, sameSlots_reported.label, hsl, hsegs]
    dsimp only
    rw [List.find?_append, List.find?_eq_none.mpr fun x hx => by simpa using hid x hx]
    simp only [Option.none_or, List.find?_singleton, beq_self_eq_true, if_true, Option.map_some, Option.getD_some]
    have hb : (blockStart e : Int) - g.shift = (g.stop : Int) := by
      have : (blockStart e : Int) = (e * 588 : Int) := Nat.cast_mul e 588
      omega
    rw [hb, Int.toNat_natCast]
  refine fetchTest_fetches (by rw [hgaps]) hused (by rw [hcur]; omega) (by rw [reported_rc]; exact hp)
    (by rw [hgaps]; exact hf) ?_ (by rw [reported_intake]; exact hh) ?_
  · rw [reported_params, reported_touches_appended.lead rfl rfl, lead_appended ho (by omega)]
    exact hlead'
  · rw [length_reported_segs ho]
    exact hlen

end

/-! ### The disposals of a report in STREAMING and HOLDING (R49, R50, R63) -/

section
variable (hst : (slotAt s n).stale = false) (hexp : s.rc.expected = some e)
include hst hexp

theorem disposeBlock_appends (hp : s.rc.phase = .streaming ∨ s.rc.phase = .holding) (h : openSeg s = some g)
    (hlab : (slotAt s n).label = some e ∨ ((slotAt s n).trusted = false ∧ e < 450000))
    (ho : ownsLabel s g.id e n = false) (he : (e * 588 : Int) = g.stop + g.shift) :
    disposeBlock n s = fetchTest (s.reported n e g) := by
  have hd : disposeBlock n s = appendExpected n (slotAt s n) e s := by
    have hc : (slotAt s n).trusted = false ∨ labelOf (slotAt s n) = s.rc.expected.getD 0 := by
      rw [hexp]
      exact hlab.symm.imp And.left labelOf_of_label
    rcases hp with hp | hp
    · rw [disposeBlock_streaming hst hp]
      unfold reportStreaming
      dsimp only
      rw [if_pos hc, hexp]
      rfl
    · rw [disposeBlock_holding hst hp]
      unfold reportHolding
      dsimp only
      rw [if_pos hc, hexp]
      rfl
  rw [hd, appendExpected_eq h (hlab.imp labelOf_of_label And.right) ho he]
  rfl

variable {l : Nat} (hl : (slotAt s n).label = some l) (ht : (slotAt s n).trusted = true) (hne : l ≠ e)
include hl ht hne

omit hst in
theorem not_appends : ¬ ((slotAt s n).trusted = false ∨ labelOf (slotAt s n) = s.rc.expected.getD 0) := by
  rw [hexp, labelOf_of_label hl, ht]
  exact fun h => h.elim nofun hne

theorem disposeBlock_breaks (hp : s.rc.phase = .streaming) : disposeBlock n s = discontinuity n s := by
  rw [disposeBlock_streaming hst hp]
  exact if_neg (not_appends hexp hl ht hne)

theorem disposeBlock_frees (hp : s.rc.phase = .holding) : disposeBlock n s = freeSlot n s := by
  rw [disposeBlock_holding hst hp]
  exact if_neg (not_appends hexp hl ht hne)

end

/-- The append in HOLDING (R63). -/
theorem report_holding_appends (h : s.hands n) (hp : s.rc.phase = .holding) (hn : n < s.map.slots.length)
    (hg : openSeg s = some g) (hexp : s.rc.expected = some e) (hlab : (slotAt s n).label = some e)
    (hst : (slotAt s n).stale = false) (hf : (slotAt s n).state = .filling) (ho : ownsLabel s g.id e n = false)
    (he : (e * 588 : Int) = g.stop + g.shift) (hfree : freeCount s < s.ctl.params.holdMargin + 8) :
    ∃ t, exec .blockReport s = .next t ∧ t.rc.phase = .holding ∧ t.rc.expected = some (e + 1) ∧
      s.appendsTo t n e g ∧ t.intake.phase = .none ∧ t.intake.slot = none := by
  have hd := disposeBlock_appends hst hexp (.inr hp) hg (.inl hlab) ho he
  have hfetch : fetchTest (s.reported n e g) = s.reported n e g :=
    fetchTest_stands_of_phase (by rw [reported_rc, hp]; nofun)
  obtain ⟨t, hexec, hto, hph, hsl⟩ := report_of_disposed h (hd.trans hfetch)
    (by rw [reported_intake]; exact ⟨h.phase, h.held⟩) (.inl (by rw [reported_rc]; rw [hp]; nofun))
    (fun _ => by rw [freeCount_reported hf, reported_params]; exact hfree)
  refine ⟨t, hexec, ?_, ?_, appendsTo_fetchTest hg hn (by rw [hfetch]; exact hto.mono rfl), hph, hsl⟩
  · rw [hto.rc rfl, reported_rc]
    exact hp
  · rw [hto.rc rfl, reported_rc]

/-- The discontinuity in STREAMING (R50). -/
theorem report_streaming_breaks (h : s.reports n) (hg : openSeg s = some g)
    (hd : disposeBlock n s = discontinuity n s) :
    ∃ t items, exec .blockReport s = .next t ∧ slotAt t n = SlotDesc.free ∧
      t.rc = s.rc.sequence .discontinuity g.stop t.lead s.ctl.params items ∧ openSeg t = none ∧
      t.flag .breakTaken = true ∧ t.count .breaks = s.count .breaks + 1 ∧ t.intake.phase = .none ∧
      t.mem = s.mem := by
  let c := dropFilling (closeOpen (freeSlot n s))
  have hc : Touches [.gaps, .map, .slots, .segs, .play, .ctl, .intake] s c :=
    (((freeSlot_touches n).comp closeOpen_touches).comp dropFilling_touches).mono rfl
  have hcin : c.intake = { s.intake with
      phase := .none, slot := none, written := 0, marks := 0, flagJobs := s.intake.flagJobs.take 1 } := by
    show (dropFilling (closeOpen (freeSlot n s))).intake = _
    rw [dropFilling_intake, closeOpen_touches.intake rfl, (freeSlot_touches n).intake rfl]
  have hcslot : slotAt c n = SlotDesc.free := by
    show slotAt (dropFilling (closeOpen (freeSlot n s))) n = _
    rw [slotAt_dropFilling, closeOpen_touches.slotAt n rfl, slotAt_freeSlot, if_pos rfl, ite_self]
  have hcpar : c.ctl.params = s.ctl.params :=
    (((freeSlot_touches n).comp closeOpen_touches).comp dropFilling_touches).params rfl
  obtain ⟨t, items, ht, hto, hrc, hflag, hcount⟩ := sequence_begins (s := c) .discontinuity g.stop
    (by rw [hcin]; exact h.hands.held)
  rw [hc.rc rfl, hcpar] at hrc
  have hin : t.intake = c.intake := hto.intake rfl
  have hfree : freeReport t = t := by
    unfold freeReport
    rw [holdTest_stands (.inl (by rw [hrc]; nofun)),
      holdRelease_stands fun hh => by rw [hin, hcin, h.hold] at hh; exact Bool.noConfusion hh]
  have hexec : exec .blockReport s = .next (settleArbiter t) := by
    rw [exec_blockReport h.hands, hd]
    unfold discontinuity
    dsimp only
    rw [openEnd_of_openSeg hg]
    show Host.Outcome.next (settleArbiter (handOffEnd (freeReport (settleArbiter
      (beginSequence .discontinuity g.stop c))))) = _
    rw [ht, hfree, handOffEnd_of_not_handing (by rw [hin, hcin]; nofun)]
  refine ⟨_, items, hexec, ?_, ?_, ?_, ?_, ?_, ?_, ?_⟩
  · rw [settleArbiter_touches.slotAt n rfl, hto.slotAt n rfl, hcslot]
  · rw [settleArbiter_touches.rc rfl, settleArbiter_touches.lead rfl rfl, hrc]
  · rw [settleArbiter_touches.openSeg rfl, hto.openSeg rfl, dropFilling_touches.openSeg rfl, openSeg_closeOpen]
  · rw [settleArbiter_touches.flag _ rfl, hflag]
  · rw [settleArbiter_touches.count _ rfl, hcount, hc.count _ rfl]
  · rw [settleArbiter_touches.intake rfl, hin, hcin]
  · rw [settleArbiter_touches.mem rfl, hto.mem rfl, hc.mem rfl]

/-- The recovery registers at a return (R52, R63, R64). -/
theorem takeReturn_rc (c : Cause) (hg : openSeg s = some g) : ∃ items : List CaptureItem,
    items.length = s.ctl.params.matchLen ∧ (takeReturn c s).rc = { s.rc with
      p := g.stop, origin := some c, cause := some c, retry := 0, bridgePending := false, seqBroken := false
      kEff := s.ctl.params.matchLen, span := s.ctl.params.span
      capture := some { items := items, returns := true } } := by
  let u := (closeOpen s).onRc fun r =>
    { r with p := g.stop, origin := some c, cause := some c, retry := 0, bridgePending := false, seqBroken := false }
  have hp : u.ctl.params = s.ctl.params := closeOpen_touches.params rfl
  have hrc : u.rc = { s.rc with
      p := g.stop, origin := some c, cause := some c, retry := 0, bridgePending := false, seqBroken := false } := by
    show ({ (closeOpen s).rc with
      p := g.stop, origin := some c, cause := some c, retry := 0, bridgePending := false
      seqBroken := false } : Recovery) = _
    rw [closeOpen_touches.rc rfl]
  obtain ⟨items, hlen, he⟩ := startCapture_rc (s := u) true
  refine ⟨items, hlen.trans (congrArg Params.matchLen hp), ?_⟩
  unfold takeReturn
  dsimp only
  rw [openEnd_of_openSeg hg, he, hrc, hp]

/-- The hold return (R39, R63). -/
theorem holdReturned_holdReturn (hg : openSeg s = some g) (hp : s.rc.phase = .holding)
    (hs : ∀ x, s.map.segs.head? = some x → x.stop ≠ s.play.cursor) :
    s.holdReturned (holdReturn s) g ∧ (holdReturn s).rc.expected = s.rc.expected ∧
      (holdReturn s).play = s.play := by
  let u := s.onIntake fun i => { i with hold := false }
  have hgu : openSeg u = some g := hg
  obtain ⟨hsegs, hplay⟩ := closeOpen_of_stays hgu hs
  have hto : ∀ f : Recovery → Recovery, (f (closeOpen u).rc).record = (closeOpen u).rc.record →
      Touches [.rc] (closeOpen u) (startCapture true ((closeOpen u).onRc f)) :=
    fun f hf => ((onRc_touches f hf).comp (startCapture_touches true)).mono rfl
  obtain ⟨items, hlen, hrc⟩ := takeReturn_rc .holdReturn hgu
  have hin : (holdReturn s).intake.hold = false := congrArg Intake.hold ((takeReturn_touches (s := u) _).intake rfl)
  have hmap : (holdReturn s).map.segs = s.map.segs.dropLast ++ [{ g with isOpen := false }] :=
    ((hto _ rfl).segs rfl).trans hsegs
  refine ⟨⟨hin, ?_⟩, by rw [show (holdReturn s).rc = _ from hrc]; rfl, ((hto _ rfl).play rfl).trans hplay⟩
  rw [show (holdReturn s).rc = _ from hrc]
  exact ⟨hp, rfl, rfl, rfl, rfl, rfl, rfl, rfl, rfl, hmap, _, rfl, rfl, hlen⟩

/-- The block of another label in HOLDING: its slot becomes FREE, which may take the hold return (R39, R63). -/
theorem report_holding_frees (h : s.hands n) (hp : s.rc.phase = .holding) (hh : s.intake.hold = true)
    (hg : openSeg s = some g) (hf : (slotAt s n).state = .filling)
    (hs : ∀ x, s.map.segs.head? = some x → x.stop ≠ s.play.cursor) (hd : disposeBlock n s = freeSlot n s) :
    ∃ t, exec .blockReport s = .next t ∧ slotAt t n = SlotDesc.free ∧ t.intake.phase = .none ∧
      t.intake.slot = none ∧ t.rc.expected = s.rc.expected ∧ t.count .breaks = s.count .breaks ∧ t.mem = s.mem ∧
      t.play = s.play ∧
      (freeCount s + 1 < s.ctl.params.holdMargin + 8 →
        t.rc = s.rc ∧ t.intake.hold = true ∧ t.map.segs = s.map.segs) ∧
      (s.ctl.params.holdMargin + 8 ≤ freeCount s + 1 → s.holdReturned t g) := by
  have hfr : Touches [.gaps, .map, .slots] s (freeSlot n s) := freeSlot_touches n
  have hslot : slotAt (freeSlot n s) n = SlotDesc.free := (slotAt_freeSlot n n).trans (if_pos rfl)
  have hcount : freeCount (freeSlot n s) = freeCount s + 1 := freeCount_freeSlot (by rw [hf]; decide)
  rcases Nat.lt_or_ge (freeCount s + 1) (s.ctl.params.holdMargin + 8) with hlt | hge
  · obtain ⟨t, hexec, hto, hph, hsl⟩ := report_of_disposed h hd
      (by rw [hfr.intake rfl]; exact ⟨h.phase, h.held⟩) (.inl (by rw [hfr.rc rfl, hp]; nofun))
      (fun _ => by rw [hcount, hfr.ctl rfl]; exact hlt)
    have hall := hfr.comp hto
    refine ⟨t, hexec, (hto.slotAt n rfl).trans hslot, hph, hsl, by rw [hall.rc rfl], hall.count _ rfl, hall.mem rfl,
      hall.play rfl, fun _ => ⟨hall.rc rfl, ?_, hall.segs rfl⟩, fun hge => absurd hlt (Nat.not_lt.mpr hge)⟩
    rw [hto.hold rfl, hfr.intake rfl]
    exact hh
  · let u := settleArbiter (freeSlot n s)
    have hu : Touches [.gaps, .map, .slots, .arb] s u := hfr.comp settleArbiter_touches
    have hfreport : freeReport u = holdReturn u := by
      unfold freeReport
      rw [holdTest_stands (.inl (by rw [hu.rc rfl, hp]; nofun))]
      refine if_pos ⟨by rw [hu.intake rfl]; exact hh, ?_⟩
      rw [hu.ctl rfl, settleArbiter_touches.freeCount rfl, hcount]
      exact hge
    obtain ⟨hret, hexp, hplay⟩ := holdReturned_holdReturn (s := u) (g := g) (by rw [hu.openSeg rfl]; exact hg)
      (by rw [hu.rc rfl]; exact hp) (by rw [hu.segs rfl, hu.play rfl]; exact hs)
    have hrt : Touches [.intake, .hold, .map, .segs, .play, .ctl, .rc] u (holdReturn u) := holdReturn_touches
    have hin : (holdReturn u).intake = { s.intake with hold := false } := by
      rw [← hu.intake rfl]
      exact (takeReturn_touches _).intake rfl
    obtain ⟨hto, hph, hsl⟩ := handOffEnd_of_held_nil (s := holdReturn u) (by rw [hin]; exact h.phase)
      (by rw [hin]; exact h.held)
    have hto' : Touches [.intake, .router, .arb] (holdReturn u) (settleArbiter (handOffEnd (holdReturn u))) :=
      hto.comp settleArbiter_touches
    have hexec : exec .blockReport s = .next (settleArbiter (handOffEnd (holdReturn u))) := by
      rw [exec_blockReport h, hd, ← hfreport]
    refine ⟨_, hexec, ?_, by rw [settleArbiter_touches.intake rfl, hph], by rw [settleArbiter_touches.intake rfl, hsl],
      ?_, ?_, ?_, ?_, fun hlt => absurd hlt (Nat.not_lt.mpr hge), fun _ => ?_⟩
    · rw [hto'.slotAt n rfl, hrt.slotAt n rfl, settleArbiter_touches.slotAt n rfl, hslot]
    · rw [hto'.rc rfl, hexp, hu.rc rfl]
    · rw [hto'.count _ rfl, hrt.count _ rfl, hu.count _ rfl]
    · rw [hto'.mem rfl, hrt.mem rfl, hu.mem rfl]
    · rw [hto'.play rfl, hplay, hu.play rfl]
    · unfold State.holdReturned at hret ⊢
      rw [hto'.hold rfl, hto'.rc rfl, hto'.segs rfl]
      rwa [hu.rc rfl, hu.ctl rfl, hu.segs rfl] at hret

/-- The append in STREAMING, with the Gap Table entry and its fetch (R49, R92, R95, R96). -/
theorem report_streaming_appends (h : s.reports n) (hp : s.rc.phase = .streaming) (hst : (slotAt s n).stale = false)
    (hg : openSeg s = some g) (hexp : s.rc.expected = some e)
    (hlab : (slotAt s n).label = some e ∨ ((slotAt s n).trusted = false ∧ e < 450000))
    (ho : ownsLabel s g.id e n = false) (he : (e * 588 : Int) = g.stop + g.shift) :
    ∃ t, exec .blockReport s = .next t ∧
      Touches [.arb, .intake, .hold, .router, .rc] (fetchTest (s.reported n e g)) t ∧
      t.rc = (holdTest (fetchTest (s.reported n e g))).rc ∧
      t.intake.hold = (holdTest (fetchTest (s.reported n e g))).intake.hold ∧ t.rc.expected = some (e + 1) ∧
      s.appendsTo t n e g ∧ t.intake.phase = .none ∧ t.intake.slot = none := by
  obtain ⟨t, hexec, hto, hrc, hhold, hph, hsl⟩ := report_of_disposed_holdTest h.hands
    (disposeBlock_appends hst hexp (.inl hp) hg hlab ho he)
    (by rw [fetchTest_intake, reported_intake]) h.hold
  refine ⟨t, hexec, hto, hrc, hhold, ?_, appendsTo_fetchTest hg h.lt hto, hph, hsl⟩
  have hx : (fetchTest (s.reported n e g)).rc.expected = some (e + 1) := by
    rw [fetchTest_expected, reported_rc]
  rw [hrc, holdTest_rc]
  split <;> exact hx

end

/-- Settles O28: the appends, the discontinuity and the discard in HOLDING, each by its disposal. -/
theorem reportAppendsInHolding : Obligations.ReportAppendsInHolding := by
  refine ⟨fun s n e g hr hp hc hi hj hs hb hn hg hexp hlab hst hf ho he hfree => ?_,
    fun s n e g h hp hst hg hexp => ⟨fun hlab hf ho he hgap => ?_, fun l hl ht hne => ?_⟩,
    fun s n e l g hr hp hc hi hj hs hb hh _ hg hexp hl ht hne hst hf hseg => ?_⟩
  · obtain ⟨t, hexec, hph, hx, ⟨h1, h2, h3, h4, h5, h6⟩, h7, h8⟩ :=
      report_holding_appends ⟨hr, hc, hi, hj, hs, hb⟩ hp hn hg hexp hlab hst hf ho he hfree
    exact ⟨t, hexec, hph, hx, h1, h2, h3, h4, h7, h8, h5, h6⟩
  · obtain ⟨t, hexec, hto, hrc, hhold, hx, ⟨h1, h2, h3, h4, h5, h6⟩, h7, h8⟩ :=
      report_streaming_appends h hp hst hg hexp hlab ho he
    refine ⟨t, hexec, hx, h1, h2, h3, h4, h7, h8, h5, h6, fun hfew => ?_, fun hmany hq hc hlead => ?_⟩
    · have hgaps := reported_gaps_of_few (e := e) (g := g) hfew
      have hfetch : fetchTest (s.reported n e g) = s.reported n e g :=
        fetchTest_stands_of_entries (by rw [hgaps]; exact hgap)
      rw [hfetch, holdTest_rc, reported_intake, reported_rc, reported_params, freeCount_reported hf] at hrc
      rw [hfetch, holdTest_intake, reported_intake, reported_rc, reported_params, freeCount_reported hf] at hhold
      refine ⟨by rw [hto.gaps rfl, hfetch, hgaps], fun hlt => ?_, fun hle => ?_⟩
      · rw [if_neg fun hc => Nat.not_lt.mpr hc.2.2 hlt] at hrc hhold
        exact ⟨by rw [hrc]; exact hp, hhold.trans h.hold⟩
      · rw [if_pos ⟨h.hold, hp, hle⟩] at hrc hhold
        exact ⟨by rw [hrc], hhold⟩
    · obtain ⟨hgaps, hmark⟩ := reported_gaps_of_many (e := e) h.lt hmany hq hc hgap hlead
      refine ⟨?_, ?_, fun hfetch hl hlen hid => ?_, fun hno => ?_⟩
      · rw [hto.gaps rfl, fetchTest_entries, hgaps]
      · rw [hto.slotAt n rfl, fetchTest_gapMark, hmark]
      · have hf := fetchTest_reported h.lt hmany hq hc hgap hlead hg he hp h.hold hfetch hl hlen hid
        have hstand := holdTest_stands (s := fetchTest (s.reported n e g)) (.inl (by rw [hf, fetches_rc]; nofun))
        rw [hstand, hf, fetches_rc, reported_rc, reported_params] at hrc
        rw [hstand, hf, fetches_intake, reported_intake] at hhold
        refine ⟨by rw [hrc], hhold.trans h.hold, ?_, by rw [hrc], by rw [hrc], by rw [hrc], by rw [hrc], ?_⟩
        · rw [hto.gaps rfl, hf, fetches_gaps]
          rfl
        · have ht : openSeg t = some { g with length := g.length + 588 } :=
            openSeg_eq_some.mpr ⟨by unfold lastSeg; rw [h1]; simp, (openSeg_eq_some.mp hg).2⟩
          rw [ht]
          rfl
      · have hf : fetchTest (s.reported n e g) = s.reported n e g := by
          refine fetchTest_stands ?_
          rw [reported_touches_appended.lead rfl rfl, lead_appended hg (by omega), reported_params, hgaps,
            length_reported_segs hg]
          exact hno
        rw [hf, holdTest_rc, reported_rc] at hrc
        refine ⟨by rw [hto.gaps rfl, hf, hgaps], ?_⟩
        rw [hrc]
        split
        · exact ⟨rfl, rfl, .inr rfl⟩
        · exact ⟨rfl, rfl, .inl hp⟩
  · obtain ⟨t, items, hexec, hslot, hrc, hopen, hflag, hcount, hph, hmem⟩ :=
      report_streaming_breaks h hg (disposeBlock_breaks hst hexp hl ht hne hp)
    refine ⟨t, hexec, hslot, ?_⟩
    rw [hrc]
    exact ⟨rfl, rfl, rfl, rfl, rfl, rfl, rfl, hopen, rfl, hflag, hcount, hph, rfl, hmem⟩
  · rw [← hexp]
    exact report_holding_frees ⟨hr, hc, hi, hj, hs, hb⟩ hp hh hg hf hseg (disposeBlock_frees hst hexp hl ht hne hp)

end Sys2Proof.Machine
end

section
/-! PROOFS. Scores of candidates, the best of them, and the grant that scores one (O36). -/
namespace Sys2Proof.Machine

/-! ### Scores (R75, R76) -/

/-- The pairs in which neither frame is erased (R75). -/
def goodPairs (reference staged : List TailFrame) : List (TailFrame × TailFrame) :=
  (reference.zip staged).filter fun x => !x.1.erased && !x.2.erased

theorem scorePairs_eq (reference staged : List TailFrame) : scorePairs reference staged =
    (((goodPairs reference staged).map fun x => frameTerm x.1.word x.2.word).sum,
      (goodPairs reference staged).length) := by
  induction reference generalizing staged with
  | nil => rfl
  | cons r rs ih =>
    cases staged with
    | nil => rfl
    | cons x xs =>
      unfold scorePairs
      rw [ih xs]
      unfold goodPairs
      rw [List.zip_cons_cons, List.filter_cons]
      cases r.erased <;> cases x.erased <;> simp [Nat.add_comm]

theorem candidateResult_eq (k : Nat) (d : Int) (reference staged : List TailFrame) :
    candidateResult k d reference staged =
      if (k + 1) / 2 ≤ (goodPairs reference staged).length then
        some
          { offset := d
            mean := ((goodPairs reference staged).map fun x => frameTerm x.1.word x.2.word).sum /
              (2 * (goodPairs reference staged).length)
            count := (goodPairs reference staged).length }
      else none := by
  unfold candidateResult
  rw [scorePairs_eq]

/-! ### The best candidate (R77) -/

/-- `b` ranks with `x` or above it: the lower mean, then the smaller |d|, then the negative offset (R77). -/
def Best.before (b x : Best) : Prop :=
  b.mean < x.mean ∨ (b.mean = x.mean ∧ (b.offset.natAbs < x.offset.natAbs ∨
    (b.offset.natAbs = x.offset.natAbs ∧ b.offset ≤ x.offset)))

theorem Best.before_refl (b : Best) : b.before b := .inr ⟨rfl, .inr ⟨rfl, le_rfl⟩⟩

theorem Best.before_trans {a b c : Best} (h : a.before b) (h' : b.before c) : a.before c := by
  unfold Best.before at *
  omega

theorem before_of_ranksHigher {x y : Best} (h : ranksHigher x y = true) : x.before y := by
  unfold ranksHigher at h
  unfold Best.before
  simp only [Bool.or_eq_true, Bool.and_eq_true, decide_eq_true_eq, beq_iff_eq] at h
  omega

theorem before_of_not_ranksHigher {x y : Best} (h : ¬ ranksHigher x y = true) : y.before x := by
  unfold ranksHigher at h
  unfold Best.before
  simp only [Bool.or_eq_true, Bool.and_eq_true, decide_eq_true_eq, beq_iff_eq] at h
  omega

/-- What is kept is one of the two, and ranks with each of them or above it. -/
theorem keepBest_some {x y : Option Best} {b : Best} (h : keepBest x y = some b) :
    (x = some b ∨ y = some b) ∧ (∀ c, x = some c → b.before c) ∧ ∀ c, y = some c → b.before c := by
  unfold keepBest at h
  split at h
  · exact ⟨.inr h, nofun, fun c hc => Option.some.inj (h.symm.trans hc) ▸ b.before_refl⟩
  · exact ⟨.inl h, fun c hc => Option.some.inj (h.symm.trans hc) ▸ b.before_refl, nofun⟩
  · rename_i p q
    split at h
    case isTrue hr =>
      cases h
      exact ⟨.inr rfl, fun c hc => Option.some.inj hc ▸ before_of_ranksHigher hr,
        fun c hc => Option.some.inj hc ▸ b.before_refl⟩
    case isFalse hr =>
      cases h
      exact ⟨.inl rfl, fun c hc => Option.some.inj hc ▸ b.before_refl,
        fun c hc => Option.some.inj hc ▸ before_of_not_ranksHigher hr⟩

theorem keepBest_none {x y : Option Best} (h : keepBest x y = none) : x = none ∧ y = none := by
  unfold keepBest at h
  split at h
  · exact ⟨rfl, h⟩
  · exact ⟨h, rfl⟩
  · split at h <;> exact nomatch h

/-- Of candidates compared one after another, the one kept is among them and ranks before all (R77). -/
theorem foldl_keepBest_some {l : List (Option Best)} {x : Option Best} {b : Best}
    (h : l.foldl keepBest x = some b) :
    (x = some b ∨ some b ∈ l) ∧ (∀ c, x = some c → b.before c) ∧ ∀ c, some c ∈ l → b.before c := by
  induction l generalizing x with
  | nil => exact ⟨.inl h, fun c hc => Option.some.inj (h.symm.trans hc) ▸ b.before_refl, nofun⟩
  | cons y l ih =>
    obtain ⟨hmem, hacc, hrest⟩ := ih h
    have hy : ∀ c, (x = some c ∨ y = some c) → b.before c := fun c hc => by
      cases hk : keepBest x y with
      | none =>
        obtain ⟨hx, hy⟩ := keepBest_none hk
        rw [hx, hy] at hc
        exact hc.elim nofun nofun
      | some k =>
        obtain ⟨-, h1, h2⟩ := keepBest_some hk
        exact Best.before_trans (hacc k hk) (hc.elim (h1 c) (h2 c))
    refine ⟨?_, fun c hc => hy c (.inl hc), fun c hc => ?_⟩
    · rcases hmem with hk | hm
      · rcases (keepBest_some hk).1 with hx | hy
        · exact .inl hx
        · exact .inr (hy ▸ List.mem_cons_self)
      · exact .inr (List.mem_cons_of_mem _ hm)
    · rcases List.mem_cons.mp hc with hc | hc
      · exact hy c (.inr hc.symm)
      · exact hrest c hc

theorem foldl_keepBest_none {l : List (Option Best)} {x : Option Best} (h : l.foldl keepBest x = none) :
    x = none ∧ ∀ c ∈ l, c = none := by
  induction l generalizing x with
  | nil => exact ⟨h, nofun⟩
  | cons y l ih =>
    obtain ⟨hk, hl⟩ := ih h
    obtain ⟨hx, hy⟩ := keepBest_none hk
    exact ⟨hx, fun c hc => (List.mem_cons.mp hc).elim (fun e => e.trans hy) (hl c)⟩

/-! ### The grant of the last read (R72, R73, R141) -/

section
variable {s : State}

theorem playPieceDue_of_no_burst (h : s.play.burst = none) : playPieceDue s = none := by
  unfold playPieceDue
  rw [h]

theorem playPiece_of_no_burst (h : s.play.burst = none) : playPiece s = none := by
  unfold playPiece
  rw [playPieceDue_of_no_burst h]

/-- With one engine client waiting and no port busy, the engine is granted for that client (R140, R141). -/
theorem chooseGrant_engineOnly {c : EngineClient} (h : s.engineOnly c) : chooseGrant s = some .engine := by
  obtain ⟨-, -, hp, hd, hb, hc⟩ := h
  have he : enginePresents s = true := by
    unfold enginePresents
    rw [hc]
    rfl
  have hpp : portPPresents s = false := by
    unfold portPPresents
    rw [hp, playPiece_of_no_burst hb]
    rfl
  have hpr : portPRequesting s = false := by
    unfold portPRequesting
    rw [hb]
  have hdp : portDPresents s = false := by
    unfold portDPresents
    rw [hd]
  unfold chooseGrant
  rw [he, hpp, hpr, hdp]
  simp

theorem nextClient_engineOnly {c : EngineClient} (h : s.engineOnly c) : nextClient s = some c := by
  obtain ⟨-, -, -, -, -, hc⟩ := h
  unfold nextClient
  rw [hc]
  cases s.arb.last <;> cases c <;> rfl

theorem settleArbiter_of_waitCount_zero (h : s.arb.waitCount = 0) : settleArbiter s = s := by
  have he : (s.onArb fun a => { a with waitCount := 0 }) = s := by
    show ({ s with arb := { s.arb with waitCount := 0 } } : State) = s
    rw [← h]
  unfold settleArbiter
  split
  · exact he
  · rfl

/-- A grant with the Match Engine alone waiting (R140, R141). -/
theorem memoryGrant_matcher (h : s.engineOnly .matcher) : exec .memoryGrant s =
    .next (settleArbiter (matchGrant (s.onArb fun _ => { waitCount := 0, last := .matcher }))) := by
  have hg : memoryGrant s = settleArbiter (matchGrant (s.onArb fun _ => { waitCount := 0, last := .matcher })) := by
    unfold memoryGrant
    rw [admitWaiting_of_waiting_nil h.2.1]
    unfold grant
    rw [chooseGrant_engineOnly h]
    unfold engineGrant
    rw [nextClient_engineOnly h]
  rw [← hg]
  exact next_live h.1

/-- The last read of a candidate in an evaluation scores it (R72, R73). -/
theorem matchGrant_scores {p : ReadPiece} (hw : matchWrite s = none) (ha : s.me.activity = .scoring)
    (hp : nextPiece s.me.fetch = some p) (hr : ∀ f ∈ s.me.fetch.map (fillItem s p), itemRead f = true) :
    matchGrant s = scoreCandidate (s.onMe fun m => { m with fetch := s.me.fetch.map (fillItem s p) }) := by
  have hf : performPiece s s.me.fetch = s.me.fetch.map (fillItem s p) := by
    unfold performPiece
    rw [hp]
  unfold matchGrant
  rw [hw]
  dsimp only
  have hm : (s.onMe fun m => { m with fetch := performPiece s m.fetch }) =
      s.onMe fun m => { m with fetch := s.me.fetch.map (fillItem s p) } := by
    show ({ s with me := { s.me with fetch := performPiece s s.me.fetch } } : State) = _
    rw [hf]
    rfl
  rw [hm]
  refine (if_pos (List.all_eq_true.mpr hr)).trans ?_
  dsimp only [State.onMe]
  rw [ha]

/-- The frames a candidate reads, or none when the evaluation does not cover it (R72, R73). -/
theorem loadCandidate_fetch {a : Attempt} {e : Nat} (ha : s.me.attempt = some a) (hs : a.scoredTo = some e) :
    (loadCandidate s).me = { s.me with
      fetch := if a.next ≤ a.span ∧ (a.p : Int) - 1 + a.next ≤ e then
        stagedItems s.ctl.params.ringBase s.rc.run ((a.p : Int) - a.kEff + a.next) a.kEff else [] } := by
  unfold loadCandidate State.onMe
  dsimp only
  rw [ha]
  dsimp only
  rw [hs]
  by_cases hc : a.next ≤ a.span ∧ (a.p : Int) - 1 + a.next ≤ e
  · rw [if_pos hc, if_pos ⟨hc.1, decide_eq_true hc.2⟩]
  · rw [if_neg hc, if_neg fun h => hc ⟨h.1, of_decide_eq_true h.2⟩]

theorem getElem?_stagedItems {ring k j x : Nat} {run : List StagedBlock} {first : Int} {b : StagedBlock}
    (hj : j < k) (hx : (x : Int) = first + j) (hb : stagedAt run (x / 588) = some b) :
    (stagedItems ring run first k)[j]? = some (frameItem ring b.slot (x % 588)) := by
  unfold stagedItems
  rw [List.getElem?_map, List.getElem?_range hj, Option.map_some]
  have hh : stagedHolding run (first + j) = some b := by
    unfold stagedHolding
    rw [← hx, if_neg (by omega), Int.toNat_natCast]
    exact hb
  unfold stagedItem
  rw [hh, ← hx, Int.toNat_natCast]

/-- The grant of a candidate's last read: it is scored, and the next one is loaded (R72 to R77). -/
theorem memoryGrant_scores {a : Attempt} {e : Nat} {p : ReadPiece} (h : s.engineOnly .matcher)
    (hw : matchWrite s = none) (ha : s.me.activity = .scoring) (hat : s.me.attempt = some a)
    (hs : a.scoredTo = some e) (hp : nextPiece s.me.fetch = some p)
    (hr : ∀ f ∈ s.me.fetch.map (fillItem s p), itemRead f = true) :
    exec .memoryGrant s = .next { s with
      arb := { waitCount := 0, last := .matcher }
      me := { s.me with
        fetch := if a.next + 1 ≤ a.span ∧ (a.p : Int) - 1 + (a.next + 1) ≤ e then
          stagedItems s.ctl.params.ringBase s.rc.run ((a.p : Int) - a.kEff + (a.next + 1)) a.kEff else []
        attempt := some { a with
          best := keepBest a.best (candidateResult a.kEff a.next s.rc.tail
            ((s.me.fetch.map (fillItem s p)).map itemFrame))
          next := a.next + 1 } } } := by
  let u := s.onArb fun _ => { waitCount := 0, last := .matcher }
  have hm : matchGrant u = scoreCandidate (u.onMe fun m => { m with fetch := s.me.fetch.map (fillItem s p) }) :=
    matchGrant_scores (s := u) hw ha hp hr
  let v := u.onMe fun m =>
    { m with
      fetch := s.me.fetch.map (fillItem s p)
      attempt := some { a with
        best := keepBest a.best (candidateResult a.kEff a.next s.rc.tail
          ((s.me.fetch.map (fillItem s p)).map itemFrame))
        next := a.next + 1 } }
  have hv : scoreCandidate (u.onMe fun m => { m with fetch := s.me.fetch.map (fillItem s p) }) = loadCandidate v := by
    unfold scoreCandidate
    dsimp only [State.onMe]
    rw [show u.me.attempt = some a from hat]
    rfl
  have hl : loadCandidate v = { v with me := (loadCandidate v).me } := rfl
  rw [memoryGrant_matcher h, hm, hv, settleArbiter_of_waitCount_zero rfl, hl, loadCandidate_fetch (s := v) rfl hs]
  rfl

end
end Sys2Proof.Machine
end

section
/-! PROOFS. The linking of a run, and the segments made from it (R8, R10 to R14). -/
namespace Sys2Proof.Machine

section
variable {s t u : State} {id label low : Nat}

/-! ### Owned labels (R8) -/

/-- No slot but `n` is owned by segment `id` under `label`. -/
def State.solelyOwns (s : State) (id label n : Nat) : Prop :=
  ∀ k, k ≠ n → (slotAt s k).owner = some id → (slotAt s k).label ≠ some label

theorem ownsLabel_eq_false_iff {n : Nat} : ownsLabel s id label n = false ↔ s.solelyOwns id label n := by
  constructor
  · intro h k hk ho
    have hlt : k < s.map.slots.length := lt_of_slotAt_ne_free fun e => by rw [e] at ho; exact nomatch ho
    exact ownsLabel_false h k _ hk (getElem?_of_lt hlt) ho
  · intro h
    refine Bool.eq_false_iff.mpr fun ht => ?_
    obtain ⟨⟨k, d⟩, hm, hc⟩ := List.any_eq_true.mp ht
    have hd := slotAt_of_getElem? (mem_range_zip.mp hm)
    simp only [Bool.and_eq_true, bne_iff_ne, beq_iff_eq] at hc
    obtain ⟨⟨hk, ho⟩, hl⟩ := hc
    exact h k hk (hd ▸ ho) (hd ▸ hl)

theorem slotAt_modSlot_same_or {n : Nat} {f : SlotDesc → SlotDesc} :
    slotAt (modSlot n f s) n = f (slotAt s n) ∨ slotAt (modSlot n f s) n = SlotDesc.free := by
  rcases Nat.lt_or_ge n s.map.slots.length with h | h
  · exact .inl (by rw [slotAt_modSlot h, if_pos rfl])
  · exact .inr (slotAt_of_ge (by rwa [(modSlot_touches n f).ring rfl]))

/-! ### Linking offered blocks (R12, R14) -/

theorem linkSlot_of_owned {n : Nat} (h : ¬ s.solelyOwns id (labelOf (slotAt s n)) n) :
    linkSlot id n s = (freeSlot n s, false) :=
  if_pos (by rw [← ownsLabel_eq_false_iff] at h; simpa using h)

theorem linkSlot_of_solelyOwns {n : Nat} (h : s.solelyOwns id (labelOf (slotAt s n)) n) :
    linkSlot id n s = (modSlot n (fun d =>
      { d with state := .linked, owner := some id, label := some (labelOf (slotAt s n)) }) s, true) :=
  if_neg (by rw [ownsLabel_eq_false_iff.mpr h]; decide)

theorem slotAt_linkSlot_of_ne {n k : Nat} (h : k ≠ n) : slotAt (linkSlot id n s).1 k = slotAt s k := by
  by_cases hs : s.solelyOwns id (labelOf (slotAt s n)) n
  · rw [linkSlot_of_solelyOwns hs]
    exact slotAt_modSlot_of_ne h
  · rw [linkSlot_of_owned hs, slotAt_freeSlot, if_neg h]

/-- What an offered block's slot carries after its turn: the label it carried, or none. -/
theorem label_linkSlot (n : Nat) : (slotAt (linkSlot id n s).1 n).label = none ∨
    (slotAt (linkSlot id n s).1 n).label = some (labelOf (slotAt s n)) := by
  by_cases hs : s.solelyOwns id (labelOf (slotAt s n)) n
  · rw [linkSlot_of_solelyOwns hs]
    rcases slotAt_modSlot_same_or (s := s) (n := n) (f := fun d =>
      { d with state := .linked, owner := some id, label := some (labelOf (slotAt s n)) }) with h | h
    · exact .inr (by rw [h])
    · exact .inl (by rw [h]; rfl)
  · rw [linkSlot_of_owned hs, slotAt_freeSlot, if_pos rfl]
    exact .inl rfl

/-- Slot `n` is linked to segment `id` under `label`, and no other slot is owned under it. -/
structure State.holdsLabel (s : State) (id label n : Nat) : Prop where
  linked : (slotAt s n).state = .linked
  owned : (slotAt s n).owner = some id
  carried : (slotAt s n).label = some label
  sole : s.solelyOwns id label n

theorem State.holdsLabel.labelOf_eq {n : Nat} (h : s.holdsLabel id label n) : labelOf (slotAt s n) = label :=
  labelOf_of_label h.carried

theorem State.holdsLabel.freeSlot {n k : Nat} (h : s.holdsLabel id label n) (hk : k ≠ n) :
    (Machine.freeSlot k s).holdsLabel id label n := by
  have hn := (slotAt_freeSlot (s := s) k n).trans (if_neg (Ne.symm hk))
  refine ⟨by rw [hn]; exact h.linked, by rw [hn]; exact h.owned, by rw [hn]; exact h.carried, fun j hj ho => ?_⟩
  rw [slotAt_freeSlot] at ho ⊢
  split at ho
  · exact nomatch ho
  case isFalse hne =>
    rw [if_neg hne]
    exact h.sole j hj ho

theorem State.holdsLabel.linkSlot {n k : Nat} (h : s.holdsLabel id label n) :
    (Machine.linkSlot id k s).1.holdsLabel id label n := by
  by_cases hk : k = n
  · subst hk
    have hlt : k < s.map.slots.length := lt_of_slotAt_ne_free fun e => by
      have := h.owned
      rw [e] at this
      exact nomatch this
    have hl := h.labelOf_eq
    rw [linkSlot_of_solelyOwns (by rw [hl]; exact h.sole), hl]
    have hk := slotAt_modSlot (f := fun d => { d with state := .linked, owner := some id, label := some label }) hlt
    have hkk := (hk k).trans (if_pos rfl)
    refine ⟨by rw [hkk], by rw [hkk], by rw [hkk], fun j hj ho => ?_⟩
    rw [(hk j).trans (if_neg hj)] at ho ⊢
    exact h.sole j hj ho
  · by_cases hs : s.solelyOwns id (labelOf (slotAt s k)) k
    · have hne : labelOf (slotAt s k) ≠ label := fun e => hs n (Ne.symm hk) h.owned (by rw [e]; exact h.carried)
      rw [linkSlot_of_solelyOwns hs]
      have hn := slotAt_modSlot_of_ne (s := s) (f := fun d =>
        { d with state := .linked, owner := some id, label := some (labelOf (slotAt s k)) }) (Ne.symm hk)
      refine ⟨by rw [hn]; exact h.linked, by rw [hn]; exact h.owned, by rw [hn]; exact h.carried, fun j hj ho => ?_⟩
      by_cases hjk : j = k
      · subst hjk
        rcases slotAt_modSlot_same_or (s := s) (n := j) (f := fun d =>
          { d with state := .linked, owner := some id, label := some (labelOf (slotAt s j)) }) with he | he
        · rw [he]
          exact fun e => hne (Option.some.inj e)
        · rw [he]
          nofun
      · rw [slotAt_modSlot_of_ne hjk] at ho ⊢
        exact h.sole j hj ho
    · rw [linkSlot_of_owned hs]
      exact h.freeSlot hk

/-- Once linked under its label, a slot stays linked while the rest of the run is offered. -/
theorem State.holdsLabel.linkOffered {n : Nat} {l : List StagedBlock} (h : s.holdsLabel id label n)
    (hl : ∀ b ∈ l, b.slot = n → low ≤ b.label) : (Machine.linkOffered id low l s).1.holdsLabel id label n := by
  induction l generalizing s with
  | nil => exact h
  | cons b l ih =>
    have hrest : ∀ b ∈ l, b.slot = n → low ≤ b.label := fun x hx => hl x (List.mem_cons_of_mem _ hx)
    unfold Machine.linkOffered
    split
    case isTrue hlow =>
      exact ih (h.freeSlot fun e => absurd hlow (Nat.not_lt.mpr (hl b List.mem_cons_self e))) hrest
    case isFalse => exact ih h.linkSlot hrest

theorem linkOffered_top_le {l : List StagedBlock} (h : ∀ b ∈ l, b.label ≤ label) :
    (linkOffered id low l s).2.getD 0 ≤ label := by
  induction l generalizing s with
  | nil => exact Nat.zero_le _
  | cons b l ih =>
    have hrest : ∀ b ∈ l, b.label ≤ label := fun x hx => h x (List.mem_cons_of_mem _ hx)
    unfold linkOffered
    split
    · exact ih hrest
    · dsimp only
      split
      · exact Nat.max_le.mpr ⟨h b List.mem_cons_self, ih hrest⟩
      · exact ih hrest

/-- The run offered to segment `id` can be linked up to its highest label: each block of that label is in a slot
that carries it, every other block in one that does not, and no second slot is owned under it (R8). -/
structure State.offers (s : State) (id label : Nat) (l : List StagedBlock) : Prop where
  le : ∀ b ∈ l, b.label ≤ label
  carried : ∀ b ∈ l, (slotAt s b.slot).label = some label ↔ b.label = label
  sole : ∀ b ∈ l, b.label = label → s.solelyOwns id label b.slot

/-- A lower block's turn leaves the rest of the run offered. -/
theorem State.offers.tail {b : StagedBlock} {l : List StagedBlock} (h : s.offers id label (b :: l))
    (hs : ∀ k, k ≠ b.slot → slotAt t k = slotAt s k) (hb : b.label ≠ label)
    (hl : (slotAt t b.slot).label ≠ some label) : t.offers id label l := by
  refine ⟨fun x hx => h.le x (List.mem_cons_of_mem _ hx), fun x hx => ?_, fun x hx hxl k hk ho => ?_⟩
  · have hc := h.carried x (List.mem_cons_of_mem _ hx)
    by_cases he : x.slot = b.slot
    · have hnb := h.carried b List.mem_cons_self
      rw [he] at hc ⊢
      exact ⟨fun e => absurd e hl, fun e => absurd (hnb.mp (hc.mpr e)) hb⟩
    · rw [hs _ he]
      exact hc
  · by_cases he : k = b.slot
    · rw [he]
      exact hl
    · rw [hs _ he] at ho ⊢
      exact h.sole x (List.mem_cons_of_mem _ hx) hxl k hk ho

/-- A run that reaches the first label of its segment is linked up to its highest label. -/
theorem State.offers.linkOffered {l : List StagedBlock} (h : s.offers id label l) (hlow : low ≤ label)
    (hx : ∃ b ∈ l, b.label = label) : (Machine.linkOffered id low l s).2 = some label ∧
      ∃ b ∈ l, b.label = label ∧ (Machine.linkOffered id low l s).1.holdsLabel id label b.slot := by
  induction l generalizing s with
  | nil => exact absurd hx (by simp)
  | cons b l ih =>
    by_cases hb : b.label = label
    · have hcar := (h.carried b List.mem_cons_self).mpr hb
      have hlab := labelOf_of_label hcar
      have hsole := h.sole b List.mem_cons_self hb
      have hlt : b.slot < s.map.slots.length := lt_of_slotAt_ne_free fun e => by
        rw [e] at hcar
        exact nomatch hcar
      have hlink := linkSlot_of_solelyOwns (s := s) (id := id) (n := b.slot) (by rw [hlab]; exact hsole)
      rw [hlab] at hlink
      have hm := slotAt_modSlot (f := fun d => { d with state := .linked, owner := some id, label := some label }) hlt
      have hn := (hm b.slot).trans (if_pos rfl)
      have hholds : (Machine.linkSlot id b.slot s).1.holdsLabel id label b.slot := by
        rw [hlink]
        refine ⟨by rw [hn], by rw [hn], by rw [hn], fun j hj ho => ?_⟩
        rw [(hm j).trans (if_neg hj)] at ho ⊢
        exact hsole j hj ho
      have hstay := hholds.linkOffered (low := low) (l := l) fun x hx he => by
        have := (h.carried x (List.mem_cons_of_mem _ hx)).mp (by rw [he]; exact hcar)
        rw [this]
        exact hlow
      have htop := linkOffered_top_le (s := (Machine.linkSlot id b.slot s).1) (id := id) (low := low)
        (fun x hx => h.le x (List.mem_cons_of_mem _ hx))
      unfold Machine.linkOffered
      rw [if_neg (by rw [hb]; exact Nat.not_lt.mpr hlow)]
      rw [hlink] at hstay htop ⊢
      dsimp only
      refine ⟨?_, b, List.mem_cons_self, hb, hstay⟩
      rw [if_pos rfl, hb, Nat.max_eq_left htop]
    · have hnb : (slotAt s b.slot).label ≠ some label := fun e => hb ((h.carried b List.mem_cons_self).mp e)
      have hpos : label ≠ 0 := by
        have := h.le b List.mem_cons_self
        omega
      have hx' : ∃ b ∈ l, b.label = label := by
        obtain ⟨x, hm, he⟩ := hx
        exact ⟨x, (List.mem_cons.mp hm).resolve_left fun e => hb (e ▸ he), he⟩
      have hlabel : labelOf (slotAt s b.slot) ≠ label := fun e => by
        unfold labelOf at e
        cases hd : (slotAt s b.slot).label with
        | none =>
          rw [hd] at e
          exact hpos e.symm
        | some y =>
          rw [hd] at e
          exact hnb (hd.trans (congrArg some e))
      unfold Machine.linkOffered
      split
      · have hfree : (slotAt (Machine.freeSlot b.slot s) b.slot).label ≠ some label := by
          rw [slotAt_freeSlot, if_pos rfl]
          nofun
        obtain ⟨htop, x, hm, hr⟩ := ih (h.tail (fun k hk => (slotAt_freeSlot b.slot k).trans (if_neg hk)) hb hfree) hx'
        exact ⟨htop, x, List.mem_cons_of_mem _ hm, hr⟩
      · have hl : (slotAt (Machine.linkSlot id b.slot s).1 b.slot).label ≠ some label := by
          rcases label_linkSlot (s := s) (id := id) b.slot with e | e
          · rw [e]
            nofun
          · rw [e]
            exact fun e => hlabel (Option.some.inj e)
        obtain ⟨htop, x, hm, hr⟩ := ih (h.tail (fun k hk => slotAt_linkSlot_of_ne hk) hb hl) hx'
        dsimp only
        refine ⟨?_, x, List.mem_cons_of_mem _ hm, hr⟩
        rw [htop]
        split
        · rw [Option.getD_some, Nat.max_eq_right (h.le b List.mem_cons_self)]
        · rfl

end
end Sys2Proof.Machine
end

section
/-! PROOFS. O36 and O37: segments made from a run, splices, and the decisions at the end of an evaluation. -/
namespace Sys2Proof.Machine

section
variable {s t u : State} {g : Segment} {l : List StagedBlock}

theorem State.holdsLabel.of_sameSlots {id label n : Nat} (h : s.holdsLabel id label n) (hs : s.sameSlots t) :
    t.holdsLabel id label n := by
  refine ⟨by rw [hs.state]; exact h.linked, by rw [hs.owner]; exact h.owned, by rw [hs.label]; exact h.carried,
    fun k hk ho => ?_⟩
  rw [hs.owner] at ho
  rw [hs.label]
  exact h.sole k hk ho

/-! ### A new segment (R12) -/

theorem exists_highest {b : StagedBlock} (hb : b ∈ l) : ∃ m ∈ l, ∀ x ∈ l, x.label ≤ m.label := by
  cases hm : l.argmax StagedBlock.label with
  | none =>
    rw [List.argmax_eq_none.mp hm] at hb
    exact absurd hb List.not_mem_nil
  | some m => exact ⟨m, List.argmax_mem hm, fun x hx => List.le_of_mem_argmax hx hm⟩

/-- The segment a creation appends, before its blocks are linked (R10, R12). -/
def State.newSegment (s : State) (start : Nat) (shift : Int) (kind : HeadKind) : Segment :=
  { id := freshId s.map, start := startAfter s start, length := 0, shift := shift, kind := kindAt s start kind
    isOpen := true }

/-- The open segment closed and the new one appended (R12). -/
def State.opened (s : State) (start : Nat) (shift : Int) (kind : HeadKind) : State :=
  (closeOpen s).onMap fun m =>
    { m with
      nextId := if freshId s.map = 31 then 0 else freshId s.map + 1
      segs := m.segs ++ [s.newSegment start shift kind] }

/-- The length of a segment of start and shift whose last block has label `top` (R12). -/
def Segment.lengthTo (start top : Nat) (shift : Int) : Nat :=
  ((((top + 1) * Config.frames : Nat) : Int) - shift - start).toNat

theorem stop_of_lengthTo {start top : Nat} {shift : Int}
    (h : blockOf ((start : Int) + shift).toNat ≤ top) :
    ((start + Segment.lengthTo start top shift : Nat) : Int) + shift = (top + 1) * 588 := by
  unfold blockOf at h
  unfold Segment.lengthTo
  have h588 : Config.frames = 588 := rfl
  rw [h588] at h ⊢
  omega

section
variable (hlen : s.map.segs.length < 16) (start : Nat) (shift : Int) (kind : HeadKind)
include hlen

theorem createSegment_eq : createSegment start shift kind l s =
    let linked := linkOffered (freshId s.map) (blockOf ((startAfter s start : Int) + shift).toNat) l
      (s.opened start shift kind)
    (leadCheck (modLastSeg (fun g =>
      { g with length := Segment.lengthTo (startAfter s start) (linked.2.getD 0) shift }) linked.1),
      some (linked.2.getD 0)) := if_neg (Nat.not_le.mpr hlen)

/-- A run that reaches the start's block becomes the new last segment, up to its highest label (R12). -/
theorem createSegment_forms (hend : ∀ g, lastSeg s = some g → g.stop ≤ start)
    (hfresh : ∀ d ∈ s.map.slots, d.owner ≠ some (freshId s.map))
    (hlab : ∀ b ∈ l, (slotAt s b.slot).label = some b.label)
    (hreach : ∃ b ∈ l, blockOf ((start : Int) + shift).toNat ≤ b.label) :
    ∃ t b, createSegment start shift kind l s = (t, some b.label) ∧ b ∈ l ∧ (∀ x ∈ l, x.label ≤ b.label) ∧
      t.holdsLabel (freshId s.map) b.label b.slot ∧
      blockOf ((start : Int) + shift).toNat ≤ b.label ∧
      t.map.segs = (closeOpen s).map.segs ++ [{ s.newSegment start shift kind with
        start := start, length := Segment.lengthTo start b.label shift }] := by
  obtain ⟨r, hr, hrl⟩ := hreach
  obtain ⟨m, hm, hmax⟩ := exists_highest hr
  have hstart : startAfter s start = start := by
    unfold startAfter
    split
    · rename_i g hg
      exact Nat.max_eq_left (hend g hg)
    · rfl
  have hto : Touches [.map, .segs, .play, .ctl] s (s.opened start shift kind) :=
    (closeOpen_touches.comp (onMap_touches _ rfl)).mono rfl
  have hoff : (s.opened start shift kind).offers (freshId s.map) m.label l := by
    refine ⟨hmax, fun b hb => ?_, fun b hb hbl k hk ho => ?_⟩
    · rw [hto.slotAt _ rfl, hlab b hb]
      exact ⟨Option.some.inj, congrArg some⟩
    · rw [hto.slotAt _ rfl] at ho
      have hlt : k < s.map.slots.length := lt_of_slotAt_ne_free fun e => by rw [e] at ho; exact nomatch ho
      exact absurd ho (hfresh _ (List.mem_of_getElem? (getElem?_of_lt hlt)))
  obtain ⟨htop, b, hb, hbl, hholds⟩ := hoff.linkOffered
    (low := blockOf ((startAfter s start : Int) + shift).toNat) (by rw [hstart]; exact hrl.trans (hmax r hr))
    ⟨m, hm, rfl⟩
  rw [hstart] at htop hholds
  let low := blockOf ((start : Int) + shift).toNat
  let w := (linkOffered (freshId s.map) low l (s.opened start shift kind)).1
  let extend := fun g : Segment => { g with length := Segment.lengthTo start b.label shift }
  have hw : w.map.segs = (closeOpen s).map.segs ++ [s.newSegment start shift kind] :=
    (linkOffered_touches _ low l).segs rfl
  have hcreate : createSegment start shift kind l s = (leadCheck (modLastSeg extend w), some b.label) := by
    rw [createSegment_eq hlen]
    dsimp only
    rw [hstart, htop, Option.getD_some, ← hbl]
  refine ⟨_, b, hcreate, hb, fun x hx => hbl ▸ hmax x hx, ?_, hbl ▸ hrl.trans (hmax r hr), ?_⟩
  · rw [← hbl] at hholds
    exact hholds.of_sameSlots (.of_touches ((modLastSeg_touches extend).comp leadCheck_touches) rfl)
  · rw [leadCheck_touches.segs rfl, modLastSeg_segs, hw, List.getLast?_concat]
    dsimp only
    rw [List.dropLast_concat]
    show _ ++ [extend (s.newSegment start shift kind)] = _
    have hnew : s.newSegment start shift kind = { s.newSegment start shift kind with start := start } := by
      show s.newSegment start shift kind = { s.newSegment start shift kind with start := start }
      unfold State.newSegment
      rw [hstart]
    rw [hnew]

end

/-! ### Splices (R12, R14, R59) -/

/-- A last segment of which a splice is the continuation is extended by the run (R14). -/
theorem splice_extends {start : Nat} {shift : Int} (hg : lastSeg s = some g) (hm : mergesWith g start shift = true)
    (hlab : ∀ b ∈ l, (slotAt s b.slot).label = some b.label ∧ ownsLabel s g.id b.label b.slot = false)
    (hreach : ∃ b ∈ l, blockOf g.labelledEnd.toNat ≤ b.label) :
    ∃ t b, splice start shift .matched l s = (t, some b.label) ∧ b ∈ l ∧ (∀ x ∈ l, x.label ≤ b.label) ∧
      t.holdsLabel g.id b.label b.slot ∧ blockOf g.labelledEnd.toNat ≤ b.label ∧
      t.map.segs = s.map.segs.dropLast ++ [{ g with
        length := Segment.lengthTo g.start b.label g.shift, isOpen := true }] := by
  obtain ⟨r, hr, hrl⟩ := hreach
  obtain ⟨m, hmem, hmax⟩ := exists_highest hr
  let v := modLastSeg (fun g => { g with isOpen := true }) s
  have hto : Touches [.map, .segs] s v := modLastSeg_touches _
  have hoff : v.offers g.id m.label l := by
    refine ⟨hmax, fun b hb => ?_, fun b hb hbl k hk ho => ?_⟩
    · rw [hto.slotAt _ rfl, (hlab b hb).1]
      exact ⟨Option.some.inj, congrArg some⟩
    · rw [hto.slotAt _ rfl] at ho ⊢
      exact hbl ▸ ownsLabel_eq_false_iff.mp (hlab b hb).2 k hk ho
  obtain ⟨htop, b, hb, hbl, hholds⟩ := hoff.linkOffered (low := blockOf g.labelledEnd.toNat)
    (hrl.trans (hmax r hr)) ⟨m, hmem, rfl⟩
  let w := (linkOffered g.id (blockOf g.labelledEnd.toNat) l v).1
  let extend := fun g : Segment => { g with length := Segment.lengthTo g.start b.label shift }
  have hw : w.map.segs = s.map.segs.dropLast ++ [{ g with isOpen := true }] := by
    rw [(linkOffered_touches _ _ l).segs rfl]
    show (modLastSeg _ s).map.segs = _
    rw [modLastSeg_segs, show s.map.segs.getLast? = some g from hg]
  have hsplice : splice start shift .matched l s = (leadCheck (modLastSeg extend w), some b.label) := by
    unfold splice
    rw [hg]
    dsimp only
    rw [if_pos ⟨rfl, hm⟩, htop, Option.getD_some, ← hbl]
    rfl
  refine ⟨_, b, hsplice, hb, fun x hx => hbl ▸ hmax x hx, ?_, hbl ▸ hrl.trans (hmax r hr), ?_⟩
  · rw [← hbl] at hholds
    exact hholds.of_sameSlots (.of_touches ((modLastSeg_touches extend).comp leadCheck_touches) rfl)
  · have hshift : g.shift = shift := by
      unfold mergesWith at hm
      simp only [Bool.and_eq_true, beq_iff_eq] at hm
      exact hm.1.1
    rw [leadCheck_touches.segs rfl, modLastSeg_segs, hw, List.getLast?_concat]
    dsimp only
    rw [List.dropLast_concat, hshift]

theorem splice_creates {start : Nat} {shift : Int} {kind : HeadKind}
    (h : kind = .matched → ∀ g, lastSeg s = some g → mergesWith g start shift = false) :
    splice start shift kind l s = createSegment start shift kind l s := by
  unfold splice
  split
  · rename_i g hg
    refine if_neg ?_
    rintro ⟨hk, hm⟩
    rw [h hk g hg] at hm
    exact Bool.noConfusion hm
  · rfl

/-- With room in the list, or an extension, a splice is formed (R12, R14). -/
theorem splice_some {start : Nat} {shift : Int} {kind : HeadKind}
    (h : s.map.segs.length < 16 ∨
      (kind = .matched ∧ ∃ g, lastSeg s = some g ∧ mergesWith g start shift = true)) :
    ∃ t top, splice start shift kind l s = (t, some top) := by
  by_cases hm : kind = .matched ∧ ∃ g, lastSeg s = some g ∧ mergesWith g start shift = true
  · obtain ⟨hk, g, hg, hm⟩ := hm
    unfold splice
    rw [hg]
    dsimp only
    rw [if_pos ⟨hk, hm⟩]
    exact ⟨_, _, rfl⟩
  · rw [splice_creates fun hk g hg => Bool.eq_false_iff.mpr fun ht => hm ⟨hk, g, hg, ht⟩,
      createSegment_eq (h.resolve_right hm)]
    exact ⟨_, _, rfl⟩

/-- A full list refuses a splice that extends nothing (R12). -/
theorem splice_full {start : Nat} {shift : Int} {kind : HeadKind} (hlen : 16 ≤ s.map.segs.length)
    (h : kind = .matched → ∀ g, lastSeg s = some g → mergesWith g start shift = false) :
    splice start shift kind l s = (s, none) := by
  rw [splice_creates h]
  exact if_pos hlen

/-! ### A head formed (R47, R59, R62) -/

theorem headFormed_spec (top : Nat) : let t := headFormed top s
    t.rc.expected = some (top + 1) ∧ t.rc.retry = 0 ∧ t.rc.started = true ∧ t.rc.run = [] ∧ t.rc.wait = .none ∧
    (t.rc.phase = .streaming ∨ t.rc.phase = .holding ∨ t.rc.phase = .gapFetch) ∧ t.me = (clearAttempt s).me ∧
    s.sameSlots t := by
  let v := (clearAttempt s).onRc fun r =>
    { r with
      phase := .streaming, expected := some (top + 1), rrq := false, retry := 0, bridgePending := false
      started := true, run := [], wait := .none }
  have hv : headFormed top s = fetchTest (holdTest v) := rfl
  have hslots : s.sameSlots (headFormed top s) := by
    rw [hv]
    exact (State.sameSlots.of_touches (clearAttempt_touches.comp ((onRc_touches _ rfl).comp holdTest_touches))
      rfl).trans sameSlots_fetchTest
  have hhold : (holdTest v).rc = { v.rc with phase := (holdTest v).rc.phase } ∧
      ((holdTest v).rc.phase = .streaming ∨ (holdTest v).rc.phase = .holding) := by
    rw [holdTest_rc]
    split
    · exact ⟨rfl, .inr rfl⟩
    · exact ⟨rfl, .inl rfl⟩
  have hme : (headFormed top s).me = (clearAttempt s).me := by
    rw [hv, fetchTest_touches.me rfl, holdTest_touches.me rfl]
    rfl
  dsimp only
  rw [hme]
  have hrc : (headFormed top s).rc.expected = some (top + 1) ∧ (headFormed top s).rc.retry = 0 ∧
      (headFormed top s).rc.started = true ∧ (headFormed top s).rc.run = [] ∧
      (headFormed top s).rc.wait = .none ∧ ((headFormed top s).rc.phase = .streaming ∨
        (headFormed top s).rc.phase = .holding ∨ (headFormed top s).rc.phase = .gapFetch) := by
    rw [hv]
    rcases fetchTest_cases (s := holdTest v) with h | ⟨e, h⟩
    · rw [h, hhold.1]
      exact ⟨rfl, rfl, rfl, rfl, rfl, hhold.2.imp_right .inl⟩
    · rw [h, fetches_rc, hhold.1]
      exact ⟨rfl, rfl, rfl, rfl, rfl, .inr (.inr rfl)⟩
  obtain ⟨h1, h2, h3, h4, h5, h6⟩ := hrc
  exact ⟨h1, h2, h3, h4, h5, h6, rfl, hslots⟩

theorem raiseFlag_flag (f : EventFlag) : (raiseFlag f s).flag f = true := by
  have hbit : f.bit < 16 := by cases f <;> decide
  show (s.ctl.flags ||| BitVec.twoPow 16 f.bit).getLsbD f.bit = true
  simp [hbit]

theorem bump_count (c : Counter) : (bump c s).count c = s.count c + 1 := by cases c <;> rfl

/-- In `t` a head or splice of `s` has been formed with flag `f` and counter `c`, and the Controller is out of
recovery (R59, R62). -/
def State.headed (s t : State) (f : EventFlag) (c : Counter) : Prop :=
  t.flag f = true ∧ t.count c = s.count c + 1 ∧ t.rc.retry = 0 ∧ t.rc.started = true ∧ t.rc.run = [] ∧
  t.rc.wait = .none ∧ t.mem = s.mem ∧
  (t.rc.phase = .streaming ∨ t.rc.phase = .holding ∨ t.rc.phase = .gapFetch)

section
variable {f : EventFlag} {c : Counter} {top : Nat}

theorem headed_headFormed (h : Touches [.map, .segs, .play, .ctl, .gaps, .slots] s u) :
    s.headed (headFormed top (bump c (raiseFlag f u))) f c ∧
      (headFormed top (bump c (raiseFlag f u))).me = (clearAttempt s).me := by
  obtain ⟨-, hretry, hstarted, hrun, hwait, hphase, hme, -⟩ := headFormed_spec (s := bump c (raiseFlag f u)) top
  have hto := headFormed_touches (s := bump c (raiseFlag f u)) top
  have hbr : Touches [.ctl, .counters] u (bump c (raiseFlag f u)) :=
    ((raiseFlag_touches f).comp (bump_touches c)).mono rfl
  refine ⟨⟨?_, ?_, hretry, hstarted, hrun, hwait, ?_, hphase⟩, ?_⟩
  · rw [hto.flag _ rfl]
    exact raiseFlag_flag f
  · rw [hto.count _ rfl, bump_count, (raiseFlag_touches f).count _ rfl, h.count _ rfl]
  · rw [hto.mem rfl, hbr.mem rfl, h.mem rfl]
  · rw [hme]
    have hm : (bump c (raiseFlag f u)).me = s.me := (hbr.me rfl).trans (h.me rfl)
    unfold clearAttempt State.onMe
    dsimp only
    rw [hm]

/-- What a linked run looks like once its head is formed. -/
theorem linksRun_headFormed {b : StagedBlock} (hb : b ∈ s.rc.run) (hmax : ∀ x ∈ s.rc.run, x.label ≤ b.label)
    (hh : u.holdsLabel g.id b.label b.slot) (hs : (g.stop : Int) + g.shift = (b.label + 1) * 588) :
    s.linksRun (headFormed b.label (bump c (raiseFlag f u))) g := by
  obtain ⟨hexp, -, -, -, -, -, -, hslots⟩ := headFormed_spec (s := bump c (raiseFlag f u)) b.label
  have hbr : Touches [.ctl, .counters] u (bump c (raiseFlag f u)) :=
    ((raiseFlag_touches f).comp (bump_touches c)).mono rfl
  have ht := hh.of_sameSlots ((State.sameSlots.of_touches hbr rfl).trans hslots)
  exact ⟨b, hb, hmax, ht.owned, ht.linked, hs, hexp⟩

theorem headFormed_segs : (headFormed top (bump c (raiseFlag f u))).map.segs = u.map.segs :=
  ((headFormed_touches top).segs rfl).trans (((raiseFlag_touches f).comp (bump_touches c)).segs rfl)

end

/-- A creation from the run forms its segment (R12). -/
theorem formsSegment_createSegment {start : Nat} {shift : Int} {kind : HeadKind} {f : EventFlag} {c : Counter}
    {top : Nat} (hlen : s.map.segs.length < 16) (ho : s.offersSegment start shift)
    (hc : createSegment start shift kind s.rc.run s = (u, some top)) :
    s.formsSegment (headFormed top (bump c (raiseFlag f u))) start shift kind := by
  obtain ⟨hend, hfresh, hlab, hreach⟩ := ho
  obtain ⟨t, b, hc', hb, hmax, hh, hlow, hsegs⟩ :=
    createSegment_forms hlen start shift kind hend hfresh hlab hreach
  rw [hc] at hc'
  obtain ⟨rfl, htop⟩ := Prod.mk.inj hc'
  obtain rfl := Option.some.inj htop
  exact ⟨_, headFormed_segs.trans hsegs, rfl, rfl, rfl, rfl,
    linksRun_headFormed hb hmax hh (stop_of_lengthTo hlow), rfl⟩

/-- A splice that continues the last segment extends it (R14). -/
theorem extendsSegment_splice {start : Nat} {shift : Int} {f : EventFlag} {c : Counter} {top : Nat}
    (hg : lastSeg s = some g) (hm : mergesWith g start shift = true) (ho : s.offersExtension g)
    (hc : splice start shift .matched s.rc.run s = (u, some top)) :
    s.extendsSegment (headFormed top (bump c (raiseFlag f u))) g := by
  obtain ⟨hlab, hreach⟩ := ho
  obtain ⟨t, b, hc', hb, hmax, hh, hlow, hsegs⟩ := splice_extends hg hm hlab hreach
  rw [hc] at hc'
  obtain ⟨rfl, htop⟩ := Prod.mk.inj hc'
  obtain rfl := Option.some.inj htop
  refine ⟨Segment.lengthTo g.start b.label g.shift, headFormed_segs.trans hsegs,
    linksRun_headFormed hb hmax hh (stop_of_lengthTo (le_trans ?_ hlow))⟩
  refine Nat.div_le_div_right (Int.toNat_le_toNat ?_)
  show (g.start : Int) + g.shift ≤ ((g.start + g.length : Nat) : Int) + g.shift
  omega

/-! ### Asking for a splice or a bridge (R59, R62) -/

/-- The head kind of a splice: RESUMED in a recovery that came from a RESUME (R59). -/
def State.spliceKind (s : State) : HeadKind := if s.rc.origin = some .resume then .resumed else .matched

/-- In `t` the splice of `s` with shift `d` has been formed, as a new segment or an extension (R59). -/
def State.spliced (s t : State) (d : Int) : Prop :=
  s.headed t .rejoin .rejoins ∧
  (s.offersSegment s.rc.p d →
    (s.spliceKind = .matched → ∀ g, lastSeg s = some g → mergesWith g s.rc.p d = false) →
    s.formsSegment t s.rc.p d s.spliceKind) ∧
  ∀ g, s.spliceKind = .matched → lastSeg s = some g → mergesWith g s.rc.p d = true →
    s.offersExtension g → s.extendsSegment t g

theorem trySplice_forms {d : Int} (h : s.map.segs.length < 16 ∨
    (s.spliceKind = .matched ∧ ∃ g, lastSeg s = some g ∧ mergesWith g s.rc.p d = true)) :
    s.spliced (trySplice d s) d ∧ (trySplice d s).me = (clearAttempt s).me := by
  obtain ⟨u, top, hs⟩ := splice_some (l := s.rc.run) h
  have hto : Touches [.map, .segs, .play, .ctl, .gaps, .slots] s u := by
    have := splice_touches (s := s) s.rc.p d s.spliceKind s.rc.run
    rwa [hs] at this
  have ht : trySplice d s = headFormed top (bump .rejoins (raiseFlag .rejoin u)) := by
    unfold trySplice
    dsimp only
    rw [show splice s.rc.p d (if s.rc.origin = some .resume then .resumed else .matched) s.rc.run s = _ from hs]
    rfl
  rw [ht]
  obtain ⟨hhead, hme⟩ := headed_headFormed (top := top) (f := .rejoin) (c := .rejoins) hto
  refine ⟨⟨hhead, fun ho hk => ?_, fun g hk hg hm ho => ?_⟩, hme⟩
  · rw [splice_creates hk] at hs
    have hlen : s.map.segs.length < 16 := h.resolve_right fun ⟨hk', g, hg, hm⟩ => by
      rw [hk hk' g hg] at hm
      exact Bool.noConfusion hm
    exact formsSegment_createSegment hlen ho hs
  · rw [hk] at hs
    exact extendsSegment_splice hg hm ho hs

/-- A splice refused by a full list waits, with some slot FREE (R59). -/
theorem trySplice_waits {d : Int} (hlen : 16 ≤ s.map.segs.length) (hf : freeCount s ≠ 0)
    (h : s.spliceKind = .matched → ∀ g, lastSeg s = some g → mergesWith g s.rc.p d = false) :
    trySplice d s = { s with
      map := { s.map with retireReport := false }, rc := { s.rc with wait := .splice d } } := by
  have hs := splice_full (l := s.rc.run) hlen h
  unfold trySplice
  dsimp only
  rw [show splice s.rc.p d (if s.rc.origin = some .resume then .resumed else .matched) s.rc.run s = _ from hs]
  exact if_neg hf

theorem tryBridge_forms {b : StagedBlock} {rest : List StagedBlock} (hlen : s.map.segs.length < 16)
    (hr : s.rc.run = b :: rest) : s.headed (tryBridge s) .bridge .bridges ∧
      (s.offersSegment (max s.rc.p (b.label * 588)) 0 →
        s.formsSegment (tryBridge s) (max s.rc.p (b.label * 588)) 0 .bridged) := by
  let start := max s.rc.p (b.label * 588)
  obtain ⟨u, top, hs⟩ : ∃ u top, createSegment start 0 .bridged s.rc.run s = (u, some top) :=
    ⟨_, _, createSegment_eq hlen start 0 .bridged⟩
  have hto : Touches [.map, .segs, .play, .ctl, .gaps, .slots] s u := by
    have := createSegment_touches (s := s) start 0 .bridged s.rc.run
    rwa [hs] at this
  have ht : tryBridge s = headFormed top (bump .bridges (raiseFlag .bridge u)) := by
    unfold tryBridge
    split
    · rename_i hnil
      rw [hnil] at hr
      exact nomatch hr
    · rename_i x rest' hcons
      obtain ⟨rfl, -⟩ := List.cons.inj (hcons.symm.trans hr)
      rw [show createSegment (max s.rc.p (blockStart x.label)) 0 .bridged s.rc.run s = _ from hs]
      rfl
  rw [ht]
  exact ⟨(headed_headFormed hto).1, fun ho => formsSegment_createSegment hlen ho hs⟩

/-! ### What the formation of a segment depends on -/

/-- `u` is `s` but for the Match Engine and the retirement report. -/
structure State.sameStream (s u : State) : Prop where
  segs : u.map.segs = s.map.segs
  slots : u.map.slots = s.map.slots
  nextId : u.map.nextId = s.map.nextId
  play : u.play = s.play
  rc : u.rc = s.rc
  ctl : u.ctl = s.ctl
  mem : u.mem = s.mem

section
variable (h : s.sameStream u)
include h

theorem State.sameStream.slotAt (k : Nat) : slotAt u k = Machine.slotAt s k :=
  congrArg (List.getD · k SlotDesc.free) h.slots

theorem State.sameStream.freeCount : freeCount u = Machine.freeCount s := congrArg (List.countP _) h.slots

theorem State.sameStream.lastSeg : lastSeg u = Machine.lastSeg s := congrArg List.getLast? h.segs

theorem State.sameStream.freshId : freshId u.map = Machine.freshId s.map := by
  unfold Machine.freshId
  rw [h.segs, h.nextId]

theorem State.sameStream.closeOpen_segs : (closeOpen u).map.segs = (closeOpen s).map.segs := by
  rw [closeOpen_map_segs, closeOpen_map_segs, h.segs, h.play]

theorem State.sameStream.ownsLabel (id label n : Nat) : ownsLabel u id label n = Machine.ownsLabel s id label n := by
  unfold Machine.ownsLabel
  rw [h.slots]

theorem State.sameStream.headed {f : EventFlag} {c : Counter} : u.headed t f c ↔ s.headed t f c := by
  have hc : u.count c = s.count c := by
    unfold State.count
    rw [h.ctl]
  unfold State.headed
  rw [hc, h.mem]

theorem State.sameStream.linksRun : u.linksRun t g ↔ s.linksRun t g := by
  unfold State.linksRun
  rw [h.rc]

theorem State.sameStream.offersSegment {start : Nat} {shift : Int} :
    u.offersSegment start shift ↔ s.offersSegment start shift := by
  unfold State.offersSegment
  simp only [h.rc, h.slots, h.lastSeg, h.freshId, h.slotAt]

theorem State.sameStream.offersExtension : u.offersExtension g ↔ s.offersExtension g := by
  unfold State.offersExtension
  simp only [h.rc, h.slotAt, h.ownsLabel]

theorem State.sameStream.formsSegment {start : Nat} {shift : Int} {kind : HeadKind} :
    u.formsSegment t start shift kind ↔ s.formsSegment t start shift kind := by
  unfold State.formsSegment
  simp only [h.closeOpen_segs, h.freshId, h.linksRun, h.lastSeg]

theorem State.sameStream.extendsSegment : u.extendsSegment t g ↔ s.extendsSegment t g := by
  unfold State.extendsSegment
  simp only [h.segs, h.linksRun]

theorem State.sameStream.spliced {d : Int} : u.spliced t d ↔ s.spliced t d := by
  unfold State.spliced State.spliceKind
  simp only [h.headed, h.rc, h.offersSegment, h.formsSegment, h.lastSeg, h.offersExtension, h.extendsSegment]

end

/-! ### The arbiter settled afterwards (R142) -/

section
variable {d : State} (ht : Touches [.arb] d t)
include ht

theorem State.headed.of_arb {f : EventFlag} {c : Counter} (h : s.headed d f c) : s.headed t f c := by
  unfold State.headed at h ⊢
  rwa [ht.flag _ rfl, ht.count _ rfl, ht.rc rfl, ht.mem rfl]

theorem State.linksRun.of_arb (h : s.linksRun d g) : s.linksRun t g := by
  unfold State.linksRun at h ⊢
  simpa only [ht.slotAt _ rfl, ht.rc rfl] using h

theorem State.formsSegment.of_arb {start : Nat} {shift : Int} {kind : HeadKind}
    (h : s.formsSegment d start shift kind) : s.formsSegment t start shift kind := by
  obtain ⟨g, hsegs, hid, hstart, hshift, hopen, hlinks, hkind⟩ := h
  exact ⟨g, (ht.segs rfl).trans hsegs, hid, hstart, hshift, hopen, hlinks.of_arb ht, hkind⟩

theorem State.spliced.of_arb {x : Int} (h : s.spliced d x) : s.spliced t x := by
  obtain ⟨hhead, hforms, hext⟩ := h
  refine ⟨hhead.of_arb ht, fun ho hk => (hforms ho hk).of_arb ht, fun g hk hg hm ho => ?_⟩
  obtain ⟨n, hsegs, hlinks⟩ := hext g hk hg hm ho
  exact ⟨n, (ht.segs rfl).trans hsegs, hlinks.of_arb ht⟩

end

end

/-- Settles O37: the state after the retirement report is taken differs from `s` in the report alone. -/
theorem retryFormsSegment : Obligations.RetryFormsSegment := by
  intro s hr hrep hlen
  let u := s.onMap fun m => { m with retireReport := false }
  have hu : s.sameStream u := ⟨rfl, rfl, rfl, rfl, rfl, rfl, rfl⟩
  refine ⟨fun d hw hp => ?_, fun b rest hw hp hrun => ?_⟩
  · have he : spliceRetry s = trySplice d u := by
      unfold spliceRetry
      rw [hw]
      exact if_pos ⟨hp, hrep⟩
    have hs : u.spliced (settleArbiter (trySplice d u)) d :=
      (trySplice_forms (s := u) (.inl hlen)).1.of_arb settleArbiter_touches
    obtain ⟨⟨h1, h2, h3, h4, h5, h6, h7, h8⟩, h9, h10⟩ := hu.spliced.mp hs
    exact ⟨_, (next_live hr).trans (congrArg (Host.Outcome.next ∘ settleArbiter) he),
      h1, h2, h3, h4, h5, h6, h7, h8, h9, h10⟩
  · have he : bridgeRetry s = tryBridge u := if_pos ⟨hw, hp, hrep⟩
    obtain ⟨hhead, hforms⟩ := tryBridge_forms (s := u) hlen hrun
    have hhead' : u.headed (settleArbiter (tryBridge u)) .bridge .bridges := hhead.of_arb settleArbiter_touches
    obtain ⟨h1, h2, h3, h4, h5, h6, h7, h8⟩ := hu.headed.mp hhead'
    exact ⟨_, (next_live hr).trans (congrArg (Host.Outcome.next ∘ settleArbiter) he),
      h1, h2, h3, h4, h5, h6, h7, h8,
      fun ho => hu.formsSegment.mp ((hforms (hu.offersSegment.mpr ho)).of_arb settleArbiter_touches)⟩

end Sys2Proof.Machine
end

section
/-! PROOFS. O36: the end of an evaluation. -/
namespace Sys2Proof.Machine

section
variable {s : State} {a : Attempt} {e : Nat}

/-- The Match Engine with its decision taken: idle, the context cleared (R78). -/
def MatchEngine.decided (m : MatchEngine) : MatchEngine := { m with activity := .idle, attempt := none }

theorem clearAttempt_idle (h : s.me.activity = .idle) :
    clearAttempt s = { s with me := { s.me with attempt := none } } := by
  unfold clearAttempt State.onMe
  dsimp only
  rw [if_neg (by rw [h]; decide)]

/-- `s` with the decision of its attempt taken. -/
def State.decided (s : State) : State := { s with me := s.me.decided }

theorem sameStream_decided : s.sameStream s.decided := ⟨rfl, rfl, rfl, rfl, rfl, rfl, rfl⟩

theorem decideMatch_eq (best : Option Best) : decideMatch best { s with me := { s.me with activity := .idle } } =
    match best with
    | some b => if b.mean ≤ s.ctl.params.tol then acceptOffset b.offset s.decided else attemptFail s.decided
    | none => attemptFail s.decided := by
  unfold decideMatch
  rw [clearAttempt_idle (s := { s with me := { s.me with activity := .idle } }) rfl]
  rfl

/-- No candidate, or a mean above TOL (R60, R78). -/
theorem decideMatch_fails {best : Option Best} (h : ∀ b, best = some b → s.ctl.params.tol < b.mean) :
    decideMatch best { s with me := { s.me with activity := .idle } } = attemptFail s.decided := by
  rw [decideMatch_eq]
  cases best with
  | none => rfl
  | some b => exact if_neg (Nat.not_le.mpr (h b rfl))

theorem decideMatch_accepts {b : Best} (h : b.mean ≤ s.ctl.params.tol) :
    decideMatch (some b) { s with me := { s.me with activity := .idle } } = acceptOffset b.offset s.decided := by
  rw [decideMatch_eq]
  exact if_pos h

theorem acceptOffset_holds {d : Int} {r : Nat} (hr : runEnd s.rc.run = some r) (h : (s.rc.p : Int) + d ≤ r) :
    acceptOffset d s = trySplice d s := by
  unfold acceptOffset
  rw [hr]
  exact if_pos (decide_eq_true h)

/-- A run that ends short of P + d waits for the next block (R81). -/
theorem acceptOffset_waits {d : Int} {r : Nat} (hr : runEnd s.rc.run = some r) (h : (r : Int) < s.rc.p + d)
    (hf : freeCount s ≠ 0) : acceptOffset d s = { s with rc := { s.rc with wait := .start d } } := by
  unfold acceptOffset
  rw [hr]
  dsimp only
  rw [if_neg (by rw [decide_eq_true_eq]; exact Int.not_le.mpr h), if_neg hf]
  rfl

/-- The failed decision of R60. -/
theorem attemptFail_decided : let t := attemptFail s.decided
    s.attemptFailed t ∧ t.me.activity = .idle ∧ t.map.segs = s.map.segs ∧ t.mem = s.mem ∧
      ∀ x ∈ s.rc.run, slotAt t x.slot = SlotDesc.free := by
  have hto : Touches [.me, .gaps, .map, .slots, .intake, .rc] s.decided (attemptFail s.decided) := attemptFail_touches
  refine ⟨attemptFailed_attemptFail (s := s.decided), ?_, hto.segs rfl, hto.mem rfl, fun x hx => ?_⟩
  · rw [attemptFail_me, clearAttempt_idle rfl]
    rfl
  · rw [slotAt_attemptFail]
    exact if_pos (List.mem_map_of_mem hx)

/-- What the arbiter's settling leaves: everything but the arbiter. -/
theorem settleArbiter_eq : settleArbiter s = { s with arb := (settleArbiter s).arb } := by
  unfold settleArbiter
  split <;> rfl

section
variable (hr : inReset s = false) (ha : s.me.attempt = some a) (hact : s.me.activity = .scoring)
  (hf : s.me.fetch = []) (he : a.scoredTo = some e)
include hr ha hact hf he

/-- EVALUATION_END goes by whether the evaluation reached the decision point (R73, R78). -/
theorem exec_evaluationEnd : exec .evaluationEnd s = .next (settleArbiter
    (if a.p + a.span ≤ e + 1 then decideMatch a.best { s with me := { s.me with activity := .idle } }
      else tryEvaluate { s with me := { s.me with activity := .idle } })) := by
  have hdone : evaluationDone s = true := by
    unfold evaluationDone
    rw [hact, hf]
    rfl
  refine (next_live hr).trans (congrArg Host.Outcome.next ?_)
  unfold evaluationEnd
  rw [ha]
  dsimp only
  rw [if_pos hdone, he]
  dsimp only [State.onMe]
  rw [ha, hf]
  exact congrArg settleArbiter (if_congr decide_eq_true_iff rfl rfl)

/-- Short of the decision point with the run not grown, the activity goes IDLE (R73). -/
theorem exec_evaluationEnd_idle (hlt : e + 1 < a.p + a.span) (hrun : runEnd s.rc.run = some e) :
    ∃ t, exec .evaluationEnd s = .next t ∧ t = { s with arb := t.arb, me := { s.me with activity := .idle } } := by
  have ht : tryEvaluate { s with me := { s.me with activity := .idle } } =
      { s with me := { s.me with activity := .idle } } := by
    unfold tryEvaluate
    dsimp only
    rw [ha, hrun]
    exact if_neg fun h => h.2.2 he
  refine ⟨_, exec_evaluationEnd hr ha hact hf he, ?_⟩
  rw [if_neg (Nat.not_le.mpr hlt), ht, settleArbiter_eq]

variable (hreach : a.p + a.span ≤ e + 1)
include hreach

theorem exec_evaluationEnd_fails (hb : ∀ b, a.best = some b → s.ctl.params.tol < b.mean) :
    exec .evaluationEnd s = .next (settleArbiter (attemptFail s.decided)) := by
  rw [exec_evaluationEnd hr ha hact hf he, if_pos hreach, decideMatch_fails hb]

theorem exec_evaluationEnd_accepts {b : Best} (hb : a.best = some b) (htol : b.mean ≤ s.ctl.params.tol) :
    exec .evaluationEnd s = .next (settleArbiter (acceptOffset b.offset s.decided)) := by
  rw [exec_evaluationEnd hr ha hact hf he, if_pos hreach, hb, decideMatch_accepts htol]

end

end

/-- Settles O36: the scores, their best, the grant that scores, and the decisions at the end. -/
theorem evaluationEndDecides : Obligations.EvaluationEndDecides := by
  refine ⟨fun k d reference staged => candidateResult_eq k d reference staged,
    fun l => ⟨fun h => (foldl_keepBest_none h).2, fun b h => ?_⟩, fun s a e p h hw hact hat hs hp => ?_,
    fun s a e hr ha hact hf he => ⟨fun hreach hb => ?_, fun hlt hrun => ?_, fun b r hreach hb htol hrun => ?_⟩⟩
  · obtain ⟨hmem, -, hall⟩ := foldl_keepBest_some h
    exact ⟨hmem.resolve_left nofun, hall⟩
  · intro read hr
    refine ⟨_, memoryGrant_scores h hw hact hat hs hp hr, rfl, fun hno => ?_, fun h1 h2 => ?_⟩
    · exact if_neg fun hc => by omega
    · dsimp only
      rw [if_pos ⟨h1, by omega⟩]
      refine ⟨?_, fun j x b hj hx hb => getElem?_stagedItems hj hx hb⟩
      unfold stagedItems
      rw [List.length_map, List.length_range]
  · obtain ⟨⟨h1, h2, h3, -, h5, h6, h7, h8⟩, hidle, hsegs, hmem, hslots⟩ := attemptFail_decided (s := s)
    refine ⟨_, exec_evaluationEnd_fails hr ha hact hf he hreach hb, ?_⟩
    rw [settleArbiter_touches.me rfl, settleArbiter_touches.rc rfl, settleArbiter_touches.segs rfl,
      settleArbiter_touches.mem rfl]
    refine ⟨h1, hidle, h2, h3, h5, h6, hsegs, hmem, fun x hx _ => ?_, h7, h8⟩
    rw [settleArbiter_touches.slotAt _ rfl]
    exact hslots x hx
  · exact exec_evaluationEnd_idle hr ha hact hf he hlt hrun
  · intro kind decided
    have hexec := exec_evaluationEnd_accepts hr ha hact hf he hreach hb htol
    refine ⟨fun hholds hroom => ?_, fun hholds hlen hfree hno => ?_, fun hshort hfree => ?_⟩
    · rw [acceptOffset_holds (s := s.decided) hrun hholds] at hexec
      obtain ⟨hspl, hme⟩ := trySplice_forms (s := s.decided) (d := b.offset) hroom
      have hs : s.decided.spliced (settleArbiter (trySplice b.offset s.decided)) b.offset :=
        hspl.of_arb settleArbiter_touches
      obtain ⟨⟨h1, h2, h3, h4, h5, h6, h7, h8⟩, h9, h10⟩ := sameStream_decided.spliced.mp hs
      rw [clearAttempt_idle rfl] at hme
      refine ⟨_, hexec, ?_, ?_, h1, h2, h3, h4, h5, h6, h7, h8, h9, h10⟩
      · rw [settleArbiter_touches.me rfl, hme]
      · rw [settleArbiter_touches.me rfl, hme]
        rfl
    · rw [acceptOffset_holds (s := s.decided) hrun hholds,
        trySplice_waits (s := s.decided) (le_of_eq hlen.symm) hfree hno] at hexec
      refine ⟨_, hexec, ?_⟩
      rw [settleArbiter_eq]
      rfl
    · rw [acceptOffset_waits (s := s.decided) hrun hshort hfree] at hexec
      refine ⟨_, hexec, ?_⟩
      rw [settleArbiter_eq]
      rfl

end Sys2Proof.Machine
end

section
/-! PROOFS. O47: the flush of a command, a pending APPLY at it, and START. -/
namespace Sys2Proof.Machine

section
variable {s u : State}

/-! ### A lead check that raises nothing (R21) -/

/-- The LEAD_LOW latch is set wherever lead is below LOW_WATER. -/
def State.leadSettled (s : State) : Prop := s.lead < s.ctl.params.lowWater * 588 → s.map.below = true

theorem leadCheck_of_settled (h : s.leadSettled) :
    leadCheck s = s.onMap fun m => { m with below := decide (s.lead < s.ctl.params.lowWater * 588) } := by
  have hs : ∀ b, s.map.below = b → s = s.onMap fun m => { m with below := b } := fun b hb => by
    show s = { s with map := { s.map with below := b } }
    rw [← hb]
  unfold leadCheck
  by_cases hl : s.lead < s.ctl.params.lowWater * 588
  · rw [if_pos (show s.lead < s.ctl.params.lowWater * Config.frames from hl), if_pos (h hl), decide_eq_true hl]
    exact hs true (h hl)
  · rw [if_neg (show ¬ s.lead < s.ctl.params.lowWater * Config.frames from hl), decide_eq_false hl]

/-! ### The flush (R22, R37, R68, R79, R107, R127) -/

/-- The state that the blocks' parts of a flush leave. -/
def State.flushed (s : State) : State :=
  flushMap (flushPlay (flushRecovery (flushGaps (flushIntake (flushMatch s)))))

theorem flush_eq : flush s = applyIfPending (settleArbiter s.flushed) := rfl

theorem flushMap_touches : Touches [.map, .segs, .slots] s (flushMap s) := fun b hb => by
  cases b <;> first | rfl | exact List.length_replicate | exact Bool.noConfusion hb

theorem flushed_touches : Touches [.map, .segs, .slots, .play, .rc, .gaps, .intake, .hold, .me] s s.flushed :=
  (((((onMe_touches _).comp (onIntake_touches_hold _)).comp (onGaps_touches _)).comp (onRc_touches _ rfl)).comp
    ((onPlay_touches _).comp flushMap_touches)).mono rfl

/-- Nothing of a stream is left: no segment, no block in the Intake Unit, no beat held, the Controller PARKED, the
Gap Table empty, and the lead check settled. -/
structure State.blank (s : State) : Prop where
  segs : s.map.segs = []
  ptr : s.map.allocPtr = 0
  ids : s.map.nextId = 0
  slot : s.intake.slot = none
  intakePhase : s.intake.phase = .none
  hold : s.intake.hold = false
  held : s.intake.held = []
  phase : s.rc.phase = .parked
  entries : s.gaps.entries = []
  fetch : s.gaps.fetch = none
  activity : s.me.activity = .idle
  settled : s.leadSettled

theorem lead_of_segs_nil (h : s.map.segs = []) : s.lead = 0 := by
  unfold State.lead
  rw [h]
  rfl

theorem blank_flushed (h : s.intake.held = []) : s.flushed.blank :=
  ⟨rfl, rfl, rfl, rfl, rfl, rfl, h, rfl, rfl, rfl, rfl, fun _ => rfl⟩

theorem State.blank.settleArbiter (h : s.blank) : (settleArbiter s).blank := by
  obtain ⟨h1, h2, h3, h4, h5, h6, h7, h8, h9, h10, h11, h12⟩ := h
  rw [settleArbiter_eq]
  exact ⟨h1, h2, h3, h4, h5, h6, h7, h8, h9, h10, h11, h12⟩

theorem State.blank.of_touches (h : s.blank) (ht : Touches [.ctl] s u) : u.blank := by
  obtain ⟨h1, h2, h3, h4, h5, h6, h7, h8, h9, h10, h11, h12⟩ := h
  refine ⟨?_, ?_, ?_, ?_, ?_, ?_, ?_, ?_, ?_, ?_, ?_, fun hl => ?_⟩
  any_goals first | rwa [ht.map rfl] | rwa [ht.intake rfl] | rwa [ht.rc rfl] | rwa [ht.gaps rfl] | rwa [ht.me rfl]
  rw [ht.lead rfl rfl, ht.params rfl] at hl
  rw [ht.map rfl]
  exact h12 hl

/-! ### A pending APPLY in PARKED (R173, R177, R178) -/

section
variable {old new : Params}

theorem rebuildRing_touches : Touches [.map, .slots, .ring] s (rebuildRing old new s) := by
  unfold rebuildRing
  split
  · exact .refl _ s
  · exact fun b hb => by cases b <;> first | rfl | exact Bool.noConfusion hb

theorem State.blank.rebuildRing (h : s.blank) : (rebuildRing old new s).blank := by
  unfold Machine.rebuildRing
  split
  · exact h
  · obtain ⟨h1, h2, h3, h4, h5, h6, h7, h8, h9, h10, h11, h12⟩ := h
    exact ⟨h1, rfl, h3, h4, h5, h6, h7, h8, h9, h10, h11, h12⟩

theorem lowerRetries_touches (limit : Nat) : Touches [.rc, .gaps] s (lowerRetries limit s) :=
  (onRc_touches _ rfl).comp (onGaps_touches _)

theorem State.blank.lowerRetries (h : s.blank) (limit : Nat) : (lowerRetries limit s).blank := by
  obtain ⟨h1, h2, h3, h4, h5, h6, h7, h8, h9, h10, h11, h12⟩ := h
  refine ⟨h1, h2, h3, h4, h5, h6, h7, h8, ?_, h10, h11, h12⟩
  show s.gaps.entries.map _ = []
  rw [h9]
  rfl

theorem State.blank.leadCheck (h : s.blank) : (leadCheck s).blank ∧ Touches [.map] s (leadCheck s) := by
  rw [leadCheck_of_settled h.settled]
  refine ⟨?_, onMap_touches_rest _ rfl rfl⟩
  obtain ⟨h1, h2, h3, h4, h5, h6, h7, h8, h9, h10, h11, -⟩ := h
  exact ⟨h1, h2, h3, h4, h5, h6, h7, h8, h9, h10, h11, fun hl => decide_eq_true hl⟩

theorem State.blank.newHoldMargin (h : s.blank) : newHoldMargin s = s := by
  unfold Machine.newHoldMargin
  rw [if_neg (by rw [h.hold]; decide)]
  exact holdTest_stands (.inl (by rw [h.phase]; decide))

theorem State.blank.fetchTest (h : s.blank) : fetchTest s = s :=
  fetchTest_stands_of_phase (by rw [h.phase]; decide)

/-- What a new parameter set changes with a blank stream: the ring, LEAD_LOW's latch, and retry counts. -/
theorem State.blank.applyEffects (h : s.blank) : (applyEffects old new s).blank ∧
    Touches [.rc, .gaps, .map, .slots, .ring] s (applyEffects old new s) ∧
    (old.ringBase ≠ new.ringBase ∨ old.ringSlots ≠ new.ringSlots →
      (applyEffects old new s).map.slots = List.replicate new.ringSlots SlotDesc.free) := by
  let a := Machine.lowerRetries new.retryLimit (Machine.rebuildRing old new s)
  let b := if old.lowWater = new.lowWater then a else Machine.leadCheck a
  have ha : a.blank := h.rebuildRing.lowerRetries _
  have hat : Touches [.map, .slots, .ring, .rc, .gaps] s a := rebuildRing_touches.comp (lowerRetries_touches _)
  have hb : b.blank ∧ Touches [.map] a b := by
    show (if old.lowWater = new.lowWater then a else Machine.leadCheck a).blank ∧
      Touches [.map] a (if old.lowWater = new.lowWater then a else Machine.leadCheck a)
    split
    · exact ⟨ha, .refl _ a⟩
    · exact ha.leadCheck
  have he : Machine.applyEffects old new s = b := by
    unfold Machine.applyEffects
    dsimp only
    rw [show (if old.lowWater = new.lowWater then a else Machine.leadCheck a) = b from rfl, hb.1.newHoldMargin,
      ite_self, hb.1.fetchTest, ite_self]
  rw [he]
  refine ⟨hb.1, (hat.comp hb.2).mono rfl, fun hne => ?_⟩
  rw [hb.2.slots rfl, (lowerRetries_touches _).slots rfl]
  unfold Machine.rebuildRing
  rw [if_neg fun ⟨h1, h2⟩ => hne.elim (· h1) (· h2)]
  rfl

theorem completion_touches (code : Word) (r : CmdResult) : Touches [.ctl] s (completion code r s) := fun b hb => by
  cases b <;> first | rfl | exact Bool.noConfusion hb

theorem flag_of_or {k f : BitVec 16} {i : Nat} (h : k.getLsbD i = true) : (k ||| f).getLsbD i = true := by
  rw [BitVec.getLsbD_or, h, Bool.true_or]

end

theorem completion_ctl (code : Word) (r : CmdResult) : (completion code r s).ctl =
    { s.ctl with lastCode := code, lastResult := r, flags := s.ctl.flags ||| BitVec.twoPow 16 12 } := rfl

theorem completion_flag (code : Word) (r : CmdResult) : (completion code r s).flag .cmdDone = true :=
  raiseFlag_flag .cmdDone

/-- An APPLY that passes both checks of R178. -/
theorem applyNow_passes (h : applyPasses s = true) : applyNow s = completion codeApply .done
    (applyEffects s.ctl.params (clampParams s.ctl.staged) (s.onCtl fun c =>
      { c with applyPending := false, params := clampParams s.ctl.staged, applyInd := .done })) :=
  if_pos h

/-- An APPLY refused by R178. -/
theorem applyNow_refused (h : applyPasses s = false) : applyNow s = completion codeApply .refusedConfig
    (raiseFlag .config (s.onCtl fun c => { c with applyPending := false, applyInd := .refusedConfig })) :=
  if_neg (by show ¬ applyPasses s = true; rw [h]; decide)

theorem applyPasses_parked (h : s.rc.phase = .parked) :
    applyPasses s = placementOk s.router.pblk (clampParams s.ctl.staged) := by
  unfold applyPasses
  rw [h]
  simp

/-- A pending APPLY takes effect with a blank stream, in PARKED (R173, R177, R178). -/
theorem applyNow_blank (h : s.blank) (hb : s.map.below = true) :
    (applyNow s).blank ∧ s.applyTookEffect (applyNow s) (applyPasses s) ∧ (applyNow s).mem = s.mem ∧
    (applyPasses s = true →
      s.ctl.params.ringBase ≠ (clampParams s.ctl.staged).ringBase ∨
        s.ctl.params.ringSlots ≠ (clampParams s.ctl.staged).ringSlots →
      (applyNow s).map.slots = List.replicate (clampParams s.ctl.staged).ringSlots SlotDesc.free) := by
  obtain ⟨h1, h2, h3, h4, h5, h6, h7, h8, h9, h10, h11, -⟩ := h
  have hctl : ∀ f : Control → Control, (s.onCtl f).blank := fun f =>
    ⟨h1, h2, h3, h4, h5, h6, h7, h8, h9, h10, h11, fun _ => hb⟩
  cases hp : applyPasses s with
  | true =>
    rw [applyNow_passes hp]
    obtain ⟨hblank, hto, hslots⟩ := (hctl fun c =>
      { c with applyPending := false, params := clampParams s.ctl.staged, applyInd := .done }).applyEffects
        (old := s.ctl.params) (new := clampParams s.ctl.staged)
    generalize applyEffects s.ctl.params (clampParams s.ctl.staged) (s.onCtl fun c =>
      { c with applyPending := false, params := clampParams s.ctl.staged, applyInd := .done }) = v at hblank hto hslots
    have hc := completion_touches (s := v) codeApply .done
    refine ⟨hblank.of_touches hc, ?_, (hc.mem rfl).trans (hto.mem rfl), fun _ hne => (hc.slots rfl).trans (hslots hne)⟩
    unfold State.applyTookEffect
    rw [completion_flag, completion_ctl, hto.ctl rfl]
    exact ⟨rfl, rfl, rfl, fun _ => ⟨rfl, rfl⟩, nofun⟩
  | false =>
    rw [applyNow_refused hp]
    have hblank := hctl fun c => { c with applyPending := false, applyInd := .refusedConfig }
    have hconfig := raiseFlag_flag (s := s.onCtl fun c =>
      { c with applyPending := false, applyInd := .refusedConfig }) .config
    have hr := raiseFlag_touches (s := s.onCtl fun c =>
      { c with applyPending := false, applyInd := .refusedConfig }) .config
    have hrc : (raiseFlag .config (s.onCtl fun c =>
      { c with applyPending := false, applyInd := .refusedConfig })).ctl = { s.ctl with
        applyPending := false, applyInd := .refusedConfig, flags := s.ctl.flags ||| BitVec.twoPow 16 14 } := rfl
    have hmem : (raiseFlag .config (s.onCtl fun c =>
      { c with applyPending := false, applyInd := .refusedConfig })).mem = s.mem := rfl
    generalize raiseFlag .config (s.onCtl fun c =>
      { c with applyPending := false, applyInd := .refusedConfig }) = v at hr hconfig hrc hmem
    have hc := completion_touches (s := v) codeApply .refusedConfig
    refine ⟨(hblank.of_touches hr).of_touches hc, ?_, (hc.mem rfl).trans hmem, nofun⟩
    have hflag : (completion codeApply .refusedConfig v).flag .config = true := flag_of_or hconfig
    unfold State.applyTookEffect
    rw [completion_flag, hflag, completion_ctl, hrc]
    exact ⟨rfl, rfl, rfl, nofun, fun _ => ⟨rfl, rfl, rfl⟩⟩

/-! ### START (R46, R110, R111, R176) -/

theorem markStale_of_slot_none (h : s.intake.slot = none) :
    markStale s = s.onIntake fun i => { i with staleHeld := (markStale s).intake.staleHeld } := by
  unfold markStale
  rw [h]
  dsimp only
  split <;> rfl

theorem publish_map_of_slot_none (h : s.intake.slot = none) (label : Nat) (loads : Bool) :
    (publish label loads s).map = s.map := by
  show (markStale s).map = s.map
  rw [markStale_of_slot_none h]
  rfl

/-- What a start at `x` makes of the recovery registers (R46, R54). -/
def Recovery.starts (r : Recovery) (x : Nat) (kind : HeadKind) : Recovery :=
  { r with
    phase := .starting, startFrame := x, startKind := kind, origin := none, cause := none, started := false
    target := x / 588, rrq := true, rrqEdges := r.rrqEdges + 1 }

/-- What a start at `x` makes of the Play Server (R110, R111). -/
def PlayServer.startsAt (p : PlayServer) (x : Nat) : PlayServer :=
  { p with cursor := x, history := [], run := .none, underrun := false, mode := .playing }

/-- A command's completion with DONE in the Control Unit (R175). -/
def Control.completes (c : Control) (code : Word) : Control :=
  { c with busy := false, lastCode := code, lastResult := .done, flags := c.flags ||| BitVec.twoPow 16 12 }

theorem beginStart_rc (x : Nat) (kind : HeadKind) : (beginStart x kind s).rc = s.rc.starts x kind := publish_rc _ _

theorem beginStart_touches (x : Nat) (kind : HeadKind) :
    Touches [.map, .slots, .intake, .rc] s (beginStart x kind s) :=
  ((onRc_touches _ rfl).comp (publish_touches _ _)).mono rfl

theorem beginStart_intake (x : Nat) (kind : HeadKind) :
    (beginStart x kind s).intake = { s.intake with staleHeld := (beginStart x kind s).intake.staleHeld } :=
  publish_intake _ _

theorem beginStart_map (h : s.intake.slot = none) (x : Nat) (kind : HeadKind) : (beginStart x kind s).map = s.map :=
  publish_map_of_slot_none (s := s.onRc _) h _ _

/-- The cursor set and PLAYING, with no segment and the lead check settled (R110, R111). -/
theorem playFrom_of_segs_nil (x : Nat) (h : s.map.segs = []) (hs : s.leadSettled) : playFrom x s = { s with
    play := s.play.startsAt x
    map := { s.map with below := decide (0 < s.ctl.params.lowWater * 588) } } := by
  let c := s.onPlay fun q => { q with cursor := x, history := [], run := .none, underrun := false }
  have hlead : c.lead = 0 := lead_of_segs_nil (s := c) h
  have hsettled : c.leadSettled := fun hl => hs (by rw [lead_of_segs_nil h]; rw [hlead] at hl; exact hl)
  have hcheck := leadCheck_of_settled hsettled
  rw [hlead] at hcheck
  unfold playFrom setCursor
  rw [show leadCheck (s.onPlay fun q => { q with cursor := x, history := [], run := .none, underrun := false }) = _
    from hcheck]
  rfl

theorem complete_touches (code : Word) (r : CmdResult) : Touches [.ctl] s (complete code r s) := fun b hb => by
  cases b <;> first | rfl | exact Bool.noConfusion hb

theorem complete_ctl (code : Word) : (complete code .done s).ctl = s.ctl.completes code := rfl

/-- A start with a blank stream. -/
theorem started_blank (h : s.blank) (code : Word) (x : Nat) (kind : HeadKind) :
    ∃ w, started code (playFrom x (beginStart x kind s)) = w ∧
      Touches [.intake, .rc, .play, .map, .slots, .ctl, .router] s w ∧ w.rc = s.rc.starts x kind ∧
      w.play = s.play.startsAt x ∧ w.map = { s.map with below := decide (0 < s.ctl.params.lowWater * 588) } ∧
      w.intake = { s.intake with staleHeld := w.intake.staleHeld } ∧ w.ctl = s.ctl.completes code := by
  have hb := beginStart_touches (s := s) x kind
  have hmap := beginStart_map h.slot x kind
  have hin := beginStart_intake (s := s) x kind
  have hrc := beginStart_rc (s := s) x kind
  generalize beginStart x kind s = b at hb hmap hin hrc
  have hsettled : b.leadSettled := fun hl => by
    rw [lead_of_segs_nil (by rw [hmap]; exact h.segs), hb.ctl rfl] at hl
    rw [hmap]
    exact h.settled (by rw [lead_of_segs_nil h.segs]; exact hl)
  have hplay := playFrom_of_segs_nil x (by rw [hmap]; exact h.segs) hsettled
  have hpt : Touches [.play, .map] b (playFrom x b) := by
    rw [hplay]
    exact fun c hc => by cases c <;> first | rfl | exact Bool.noConfusion hc
  have hq : started code (playFrom x b) = finishD (complete code .done (playFrom x b)) := by
    refine drainHeld_of_held_nil ?_
    rw [(complete_touches _ _).intake rfl, hpt.intake rfl, hin]
    exact h.held
  refine ⟨_, hq, ((hb.comp hpt).comp ((complete_touches _ _).comp finishD_touches)).mono rfl, ?_, ?_, ?_, ?_, ?_⟩
  · rw [finishD_touches.rc rfl, (complete_touches _ _).rc rfl, hpt.rc rfl, hrc]
  · rw [finishD_touches.play rfl, (complete_touches _ _).play rfl, hplay, ← hb.play rfl]
  · rw [finishD_touches.map rfl, (complete_touches _ _).map rfl, hplay]
    dsimp only
    rw [hmap, hb.ctl rfl]
  · rw [finishD_touches.intake rfl, (complete_touches _ _).intake rfl, hpt.intake rfl, hin]
  · rw [finishD_touches.ctl rfl, complete_ctl, hpt.ctl rfl, hb.ctl rfl]

/-! ### The command row (R174 to R176) -/

/-- START taken in IDLE with a disc loaded flushes and starts (R46, R176). -/
theorem exec_start {x : Word} (h : s.idle) (hl : s.rc.loaded.isSome = true) (he : s.eject = none)
    (hp : s.rc.phase ≠ .parked) : ∃ a, exec (.start x) s = .next (settleArbiter (started codeStart
      (playFrom (min x.toNat 264599999) (beginStart (min x.toNat 264599999) .start (flush { s with
        arb := a, ctl := { s.ctl with arg0 := x, latch := 0, zeroWrite := true, busy := true } }))))) := by
  let u := takeLatch (settleArbiter (setLatch codeStart (s.onCtl (setArguments [x]))))
  refine ⟨u.arb, ?_⟩
  have hu : u = { s with
      arb := u.arb, ctl := { s.ctl with arg0 := x, latch := 0, zeroWrite := true, busy := true } } := by
    show takeLatch (settleArbiter (setLatch codeStart (s.onCtl (setArguments [x])))) = _
    rw [settleArbiter_eq]
    rfl
  refine (next_live h.1).trans (congrArg Host.Outcome.next ?_)
  unfold issue
  rw [if_neg (by rw [h.2]; decide)]
  show settleArbiter (startTaken (frameArgument x) u) = _
  rw [← hu]
  unfold startTaken
  have hul : ¬ (u.rc.loaded = none ∨ u.eject.isSome = true) := by
    rw [hu]
    rintro (h | h)
    · rw [show s.rc.loaded = none from h] at hl
      exact Bool.noConfusion hl
    · rw [show s.eject = none from he] at h
      exact Bool.noConfusion h
  have hup : u.rc.phase ≠ .parked := by
    rw [hu]
    exact hp
  rw [if_neg hul]
  unfold flushStream
  rw [if_neg hup]
  rfl

end

/-- Settles O47: the flush leaves a blank stream, in which a pending APPLY takes effect, and START starts. -/
theorem startFlushesAndStarts : Obligations.StartFlushesAndStarts := by
  intro x s h hl he hp hheld
  obtain ⟨a, hexec⟩ := exec_start (x := x) h hl he hp
  let u : State :=
    { s with arb := a, ctl := { s.ctl with arg0 := x, latch := 0, zeroWrite := true, busy := true } }
  have hblank : (settleArbiter u.flushed).blank := State.blank.settleArbiter (blank_flushed (s := u) hheld)
  have hv : Touches [.map, .segs, .slots, .play, .rc, .gaps, .intake, .hold, .me, .arb] u
      (settleArbiter u.flushed) := flushed_touches.comp settleArbiter_touches
  have hvmap : (settleArbiter u.flushed).map = StreamMap.reset s.map.slots.length := settleArbiter_touches.map rfl
  have hvrc : (settleArbiter u.flushed).rc = (flushRecovery s).rc := settleArbiter_touches.rc rfl
  have hvplay : (settleArbiter u.flushed).play = (flushPlay s).play := settleArbiter_touches.play rfl
  have hflush : flush u = applyIfPending (settleArbiter u.flushed) := flush_eq
  generalize settleArbiter u.flushed = v at hblank hv hvmap hvrc hvplay hflush
  have hvctl : v.ctl = u.ctl := hv.ctl rfl
  refine ⟨fun hpend => ?_, fun hpend => ?_⟩
  · have hf : flush u = applyNow v := by
      rw [hflush]
      exact if_pos (by rw [hvctl]; exact hpend)
    obtain ⟨hyblank, hytook, hymem, hyslots⟩ := applyNow_blank hblank (by rw [hvmap]; rfl)
    have hpass : applyPasses v = placementOk s.router.pblk (clampParams s.ctl.staged) := by
      rw [applyPasses_parked hblank.phase, hvctl, hv.router rfl]
    rw [hpass, hvctl] at hyslots
    rw [hpass] at hytook
    generalize applyNow v = y at hf hyblank hytook hymem hyslots
    obtain ⟨w, hw, hto, hrc, hplay, hmap, -, hctl⟩ :=
      started_blank hyblank codeStart (min x.toNat 264599999) .start
    have hexec' : exec (.start x) s = .next (settleArbiter w) := by rw [← hw, ← hf]; exact hexec
    refine ⟨_, hexec', ?_⟩
    have htctl : (settleArbiter w).ctl = y.ctl.completes codeStart := (settleArbiter_touches.ctl rfl).trans hctl
    rw [settleArbiter_touches.rc rfl, hrc, settleArbiter_touches.play rfl, hplay, settleArbiter_touches.map rfl, hmap,
      htctl, settleArbiter_touches.mem rfl, hto.mem rfl, hymem, hv.mem rfl]
    refine ⟨rfl, rfl, rfl, hyblank.segs, rfl, rfl, rfl, rfl, ?_, hyslots⟩
    obtain ⟨h1, h2, -, h4, h5⟩ := hytook
    rw [hvctl] at h2 h4 h5
    have hcfg : y.flag .config = true → (settleArbiter w).flag .config = true := fun hc => by
      unfold State.flag
      rw [htctl]
      exact flag_of_or hc
    have hdone : (settleArbiter w).flag .cmdDone = true := by
      unfold State.flag
      rw [htctl]
      exact raiseFlag_flag (s := y) .cmdDone
    refine ⟨by rw [htctl]; exact h1, by rw [htctl]; exact h2, hdone, fun hp => ?_, fun hp => ?_⟩
    · rw [htctl]
      exact h4 hp
    · rw [htctl]
      obtain ⟨hpar, hind, hconf⟩ := h5 hp
      exact ⟨hpar, hind, hcfg hconf⟩
  · have hf : flush u = v := by
      rw [hflush]
      exact if_neg (by rw [hvctl]; show ¬ s.ctl.applyPending = true; rw [hpend]; decide)
    obtain ⟨w, hw, hto, hrc, hplay, hmap, hin, hctl⟩ :=
      started_blank hblank codeStart (min x.toNat 264599999) .start
    have hexec' : exec (.start x) s = .next (settleArbiter w) := by rw [← hw, ← hf]; exact hexec
    have hall : Touches [.intake, .rc, .play, .map, .slots, .ctl, .router, .arb] v (settleArbiter w) :=
      hto.comp settleArbiter_touches
    have htmap : (settleArbiter w).map = { v.map with below := decide (0 < v.ctl.params.lowWater * 588) } :=
      (settleArbiter_touches.map rfl).trans hmap
    have hlead : (settleArbiter w).lead = 0 := lead_of_segs_nil (by rw [htmap]; exact hblank.segs)
    refine ⟨_, hexec', ?_⟩
    rw [hlead, settleArbiter_touches.rc rfl, hrc, hvrc, settleArbiter_touches.play rfl, hplay, hvplay, htmap, hvmap,
      settleArbiter_touches.intake rfl, hin, settleArbiter_touches.ctl rfl, hctl, hvctl, hall.gaps rfl, hall.me rfl,
      hall.quality rfl, hv.quality rfl, hall.mem rfl, hv.mem rfl, hall.lines rfl, hv.lines rfl]
    refine ⟨rfl, rfl, rfl, rfl, rfl, rfl, rfl, rfl, rfl, rfl, rfl, rfl, rfl, rfl, rfl, rfl, rfl, rfl, rfl, rfl,
      rfl, rfl, rfl, fun hlow => ?_, hblank.intakePhase, hblank.hold, hblank.entries, hblank.fetch, hblank.activity,
      rfl, rfl, rfl, (hall .resume rfl).trans (hv .resume rfl), rfl, (hall .supply rfl).trans (hv .supply rfl),
      (hall .clock rfl).trans (hv .clock rfl)⟩
    exact decide_eq_true (Nat.mul_pos hlow (by decide))

end Sys2Proof.Machine
end

section
/-! PROOFS. Laws of a serve: what it plans, what its parts leave unchanged, and what a pending APPLY does after it
(O43). -/
namespace Sys2Proof.Machine

section
variable {s t u : State} {g : Segment} {pos n i : Nat}

/-! ### The Control Unit but for its flags -/

/-- The Control Unit of `t` is that of `s` but for the event flags. -/
def State.flagsOnly (s t : State) : Prop := t.ctl = { s.ctl with flags := t.ctl.flags }

theorem State.flagsOnly.trans (h : s.flagsOnly t) (h' : t.flagsOnly u) : s.flagsOnly u := by
  unfold State.flagsOnly at *
  rw [h'.trans (by rw [h])]

theorem State.flagsOnly.of_touches {l : List Part} (h : Touches l s t) (hl : l.contains .ctl = false) :
    s.flagsOnly t := by
  unfold State.flagsOnly
  rw [h.ctl hl]

theorem flagsOnly_raiseFlag (f : EventFlag) : s.flagsOnly (raiseFlag f s) := rfl

theorem flagsOnly_leadCheck : s.flagsOnly (leadCheck s) := by
  unfold leadCheck
  split
  · split
    · rfl
    · exact flagsOnly_raiseFlag .leadLow
  · rfl

/-- A lead check lowers no flag (R21). -/
theorem leadCheck_flag {f : EventFlag} (h : s.flag f = true) : (leadCheck s).flag f = true := by
  unfold leadCheck
  split
  · split
    · exact h
    · exact flag_of_or h
  · exact h

theorem flagsOnly_closeOpen : s.flagsOnly (closeOpen s) := by
  unfold closeOpen
  split
  · exact (State.flagsOnly.of_touches ((modLastSeg_touches _).comp retireFront_touches) rfl).trans flagsOnly_leadCheck
  · rfl

theorem flagsOnly_holdReturn : s.flagsOnly (holdReturn s) :=
  ((State.flagsOnly.of_touches (onIntake_touches_hold _) rfl).trans flagsOnly_closeOpen).trans
    (.of_touches ((onRc_touches _ rfl).comp (startCapture_touches true)) rfl)

/-! ### A FREE slot count report (R38, R39) -/

/-- Below the release level a FREE slot count report makes the HOLD test alone. -/
theorem freeReport_eq_holdTest (h : s.intake.hold = true → freeCount s < s.ctl.params.holdMargin + 8) :
    freeReport s = holdTest s := by
  refine holdRelease_stands fun hh => ?_
  rw [holdTest_intake] at hh
  rw [holdTest_touches.freeCount rfl, holdTest_touches.ctl rfl]
  split at hh
  case isTrue hc => exact Nat.lt_of_le_of_lt hc.2.2 (Nat.lt_add_of_pos_right (by decide))
  case isFalse => exact h hh

theorem holdTest_rc_eq (h : s.rc.phase = .streaming ∨ s.rc.phase = .holding) :
    (holdTest s).rc = { s.rc with phase := (holdTest s).rc.phase } ∧
      ((holdTest s).rc.phase = .streaming ∨ (holdTest s).rc.phase = .holding) := by
  rw [holdTest_rc]
  split
  · exact ⟨rfl, .inr rfl⟩
  · exact ⟨rfl, h⟩

theorem freeCount_setSlot_free_le (n : Nat) : freeCount (setSlot n SlotDesc.free s) ≤ freeCount s + 1 := by
  rcases Nat.lt_or_ge n s.map.slots.length with h | h
  · have := freeCount_setSlot SlotDesc.free h
    rw [if_pos (show SlotDesc.free.state = .free from rfl)] at this
    exact this ▸ Nat.le_add_right _ _
  · refine Nat.le_succ_of_le (le_of_eq ?_)
    show (s.map.slots.set n SlotDesc.free).countP _ = _
    rw [List.set_eq_of_length_le h]
    rfl

/-! ### The slot that the cursor passes (R17, R94) -/

/-- Is `pos` the highest position of `g` that maps into slot `n`? (R17) -/
def State.lastUse (s : State) (g : Segment) (pos n : Nat) : Prop := (pos : Int) = highestUsed g (labelOf (slotAt s n))

theorem passSlot_touches : Touches [.gaps, .map, .slots, .ctl, .counters] s (passSlot g pos n s) := by
  have hg : Touches [.gaps, .map, .slots, .ctl, .counters] s
      (if (slotAt s n).gapMark then gapReached n s else s) := by
    refine .ite ?_ (.refl _ s)
    exact ((((onGaps_touches _).comp (removeGap_touches n)).comp (raiseFlag_touches _)).comp (bump_touches _)).mono rfl
  exact (hg.comp ((freeSlot_touches n).ite (.refl _ _))).mono rfl

section
variable (hg : (slotAt s n).gapMark = false)
include hg

theorem passSlot_stays (h : ¬ s.lastUse g pos n) : passSlot g pos n s = s := by
  unfold passSlot
  rw [hg]
  exact if_neg h

theorem passSlot_frees (h : s.lastUse g pos n) : passSlot g pos n s = setSlot n SlotDesc.free s := by
  unfold passSlot
  rw [hg]
  exact (if_pos h).trans (freeSlot_of_unmarked hg)

theorem passSlot_touches_slots : Touches [.map, .slots] s (passSlot g pos n s) := by
  by_cases h : s.lastUse g pos n
  · rw [passSlot_frees hg h]
    exact setSlot_touches n _
  · rw [passSlot_stays hg h]
    exact .refl _ s

/-- The FREE slot count rises by one at most, and only where the slot becomes FREE. -/
theorem freeCount_passSlot {m : Nat} (hm : freeCount s < m) (hl : s.lastUse g pos n → freeCount s + 1 < m) :
    freeCount (passSlot g pos n s) < m := by
  by_cases h : s.lastUse g pos n
  · rw [passSlot_frees hg h]
    exact Nat.lt_of_le_of_lt (freeCount_setSlot_free_le n) (hl h)
  · rw [passSlot_stays hg h]
    exact hm

end

/-- The first serve of a gap slot, not its last one (R94). -/
theorem passSlot_gap (hg : (slotAt s n).gapMark = true) (h : ¬ s.lastUse g pos n) (hn : n < s.map.slots.length) :
    passSlot g pos n s = gapReached n s := by
  have hl : labelOf (slotAt (gapReached n s) n) = labelOf (slotAt s n) := by
    show labelOf (slotAt (removeGap n (s.onGaps _)) n) = _
    rw [slotAt_removeGap_same (s := s.onGaps _) hn]
    rfl
  unfold passSlot
  rw [hg, if_pos rfl]
  exact if_neg (by rw [hl]; exact h)

theorem gapReached_slots : (gapReached n s).map.slots = s.map.slots.set n { slotAt s n with gapMark := false } := rfl

theorem gapReached_entries :
    (gapReached n s).gaps.entries = s.gaps.entries.filter fun e => e.slot != n := rfl

theorem gapReached_fetch : (gapReached n s).gaps.fetch = s.gaps.fetch.map fun x =>
    if x.slot = n ∧ gapPresent s x = true then { x with late := true } else x := by
  show s.gaps.fetch.map _ = s.gaps.fetch.map _
  congr 1
  funext x
  by_cases hx : x.slot = n
  · have hp : s.gaps.entries.any (fun e => e.slot == n && e.label == x.label) = gapPresent s x := by
      unfold gapPresent
      rw [hx]
      exact congrArg _ (funext fun e => Bool.and_comm ..)
    rw [hp]
  · rw [if_neg fun h => hx h.1, if_neg fun h => hx h.1]

theorem freeCount_gapReached : freeCount (gapReached n s) = freeCount s :=
  (((State.sameSlots.of_touches (onGaps_touches _) rfl).trans (sameSlots_removeGap n)).trans
    (.of_touches ((raiseFlag_touches .gapLate).comp (bump_touches .gapsLate)) rfl)).freeCount

theorem gapReached_flag : (gapReached n s).flag .gapLate = true := raiseFlag_flag .gapLate

theorem gapReached_count : (gapReached n s).count .gapsLate = s.count .gapsLate + 1 := rfl

/-! ### The history and the burst (R114, R123) -/

theorem reserveHistory_getLast? (h : List HistoryEntry) :
    (reserveHistory pos h).getLast? = some { pos := pos, value := none } := by
  unfold reserveHistory
  dsimp only
  rw [List.getLast?_drop, if_neg (by rw [List.length_append, List.length_singleton]; omega), List.getLast?_concat]

theorem nextPiece_frameItem (ring slot index : Nat) : nextPiece [frameItem ring slot index] ≠ none := by
  unfold nextPiece nextFramePiece
  rw [if_pos (show (frameItem ring slot index).word = none from rfl)]
  nofun

/-- The burst of one serve planned, its frame still to be read. -/
def serveBurst (pos : Nat) (g : Segment) (interpMax : Nat) (item : FetchItem) : Burst :=
  { mode := .playing, todo := 0, words := [.serve pos g.id g.start g.kind interpMax (some item)] }

theorem settleAhead_of_unread {interpMax ring slot index : Nat}
    (h : s.play.burst = some (serveBurst pos g interpMax (frameItem ring slot index))) : settleAhead s = s := by
  have hready : burstReady s = none := by
    unfold burstReady
    rw [h]
    split
    · rename_i b r hb hr
      cases hb
      exact if_neg fun hc => nextPiece_frameItem _ _ _ hc.2.1
    · rfl
  unfold settleAhead
  rw [hready]

/-- The burst of one word opened (R114). -/
def State.opensBurst (s : State) : State :=
  { s with play := { s.play with burst := some { mode := .playing, todo := 1, words := [] } } }

/-- The word of the serve of position `pos` of `g` at frame `i` of slot `n`, planned in `s` (R16, R114). -/
def State.serveWord (s : State) (g : Segment) (pos n i : Nat) : BurstWord :=
  .serve pos g.id g.start g.kind s.ctl.params.interpMax (some (frameItem s.ctl.params.ringBase n i))

/-- A burst of one word that serves a position: the word records what the lookup answered (R16, R114). -/
theorem exec_burstTake {j v : State} {r : ActiveRequest} {k : Nat} (hr : inReset s = false)
    (hw : s.router.waiting = []) (hp : s.router.reqP = some r) (hk : r.plays = [k]) (hb : s.play.burst = none)
    (hm : s.play.mode = .playing) (hlead : s.lead ≠ 0) (hj : jump s.opensBurst = j)
    (hpos : j.play.cursor = pos) (hseg : segAt j pos = some g) (hloc : locate j g pos = some (n, i))
    (hmerge : (slotAt j n).merging = false) (hv : servePosition g (some (n, i)) j = v)
    (hburst : v.play.burst = s.opensBurst.play.burst) :
    exec .burstTake s = .next (settleArbiter (addWord (j.serveWord g pos n i) v)) := by
  have hplan : planWord .playing s.opensBurst = some (v, j.serveWord g pos n i) := by
    unfold planWord
    rw [if_neg (show ¬ s.opensBurst.lead = 0 from hlead), hj]
    dsimp only
    rw [hpos, hseg]
    dsimp only
    rw [hloc, show mergingAt j (some (n, i)) = false from hmerge, if_neg nofun, hv]
    rfl
  have htake : burstToTake s = true := by
    unfold burstToTake
    rw [hp, hb]
    show (r.plays != []) = true
    rw [hk]
    rfl
  have hopen : (if s.play.burst.isSome = true then s else openBurst r.plays.length s) = s.opensBurst := by
    rw [hb, if_neg nofun, hk]
    unfold openBurst State.opensBurst State.onPlay
    dsimp only
    rw [hm]
    rfl
  have hpb : planBurst s.opensBurst = addWord (j.serveWord g pos n i) v := by
    show planWords .playing 1 s.opensBurst = _
    unfold planWords
    rw [hplan]
    rfl
  have hread : (addWord (j.serveWord g pos n i) v).play.burst =
      some (serveBurst pos g j.ctl.params.interpMax (frameItem j.ctl.params.ringBase n i)) := by
    show Option.map _ v.play.burst = _
    rw [hburst]
    rfl
  refine (next_live hr).trans (congrArg Host.Outcome.next ?_)
  unfold burstTake
  rw [admitWaiting_of_waiting_nil hw]
  dsimp only
  rw [hp]
  dsimp only
  rw [if_pos htake, hopen, hpb]
  exact congrArg settleArbiter (settleAhead_of_unread hread)

end
end Sys2Proof.Machine
end

section
/-! PROOFS. O43: a burst of one word that serves the cursor position. -/
namespace Sys2Proof.Machine

section
variable {s t u j v : State} {g : Segment} {pos n i : Nat}

/-! ### Lookups (R16) -/

theorem Touches.locate {l : List Part} (h : Touches l s t) (hl : l.contains .slots = false) (g : Segment) (pos : Nat) :
    locate t g pos = Machine.locate s g pos := by
  unfold Machine.locate slotOwning
  rw [h.slots hl]

/-- A lookup's slot is owned by the segment, with the label of the position (R16). -/
theorem locate_spec (h : locate s g pos = some (n, i)) : n < s.map.slots.length ∧ 0 ≤ (pos : Int) + g.shift ∧
    (slotAt s n).label = some (((pos : Int) + g.shift).toNat / 588) := by
  unfold locate at h
  dsimp only at h
  split at h
  · exact nomatch h
  case isFalse hf =>
    obtain ⟨m, hm, he⟩ := Option.map_eq_some_iff.mp h
    obtain ⟨hlt, hp, -⟩ := List.findIdx?_eq_some_iff_getElem.mp hm
    cases he
    refine ⟨hlt, Int.not_lt.mp hf, ?_⟩
    rw [slotAt_of_getElem? (List.getElem?_eq_getElem hlt)]
    simp only [Bool.and_eq_true, beq_iff_eq] at hp
    exact hp.2

/-- The position before the end of a segment is the highest that maps into its slot (R17). -/
theorem lastUse_of_stop (h : locate s g pos = some (n, i)) (hp : pos + 1 = g.stop) : s.lastUse g pos n := by
  obtain ⟨-, h0, hl⟩ := locate_spec h
  unfold State.lastUse highestUsed
  rw [labelOf_of_label hl]
  have h588 : Config.frames = 588 := rfl
  rw [h588, ← hp]
  omega

theorem segAt_of_head {rest : List Segment} (h : s.map.segs = g :: rest) (h1 : g.start ≤ pos) (h2 : pos < g.stop) :
    segAt s pos = some g := by
  unfold segAt
  rw [h, List.find?_cons_of_pos]
  simp [h1, h2]

theorem lead_ne_zero {rest : List Segment} (h : s.map.segs = g :: rest) (h1 : g.start < g.stop)
    (h2 : s.play.cursor < g.stop) : s.lead ≠ 0 := by
  unfold State.lead leadOf
  rw [h, List.map_cons, List.sum_cons]
  omega

/-! ### The cursor's advance (R17, R18, R113, R114) -/

/-- The slot passed and the cursor advanced, its history entry reserved. -/
def State.advanced (s : State) (g : Segment) (pos n : Nat) : State :=
  (passSlot g pos n s).onPlay fun p =>
    { p with cursor := pos + 1, history := reserveHistory pos p.history, underrun := false }

/-- The Play Server after the serve of `pos` (R114, R123). -/
def PlayServer.serves (p : PlayServer) (pos : Nat) : PlayServer :=
  { p with cursor := pos + 1, history := reserveHistory pos p.history, underrun := false }

theorem advanced_touches : Touches [.gaps, .map, .slots, .ctl, .counters, .play] s (s.advanced g pos n) :=
  passSlot_touches.comp (onPlay_touches _)

theorem advanced_play : (s.advanced g pos n).play = s.play.serves pos := by
  show (passSlot g pos n s).play.serves pos = _
  rw [passSlot_touches.play rfl]

theorem servePosition_eq (h : s.play.cursor = pos) : servePosition g (some (n, i)) s =
    crossing pos (afterRetire (s.advanced g pos n).map.segs.length
      (freeReport (leadCheck (retireFront (s.advanced g pos n))))) := by
  unfold servePosition
  rw [h]
  rfl

theorem afterRetire_stays {k : Nat} (h : k ≤ s.map.segs.length) : afterRetire k s = s := if_neg (Nat.not_lt.mpr h)

theorem crossing_of_not_pending {old : Nat} (h : s.ctl.applyPending = false) : crossing old s = s := by
  unfold crossing applyIfPending
  rw [if_neg (show ¬ s.ctl.applyPending = true by rw [h]; decide), ite_self]

/-- The serve of `pos` in `s`, up to its crossing, has left `v`, with the list of segments as it was. -/
structure State.servedTo (s v : State) (g : Segment) (pos n : Nat) : Prop where
  play : v.play = s.play.serves pos
  rc : v.rc = { s.rc with phase := v.rc.phase }
  phase : v.rc.phase = .streaming ∨ v.rc.phase = .holding
  segs : v.map.segs = s.map.segs
  slots : v.map.slots = (passSlot g pos n s).map.slots
  gaps : v.gaps = (passSlot g pos n s).gaps
  mem : v.mem = s.mem
  router : v.router = s.router
  flags : ∀ f, (passSlot g pos n s).flag f = true → v.flag f = true
  count : ∀ c, v.count c = (passSlot g pos n s).count c
  ctl : (passSlot g pos n s).flagsOnly v

section
variable (hs : ∀ x, s.map.segs.head? = some x → x.stop ≠ pos + 1)
include hs

theorem retireFront_advanced : retireFront (s.advanced g pos n) = s.advanced g pos n := by
  refine retireFront_stands ?_
  rw [advanced_touches.segs rfl, advanced_play]
  exact hs

/-- A serve with no retirement and no release of HOLD (R17, R38). -/
theorem servePosition_stays (hpos : s.play.cursor = pos) (hp : s.rc.phase = .streaming ∨ s.rc.phase = .holding)
    (hrel : s.intake.hold = true → freeCount (passSlot g pos n s) < s.ctl.params.holdMargin + 8) :
    ∃ v, servePosition g (some (n, i)) s = crossing pos v ∧ s.servedTo v g pos n := by
  let c := s.advanced g pos n
  let b := leadCheck c
  have hpb : Touches [.play, .map, .ctl] (passSlot g pos n s) b := (onPlay_touches _).comp leadCheck_touches
  have hb : Touches [.gaps, .map, .slots, .ctl, .counters, .play] s b :=
    (advanced_touches.comp leadCheck_touches).mono rfl
  have hfree : freeReport b = holdTest b := by
    refine freeReport_eq_holdTest fun hh => ?_
    rw [hb.intake rfl] at hh
    rw [hb.params rfl, hpb.freeCount rfl]
    exact hrel hh
  have hv : Touches [.intake, .hold, .rc] b (holdTest b) := holdTest_touches
  obtain ⟨hrc, hphase⟩ := holdTest_rc_eq (s := b) (by rw [hb.rc rfl]; exact hp)
  rw [hb.rc rfl] at hrc
  refine ⟨holdTest b, ?_, ?_⟩
  · rw [servePosition_eq hpos, retireFront_advanced hs, show freeReport (leadCheck (s.advanced g pos n)) = _ from
      hfree, afterRetire_stays]
    rw [hv.segs rfl, leadCheck_touches.segs rfl]
  · refine ⟨?_, hrc, hphase, ?_, ?_, ?_, ?_, ?_, fun f hf => ?_, fun k => ?_, ?_⟩
    · rw [hv.play rfl, leadCheck_touches.play rfl, advanced_play]
    · rw [hv.segs rfl, hb.segs rfl]
    · rw [hv.slots rfl, hpb.slots rfl]
    · rw [hv.gaps rfl, hpb.gaps rfl]
    · rw [hv.mem rfl, hb.mem rfl]
    · rw [hv.router rfl, hb.router rfl]
    · rw [hv.flag _ rfl]
      exact leadCheck_flag (s := c) hf
    · rw [hv.count _ rfl, hpb.count _ rfl]
    · exact (State.flagsOnly.of_touches (onPlay_touches _) rfl).trans
        (flagsOnly_leadCheck.trans (.of_touches hv rfl))

/-- A serve whose freed slot releases HOLD: the hold return is taken (R39, R63). -/
theorem servePosition_returns (hpos : s.play.cursor = pos) (hp : s.rc.phase = .holding)
    (hh : s.intake.hold = true) (hg : openSeg s = some g)
    (hrel : s.ctl.params.holdMargin + 8 ≤ freeCount (passSlot g pos n s)) :
    ∃ v, servePosition g (some (n, i)) s = crossing pos v ∧ s.holdReturned v g ∧ v.play = s.play.serves pos ∧
      v.map.slots = (passSlot g pos n s).map.slots ∧ v.mem = s.mem ∧ (passSlot g pos n s).flagsOnly v := by
  let c := s.advanced g pos n
  let b := leadCheck c
  have hpb : Touches [.play, .map, .ctl] (passSlot g pos n s) b := (onPlay_touches _).comp leadCheck_touches
  have hb : Touches [.gaps, .map, .slots, .ctl, .counters, .play] s b :=
    (advanced_touches.comp leadCheck_touches).mono rfl
  have hbplay : b.play = s.play.serves pos := by rw [leadCheck_touches.play rfl, advanced_play]
  have hfree : freeReport b = holdReturn b := by
    unfold freeReport
    rw [holdTest_stands (.inl (by rw [hb.rc rfl, hp]; decide))]
    refine if_pos ⟨by rw [hb.intake rfl]; exact hh, ?_⟩
    rw [hb.params rfl, hpb.freeCount rfl]
    exact hrel
  obtain ⟨hret, -, hplay⟩ := holdReturned_holdReturn (s := b) (g := g) (by rw [hb.openSeg rfl]; exact hg)
    (by rw [hb.rc rfl]; exact hp) (by rw [hb.segs rfl, hbplay]; exact hs)
  have hv : Touches [.intake, .hold, .map, .segs, .play, .ctl, .rc] b (holdReturn b) := holdReturn_touches
  have hsegs : (holdReturn b).map.segs.length = s.map.segs.length := by
    obtain ⟨-, -, -, -, -, -, -, -, -, -, he, -⟩ := hret
    rw [he, hb.segs rfl, List.length_append,
      congrArg List.length (segs_of_lastSeg (openSeg_eq_some.mp hg).1), List.length_append]
    rfl
  refine ⟨holdReturn b, ?_, ?_, hplay.trans hbplay, ?_, ?_, ?_⟩
  · rw [servePosition_eq hpos, retireFront_advanced hs, show freeReport (leadCheck (s.advanced g pos n)) = _ from
      hfree, afterRetire_stays]
    rw [hsegs, advanced_touches.segs rfl]
  · unfold State.holdReturned at hret ⊢
    rwa [hb.rc rfl, hb.params rfl, hb.segs rfl] at hret
  · rw [hv.slots rfl, hpb.slots rfl]
  · rw [hv.mem rfl, hb.mem rfl]
  · exact (State.flagsOnly.of_touches (onPlay_touches _) rfl).trans
      (flagsOnly_leadCheck.trans flagsOnly_holdReturn)

end

/-- Where the cursor goes on when the segment that ends at it retires (R18). -/
def cursorAfter (cursor : Nat) : List Segment → Nat
  | [] => cursor
  | h :: _ => h.start

theorem retireFront_retires {rest : List Segment} (h : s.map.segs = g :: rest) (hc : s.play.cursor = g.stop)
    (ho : g.isOpen = false ∨ rest ≠ []) : retireFront s = { s with
      play := { s.play with cursor := cursorAfter s.play.cursor rest }
      map := { s.map with segs := rest, retireReport := true } } := by
  unfold retireFront
  rw [h]
  dsimp only
  rw [if_pos ⟨hc, ho⟩]
  cases rest <;> rfl

/-- The serve of a segment's last position retires it (R18). -/
theorem servePosition_retires {rest : List Segment} (hpos : s.play.cursor = pos) (hsegs : s.map.segs = g :: rest)
    (hstop : pos + 1 = g.stop) (hclosed : g.isOpen = false ∨ rest ≠ [])
    (hp : s.rc.phase = .streaming ∨ s.rc.phase = .holding) (hent : (passSlot g pos n s).gaps.entries = [])
    (hrel : s.intake.hold = true → freeCount (passSlot g pos n s) < s.ctl.params.holdMargin + 8) :
    ∃ v, servePosition g (some (n, i)) s = crossing pos v ∧
      v.play = { s.play.serves pos with cursor := cursorAfter (pos + 1) rest } ∧
      v.rc = { s.rc with phase := v.rc.phase } ∧ (v.rc.phase = .streaming ∨ v.rc.phase = .holding) ∧
      v.map.segs = rest ∧ v.map.retireReport = true ∧ v.map.slots = (passSlot g pos n s).map.slots ∧
      v.mem = s.mem ∧ (passSlot g pos n s).flagsOnly v := by
  let c := s.advanced g pos n
  let r := retireFront c
  let b := leadCheck r
  have hcseg : c.map.segs = g :: rest := by rw [advanced_touches.segs rfl, hsegs]
  have hcur : c.play.cursor = pos + 1 := by
    rw [advanced_play]
    rfl
  have hr : r = { c with
      play := { c.play with cursor := cursorAfter c.play.cursor rest }
      map := { c.map with segs := rest, retireReport := true } } :=
    retireFront_retires hcseg (hcur.trans hstop) hclosed
  have hrt : Touches [.map, .segs, .play] c r := retireFront_touches
  have hpb : Touches [.play, .map, .segs, .ctl] (passSlot g pos n s) b :=
    (((onPlay_touches _).comp hrt).comp leadCheck_touches).mono rfl
  have hb : Touches [.gaps, .map, .slots, .segs, .ctl, .counters, .play] s b :=
    ((advanced_touches.comp hrt).comp leadCheck_touches).mono rfl
  have hfree : freeReport b = holdTest b := by
    refine freeReport_eq_holdTest fun hh => ?_
    rw [hb.intake rfl] at hh
    rw [hb.params rfl, hpb.freeCount rfl]
    exact hrel hh
  have hv : Touches [.intake, .hold, .rc] b (holdTest b) := holdTest_touches
  obtain ⟨hrc, hphase⟩ := holdTest_rc_eq (s := b) (by rw [hb.rc rfl]; exact hp)
  rw [hb.rc rfl] at hrc
  have hafter : afterRetire (s.advanced g pos n).map.segs.length (holdTest b) = holdTest b := by
    unfold afterRetire
    rw [fetchTest_stands_of_entries (by rw [hv.gaps rfl, hpb.gaps rfl]; exact hent), ite_self]
  have hmap : b.map = { r.map with below := b.map.below } := by
    show (leadCheck r).map = { r.map with below := (leadCheck r).map.below }
    unfold leadCheck
    split
    · split <;> rfl
    · rfl
  have hhold : (holdTest b).map = b.map := hv.map rfl
  refine ⟨holdTest b, ?_, ?_, hrc, hphase, ?_, ?_, ?_, ?_, ?_⟩
  · rw [servePosition_eq hpos, show freeReport (leadCheck (retireFront (s.advanced g pos n))) = _ from hfree, hafter]
  · rw [hv.play rfl, leadCheck_touches.play rfl, hr, hcur, ← advanced_play (g := g) (n := n)]
  · rw [hhold, hmap, hr]
  · rw [hhold, hmap, hr]
  · rw [hv.slots rfl, hpb.slots rfl]
  · rw [hv.mem rfl, hb.mem rfl]
  · exact (State.flagsOnly.of_touches ((onPlay_touches _).comp hrt) rfl).trans
      (flagsOnly_leadCheck.trans (.of_touches hv rfl))

/-! ### A pending APPLY at a crossing (R113, R177) -/

theorem closeOpen_play (hs : ∀ x, s.map.segs.head? = some x → x.stop ≠ s.play.cursor) :
    (closeOpen s).play = s.play := by
  cases h : openSeg s with
  | none =>
    unfold closeOpen
    rw [h]
  | some g => exact (closeOpen_of_stays h hs).2

section
variable {old new : Params}

theorem lowerRebuild_touches : Touches [.map, .slots, .ring, .rc, .gaps] s
    (lowerRetries new.retryLimit (rebuildRing old new s)) := rebuildRing_touches.comp (lowerRetries_touches _)

theorem newHoldMargin_touches : Touches [.intake, .hold, .map, .segs, .play, .ctl, .rc] s (newHoldMargin s) := by
  unfold newHoldMargin holdRelease
  exact .ite (.ite holdReturn_touches (.refl _ s)) (holdTest_touches.mono rfl)

theorem flagsOnly_newHoldMargin : s.flagsOnly (newHoldMargin s) := by
  unfold newHoldMargin holdRelease
  split
  · split
    · exact flagsOnly_holdReturn
    · rfl
  · exact .of_touches holdTest_touches rfl

theorem newHoldMargin_play (hs : ∀ x, s.map.segs.head? = some x → x.stop ≠ s.play.cursor) :
    (newHoldMargin s).play = s.play := by
  unfold newHoldMargin holdRelease
  split
  · split
    · have hc := closeOpen_play (s := s.onIntake fun i => { i with hold := false }) hs
      exact ((startCapture_touches _).play rfl).trans hc
    · rfl
  · exact holdTest_touches.play rfl

/-- A new parameter set leaves the Control Unit's other fields, memory, and, with no segment ending at the cursor
in front, the Play Server (R173). -/
theorem applyEffects_keeps : s.flagsOnly (applyEffects old new s) ∧ (applyEffects old new s).mem = s.mem ∧
    ((∀ x, s.map.segs.head? = some x → x.stop ≠ s.play.cursor) → (applyEffects old new s).play = s.play) := by
  let a := lowerRetries new.retryLimit (rebuildRing old new s)
  let b := if old.lowWater = new.lowWater then a else leadCheck a
  let c := if old.holdMargin = new.holdMargin then b else newHoldMargin b
  have hat : Touches [.map, .slots, .ring, .rc, .gaps] s a := lowerRebuild_touches
  have hab : Touches [.map, .ctl] a b := by
    show Touches _ a (if _ then a else leadCheck a)
    exact .ite (.refl _ a) leadCheck_touches
  have hbf : a.flagsOnly b := by
    show a.flagsOnly (if _ then a else leadCheck a)
    split
    · rfl
    · exact flagsOnly_leadCheck
  have hbc : Touches [.intake, .hold, .map, .segs, .play, .ctl, .rc] b c := by
    show Touches _ b (if _ then b else newHoldMargin b)
    exact .ite (.refl _ b) newHoldMargin_touches
  have hcf : b.flagsOnly c := by
    show b.flagsOnly (if _ then b else newHoldMargin b)
    split
    · rfl
    · exact flagsOnly_newHoldMargin
  have hd : Touches [.gaps, .map, .slots, .intake, .rc] c (applyEffects old new s) := by
    show Touches _ c (if _ then c else fetchTest c)
    exact .ite (.refl _ c) fetchTest_touches
  refine ⟨(State.flagsOnly.of_touches hat rfl).trans (hbf.trans (hcf.trans (.of_touches hd rfl))),
    ((hd.mem rfl).trans (hbc.mem rfl)).trans ((hab.mem rfl).trans (hat.mem rfl)), fun hs => ?_⟩
  have hbplay : b.play = s.play := (hab.play rfl).trans (hat.play rfl)
  have hbsegs : b.map.segs = s.map.segs := (hab.segs rfl).trans (hat.segs rfl)
  have hcplay : c.play = b.play := by
    show (if _ then b else newHoldMargin b).play = _
    split
    · rfl
    · exact newHoldMargin_play (by rw [hbsegs, hbplay]; exact hs)
  rw [hd.play rfl, hcplay, hbplay]

end

/-- A pending APPLY takes effect (R173, R177, R178). -/
theorem applyNow_spec : s.applyTookEffect (applyNow s) (applyPasses s) ∧ (applyNow s).ctl.lastCode = codeApply ∧
    (applyNow s).ctl.lastResult = (if applyPasses s then .done else .refusedConfig) ∧ (applyNow s).mem = s.mem ∧
    ((∀ x, s.map.segs.head? = some x → x.stop ≠ s.play.cursor) → (applyNow s).play = s.play) := by
  cases hp : applyPasses s with
  | true =>
    rw [applyNow_passes hp]
    let w := s.onCtl fun c =>
      { c with applyPending := false, params := clampParams s.ctl.staged, applyInd := .done }
    obtain ⟨hflags, hmem, hplay⟩ := applyEffects_keeps (s := w) (old := s.ctl.params)
      (new := clampParams s.ctl.staged)
    rw [show applyEffects s.ctl.params (clampParams s.ctl.staged) (s.onCtl fun c =>
      { c with applyPending := false, params := clampParams s.ctl.staged, applyInd := .done }) =
      applyEffects s.ctl.params (clampParams s.ctl.staged) w from rfl]
    generalize applyEffects s.ctl.params (clampParams s.ctl.staged) w = v at hflags hmem hplay
    have hc := completion_touches (s := v) codeApply .done
    unfold State.applyTookEffect
    rw [completion_flag, completion_ctl, hflags]
    exact ⟨⟨rfl, rfl, rfl, fun _ => ⟨rfl, rfl⟩, nofun⟩, rfl, rfl, (hc.mem rfl).trans hmem,
      fun hs => (hc.play rfl).trans (hplay hs)⟩
  | false =>
    rw [applyNow_refused hp]
    let w := s.onCtl fun c => { c with applyPending := false, applyInd := .refusedConfig }
    have hflag : (completion codeApply .refusedConfig (raiseFlag .config w)).flag .config = true :=
      flag_of_or (raiseFlag_flag (s := w) .config)
    have hto : Touches [.ctl] w (completion codeApply .refusedConfig (raiseFlag .config w)) :=
      ((raiseFlag_touches _).comp (completion_touches _ _)).mono rfl
    have hctl : (completion codeApply .refusedConfig (raiseFlag .config w)).ctl = { s.ctl with
        applyPending := false, applyInd := .refusedConfig, lastCode := codeApply, lastResult := .refusedConfig
        flags := (completion codeApply .refusedConfig (raiseFlag .config w)).ctl.flags } := rfl
    unfold State.applyTookEffect
    rw [completion_flag, hflag, hctl]
    exact ⟨⟨rfl, rfl, rfl, nofun, fun _ => ⟨rfl, rfl, rfl⟩⟩, rfl, rfl, hto.mem rfl, fun _ => hto.play rfl⟩

end
end Sys2Proof.Machine
end

section
/-! PROOFS. O43: the jump, and the burst of one serve from its take on. -/
namespace Sys2Proof.Machine

section
variable {s j v : State} {g : Segment} {pos n i : Nat}

/-! ### The jump (R112) -/

theorem jump_stays {rest : List Segment} (h : s.map.segs = g :: rest) (hc : g.start ≤ s.play.cursor) : jump s = s := by
  unfold jump
  rw [h]
  exact if_neg (Nat.not_lt.mpr hc)

theorem jump_up {rest : List Segment} (h : s.map.segs = g :: rest) (hc : s.play.cursor < g.start)
    (hp : s.ctl.applyPending = false) : jump s = leadCheck (s.onPlay fun p => { p with cursor := g.start }) := by
  have hctl := flagsOnly_leadCheck (s := s.onPlay fun p => { p with cursor := g.start })
  unfold jump
  rw [h]
  dsimp only
  rw [if_pos hc]
  refine crossing_of_not_pending ?_
  rw [hctl]
  exact hp

theorem passSlot_applyPending : (passSlot g pos n s).ctl.applyPending = s.ctl.applyPending := by
  have hf : ∀ u : State, (freeSlot n u).ctl = u.ctl := fun u => (freeSlot_touches n).ctl rfl
  unfold passSlot
  dsimp only
  split
  · split
    · rw [hf]
      rfl
    · rfl
  · split
    · rw [hf]
    · rfl

/-! ### A burst of one serve (R114) -/

/-- The take of a burst of one word in `s` serves position `pos` of `g` from `j`, the state a jump leaves, where
the lookup answers frame `i` of slot `n`. -/
structure State.takesServe (s j : State) (g : Segment) (pos n i : Nat) : Prop where
  live : inReset s = false
  waiting : s.router.waiting = []
  request : ∃ r k, s.router.reqP = some r ∧ r.plays = [k]
  noBurst : s.play.burst = none
  playing : s.play.mode = .playing
  lead : s.lead ≠ 0
  jumps : jump s.opensBurst = j
  play : j.play = { s.opensBurst.play with cursor := pos }
  touches : Touches [.play, .map, .ctl] s j
  flags : s.flagsOnly j
  seg : segAt j pos = some g
  loc : locate s g pos = some (n, i)
  merging : (slotAt s n).merging = false

/-- The burst of `s` has been taken in `t` as a serve of `pos` (R16, R114, R123). -/
def State.taken (s t : State) (g : Segment) (pos n i : Nat) : Prop :=
  exec .burstTake s = .next t ∧ t.mem = s.mem ∧ t.play.history.getLast? = some { pos := pos, value := none } ∧
  t.play.burst = some { mode := .playing, todo := 0, words :=
    [.serve pos g.id g.start g.kind s.ctl.params.interpMax (some (frameItem s.ctl.params.ringBase n i))] }

theorem State.takesServe.cursor (h : s.takesServe j g pos n i) : j.play.cursor = pos := by rw [h.play]

theorem State.takesServe.slotAt (h : s.takesServe j g pos n i) (k : Nat) : slotAt j k = Machine.slotAt s k :=
  h.touches.slotAt k rfl

theorem State.takesServe.lt (h : s.takesServe j g pos n i) : n < s.map.slots.length := (locate_spec h.loc).1

theorem State.takesServe.lastUse (h : s.takesServe j g pos n i) : j.lastUse g pos n ↔ s.lastUse g pos n := by
  unfold State.lastUse
  rw [h.slotAt]

/-- The serve made, the word stands in the burst and nothing else of it moves. -/
theorem State.takesServe.taken (h : s.takesServe j g pos n i) (hv : servePosition g (some (n, i)) j = v)
    (hplay : v.play = { j.play.serves pos with cursor := v.play.cursor }) (hmem : v.mem = j.mem) :
    ∃ t, s.taken t g pos n i ∧ Touches [.arb, .play] v t ∧ t.play.cursor = v.play.cursor := by
  obtain ⟨r, k, hr, hk⟩ := h.request
  have hburst : v.play.burst = s.opensBurst.play.burst := by rw [hplay, h.play]; rfl
  have hexec := exec_burstTake h.live h.waiting hr hk h.noBurst h.playing h.lead h.jumps h.cursor h.seg
    ((h.touches.locate rfl g pos).trans h.loc) (by rw [h.slotAt]; exact h.merging) hv hburst
  have hto : Touches [.arb, .play] v (settleArbiter (addWord (j.serveWord g pos n i) v)) :=
    ((onPlay_touches _).comp settleArbiter_touches).mono rfl
  have hp : (settleArbiter (addWord (j.serveWord g pos n i) v)).play =
      (addWord (j.serveWord g pos n i) v).play := settleArbiter_touches.play rfl
  refine ⟨_, ⟨hexec, ?_, ?_, ?_⟩, hto, ?_⟩
  · rw [hto.mem rfl, hmem, h.touches.mem rfl]
  · rw [hp]
    show v.play.history.getLast? = _
    rw [hplay]
    exact reserveHistory_getLast? _
  · rw [hp]
    show v.play.burst.map _ = _
    rw [hburst]
    unfold State.serveWord
    rw [h.touches.params rfl]
    rfl
  · rw [hp]
    rfl

/-- A serve that moves the phase alone between STREAMING and HOLDING (R38). -/
def State.served (s t : State) (g : Segment) (pos n i : Nat) : Prop :=
  s.taken t g pos n i ∧ t.rc = { s.rc with phase := t.rc.phase } ∧
    (t.rc.phase = .streaming ∨ t.rc.phase = .holding)

/-- The serve made with no retirement, no release of HOLD and no APPLY pending (R17, R114). -/
theorem State.takesServe.served (h : s.takesServe j g pos n i) (hpend : s.ctl.applyPending = false)
    (hone : s.map.segs = [g])
    (hstop : pos + 1 < g.stop) (hstart : g.start ≤ pos)
    (hlead : s.lead = g.stop - pos) (hp : s.rc.phase = .streaming ∨ s.rc.phase = .holding)
    (hrel : s.intake.hold = true → freeCount (passSlot g pos n j) < s.ctl.params.holdMargin + 8) :
    ∃ t, s.served t g pos n i ∧ t.play.cursor = pos + 1 ∧ t.lead + 1 = s.lead ∧
      t.map.slots = (passSlot g pos n j).map.slots ∧ t.map.segs = s.map.segs ∧
      t.gaps = (passSlot g pos n j).gaps ∧ (∀ f, (passSlot g pos n j).flag f = true → t.flag f = true) ∧
      ∀ c, t.count c = (passSlot g pos n j).count c := by
  have hsegs : j.map.segs = [g] := (h.touches.segs rfl).trans hone
  obtain ⟨v, hv, hto⟩ := servePosition_stays (n := n) (i := i)
    (by rw [hsegs]; exact fun x hx => by cases hx; exact Nat.ne_of_gt hstop) h.cursor
    (by rw [h.touches.rc rfl]; exact hp)
    (by rw [h.touches.intake rfl, h.touches.params rfl]; exact hrel)
  have hcross : crossing pos v = v := by
    refine crossing_of_not_pending ?_
    rw [hto.ctl]
    refine (passSlot_applyPending (s := j)).trans ?_
    rw [h.flags]
    exact hpend
  rw [hcross] at hv
  have hcur : v.play.cursor = pos + 1 := by rw [hto.play]; rfl
  obtain ⟨t, htaken, ht, htcur⟩ := h.taken hv (by rw [hto.play]) hto.mem
  refine ⟨t, ⟨htaken, ?_, ?_⟩, htcur.trans hcur, ?_, (ht.slots rfl).trans hto.slots, ?_, (ht.gaps rfl).trans hto.gaps,
    fun f hf => ?_, fun c => ?_⟩
  · rw [ht.rc rfl, hto.rc, h.touches.rc rfl]
  · rw [ht.rc rfl]
    exact hto.phase
  · have htl : t.lead = g.stop - (pos + 1) := by
      unfold State.lead leadOf
      rw [ht.segs rfl, hto.segs, hsegs, htcur, hcur, List.map_singleton, List.sum_singleton,
        Nat.max_eq_right (Nat.le_succ_of_le hstart)]
    rw [htl, hlead]
    omega
  · rw [ht.segs rfl, hto.segs, h.touches.segs rfl]
  · rw [ht.flag f rfl]
    exact hto.flags f hf
  · rw [ht.count c rfl, hto.count]

/-! ### The two ways a serve is found (R112, R114) -/

section
variable {r : ActiveRequest} {k : Nat} (hr : inReset s = false) (hw : s.router.waiting = [])
  (hq : s.router.reqP = some r) (hk : r.plays = [k]) (hb : s.play.burst = none) (hm : s.play.mode = .playing)
  (hloc : locate s g pos = some (n, i)) (hmerge : (slotAt s n).merging = false)
include hr hw hq hk hb hm hloc hmerge

/-- The cursor stands in the first segment. -/
theorem takesServe_cursor {rest : List Segment} (hsegs : s.map.segs = g :: rest) (hstart : g.start ≤ s.play.cursor)
    (hpos : pos = s.play.cursor) (hstop : pos < g.stop) : s.takesServe s.opensBurst g pos n i where
  live := hr
  waiting := hw
  request := ⟨r, k, hq, hk⟩
  noBurst := hb
  playing := hm
  lead := lead_ne_zero hsegs (by omega) (by omega)
  jumps := jump_stays (s := s.opensBurst) hsegs hstart
  play := by rw [hpos]; rfl
  touches := (onPlay_touches (s := s) fun p =>
    { p with burst := some { mode := .playing, todo := 1, words := [] } }).mono rfl
  flags := rfl
  seg := segAt_of_head (s := s.opensBurst) hsegs (by omega) hstop
  loc := hloc
  merging := hmerge

/-- The cursor jumps up to the first segment. -/
theorem takesServe_jump (hsegs : s.map.segs = [g]) (hc : s.play.cursor < g.start) (hpos : pos = g.start)
    (hstop : pos < g.stop) (hpend : s.ctl.applyPending = false) : s.takesServe
      (leadCheck (s.opensBurst.onPlay fun p => { p with cursor := g.start })) g pos n i where
  live := hr
  waiting := hw
  request := ⟨r, k, hq, hk⟩
  noBurst := hb
  playing := hm
  lead := lead_ne_zero hsegs (by omega) (by omega)
  jumps := jump_up (s := s.opensBurst) hsegs hc hpend
  play := by rw [leadCheck_touches.play rfl, hpos]; rfl
  touches := (((onPlay_touches (s := s) fun p =>
    { p with burst := some { mode := .playing, todo := 1, words := [] } }).comp (onPlay_touches _)).comp
      leadCheck_touches).mono rfl
  flags := flagsOnly_leadCheck (s := s.opensBurst.onPlay fun p => { p with cursor := g.start })
  seg := segAt_of_head (by rw [leadCheck_touches.segs rfl]; exact hsegs) (by omega) hstop
  loc := hloc
  merging := hmerge

end

/-! ### The outcomes of a serve -/

theorem lead_of_one (h : s.map.segs = [g]) (hc : max g.start s.play.cursor = pos) : s.lead = g.stop - pos := by
  unfold State.lead leadOf
  rw [h, List.map_singleton, List.sum_singleton, hc]

section
variable (h : s.takesServe j g pos n i)
include h

theorem State.takesServe.gapMark (hg : (Machine.slotAt s n).gapMark = false) : (Machine.slotAt j n).gapMark = false := by
  rw [h.slotAt]
  exact hg

/-- The FREE slot count report after the serve stays below the release level (R39). -/
theorem State.takesServe.noRelease (hg : (Machine.slotAt s n).gapMark = false)
    (hrel : s.intake.hold = true → freeCount s < s.ctl.params.holdMargin + 8)
    (hlast : s.lastUse g pos n → s.intake.hold = true → freeCount s + 1 < s.ctl.params.holdMargin + 8) :
    s.intake.hold = true → freeCount (passSlot g pos n j) < s.ctl.params.holdMargin + 8 := fun hh => by
  have hc : freeCount j = freeCount s := h.touches.freeCount rfl
  refine freeCount_passSlot (h.gapMark hg) (by rw [hc]; exact hrel hh) fun hl => ?_
  rw [hc]
  exact hlast (h.lastUse.mp hl) hh

theorem State.takesServe.passSlot_stays (hg : (Machine.slotAt s n).gapMark = false) (hl : ¬ s.lastUse g pos n) :
    passSlot g pos n j = j := Machine.passSlot_stays (h.gapMark hg) fun hj => hl (h.lastUse.mp hj)

theorem State.takesServe.passSlot_frees (hg : (Machine.slotAt s n).gapMark = false) (hl : s.lastUse g pos n) :
    passSlot g pos n j = setSlot n SlotDesc.free j := Machine.passSlot_frees (h.gapMark hg) (h.lastUse.mpr hl)

/-- The slots after the serve: as they were, but for a slot freed (R17). -/
theorem State.takesServe.slots_frees (hg : (Machine.slotAt s n).gapMark = false) (hl : s.lastUse g pos n) :
    (passSlot g pos n j).map.slots = s.map.slots.set n SlotDesc.free := by
  rw [h.passSlot_frees hg hl, ← h.touches.slots rfl]
  rfl

theorem State.takesServe.gaps_frees (hg : (Machine.slotAt s n).gapMark = false) :
    (passSlot g pos n j).gaps = s.gaps := by
  rw [(passSlot_touches_slots (h.gapMark hg)).gaps rfl, h.touches.gaps rfl]

/-- A gap slot reached, and not left (R94). -/
theorem State.takesServe.passSlot_gap (hg : (Machine.slotAt s n).gapMark = true) (hl : ¬ s.lastUse g pos n) :
    passSlot g pos n j = gapReached n j :=
  Machine.passSlot_gap (by rw [h.slotAt]; exact hg) (fun hj => hl (h.lastUse.mp hj))
    (by rw [h.touches.ring rfl]; exact h.lt)

/-- A serve that retires the first segment (R18). -/
theorem State.takesServe.retires {rest : List Segment} (hpend : s.ctl.applyPending = false)
    (hsegs : s.map.segs = g :: rest) (hstop : pos + 1 = g.stop) (hclosed : g.isOpen = false ∨ rest ≠ [])
    (hg : (Machine.slotAt s n).gapMark = false) (hent : s.gaps.entries = [])
    (hp : s.rc.phase = .streaming ∨ s.rc.phase = .holding)
    (hrel : s.intake.hold = true → freeCount (passSlot g pos n j) < s.ctl.params.holdMargin + 8) :
    ∃ t, s.served t g pos n i ∧ t.map.segs = rest ∧ t.map.retireReport = true ∧
      t.map.slots = s.map.slots.set n SlotDesc.free ∧ t.play.cursor = cursorAfter (pos + 1) rest := by
  obtain ⟨v, hv, hplay, hrc, hphase, hvsegs, hrep, hslots, hmem, hctl⟩ := servePosition_retires (n := n) (i := i)
    h.cursor ((h.touches.segs rfl).trans hsegs) hstop hclosed (by rw [h.touches.rc rfl]; exact hp)
    (by rw [h.gaps_frees hg]; exact hent)
    (by rw [h.touches.intake rfl, h.touches.params rfl]; exact hrel)
  have hcross : crossing pos v = v := by
    refine crossing_of_not_pending ?_
    rw [hctl]
    refine (passSlot_applyPending (s := j)).trans ?_
    rw [h.flags]
    exact hpend
  rw [hcross] at hv
  obtain ⟨t, htaken, ht, htcur⟩ := h.taken hv (by rw [hplay]) hmem
  refine ⟨t, ⟨htaken, ?_, ?_⟩, (ht.segs rfl).trans hvsegs, ?_, ?_, ?_⟩
  · rw [ht.rc rfl, hrc, h.touches.rc rfl]
  · rw [ht.rc rfl]
    exact hphase
  · rw [ht.map rfl]
    exact hrep
  · rw [ht.slots rfl, hslots, h.slots_frees hg (lastUse_of_stop h.loc hstop)]
  · rw [htcur, hplay]

end

/-- A serve whose freed slot releases HOLD (R39, R63). -/
theorem State.takesServe.returns (h : s.takesServe s.opensBurst g pos n i) (hpend : s.ctl.applyPending = false)
    (hone : s.map.segs = [g]) (hstop : pos + 1 < g.stop) (hl : s.lastUse g pos n)
    (hg : (Machine.slotAt s n).gapMark = false) (hopen : g.isOpen = true)
    (hlink : (Machine.slotAt s n).state = .linked) (hp : s.rc.phase = .holding) (hh : s.intake.hold = true)
    (hfree : freeCount s + 1 = s.ctl.params.holdMargin + 8) :
    ∃ t, s.taken t g pos n i ∧ t.play.cursor = pos + 1 ∧ t.map.slots = s.map.slots.set n SlotDesc.free ∧
      s.holdReturned t g := by
  have hcount : freeCount (passSlot g pos n s.opensBurst) = freeCount s + 1 := by
    have := freeCount_freeSlot (s := s.opensBurst) (n := n) (by show (Machine.slotAt s n).state ≠ _; rw [hlink]; decide)
    rw [freeSlot_of_unmarked (h.gapMark hg), ← h.passSlot_frees hg hl] at this
    exact this
  obtain ⟨v, hv, hret, hplay, hslots, hmem, hctl⟩ := servePosition_returns (s := s.opensBurst) (n := n) (i := i)
    (pos := pos) (g := g)
    (by show ∀ x, s.map.segs.head? = some x → _; rw [hone]; exact fun x hx => by cases hx; exact Nat.ne_of_gt hstop)
    h.cursor hp hh (openSeg_eq_some.mpr ⟨by show s.map.segs.getLast? = _; rw [hone]; rfl, hopen⟩)
    (by rw [hcount, hfree]; exact le_rfl)
  have hcross : crossing pos v = v := by
    refine crossing_of_not_pending ?_
    rw [hctl]
    exact (passSlot_applyPending (s := s.opensBurst)).trans hpend
  rw [hcross] at hv
  obtain ⟨t, htaken, ht, htcur⟩ := h.taken hv (by rw [hplay]) hmem
  refine ⟨t, htaken, by rw [htcur, hplay]; rfl, ?_, ?_⟩
  · rw [ht.slots rfl, hslots, h.slots_frees hg hl]
  · unfold State.holdReturned at hret ⊢
    rw [ht.intake rfl, ht.rc rfl, ht.segs rfl]
    exact hret

/-- A pending APPLY reads the Control Unit but its flags, the phase's being PARKED, and the protected blocks
(R173, R178). -/
theorem applyPasses_congr (h : s.flagsOnly v) (hs : s.rc.phase ≠ .parked) (hv : v.rc.phase ≠ .parked)
    (hr : v.router = s.router) : applyPasses v = applyPasses s := by
  unfold applyPasses
  rw [h, hr, beq_false_of_ne hs, beq_false_of_ne hv]

theorem State.flagsOnly.applyTookEffect {b : Bool} (h : s.flagsOnly v) (ht : v.applyTookEffect t b) :
    s.applyTookEffect t b := by
  unfold State.applyTookEffect at ht ⊢
  rw [h] at ht
  exact ht

/-- A pending APPLY takes effect at the crossing into another block, and at no other serve (R113, R177). -/
theorem crossing_succ (h : v.play.cursor = pos + 1) (hp : v.ctl.applyPending = true) :
    crossing pos v = if (pos + 1) % 588 = 0 then applyNow v else v := by
  have hb : blockOf pos = blockOf (pos + 1) ↔ (pos + 1) % 588 ≠ 0 := by
    show pos / 588 = (pos + 1) / 588 ↔ _
    omega
  unfold crossing applyIfPending
  rw [h, hp, if_pos rfl]
  by_cases hm : (pos + 1) % 588 = 0
  · rw [if_pos hm, if_neg fun he => hb.mp he hm]
  · rw [if_neg hm, if_pos (hb.mpr hm)]

/-- A serve with an APPLY pending, which takes effect where it crosses into another block (R113, R177). -/
theorem State.takesServe.applies (h : s.takesServe s.opensBurst g pos n i) (hpend : s.ctl.applyPending = true)
    (hone : s.map.segs = [g]) (hstop : pos + 1 < g.stop) (hg : (Machine.slotAt s n).gapMark = false)
    (hp : s.rc.phase = .streaming ∨ s.rc.phase = .holding)
    (hrel : s.intake.hold = true → freeCount (passSlot g pos n s.opensBurst) < s.ctl.params.holdMargin + 8) :
    ∃ t, s.taken t g pos n i ∧ t.play.cursor = pos + 1 ∧
      ((pos + 1) % 588 = 0 → s.applyTookEffect t (applyPasses s) ∧ t.ctl.lastCode = 6 ∧
        t.ctl.lastResult = (if applyPasses s then .done else .refusedConfig)) ∧
      ((pos + 1) % 588 ≠ 0 → t.ctl.applyPending = true ∧ t.ctl.params = s.ctl.params ∧
        t.ctl.applyInd = s.ctl.applyInd ∧ t.ctl.lastCode = s.ctl.lastCode) := by
  have hends : ∀ x, s.map.segs.head? = some x → x.stop ≠ pos + 1 := by
    rw [hone]
    exact fun x hx => by cases hx; exact Nat.ne_of_gt hstop
  have live : ∀ u : State, (u.rc.phase = .streaming ∨ u.rc.phase = .holding) → u.rc.phase ≠ .parked := by
    rintro u (hu | hu) <;> rw [hu] <;> decide
  obtain ⟨v, hv, hto⟩ := servePosition_stays (s := s.opensBurst) (n := n) (i := i) hends h.cursor hp hrel
  have hflags : s.flagsOnly v := State.flagsOnly.trans (t := passSlot g pos n s.opensBurst)
    (.of_touches (s := s.opensBurst) (passSlot_touches_slots (h.gapMark hg)) rfl) hto.ctl
  have hcur : v.play.cursor = pos + 1 := by rw [hto.play]; rfl
  have hvp : v.ctl.applyPending = true := by rw [hflags]; exact hpend
  rw [crossing_succ hcur hvp] at hv
  by_cases hm : (pos + 1) % 588 = 0
  · rw [if_pos hm] at hv
    obtain ⟨heff, hcode, hres, hmem, hplay⟩ := applyNow_spec (s := v)
    replace hplay := hplay (by rw [hto.segs, hcur]; exact hends)
    rw [applyPasses_congr hflags (live s hp) (live v hto.phase) hto.router] at heff hres
    obtain ⟨t, htaken, ht, htcur⟩ := h.taken hv (by rw [hplay, hto.play]) (hmem.trans hto.mem)
    refine ⟨t, htaken, by rw [htcur, hplay, hcur], fun _ => ?_, fun hn => absurd hm hn⟩
    refine ⟨hflags.applyTookEffect ?_, ?_, ?_⟩
    · unfold State.applyTookEffect State.flag at heff ⊢
      rw [ht.ctl rfl]
      exact heff
    · rw [ht.ctl rfl]
      exact hcode
    · rw [ht.ctl rfl]
      exact hres
  · rw [if_neg hm] at hv
    obtain ⟨t, htaken, ht, htcur⟩ := h.taken hv (by rw [hto.play]) hto.mem
    refine ⟨t, htaken, htcur.trans hcur, fun h0 => absurd h0 hm, fun _ => ?_⟩
    rw [ht.ctl rfl, hflags]
    exact ⟨hpend, rfl, rfl, rfl⟩

end
end Sys2Proof.Machine
end

section
/-! PROOFS. Settles O43: a burst of one word serves the cursor position. -/
namespace Sys2Proof.Machine

/-- Settles O43: the take of the burst is one serve (`State.takesServe`), found at the cursor or after a jump, and
each clause names one outcome of that serve. -/
theorem burstTakesOneServe : Obligations.BurstTakesOneServe := by
  intro s r k hr hw hq hk hb hm hp hrel g pos n i hloc hmerge taken served noRelease last
  have atCursor : ∀ {rest : List Segment}, s.map.segs = g :: rest → g.start ≤ s.play.cursor →
      pos = s.play.cursor → pos < g.stop → s.takesServe s.opensBurst g pos n i :=
    takesServe_cursor hr hw hq hk hb hm hloc hmerge
  have leadHere : s.map.segs = [g] → g.start ≤ s.play.cursor → pos = s.play.cursor → s.lead = g.stop - pos :=
    fun hone hstart hpos => lead_of_one hone (by omega)
  refine ⟨fun hpend hone hstart hpos hstop => ?_, fun hone hstart hpos hstop hl hg hpend hopen hlink hph hh hfree => ?_,
    fun hone hstart hpos hstop hg hno hpend => ?_, fun hpend rest hsegs hstart hpos hstop hclosed hg hent hno => ?_,
    fun hpend hone hc hpos hstop hl hg => ?_⟩
  · have h := atCursor hone hstart hpos (Nat.lt_of_succ_lt hstop)
    have serve := h.served hpend hone hstop (hpos ▸ hstart) (leadHere hone hstart hpos) hp
    refine ⟨fun hl hg => ?_, fun hl hg hno => ?_, fun hg hl => ?_⟩
    · obtain ⟨t, hserved, hcur, hlead, hslots, hsegs, hgaps, -⟩ :=
        serve (h.noRelease hg hrel fun hlast => absurd hlast hl)
      rw [h.passSlot_stays hg hl] at hslots hgaps
      exact ⟨t, hserved, hcur, hlead, hslots, hsegs, hgaps⟩
    · obtain ⟨t, hserved, hcur, hlead, hslots, hsegs, hgaps, -⟩ := serve (h.noRelease hg hrel fun _ => hno)
      exact ⟨t, hserved, hcur, hlead, hslots.trans (h.slots_frees hg hl), hsegs, hgaps.trans (h.gaps_frees hg)⟩
    · have hgap := h.passSlot_gap hg hl
      rw [hgap] at serve
      obtain ⟨t, hserved, hcur, hlead, hslots, hsegs, hgaps, hflag, hcount⟩ :=
        serve fun hh => by rw [freeCount_gapReached]; exact hrel hh
      refine ⟨t, hserved, hcur, hlead, hslots.trans gapReached_slots, hsegs, hflag _ gapReached_flag,
        (hcount _).trans gapReached_count, ?_, ?_⟩
      · rw [hgaps]
        exact gapReached_entries
      · rw [hgaps]
        exact gapReached_fetch
  · exact (atCursor hone hstart hpos (Nat.lt_of_succ_lt hstop)).returns hpend hone hstop hl hg hopen hlink hph hh hfree
  · have h := atCursor hone hstart hpos (Nat.lt_of_succ_lt hstop)
    exact h.applies hpend hone hstop hg hp (h.noRelease hg hrel hno)
  · have h := atCursor hsegs hstart hpos (hstop ▸ Nat.lt_succ_self pos)
    obtain ⟨t, hserved, hsegs', hreport, hslots, hcur⟩ :=
      h.retires hpend hsegs hstop hclosed hg hent hp (h.noRelease hg hrel fun _ => hno)
    refine ⟨t, hserved, hsegs', hreport, hslots, hcur.trans ?_⟩
    cases rest <;> rfl
  · have h := takesServe_jump hr hw hq hk hb hm hloc hmerge hone hc hpos (Nat.lt_of_succ_lt hstop) hpend
    obtain ⟨t, hserved, hcur, hlead, hslots, hsegs, hgaps, -⟩ :=
      h.served hpend hone hstop (Nat.le_of_eq hpos.symm) (lead_of_one hone (by omega)) hp
        (h.noRelease hg hrel fun hlast => absurd hlast hl)
    refine ⟨t, hserved, hcur, hlead, hslots.trans ?_, hsegs, hgaps.trans (h.gaps_frees hg)⟩
    rw [h.passSlot_stays hg hl, h.touches.slots rfl]

end Sys2Proof.Machine
end

section
/-! PROOFS. Intake beats that are dropped or held (O23, O25, O26): misuse, frames outside FILLING, and every beat
of a hand-off. -/
namespace Sys2Proof.Machine

section
variable {s : State}

theorem exec_intakeUnusedBeat {offset : Nat} (h : inReset s = false) (hlo : 2356 ≤ offset) (hhi : offset ≤ 4092)
    (hword : offset % 4 = 0) : exec (.intakeUnusedBeat offset) s = .next (intakeBeat .unused s) := by
  have hu : isUnusedOffset offset = true := by simp [isUnusedOffset, hlo, hhi, hword]
  show Host.Outcome.next (live _ s) = _
  rw [live_eq h, if_pos hu]

/-! ### Misuse (R24, R25) -/

/-- Outside a hand-off a header without all four enables is misuse (R25). -/
theorem intakeBeat_partialHeader {w : Word} {en : BitVec 4} (h : s.intake.phase ≠ .handingOver) (he : en ≠ 15) :
    intakeBeat (.header w en) s = accessDrop s := by
  unfold intakeBeat
  rw [if_neg h]
  exact if_neg he

/-- Outside a hand-off a beat at an unused offset is misuse (R24). -/
theorem intakeBeat_unused (h : s.intake.phase ≠ .handingOver) : intakeBeat .unused s = accessDrop s := by
  unfold intakeBeat
  rw [if_neg h]

/-! ### Frames outside FILLING (R26, R31, R41) -/

theorem takeFrame_disabled (i : Nat) (w : Word) (ers : Bool) : takeFrame i w 0 ers s = s := if_pos rfl

section
variable {i : Nat} {w : Word} {en : BitVec 4} {ers : Bool}

/-- With no block begun, and in PARKED, a frame is discarded and counted (R31). -/
theorem takeFrame_discards (he : en ≠ 0) (h : s.rc.phase = .parked ∨ s.intake.phase = .none) :
    takeFrame i w en ers s = intakeDiscard s := by
  unfold takeFrame
  rw [if_neg he]
  rcases h with hp | hi
  · rw [if_pos hp]
  · rw [hi, ite_self]

/-- A frame of a refused block is dropped without a count (R28, R31). -/
theorem takeFrame_refused (hp : s.rc.phase ≠ .parked) (hi : s.intake.phase = .refused) :
    takeFrame i w en ers s = s := by
  unfold takeFrame
  rw [hi, if_neg hp, ite_self]

end

/-! ### The hand-off (R35) -/

theorem intakeBeat_handingOver (b : IntakeBeat) (h : s.intake.phase = .handingOver) :
    intakeBeat b s = { s with intake := { s.intake with held := s.intake.held ++ [b] } } := if_pos h

end

/-- Settles O23: both misuses are one access drop. -/
theorem misusedIntakeBeats : Obligations.MisusedIntakeBeats := by
  intro s hr hi dropped
  refine ⟨fun w en he => ?_, fun offset hlo hhi hword => ?_⟩
  · rw [exec_intakeHeader hr, intakeBeat_partialHeader hi he]
    rfl
  · rw [exec_intakeUnusedBeat hr hlo hhi hword, intakeBeat_unused hi]
    rfl

/-- Settles O25: outside a hand-off and outside FILLING a frame with a byte enabled is discarded, or belongs to a
refused block. -/
theorem frameBeatIsDropped : Obligations.FrameBeatIsDropped := by
  intro i w en ers s hr hlt hi counted
  rw [exec_intakeFrame hr hlt, intakeBeat_frame hi]
  refine ⟨fun he => ?_, fun he h => ?_, fun _ hp href => ?_⟩
  · rw [he, takeFrame_disabled]
  · rw [takeFrame_discards he h]
    rfl
  · rw [takeFrame_refused hp href]

/-- Settles O26: whatever the beat, a hand-off only adds it to the held ones. -/
theorem handOffHoldsIntakeBeats : Obligations.HandOffHoldsIntakeBeats := by
  intro s hr hi holding
  refine ⟨fun w en => ?_, fun i w en ers hlt => ?_, fun offset hlo hhi hword => ?_⟩
  · rw [exec_intakeHeader hr, intakeBeat_handingOver _ hi]
  · rw [exec_intakeFrame hr hlt, intakeBeat_handingOver _ hi]
  · rw [exec_intakeUnusedBeat hr hlo hhi hword, intakeBeat_handingOver _ hi]

end Sys2Proof.Machine
end

section
/-! PROOFS. Laws of a grant (R132 to R134, R139 to R142): the grant to an engine client that waits alone, and the
grant to a port whose main piece is one beat that passes to memory. -/
namespace Sys2Proof.Machine

section
variable {s t v : State} {c : EngineClient} {r q : ActiveRequest} {b : Beat} {port : Port} {w : Bool}

/-! ### A grant to an engine client (R140, R141) -/

/-- What a grant to one client performs (R33, R52, R74, R174). -/
def clientGrant (c : EngineClient) (s : State) : State :=
  match c with
  | .intake => intakeGrant s
  | .recovery => captureGrant s
  | .matcher => matchGrant s
  | .control => zeroWriteGrant s

/-- The arbiter has granted a client (R140, R141). -/
def State.granted (c : EngineClient) (s : State) : State := { s with arb := { waitCount := 0, last := c } }

theorem engineGrant_of_nextClient (h : nextClient s = some c) : engineGrant s = clientGrant c (s.granted c) := by
  unfold engineGrant
  rw [h]
  cases c <;> rfl

theorem matchGrant_arb : (matchGrant s).arb = s.arb := by
  unfold matchGrant
  split
  · rfl
  · dsimp only
    split
    · split <;> rfl
    · rfl

theorem intakeGrant_arb : (intakeGrant s).arb = s.arb := by
  unfold intakeGrant
  split <;> rfl

theorem captureGrant_arb : (captureGrant s).arb = s.arb := by
  unfold captureGrant
  split <;> rfl

theorem clientGrant_arb (c : EngineClient) : (clientGrant c s).arb = s.arb := by
  cases c with
  | intake => exact intakeGrant_arb
  | recovery => exact captureGrant_arb
  | matcher => exact matchGrant_arb
  | control => rfl

/-- With one engine client waiting and no port busy, a grant is that client's, and the wait count 0 (R140, R141). -/
theorem memoryGrant_engineOnly (h : s.engineOnly c) :
    exec .memoryGrant s = .next (clientGrant c (s.granted c)) := by
  obtain ⟨hr, hw, -⟩ := id h
  have hg : memoryGrant s = settleArbiter (clientGrant c (s.granted c)) := by
    unfold memoryGrant grant
    rw [admitWaiting_of_waiting_nil hw, chooseGrant_engineOnly h]
    exact congrArg settleArbiter (engineGrant_of_nextClient (nextClient_engineOnly h))
  rw [settleArbiter_of_waitCount_zero (by rw [clientGrant_arb]; rfl)] at hg
  rw [← hg]
  exact next_live hr

/-! ### A grant to a port (R139, R140) -/

/-- After a grant that leaves the engine's clients as they are the wait count stands (R140). -/
theorem settleArbiter_countWait (hc : engineClients t = engineClients s) (ha : t.arb = (countWait s).arb) :
    settleArbiter t = t := by
  by_cases he : enginePresents s = true
  · exact if_neg (by rw [hc]; simpa [enginePresents] using he)
  · refine settleArbiter_of_waitCount_zero ?_
    rw [ha]
    exact if_neg he

/-- Port P presents its main piece unless the engine has waited for four grants (R138, R140). -/
theorem chooseGrant_portP (he : enginePresents s = false ∨ s.arb.waitCount ≠ 4) (hq : s.router.reqP = some r)
    (hm : r.main ≠ []) : chooseGrant s = some .portP := by
  have hp : portPPresents s = true := by simp [portPPresents, hq, hm]
  unfold chooseGrant
  rw [if_neg (by simpa [imp_iff_not_or] using he), if_pos hp]

/-- With port P idle port D presents its main piece, unless the engine has waited for four grants (R139, R140). -/
theorem chooseGrant_portD (he : enginePresents s = false ∨ s.arb.waitCount ≠ 4) (hp : s.router.reqP = none)
    (hb : s.play.burst = none) (hq : s.router.reqD = some r) (hm : r.main ≠ []) (ht : r.touchesIntake = false) :
    chooseGrant s = some .portD := by
  have hpp : portPPresents s = false := by simp [portPPresents, hp, playPiece_of_no_burst hb]
  have hpr : portPRequesting s = false := by simp [portPRequesting, hb]
  have hd : portDPresents s = true := by simp [portDPresents, hq, hm, ht]
  unfold chooseGrant
  rw [if_neg (by simpa [imp_iff_not_or] using he), if_neg (by simp [hpp]), if_neg (by simp [hpr]), if_pos hd]

section
variable (hr : inReset s = false) (hw : s.router.waiting = []) (he : enginePresents s = false ∨ s.arb.waitCount ≠ 4)
  (hm : r.main ≠ []) (hc : engineClients t = engineClients s) (ha : t.arb = (countWait s).arb)
include hr hw he hm hc ha

/-- A grant to port P's main piece that leaves the engine's clients as they are (R132, R140). -/
theorem memoryGrant_portP (hq : s.router.reqP = some r) (ht : takeMain .p r (countWait s) = t) :
    exec .memoryGrant s = .next t := by
  have hg : memoryGrant s = settleArbiter (portPGrant (countWait s)) := by
    unfold memoryGrant grant
    rw [admitWaiting_of_waiting_nil hw, chooseGrant_portP he hq hm]
  have hp : portPGrant (countWait s) = t := by
    unfold portPGrant
    rw [show (countWait s).router.reqP = some r from hq]
    exact (if_neg hm).trans ht
  rw [hp, settleArbiter_countWait hc ha] at hg
  rw [← hg]
  exact next_live hr

/-- A grant to port D's main piece that leaves the engine's clients as they are (R139, R140). -/
theorem memoryGrant_portD (hp : s.router.reqP = none) (hb : s.play.burst = none) (hq : s.router.reqD = some r)
    (htouch : r.touchesIntake = false) (ht : takeMain .d r (countWait s) = t) : exec .memoryGrant s = .next t := by
  have hg : memoryGrant s = settleArbiter (portDGrant (countWait s)) := by
    unfold memoryGrant grant
    rw [admitWaiting_of_waiting_nil hw, chooseGrant_portD he hp hb hq hm htouch]
  have hd : portDGrant (countWait s) = t := by
    unfold portDGrant
    rw [show (countWait s).router.reqD = some r from hq]
    exact ht
  rw [hd, settleArbiter_countWait hc ha] at hg
  rw [← hg]
  exact next_live hr

end

/-! ### A beat that passes to memory (R131, R134) -/

/-- A write beat outside the protected regions, and at port D outside the intake window, is written (R131, R134). -/
theorem takeBeat_writes {s0 : State} (h : b.region = .elsewhere ∨ b.region = .intake ∧ port = .p) :
    takeBeat port true s0 b s =
      (s.onMem fun m => Memory.writeWord m b.addr b.data.data b.data.enables, 0) := by
  rcases h with h | ⟨h, rfl⟩ <;> simp [takeBeat, isProtected, passToMemory, h]

/-- A read beat outside the play window and the status area reads its word (R131, R134). -/
theorem takeBeat_reads {s0 : State} (hp : b.region ≠ .play) (hs : b.region ≠ .status) :
    takeBeat port false s0 b s = (s, Memory.readWord s.mem b.addr) := by
  unfold takeBeat
  cases h : b.region with
  | play => exact absurd h hp
  | status => exact absurd h hs
  | ring => rfl
  | intake => simp [isProtected, passToMemory]
  | parameter => rfl
  | elsewhere => rfl

/-! ### A main piece of one beat (R129, R132, R133) -/

/-- A piece of one beat leaves none behind, whatever the beat does. -/
theorem takeBeats_singleton (s0 : State) (w : Bool) : takeBeats port w s0 [b] s =
    (if w then (takeBeat port w s0 b s).1
      else putWord port b.place (takeBeat port w s0 b s).2 (takeBeat port w s0 b s).1, []) := by
  unfold takeBeats
  dsimp only
  rw [takeBeats, ite_self]

/-- A piece of one beat that is written (R134). -/
theorem takeBeats_writes {s0 : State} (h : b.region = .elsewhere ∨ b.region = .intake ∧ port = .p) :
    takeBeats port true s0 [b] s =
      (s.onMem fun m => Memory.writeWord m b.addr b.data.data b.data.enables, []) := by
  rw [takeBeats_singleton, if_pos rfl, takeBeat_writes h]

/-- A piece of one beat that is read into the assembly buffer (R132, R134). -/
theorem takeBeats_reads {s0 : State} (hp : b.region ≠ .play) (hs : b.region ≠ .status) :
    takeBeats port false s0 [b] s = (putWord port b.place (Memory.readWord s.mem b.addr) s, []) := by
  rw [takeBeats_singleton, if_neg Bool.false_ne_true, takeBeat_reads hp hs]

/-- A request with no beat of its main piece left, which a held header may have opened anew (R133). -/
def ActiveRequest.taken (r : ActiveRequest) (opening : Bool) : ActiveRequest :=
  { r with main := [], held := false, opening := opening }

/-- A port P request with neither a main nor a play beat left completes (R129). -/
theorem finishP_completes (hq : s.router.reqP = some q) (hm : q.main = []) (hp : q.plays = []) :
    finishP s = s.onRouter fun k =>
      { k with reqP := none, returnP := if q.isWrite then k.returnP else q.buffer } := by
  unfold finishP
  rw [hq]
  exact if_pos ⟨hm, hp⟩

/-- A port D request with no beat left completes when no header is held (R129, R133). -/
theorem finishD_completes (hq : s.router.reqD = some q) (hm : q.main = []) (ho : q.opening = false)
    (hh : s.intake.held = []) : finishD s = s.onRouter fun k =>
      { k with reqD := none, returnD := if q.isWrite then k.returnD else q.buffer } := by
  unfold finishD
  rw [hq]
  exact if_pos ⟨hm, ho, hh⟩

/-- Without a request at port P no completion of a burst begins (R138). -/
theorem settleAhead_of_idle (h : s.router.reqP = none) : settleAhead s = s := by
  have hb : burstReady s = none := by
    unfold burstReady
    rw [h]
    cases s.play.burst <;> rfl
  unfold settleAhead
  rw [hb]

/-- Port P's request without a play beat completes with its main piece (R129). -/
theorem takeMain_completesP (hm : r.main = [b]) (hw : r.isWrite = w)
    (hv : takeBeats .p w (setRequest .p (some (r.taken false)) s) [b]
      (setRequest .p (some (r.taken false)) s) = (v, [])) (hq : v.router.reqP = some q) (hp : q.plays = []) :
    takeMain .p r s = v.onRouter fun k =>
      { k with reqP := none, returnP := if q.isWrite then k.returnP else q.buffer } := by
  have ht : takeMain .p r s =
      settleAhead (finishP (setRequest .p ((requestAt v .p).map fun x => x.taken (opensPiece r v)) v)) := by
    unfold takeMain
    dsimp only
    subst hw
    unfold ActiveRequest.taken at hv
    rw [hm, hv]
    rfl
  rw [ht, show requestAt v .p = some q from hq, finishP_completes (q := q.taken _) rfl rfl hp]
  exact settleAhead_of_idle rfl

/-- Port D's request completes with its main piece when the Intake Unit holds nothing (R129, R133). -/
theorem takeMain_completesD (hm : r.main = [b]) (hw : r.isWrite = w)
    (hv : takeBeats .d w (setRequest .d (some (r.taken false)) s) [b]
      (setRequest .d (some (r.taken false)) s) = (v, [])) (hq : v.router.reqD = some q)
    (hh : v.intake.held = []) : takeMain .d r s = v.onRouter fun k =>
      { k with reqD := none, returnD := if q.isWrite then k.returnD else q.buffer } := by
  have ho : opensPiece r v = false := by simp [opensPiece, hh]
  have ht : takeMain .d r s =
      finishD (setRequest .d ((requestAt v .d).map fun x => x.taken (opensPiece r v)) v) := by
    unfold takeMain
    dsimp only
    subst hw
    unfold ActiveRequest.taken at hv
    rw [hm, hv]
    rfl
  rw [ht, show requestAt v .d = some q from hq]
  exact finishD_completes (q := q.taken _) rfl rfl ho hh

/-! ### Grants of one word that passes to memory (R132, R134) -/

section
variable (hr : inReset s = false) (hw : s.router.waiting = [])
  (he : enginePresents s = false ∨ s.arb.waitCount ≠ 4) (hm : r.main = [b])
include hr hw he hm

/-- A word that port P writes in the intake window is memory like any other (R131, R134). -/
theorem memoryGrant_writesP (hq : s.router.reqP = some r) (hp : r.plays = []) (hwr : r.isWrite = true)
    (hb : b.region = .elsewhere ∨ b.region = .intake) :
    exec .memoryGrant s = .next { s with
      mem := Memory.writeWord s.mem b.addr b.data.data b.data.enables
      arb := (countWait s).arb, router := { s.router with reqP := none } } := by
  have ht := takeMain_completesP (s := countWait s) (q := r.taken false) hm hwr
    (takeBeats_writes (hb.imp_right (⟨·, rfl⟩))) rfl hp
  rw [show (r.taken false).isWrite = true from hwr] at ht
  exact memoryGrant_portP hr hw he (by simp [hm]) rfl rfl hq ht

section
variable (hp : s.router.reqP = none) (hburst : s.play.burst = none) (hq : s.router.reqD = some r)
  (ht : r.touchesIntake = false) (hh : s.intake.held = [])
include hp hburst hq ht hh

theorem memoryGrant_writesD (hwr : r.isWrite = true) (hb : b.region = .elsewhere) :
    exec .memoryGrant s = .next { s with
      mem := Memory.writeWord s.mem b.addr b.data.data b.data.enables
      arb := (countWait s).arb, router := { s.router with reqD := none } } := by
  have hd := takeMain_completesD (s := countWait s) (q := r.taken false) hm hwr (takeBeats_writes (.inl hb)) rfl hh
  rw [show (r.taken false).isWrite = true from hwr] at hd
  exact memoryGrant_portD hr hw he (by simp [hm]) rfl rfl hp hburst hq ht hd

theorem memoryGrant_readsD {w : Word} (hrd : r.isWrite = false) (hbuf : r.buffer = [w]) (hplace : b.place = 0)
    (hplay : b.region ≠ .play) (hstatus : b.region ≠ .status) :
    exec .memoryGrant s = .next { s with
      arb := (countWait s).arb
      router := { s.router with reqD := none, returnD := [Memory.readWord s.mem b.addr] } } := by
  let q : ActiveRequest := { r.taken false with buffer := [Memory.readWord s.mem b.addr] }
  have hbuf' : ({ r.taken false with buffer := r.buffer.set b.place (Memory.readWord s.mem b.addr) } : ActiveRequest) =
      q := by
    rw [hbuf, hplace]
    rfl
  have hd := takeMain_completesD (s := countWait s) (q := q) hm hrd (takeBeats_reads hplay hstatus)
    (congrArg some hbuf') hh
  rw [show q.isWrite = false from hrd] at hd
  exact memoryGrant_portD hr hw he (by simp [hm]) rfl rfl hp hburst hq ht hd

end
end

end
end Sys2Proof.Machine
end

section
/-! PROOFS. O19: what a grant to each engine client performs, and to a port of one word. -/
namespace Sys2Proof.Machine

section
variable {s : State} {p : ReadPiece} {a : Align} {j : WriteJob}

/-! ### The Controller's piece (R52) -/

/-- A tail position after a piece has been read and what can be gathered has been. -/
def gatherItem (s : State) (p : ReadPiece) (it : CaptureItem) : CaptureItem :=
  settleItem s (if it.value = none ∧ (s.play.cursor : Int) ≤ it.pos then
    { it with source := it.source.map (fillItem s p) } else it)

theorem gatherItem_of_gathered {it : CaptureItem} (h : it.value ≠ none) : gatherItem s p it = it := by
  unfold gatherItem settleItem
  rw [if_neg fun hc => h hc.1]
  cases hv : it.value with
  | none => exact absurd hv h
  | some f => rfl

/-- A position that the ring is to give takes what the piece reads, and is gathered once it is read whole. -/
theorem gatherItem_of_source {it : CaptureItem} {f : FetchItem} (hv : it.value = none)
    (hp : (s.play.cursor : Int) ≤ it.pos) (hf : it.source = some f) :
    gatherItem s p it = { it with
      source := some (fillItem s p f)
      value := if itemRead (fillItem s p f) then some (itemFrame (fillItem s p f)) else none } := by
  unfold gatherItem
  rw [if_pos ⟨hv, hp⟩, hf]
  unfold settleItem
  rw [Option.map_some]
  dsimp only
  rw [hv]
  dsimp only
  rw [if_neg (Int.not_lt.mpr hp)]
  split <;> rfl

theorem captureGrant_gathers {c : Capture} (hc : s.rc.capture = some c) (hp : captureWants s = some p) :
    captureGrant s = { s with rc := { s.rc with capture := some { c with items := c.items.map (gatherItem s p) } } } := by
  unfold captureGrant
  rw [hp]
  dsimp only [settleCapture, State.onRc]
  rw [hc, Option.map_some, Option.map_some, List.map_map]
  rfl

/-! ### The Match Engine's reads and writes (R74, R85, R86, R141) -/

/-- A piece that leaves a read to come only reads (R74, R85, R86). -/
theorem matchGrant_reads (hw : matchWrite s = none) (hp : nextPiece s.me.fetch = some p)
    (hu : ∃ f ∈ s.me.fetch.map (fillItem s p), itemRead f = false) :
    matchGrant s = { s with me := { s.me with fetch := s.me.fetch.map (fillItem s p) } } := by
  have hf : performPiece s s.me.fetch = s.me.fetch.map (fillItem s p) := by
    unfold performPiece
    rw [hp]
  have hall : ¬ (s.me.fetch.map (fillItem s p)).all itemRead = true := by
    obtain ⟨f, hmem, hread⟩ := hu
    intro h
    exact Bool.false_ne_true (hread.symm.trans (List.all_eq_true.mp h f hmem))
  unfold matchGrant
  rw [hw]
  dsimp only [State.onMe]
  rw [hf]
  exact if_neg hall

theorem matchGrant_writes (hw : matchWrite s = some j) : matchGrant s = (performJob j s).onMe (matchWritten j) := by
  unfold matchGrant
  rw [hw]

/-- The chunk of frame writes at the front: all words at consecutive indexes, up to the room there is (R86). -/
theorem writeChunk_of_consecutive {words : List Word} {rest : List (Nat × Word)} {room i : Nat}
    (hroom : words.length ≤ room)
    (hend : words.length = room ∨ ∀ w more, rest ≠ (i + words.length, w) :: more) :
    writeChunk i room ((List.range' i words.length).zip words ++ rest) = words := by
  induction words generalizing room i with
  | nil =>
    cases room with
    | zero => rfl
    | succ room =>
      cases rest with
      | nil => rfl
      | cons x more =>
        obtain ⟨k, w⟩ := x
        have hk : k ≠ i := fun hk => hend.elim nofun fun h => h w more (by rw [hk]; rfl)
        exact if_neg hk
  | cons w words ih =>
    cases room with
    | zero => exact absurd hroom (Nat.not_succ_le_zero _)
    | succ room =>
      rw [List.length_cons] at hroom hend
      have hchunk := ih (room := room) (i := i + 1) (by omega)
        (hend.imp (by omega) fun h v more hr => h v more (by rw [hr]; congr 2; omega))
      rw [List.length_cons, List.range'_succ, List.zip_cons_cons, List.cons_append]
      exact (if_pos rfl).trans (congrArg (w :: ·) hchunk)

section
variable (ho : s.me.orphans = []) (ha : s.me.align = some a)
include ho ha

/-- The merge's frame writes at the front are due in one request, up to 8 of them (R86, R141; log 17). -/
theorem matchWrite_mergeWrite {i : Nat} {words : List Word} {rest : List (Nat × Word)}
    (hs : a.stage = .mergeWrite) (hw : a.writes = (List.range' i words.length).zip words ++ rest)
    (hpos : 0 < words.length) (hlen : words.length ≤ 8)
    (hend : words.length = 8 ∨ ∀ w more, rest ≠ (i + words.length, w) :: more) :
    matchWrite s = some { addr := frameAddr s a.slot i, words := words } := by
  have hchunk := writeChunk_of_consecutive hlen hend
  cases words with
  | nil => exact absurd hpos (Nat.lt_irrefl 0)
  | cons w words =>
    rw [List.length_cons, List.range'_succ, List.zip_cons_cons, List.cons_append] at hw hchunk
    unfold matchWrite
    rw [ho, ha]
    dsimp only
    rw [hs, hw]
    dsimp only
    rw [hchunk]

theorem matchWrite_flagMap {rest : List WriteJob} (hs : a.stage = .flagMap) (hj : a.jobs = j :: rest) :
    matchWrite s = some j := by
  unfold matchWrite
  rw [ho, ha]
  dsimp only
  rw [hs, hj]

theorem matchWritten_mergeWrite (hs : a.stage = .mergeWrite) :
    matchWritten j s.me = { s.me with align := some { a with writes := a.writes.drop j.words.length } } := by
  simp only [matchWritten, ho, ha, hs, Option.map_some]

theorem matchWritten_flagMap (hs : a.stage = .flagMap) :
    matchWritten j s.me = { s.me with align := some { a with jobs := a.jobs.drop 1 } } := by
  simp only [matchWritten, ho, ha, hs, Option.map_some]

/-- The merge's copied frames at consecutive indexes reach memory (R86; log 17). -/
theorem matchGrant_mergeWrite {i : Nat} {words : List Word} {rest : List (Nat × Word)}
    (hs : a.stage = .mergeWrite) (hw : a.writes = (List.range' i words.length).zip words ++ rest)
    (hpos : 0 < words.length) (hlen : words.length ≤ 8)
    (hend : words.length = 8 ∨ ∀ w more, rest ≠ (i + words.length, w) :: more) :
    matchGrant s = { s with
      mem := Memory.writeWords s.mem (frameAddr s a.slot i) words
      me := { s.me with align := some { a with writes := rest } } } := by
  have hdrop : a.writes.drop words.length = rest := by rw [hw, List.drop_left' (by simp)]
  rw [matchGrant_writes (matchWrite_mergeWrite ho ha hs hw hpos hlen hend)]
  dsimp only [State.onMe, performJob, State.onMem]
  rw [matchWritten_mergeWrite ho ha hs, hdrop]

/-- The merge's flag-map request reaches memory (R87). -/
theorem matchGrant_flagMap {rest : List WriteJob} (hs : a.stage = .flagMap) (hj : a.jobs = j :: rest) :
    matchGrant s = { s with
      mem := Memory.writeWords s.mem j.addr j.words
      me := { s.me with align := some { a with jobs := rest } } } := by
  rw [matchGrant_writes (matchWrite_flagMap ho ha hs hj)]
  dsimp only [State.onMe, performJob, State.onMem]
  rw [matchWritten_flagMap ho ha hs, hj]
  rfl

end

theorem intakeGrant_writes {rest : List WriteJob} (h : s.intake.flagJobs = j :: rest) : intakeGrant s =
    { s with mem := Memory.writeWords s.mem j.addr j.words, intake := { s.intake with flagJobs := rest } } := by
  unfold intakeGrant
  rw [h]
  rfl

end

/-- Settles O19: each client's own grant, and for the ports the one beat of the main piece. -/
theorem grantOfTheZeroWrite : Obligations.GrantOfTheZeroWrite := by
  refine ⟨fun s h => ?control, fun s j rest h hj => ?intake, fun s c p h hc hp => ?recovery,
    fun s h ho => ⟨?reads, ?frames, ?flags⟩, fun s n i m f => ⟨rfl, rfl⟩, ?ports⟩
  case control => exact ⟨_, memoryGrant_engineOnly h, rfl, rfl⟩
  case intake =>
    exact (memoryGrant_engineOnly h).trans (congrArg _ (intakeGrant_writes (s := s.granted .intake) hj))
  case recovery =>
    have hg := captureGrant_gathers (s := s.granted .recovery) hc hp
    refine ⟨_, _, (memoryGrant_engineOnly h).trans (congrArg _ hg), rfl, rfl, List.length_map _, fun k it hk => ?_⟩
    rw [List.getElem?_map, hk, Option.map_some]
    exact ⟨fun hv => congrArg some (gatherItem_of_gathered hv),
      fun f hv hpos hf => congrArg some (gatherItem_of_source (s := s.granted .recovery) hv hpos hf)⟩
  case reads =>
    intro p hw hp read hu
    exact (memoryGrant_engineOnly h).trans (congrArg _ (matchGrant_reads (s := s.granted .matcher) hw hp hu))
  case frames =>
    intro a i words rest ha hs hw hpos hlen hend
    rw [← List.range'_eq_map_range] at hw
    exact (memoryGrant_engineOnly h).trans
      (congrArg _ (matchGrant_mergeWrite (s := s.granted .matcher) ho ha hs hw hpos hlen hend))
  case flags =>
    intro a j rest ha hs hj
    exact (memoryGrant_engineOnly h).trans
      (congrArg _ (matchGrant_flagMap (s := s.granted .matcher) ho ha hs hj))
  case ports =>
    intro s r b hr hw he hm hplays counted
    refine ⟨fun hq => memoryGrant_writesP hr hw he hm hq hplays, fun hp hburst hq ht _ hh => ⟨?_, fun w hrd hbuf => ?_⟩⟩
    · exact memoryGrant_writesD hr hw he hm hp hburst hq ht hh
    · exact memoryGrant_readsD hr hw he hm hp hburst hq ht hh hrd hbuf

end Sys2Proof.Machine
end

section
/-! PROOFS. The recovery sequence: line events out of the stream (O31), the track regained (O32), the end of the
tail capture (O33), and the capture record (O13). -/
namespace Sys2Proof.Machine

section
variable {s : State}

/-! ### Line events out of the stream (R43, R44, R45) -/

/-- In PARKED, STARTING, LOST and BRIDGING no break is taken (R45). -/
theorem lineBreak_stands (k : Cause)
    (h : s.rc.phase = .parked ∨ s.rc.phase = .starting ∨ s.rc.phase = .lost ∨ s.rc.phase = .bridging) :
    lineBreak k s = s := by
  unfold lineBreak
  rcases h with h | h | h | h <;> rw [h]

/-- SHK filtered high, with the rise latch set (R43, R146). -/
def State.shocked (s : State) : State :=
  { s with
    pins := { s.pins with shk := true }
    lines := { s.lines with shk := true, shkTimer := 0, riseLatch := true } }

/-- TLOST filtered high (R44). -/
def State.trackless (s : State) : State :=
  { s with
    pins := { s.pins with tlost := true }, lines := { s.lines with tlost := true, tlostTimer := 0 } }

theorem exec_shockEvent (hr : inReset s = false) (hc : s.rc.capture = none) :
    exec .shockEvent s = .next (settleArbiter (lineBreak .shock s.shocked)) :=
  (next_live hr).trans <| congrArg Host.Outcome.next <| if_neg <| by
    show ¬ s.rc.capture.isSome = true
    rw [hc]
    decide

theorem exec_trackLostEvent (hr : inReset s = false) (hc : s.rc.capture = none) :
    exec .trackLostEvent s = .next (settleArbiter (lineBreak .trackLost s.trackless)) :=
  (next_live hr).trans <| congrArg Host.Outcome.next <| if_neg <| by
    show ¬ s.rc.capture.isSome = true
    rw [hc]
    decide

end

/-- Settles O31: a fall sets its level, and a rise in these states finds no break to take, so that only the arbiter
is settled after it. -/
theorem lineEventsOnlyMoveLevels : Obligations.LineEventsOnlyMoveLevels := by
  intro s hr
  refine ⟨next_live hr, fun hc hp => ⟨⟨_, exec_shockEvent hr hc, ?_⟩, _, exec_trackLostEvent hr hc, ?_⟩⟩
  · rw [lineBreak_stands (s := s.shocked) .shock hp]
    exact settleArbiter_eq
  · rw [lineBreak_stands (s := s.trackless) .trackLost hp]
    exact settleArbiter_eq

section
variable {s : State}

/-! ### LOST left (R53, R54) -/

/-- The recovery registers as LOST is left: into BRIDGING if bridge-pending is set, otherwise into SEEKING (R53). -/
def Recovery.leavesLost (r : Recovery) (p : Params) : Recovery :=
  if r.bridgePending = true then ({ r with bridgePending := false } : Recovery).bridges p else r.seeks p

theorem leaveLost_rc : (leaveLost s).rc = s.rc.leavesLost s.ctl.params := by
  unfold leaveLost Recovery.leavesLost
  split
  · exact enterBridging_rc
  · exact enterSeeking_rc

theorem leaveLost_touches : Touches [.map, .slots, .intake, .rc] s (leaveLost s) := by
  unfold leaveLost
  split
  · exact ((onRc_touches _ rfl).comp enterBridging_touches).mono rfl
  · exact enterSeeking_touches

/-- Whichever way LOST is left, the target is published with a rising edge on RRQ (R54, R55). -/
theorem leavesLost_publishes (r : Recovery) (p : Params) : (r.leavesLost p).rrq = true ∧
    (r.leavesLost p).rrqEdges = r.rrqEdges + 1 ∧ (r.leavesLost p).deadline = p.seekTimeout := by
  unfold Recovery.leavesLost
  split <;> exact ⟨rfl, rfl, rfl⟩

theorem exec_trackRegainedEvent (hr : inReset s = false) (hp : s.rc.phase = .lost)
    (hk : s.rc.cause = some .trackLost) (hc : s.rc.capture = none) :
    exec .trackRegainedEvent s = .next (leaveLost { s with
      pins := { s.pins with tlost := false }, lines := { s.lines with tlost := false, tlostTimer := 0 } }) :=
  (next_live hr).trans <| congrArg Host.Outcome.next <| (if_pos hk).trans <| if_pos ⟨hp, hc, .inr rfl⟩

end

/-- Settles O32: the level falls, and LOST is left in the way bridge-pending chooses. -/
theorem trackRegainedLeavesLost : Obligations.TrackRegainedLeavesLost := by
  intro s hr hp hk hc
  refine ⟨_, exec_trackRegainedEvent hr hp hk hc, ?_⟩
  rw [leaveLost_touches.lines rfl, leaveLost_rc]
  obtain ⟨hrrq, hedges, hdeadline⟩ := leavesLost_publishes s.rc s.ctl.params
  refine ⟨rfl, hrrq, hedges, hdeadline, fun hb => ?_, fun hb => ?_⟩
  · rw [show s.rc.leavesLost s.ctl.params = _ from if_neg (by rw [hb]; decide)]
    exact ⟨rfl, rfl⟩
  · rw [show s.rc.leavesLost s.ctl.params = _ from if_pos hb]
    exact ⟨rfl, rfl, rfl⟩

section
variable {s : State} {c : Capture}

/-! ### The end of the tail capture (R52, R63, R64) -/

/-- With no attempt there is nothing to score (R73). -/
theorem tryEvaluate_of_attempt_none (h : s.me.attempt = none) : tryEvaluate s = s := by
  unfold tryEvaluate
  rw [h]

/-- The recovery registers with the captured frames stored (R52). -/
def Recovery.storesTail (r : Recovery) (c : Capture) : Recovery :=
  { r with tail := c.items.map fun it => it.value.getD noSource, capture := none, deferred := [] }

/-- Every frame gathered is stored (R52). -/
theorem storesTail_tail (r : Recovery) (h : ∀ it ∈ c.items, it.value.isSome = true) :
    (r.storesTail c).tail.map some = c.items.map CaptureItem.value := by
  unfold Recovery.storesTail
  rw [List.map_map]
  refine List.map_congr_left fun it hit => ?_
  obtain ⟨v, hv⟩ := Option.isSome_iff_exists.mp (h it hit)
  show some (it.value.getD noSource) = it.value
  rw [hv]
  rfl

/-- What the end of the capture `c` goes on to before what was kept acts: the tail stored, a return enters SEEKING,
and LOST is left where R53 lets it (R52). -/
def State.captureEnded (s : State) (c : Capture) : State :=
  if c.returns then enterSeeking { s with rc := s.rc.storesTail c } else lostExit { s with rc := s.rc.storesTail c }

/-- With nothing kept and no attempt, the end of the capture goes on with the sequence and that is all. -/
theorem exec_tailCaptureEnd (hr : inReset s = false) (hc : s.rc.capture = some c)
    (hv : ∀ it ∈ c.items, it.value.isSome = true) (hd : s.rc.deferred = [])
    (ha : (s.captureEnded c).me.attempt = none) :
    exec .tailCaptureEnd s = .next (settleArbiter (s.captureEnded c)) := by
  refine (next_live hr).trans (congrArg Host.Outcome.next ?_)
  unfold tailCaptureEnd
  rw [hc]
  dsimp only
  rw [if_pos (show captureDone c = true from List.all_eq_true.mpr hv), hd]
  exact congrArg settleArbiter (tryEvaluate_of_attempt_none ha)

/-- A return, and the LOST of a shock without bridge-pending, go on to SEEKING (R53, R63, R64). -/
theorem captureEnded_seeks (h : c.returns = true ∨
      (s.rc.phase = .lost ∧ s.rc.cause = some .shock ∧ s.rc.bridgePending = false)) :
    Touches [.map, .slots, .intake, .rc] s (s.captureEnded c) ∧
      (s.captureEnded c).rc = (s.rc.storesTail c).seeks s.ctl.params := by
  let u : State := { s with rc := s.rc.storesTail c }
  have hu : Touches [.rc] s u := onRc_touches (fun r => r.storesTail c) rfl
  unfold State.captureEnded
  split
  case isTrue => exact ⟨(hu.comp (enterSeeking_touches (s := u))).mono rfl, enterSeeking_rc⟩
  case isFalse hret =>
    obtain ⟨hp, hk, hb⟩ := h.resolve_left hret
    obtain ⟨hto, -, hrc⟩ := lostExit_leaves (s := u) hp rfl (by rw [show u.rc.cause = _ from hk]; decide)
    exact ⟨(hu.comp hto).mono rfl, hrc.trans (if_neg (by rw [show u.rc.bridgePending = _ from hb]; decide))⟩

end

/-- Settles O33: with the tail stored a return enters SEEKING, and so does the LOST of a shock. -/
theorem tailCaptureEndProceeds : Obligations.TailCaptureEndProceeds := by
  intro s c hr hc hv hd ha hway
  obtain ⟨hto, hrc⟩ := captureEnded_seeks hway
  refine ⟨_, exec_tailCaptureEnd hr hc hv hd (by rw [hto.me rfl]; exact ha), ?_⟩
  rw [settleArbiter_touches.rc rfl, hrc]
  exact ⟨storesTail_tail s.rc hv, rfl, rfl, rfl, rfl, rfl⟩

/-! ### The capture record (R66, R67) -/

section
variable {s : State}

/-- A read of neither the record's first nor its last word leaves it (R67). -/
theorem captureEffect_other {offset : Nat} (hf : offset / 4 ≠ 8) (hl : offset / 4 ≠ 11) :
    captureEffect offset s = s := by
  unfold captureEffect
  rw [if_neg (by show ¬ offset / 4 * 4 = 32; omega), if_neg (by show ¬ offset / 4 * 4 = 44; omega)]

/-- The read of the last word releases a held record that has not been renewed, and otherwise clears `renewed` of a
held one (R67). -/
theorem releaseRecord_rc : (releaseRecord s).rc = { s.rc with record := { s.rc.record with
    held := s.rc.record.held && s.rc.record.renewed
    renewed := !s.rc.record.held && s.rc.record.renewed } } := by
  have hheld := fun b (h : s.rc.record.held = b) n =>
    congrArg (fun b => { s.rc with record := { s.rc.record with held := b, renewed := n } }) h
  have hrenewed := fun b (h : s.rc.record.renewed = b) n =>
    congrArg (fun b => { s.rc with record := { s.rc.record with held := n, renewed := b } }) h
  unfold releaseRecord
  rw [State.onRc_rc]
  cases hh : s.rc.record.held with
  | false =>
    rw [if_neg (by decide)]
    exact hheld false hh s.rc.record.renewed
  | true =>
    rw [if_pos rfl]
    cases hn : s.rc.record.renewed with
    | true => exact hheld true hh false
    | false => exact hrenewed false hn false

end

/-- Settles O13: the two reads by what each does to the record, the break by its own words. -/
theorem captureRecordHoldTable : Obligations.CaptureRecordHoldTable := by
  refine ⟨fun s hr => ⟨next_live hr, (next_live hr).trans (congrArg Host.Outcome.next ?_)⟩,
    fun _ _ _ _ => rfl, fun _ _ => captureEffect_other, fun _ _ => rfl⟩
  exact congrArg
    (fun r => ({ s with rc := r, router := { s.router with returnP := [statusWord s 0x02C] } } : State))
    releaseRecord_rc

end Sys2Proof.Machine
end

section
/-! PROOFS. The deadline (O34, O35), and the outcome of a merge within GAP_LIMIT (O40). -/
namespace Sys2Proof.Machine

section
variable {s : State}

/-! ### The deadline counts down (R56, R64) -/

theorem deadlineRuns_iff : deadlineRuns s = true ↔
    s.rc.phase = .seeking ∨ s.rc.phase = .matching ∨ s.rc.phase = .bridging ∨
      (s.rc.phase = .gapFetch ∧ ∃ r, s.gaps.fetch = some r ∧ r.phase = .fetching) := by
  unfold deadlineRuns
  cases s.rc.phase
  case gapFetch => cases s.gaps.fetch <;> simp
  all_goals simp

theorem evaluating_iff : evaluating s = true ↔ s.me.activity = .scoring := beq_iff_eq

theorem blockPeriodBoundary_counts (h : deadlineRuns s = true)
    (hn : ¬ (s.rc.deadline = 1 ∧ evaluating s = true)) :
    blockPeriodBoundary s = { s with rc := { s.rc with deadline := s.rc.deadline - 1 } } :=
  (if_pos h).trans (if_neg hn)

theorem blockPeriodBoundary_holds (h : s.rc.deadline = 1) (he : evaluating s = true) :
    blockPeriodBoundary s = s := by
  unfold blockPeriodBoundary
  split
  · exact if_pos ⟨h, he⟩
  · rfl

end

/-- Settles O34: the counter runs in the states named, and is held at 1 only while an evaluation is in progress. -/
theorem boundaryCountsDeadline : Obligations.BoundaryCountsDeadline := by
  intro s hr runs
  refine ⟨fun h hn => ?_, fun _ h1 he => ?_, fun h => ?_⟩
  · refine (next_live hr).trans (congrArg Host.Outcome.next (blockPeriodBoundary_counts (deadlineRuns_iff.mpr h) ?_))
    rintro ⟨h1, he⟩
    exact hn.elim (· h1) (· (evaluating_iff.mp he))
  · exact (next_live hr).trans (congrArg Host.Outcome.next (blockPeriodBoundary_holds h1 (evaluating_iff.mpr he)))
  · exact (next_live hr).trans (congrArg Host.Outcome.next (if_neg fun hd => h (deadlineRuns_iff.mp hd)))

section
variable {s t : State} {r : FetchRecord}

/-! ### Flags that a block's work leaves set (R179, R180) -/

theorem closeOpen_flag {f : EventFlag} (h : s.flag f = true) : (closeOpen s).flag f = true := by
  unfold closeOpen
  split
  · exact leadCheck_flag ((((modLastSeg_touches _).comp retireFront_touches).flag f rfl).trans h)
  · exact h

/-! ### A return (R52, R64) -/

/-- In `t` the gap return has been taken at `p`: origin GAP_RETURN, and the tail capture has begun (R64). -/
def State.gapReturned (t : State) (p : Nat) : Prop :=
  t.rc.origin = some .gapReturn ∧ t.rc.p = p ∧ t.rc.capture.isSome = true

theorem gapReturn_spec : (gapReturn s).gapReturned (openEnd s) ∧ (gapReturn s).rc.rrq = s.rc.rrq := by
  unfold gapReturn takeReturn
  dsimp only
  obtain ⟨items, -, hrc⟩ := startCapture_rc (s := (closeOpen s).onRc fun r =>
    { r with
      p := openEnd s, origin := some .gapReturn, cause := some .gapReturn, retry := 0, bridgePending := false
      seqBroken := false }) true
  unfold State.gapReturned
  rw [hrc, State.onRc_rc, closeOpen_touches.rc rfl]
  exact ⟨⟨rfl, rfl, rfl⟩, rfl⟩

theorem gapReturn_flag {f : EventFlag} (h : s.flag f = true) : (gapReturn s).flag f = true := by
  unfold gapReturn takeReturn
  dsimp only
  rw [((onRc_touches _ rfl).comp (startCapture_touches true)).flag f rfl]
  exact closeOpen_flag h

/-! ### The end of a fetch (R98, R100) -/

theorem endFetch_eq (h : s.gaps.fetch = some r) : endFetch s =
    (freeSlots (r.staged.map StagedBlock.slot) s).onGaps fun g => { g with fetch := none } := by
  unfold endFetch
  rw [h]

theorem endFetch_fetch : (endFetch s).gaps.fetch = none := by
  unfold endFetch
  split
  case h_1 => rfl
  case h_2 h => exact h

/-- The staged blocks' slots become FREE (R100). -/
theorem slotAt_endFetch (h : s.gaps.fetch = some r) (k : Nat) : slotAt (endFetch s) k =
    if k ∈ r.staged.map StagedBlock.slot then SlotDesc.free else slotAt s k := by
  rw [endFetch_eq h, (onGaps_touches _).slotAt k rfl, slotAt_freeSlots]

/-- Slots without a gap mark leave the Gap Table alone as they become FREE (R19). -/
theorem freeSlots_gaps_of_unmarked {ns : List Nat} (h : ∀ n ∈ ns, (slotAt s n).gapMark = false) :
    (freeSlots ns s).gaps = s.gaps := by
  induction ns generalizing s with
  | nil => rfl
  | cons n ns ih =>
    have hn := freeSlot_of_unmarked (h n List.mem_cons_self)
    have hrest : ∀ m ∈ ns, (slotAt (freeSlot n s) m).gapMark = false := fun m hm => by
      rw [slotAt_freeSlot]
      split
      · rfl
      · exact h m (List.mem_cons_of_mem n hm)
    refine (ih hrest).trans ?_
    rw [hn, (setSlot_touches n _).gaps rfl]

theorem endFetch_entries (h : s.gaps.fetch = some r) (hg : ∀ b ∈ r.staged, (slotAt s b.slot).gapMark = false) :
    (endFetch s).gaps.entries = s.gaps.entries := by
  have hfree : (freeSlots (r.staged.map StagedBlock.slot) s).gaps = s.gaps :=
    freeSlots_gaps_of_unmarked fun n hn => by
      obtain ⟨b, hb, rfl⟩ := List.mem_map.mp hn
      exact hg b hb
  rw [endFetch_eq h, ← hfree]
  rfl

theorem openEnd_of_touches {l : List Part} (h : Touches l s t) (hs : l.contains .segs = false)
    (hp : l.contains .play = false) : openEnd t = openEnd s := by
  unfold openEnd
  rw [h.openSeg hs, h.play hp]

/-- What the end of a fetch changes beside the staged blocks' slots is what the gap return changes (R64, R100). -/
theorem fetchOver_touches : Touches [.map, .segs, .play, .ctl, .rc] (endFetch s) (fetchOver s) := by
  unfold fetchOver
  exact (takeReturn_touches _).ite (.refl _ _)

/-- In GAPFETCH the gap return follows the end of the fetch, at the end of the open segment (R64). -/
theorem fetchOver_returns (h : s.rc.phase = .gapFetch) :
    (fetchOver s).gapReturned (openEnd s) ∧ (fetchOver s).rc.rrq = s.rc.rrq := by
  have he := endFetch_touches (s := s)
  have hover : fetchOver s = gapReturn (endFetch s) := if_pos (by rw [he.rc rfl]; exact h)
  obtain ⟨hret, hrrq⟩ := gapReturn_spec (s := endFetch s)
  rw [openEnd_of_touches he rfl rfl] at hret
  rw [he.rc rfl] at hrrq
  rw [hover]
  exact ⟨hret, hrrq⟩

theorem fetchOver_flag {f : EventFlag} (h : s.flag f = true) : (fetchOver s).flag f = true := by
  have he : (endFetch s).flag f = true := (endFetch_touches.flag f rfl).trans h
  unfold fetchOver
  dsimp only
  split
  · exact gapReturn_flag he
  · exact he

/-- A fetch whose entry has left the table is over (R98). -/
theorem fetchEnd_gone (h : s.gaps.fetch = some r) (hg : gapPresent s r = false) :
    fetchEnd s = fetchOver (s.onGaps fun g => { g with fetch := some { r with phase := .merging } }) := by
  unfold fetchEnd
  rw [h]
  exact if_pos hg

/-- An alignment begins with the flag map of the scratched slot to be read (R83). -/
theorem beginAlignment_me (label slot : Nat) (blocks : List StagedBlock) :
    ∃ a, (beginAlignment label slot blocks s).me.activity = .aligning ∧
      (beginAlignment label slot blocks s).me.align = some a ∧ a.label = label ∧ a.slot = slot ∧
      a.blocks = blocks ∧ a.stage = .readFlags :=
  ⟨_, rfl, rfl, rfl, rfl, rfl, rfl⟩

/-! ### An expiry (R56, R60, R62, R64) -/

/-- With the counter at 0 the expiry's row acts: at once in SEEKING and BRIDGING, in MATCHING between evaluations,
and in GAPFETCH until the fetch ends (R56, R64, R79). -/
theorem exec_deadlineExpiry (hr : inReset s = false) (hd : s.rc.deadline = 0) (h : deadlineRuns s = true)
    (hm : s.rc.phase = .matching → s.me.activity ≠ .scoring) :
    exec .deadlineExpiry s = .next (settleArbiter (expire s)) := by
  refine (next_live hr).trans (congrArg Host.Outcome.next (if_pos ?_))
  unfold expiryDue
  rw [h, hd]
  simpa [evaluating, imp_iff_not_or] using hm

/-- What an expiry does in BRIDGING: a held run is freed, and the bridge published again (R62). -/
def Recovery.rearms (r : Recovery) (p : Params) : Recovery :=
  ({ r with run := [], wait := .none, rrq := false } : Recovery).bridges p

theorem expire_attempt (h : s.rc.phase = .seeking ∨ s.rc.phase = .matching) : expire s = attemptFail s := by
  unfold expire
  rcases h with h | h <;> rw [h]

theorem expire_bridging (h : s.rc.phase = .bridging) : expire s = enterBridging (dropRrq (freeRun s)) := by
  unfold expire
  rw [h]

theorem expire_gapFetch (h : s.rc.phase = .gapFetch) : expire s = fetchEnd (dropRrq s) := by
  unfold expire
  rw [h]

theorem rearm_touches :
    Touches [.gaps, .map, .slots, .rc, .intake] s (enterBridging (dropRrq (freeRun s))) :=
  ((freeRun_touches.comp dropRrq_touches).comp enterBridging_touches).mono rfl

theorem rearm_rc : (enterBridging (dropRrq (freeRun s))).rc = s.rc.rearms s.ctl.params := by
  rw [enterBridging_rc, (freeRun_touches.comp dropRrq_touches).params rfl]
  unfold dropRrq
  rw [State.onRc_rc, freeRun_rc]
  rfl

theorem attemptFail_rrqEdges : (attemptFail s).rc.rrqEdges = s.rc.rrqEdges + 1 := by
  rw [attemptFail_rc]
  split <;> rfl

end

section
variable {s : State} {r : FetchRecord} (hr : inReset s = false) (hd : s.rc.deadline = 0)
include hr hd

/-- An expiry of an attempt fails it (R56, R60). -/
theorem expiry_fails_attempt
    (hp : s.rc.phase = .seeking ∨ (s.rc.phase = .matching ∧ s.me.activity ≠ .scoring)) :
    exec .deadlineExpiry s = .next (settleArbiter (attemptFail s)) := by
  rcases hp with hp | ⟨hp, he⟩
  · rw [← expire_attempt (.inl hp)]
    exact exec_deadlineExpiry hr hd (deadlineRuns_iff.mpr (.inl hp)) fun hm => absurd (hp.symm.trans hm) (by decide)
  · rw [← expire_attempt (.inr hp)]
    exact exec_deadlineExpiry hr hd (deadlineRuns_iff.mpr (.inr (.inl hp))) fun _ => he

/-- An expiry in BRIDGING re-arms the bridge (R56, R62). -/
theorem expiry_rearms (hp : s.rc.phase = .bridging) :
    exec .deadlineExpiry s = .next (settleArbiter (enterBridging (dropRrq (freeRun s)))) := by
  rw [← expire_bridging hp]
  exact exec_deadlineExpiry hr hd (deadlineRuns_iff.mpr (.inr (.inr (.inl hp)))) fun hm =>
    absurd (hp.symm.trans hm) (by decide)

section
variable (hp : s.rc.phase = .gapFetch) (hf : s.gaps.fetch = some r) (hph : r.phase = .fetching)
include hp hf hph

/-- An expiry in GAPFETCH ends the fetch (R56, R64). -/
theorem expiry_ends_fetch : exec .deadlineExpiry s = .next (settleArbiter (fetchEnd (dropRrq s))) := by
  rw [← expire_gapFetch hp]
  exact exec_deadlineExpiry hr hd (deadlineRuns_iff.mpr (.inr (.inr (.inr ⟨hp, r, hf, hph⟩)))) fun hm =>
    absurd (hp.symm.trans hm) (by decide)

/-- With the entry present and something staged the alignment begins (R83, R98). -/
theorem expiry_aligns (hg : gapPresent s r = true) (hs : r.staged ≠ []) :
    ∃ t a, exec .deadlineExpiry s = .next t ∧
      t = { s with
        rc := { s.rc with rrq := false }, arb := t.arb, me := t.me
        gaps := { s.gaps with fetch := some { r with phase := .merging } } } ∧
      t.me.activity = .aligning ∧ t.me.align = some a ∧ a.label = r.label ∧ a.slot = r.slot ∧
      a.blocks = r.staged ∧ a.stage = .readFlags := by
  let u := (dropRrq s).onGaps fun g => { g with fetch := some { r with phase := .merging } }
  have hexec := expiry_ends_fetch hr hd hp hf hph
  rw [fetchEnd_aligns (s := dropRrq s) hf hg hs] at hexec
  obtain ⟨a, hact, halign, hfields⟩ := beginAlignment_me (s := u) r.label r.slot r.staged
  refine ⟨_, a, hexec, ?_⟩
  rw [settleArbiter_touches.me rfl]
  exact ⟨settleArbiter_eq, hact, halign, hfields⟩

/-- With its entry gone the fetch is over, and the gap return is taken (R64, R98, R100). -/
theorem expiry_returns (hg : gapPresent s r = false) :
    ∃ t, exec .deadlineExpiry s = .next t ∧ t.rc.rrq = false ∧ t.gaps.fetch = none ∧
      t.gapReturned (openEnd s) ∧ (∀ b ∈ r.staged, slotAt t b.slot = SlotDesc.free) ∧ t.mem = s.mem := by
  let u := (dropRrq s).onGaps fun g => { g with fetch := some { r with phase := .merging } }
  have hexec := expiry_ends_fetch hr hd hp hf hph
  rw [show fetchEnd (dropRrq s) = fetchOver u from fetchEnd_gone hf hg] at hexec
  obtain ⟨hret, hrrq⟩ := fetchOver_returns (s := u) hp
  have hto : Touches [.map, .segs, .play, .ctl, .rc, .arb] (endFetch u) (settleArbiter (fetchOver u)) :=
    fetchOver_touches.comp settleArbiter_touches
  refine ⟨_, hexec, ?_⟩
  unfold State.gapReturned
  rw [settleArbiter_touches.rc rfl, hto.gaps rfl, endFetch_fetch]
  refine ⟨hrrq, rfl, hret, fun b hb => ?_, (hto.mem rfl).trans (endFetch_touches.mem rfl)⟩
  rw [hto.slotAt _ rfl, slotAt_endFetch (s := u) rfl]
  exact if_pos (List.mem_map_of_mem hb)

end

end

/-- Settles O35: SEEKING and MATCHING fail the attempt, BRIDGING re-arms, and GAPFETCH ends the fetch. -/
theorem deadlineExpiryOutcome : Obligations.DeadlineExpiryOutcome := by
  intro s hr hd
  refine ⟨fun hp => ?_, fun r hp hf hph => ⟨expiry_aligns hr hd hp hf hph, fun hg => ?_⟩⟩
  · by_cases hb : s.rc.phase = .bridging
    · refine ⟨_, expiry_rearms hr hd hb, ?_⟩
      rw [settleArbiter_touches.rc rfl, settleArbiter_touches.mem rfl, settleArbiter_touches.segs rfl, rearm_rc,
        rearm_touches.mem rfl, rearm_touches.segs rfl]
      exact ⟨rfl, rfl, rfl, rfl, rfl, rfl, rfl, rfl, fun h => absurd hb h.1, fun h => absurd hb h.1,
        fun _ => ⟨rfl, rfl, rfl⟩⟩
    · refine ⟨_, expiry_fails_attempt hr hd (hp.imp_right (·.resolve_left hb)), ?_⟩
      obtain ⟨hat, hrun, hwait, hpos, hrrq, hdl, hseek, hbridge⟩ := attemptFailed_attemptFail (s := s)
      rw [settleArbiter_touches.rc rfl, settleArbiter_touches.mem rfl, settleArbiter_touches.segs rfl,
        settleArbiter_touches.me rfl, attemptFail_touches.mem rfl, attemptFail_touches.segs rfl]
      refine ⟨hrrq, attemptFail_rrqEdges, hdl, hrun, hwait, hpos, rfl, rfl, fun h => ?_, fun h => ?_,
        fun h => absurd h hb⟩
      · obtain ⟨hphase, hretry, htarget⟩ := hseek h.2
        exact ⟨hphase, hretry, hat, htarget⟩
      · obtain ⟨hphase, hretry, htarget⟩ := hbridge h.2
        exact ⟨hphase, hretry, hat, htarget⟩
  · obtain ⟨t, hexec, hrrq, hfetch, ⟨horigin, hpos, hcap⟩, hslots, hmem⟩ := expiry_returns hr hd hp hf hph hg
    exact ⟨t, hexec, hrrq, hfetch, horigin, hpos, hcap, fun b hb _ => hslots b hb, hmem⟩

section
variable {s : State} {a : Align} {r : FetchRecord}

/-! ### The outcome of a merge within GAP_LIMIT (R87, R100) -/

/-- A merge within GAP_LIMIT repairs the entry, and the fetch is over (R100). -/
theorem mergeOutcome_repairs {count : Nat} (hf : s.gaps.fetch = some r) (hg : gapPresent s r = true)
    (hc : count ≤ s.ctl.params.gapLimit) : mergeOutcome count s = fetchOver (gapRepaired r.slot s) := by
  unfold mergeOutcome
  rw [hf]
  dsimp only
  rw [if_neg (by rw [hg]; decide), if_pos hc]

theorem gapRepaired_touches (n : Nat) : Touches [.gaps, .map, .slots, .ctl, .counters] s (gapRepaired n s) :=
  (((removeGap_touches n).comp (raiseFlag_touches _)).comp (bump_touches _)).mono rfl

theorem gapRepaired_flag (n : Nat) : (gapRepaired n s).flag .gapFilled = true := raiseFlag_flag .gapFilled

theorem gapRepaired_count (n : Nat) : (gapRepaired n s).count .gapsFilled = s.count .gapsFilled + 1 := rfl

theorem slotAt_gapRepaired {n : Nat} (hn : n < s.map.slots.length) (k : Nat) : slotAt (gapRepaired n s) k =
    if k = n then { slotAt s n with gapMark := false } else slotAt s k :=
  slotAt_modSlot (s := s.onGaps _) (f := fun d => { d with gapMark := false }) hn k

/-- The merged slot with its new erasure count, and the Match Engine idle again (R87). -/
def State.merged (s : State) (a : Align) : State :=
  endAlignment (modSlot a.slot
    (fun d => { d with erasures := (slotAt s a.slot).erasures - a.replaced, merging := false }) s)

theorem merged_touches : Touches [.map, .slots, .me] s (s.merged a) :=
  (modSlot_touches _ _).comp endAlignment_touches

/-- The merged slot's entry repaired (R100). -/
def State.repaired (s : State) (a : Align) : State := gapRepaired a.slot (s.merged a)

theorem repaired_touches : Touches [.map, .slots, .me, .gaps, .ctl, .counters] s (s.repaired a) :=
  (merged_touches.comp (gapRepaired_touches _)).mono rfl

theorem slotAt_repaired (hn : a.slot < s.map.slots.length) (k : Nat) : slotAt (s.repaired a) k =
    if k = a.slot then
      { slotAt s a.slot with
        erasures := (slotAt s a.slot).erasures - a.replaced, merging := false, gapMark := false }
    else slotAt s k := by
  have hs : ∀ j, slotAt (s.merged a) j = _ := slotAt_modSlot (f := fun d =>
    { d with erasures := (slotAt s a.slot).erasures - a.replaced, merging := false }) hn
  unfold State.repaired
  rw [slotAt_gapRepaired (by rw [merged_touches.ring rfl]; exact hn), hs, hs, if_pos rfl]
  split <;> rfl

/-- The row reports the outcome for the merged slot, which within GAP_LIMIT is a repair; with no attempt nothing is
scored after it (R87, R100). -/
theorem exec_mergeFlagMapWritten_repairs (hr : inReset s = false) (ha : s.me.align = some a) (hs : a.stage = .flagMap)
    (hj : a.jobs = []) (hf : s.gaps.fetch = some r) (hg : gapPresent s r = true) (hslot : r.slot = a.slot)
    (hat : s.me.attempt = none) (hlimit : (slotAt s a.slot).erasures - a.replaced ≤ s.ctl.params.gapLimit) :
    exec .mergeFlagMapWritten s = .next (settleArbiter (fetchOver (s.repaired a))) := by
  have hout : mergeOutcome ((slotAt s a.slot).erasures - a.replaced) (s.merged a) = fetchOver (s.repaired a) := by
    rw [mergeOutcome_repairs (s := s.merged a) hf hg hlimit, hslot]
    rfl
  have hme : (fetchOver (s.repaired a)).me = (s.repaired a).me := by
    rw [fetchOver_touches.me rfl, endFetch_touches.me rfl]
  refine (next_live hr).trans (congrArg Host.Outcome.next ?_)
  unfold mergeFlagMapWritten
  rw [ha]
  refine (if_pos ⟨hs, hj⟩).trans (congrArg settleArbiter ?_)
  show tryEvaluate (mergeOutcome ((slotAt s a.slot).erasures - a.replaced) (s.merged a)) = _
  rw [hout]
  exact tryEvaluate_of_attempt_none (by rw [hme]; exact hat)

end

/-- Settles O40: the outcome is a repair, after which the fetch is over. -/
theorem mergedFlagMapRepairsGap : Obligations.MergedFlagMapRepairsGap := by
  intro s a r hr ha hs hj hf hg hslot hn hat hstaged hlimit
  have hrep := repaired_touches (s := s) (a := a)
  have hslots := slotAt_repaired hn
  have hfetch : (s.repaired a).gaps.fetch = some r := hf
  have hto : Touches [.map, .segs, .play, .ctl, .rc, .arb] (endFetch (s.repaired a))
      (settleArbiter (fetchOver (s.repaired a))) := fetchOver_touches.comp settleArbiter_touches
  have hmerged : slotAt (settleArbiter (fetchOver (s.repaired a))) a.slot = slotAt (s.repaired a) a.slot := by
    rw [hto.slotAt _ rfl, slotAt_endFetch hfetch, if_neg]
    intro hm
    obtain ⟨b, hb, he⟩ := List.mem_map.mp hm
    exact (hstaged b hb).1 he
  have hentries : (endFetch (s.repaired a)).gaps.entries = (s.repaired a).gaps.entries :=
    endFetch_entries hfetch fun b hb => by
      rw [hslots, if_neg (hstaged b hb).1]
      exact (hstaged b hb).2
  refine ⟨_, exec_mergeFlagMapWritten_repairs hr ha hs hj hf hg hslot hat hlimit, ?_⟩
  rw [hmerged, hslots, if_pos rfl, hto.me rfl, endFetch_touches.me rfl, hto.gaps rfl, endFetch_fetch, hentries,
    settleArbiter_touches.flag _ rfl, hto.count _ rfl, endFetch_touches.count _ rfl, settleArbiter_touches.rc rfl]
  refine ⟨rfl, rfl, rfl, rfl, rfl, rfl, rfl, fetchOver_flag (gapRepaired_flag a.slot), gapRepaired_count a.slot,
    fun hp => ?_⟩
  obtain ⟨⟨horigin, hpos, hcap⟩, -⟩ := fetchOver_returns (s := s.repaired a) (by rw [hrep.rc rfl]; exact hp)
  rw [openEnd_of_touches hrep rfl rfl] at hpos
  exact ⟨horigin, hpos, hcap⟩

end Sys2Proof.Machine
end

section
/-! PROOFS. The command unit takes a command (R174, R175): refused commands (O48), and LOAD (O49). -/
namespace Sys2Proof.Machine

section
variable {s : State} {code : Word} {arguments : List Word}

/-! ### The take of a command (R142, R174) -/

/-- The engine clients but the Control Unit's (R141). -/
def State.otherClients (s : State) : List EngineClient :=
  (if s.intake.flagJobs = [] then [] else [.intake]) ++
  (if (captureWants s).isSome then [.recovery] else []) ++
  (if matchWants s then [.matcher] else [])

theorem engineClients_eq : engineClients s = s.otherClients ++ if s.ctl.zeroWrite then [.control] else [] := rfl

theorem control_not_mem_otherClients : .control ∉ s.otherClients := by
  unfold State.otherClients
  simp only [List.mem_append, not_or]
  refine ⟨⟨?_, ?_⟩, ?_⟩ <;> split <;> simp

/-- Only the Control Unit's client waits, or none, where no other does. -/
theorem otherClients_eq_nil_iff : s.otherClients = [] ↔ ∀ c ∈ engineClients s, c = .control := by
  rw [engineClients_eq]
  constructor
  · intro h c hc
    rw [h, List.nil_append] at hc
    split at hc
    · exact List.mem_singleton.mp hc
    · exact absurd hc List.not_mem_nil
  · intro h
    refine List.eq_nil_iff_forall_not_mem.mpr fun c hc => control_not_mem_otherClients (s := s) ?_
    rwa [← h c (List.mem_append_left _ hc)]

/-- Of the Control Unit, the other clients' requests read the parameters alone. -/
theorem otherClients_congr {c : Control} (h : c.params = s.ctl.params) :
    ({ s with ctl := c } : State).otherClients = s.otherClients := by
  obtain ⟨_, params⟩ := c
  cases (show params = s.ctl.params from h)
  rfl

theorem setArguments_params (c : Control) : (setArguments arguments c).params = c.params := by
  unfold setArguments
  split <;> rfl

theorem setArguments_busy (c : Control) : (setArguments arguments c).busy = c.busy := by
  unfold setArguments
  split <;> rfl

/-- The state in which a command of these arguments takes effect (R174). -/
def State.takes (s : State) (arguments : List Word) : State :=
  { s with
    arb := s.arbiterAtTake
    ctl := { setArguments arguments s.ctl with latch := 0, zeroWrite := true, busy := true } }

/-- A code that is not 0 withdraws a zero-write waiting, which leaves the arbiter as `State.arbiterAtTake` says
(R142, R174). -/
theorem settleArbiter_setLatch (hc : code ≠ 0) :
    settleArbiter (setLatch code (s.onCtl (setArguments arguments))) = { s with
      arb := s.arbiterAtTake, ctl := { setArguments arguments s.ctl with latch := code, zeroWrite := false } } := by
  let c : Control := { setArguments arguments s.ctl with latch := code, zeroWrite := false }
  have hlatch : setLatch code (s.onCtl (setArguments arguments)) = { s with ctl := c } := by
    show ({ s with ctl := { setArguments arguments s.ctl with
      latch := code, zeroWrite := (setArguments arguments s.ctl).zeroWrite && code == 0 } } : State) = _
    rw [beq_false_of_ne hc, Bool.and_false]
  have hnil : engineClients { s with ctl := c } = [] ↔ ∀ c ∈ engineClients s, c = .control := by
    rw [← otherClients_eq_nil_iff, ← otherClients_congr (s := s) (c := c) (setArguments_params _), engineClients_eq]
    exact iff_of_eq (congrArg (· = []) (List.append_nil _))
  unfold settleArbiter State.arbiterAtTake
  rw [hlatch]
  by_cases h : ∀ c ∈ engineClients s, c = .control
  · rw [if_pos (hnil.mpr h), if_pos h]
    rfl
  · rw [if_neg (mt hnil.mp h), if_neg h]

/-- A command row in IDLE takes its command (R174). -/
theorem issue_takes (h : s.idle) (hc : code ≠ 0) (effect : State → State) :
    (.next (live (issue code arguments effect) s) : Host.Outcome State Fault Refusal) =
      .next (settleArbiter (effect (s.takes arguments))) := by
  refine (next_live h.1).trans (congrArg Host.Outcome.next ?_)
  unfold issue
  rw [if_neg (by rw [h.2]; decide), settleArbiter_setLatch hc]
  rfl

/-- A command that completes as it is taken leaves only its word, result and CMD_DONE (R174, R175). -/
theorem settleArbiter_complete_takes (h : s.idle) (result : CmdResult) :
    settleArbiter (complete code result (s.takes arguments)) = { s with
      arb := s.arbiterAtTake
      ctl := { setArguments arguments s.ctl with
        latch := 0, zeroWrite := true, lastCode := code, lastResult := result
        flags := (setArguments arguments s.ctl).flags ||| BitVec.twoPow 16 12 } } := by
  refine (settleArbiter_zeroWrite _ rfl).trans ?_
  exact congrArg (fun b => ({ s with
      arb := s.arbiterAtTake
      ctl := { setArguments arguments s.ctl with
        latch := 0, zeroWrite := true, busy := b, lastCode := code, lastResult := result
        flags := (setArguments arguments s.ctl).flags ||| BitVec.twoPow 16 12 } } : State))
    ((setArguments_busy _).trans h.2).symm

/-- A command whose effect is a completion. -/
theorem issue_completes (h : s.idle) (hc : code ≠ 0) {effect : State → State} {result : CmdResult}
    (he : effect (s.takes arguments) = complete code result (s.takes arguments)) :
    (.next (live (issue code arguments effect) s) : Host.Outcome State Fault Refusal) = .next { s with
      arb := s.arbiterAtTake
      ctl := { setArguments arguments s.ctl with
        latch := 0, zeroWrite := true, lastCode := code, lastResult := result
        flags := (setArguments arguments s.ctl).flags ||| BitVec.twoPow 16 12 } } := by
  rw [issue_takes h hc, he, settleArbiter_complete_takes h]

/-! ### Refusals (R175, R176) -/

theorem startTaken_refused (x : Nat) (h : s.rc.loaded = none ∨ s.eject.isSome = true) :
    startTaken x s = complete codeStart .refusedState s := if_pos h

theorem loadTaken_refused (f : Word) (x : Nat)
    (h : s.rc.phase ≠ .parked ∨ s.lines.taken ≠ .closed ∨ s.eject.isSome = true) :
    loadTaken f x s = complete codeLoad .refusedState s := if_pos h

theorem pauseTaken_refused (h : s.rc.loaded = none) : pauseTaken s = complete codePause .refusedState s := if_pos h

theorem playTaken_refused (h : s.rc.loaded = none) : playTaken s = complete codePlay .refusedState s := if_pos h

end

/-- Settles O48: each of the four completes with REFUSED_STATE as it is taken. -/
theorem refusedCommandsChangeNothing : Obligations.RefusedCommandsChangeNothing := by
  intro s h u refused
  refine ⟨fun hl x => ?_, fun hp f x => ?_, fun hl => ?_, fun hl => ?_⟩
  · exact issue_completes h (by decide) (startTaken_refused _ hl)
  · refine issue_completes h (by decide) (loadTaken_refused _ _ (hp.imp_right (Or.imp_left fun ht => ?_)))
    show s.lines.taken ≠ .closed
    rw [ht]
    decide
  · exact issue_completes h (by decide) (pauseTaken_refused hl)
  · exact issue_completes h (by decide) (playTaken_refused hl)

section
variable {s y : State} {f x : Word}

/-! ### Flags that another flag's event leaves (R180) -/

theorem raiseFlag_flag_of_ne {f g : EventFlag} (h : f.bit ≠ g.bit) : (raiseFlag g s).flag f = s.flag f := by
  show (s.ctl.flags ||| BitVec.twoPow 16 g.bit).getLsbD f.bit = s.ctl.flags.getLsbD f.bit
  rw [BitVec.getLsbD_or, BitVec.getLsbD_twoPow, decide_eq_false h.symm, Bool.and_false, Bool.or_false]

theorem leadCheck_flag_of_ne {f : EventFlag} (h : f.bit ≠ EventFlag.leadLow.bit) :
    (leadCheck s).flag f = s.flag f := by
  unfold leadCheck
  split
  · split
    · rfl
    · exact raiseFlag_flag_of_ne h
  · rfl

/-! ### The rating at a LOAD (R106) -/

theorem qualityLoad_touches (f : Word) : Touches [.quality, .ctl] s (qualityLoad f s) := by
  unfold qualityLoad
  exact ((((setQuality_touches _ _).comp (onQuality_touches _)).mono (l := [.quality, .ctl]) rfl).ite
    (.refl _ s)).comp (onQuality_touches _) |>.mono rfl

theorem flagsOnly_setQuality (counter : Nat) (level : QualityLevel) : s.flagsOnly (setQuality counter level s) := by
  unfold setQuality
  dsimp only
  split <;> rfl

theorem flagsOnly_qualityLoad (f : Word) : s.flagsOnly (qualityLoad f s) := by
  unfold qualityLoad
  dsimp only
  split
  · exact flagsOnly_setQuality 0 .normal
  · rfl

theorem setQuality_flag_of_ne {g : EventFlag} (h : g.bit ≠ EventFlag.quality.bit) (counter : Nat)
    (level : QualityLevel) : (setQuality counter level s).flag g = s.flag g := by
  unfold setQuality
  dsimp only
  split
  · exact raiseFlag_flag_of_ne h
  · rfl

theorem qualityLoad_flag_of_ne {g : EventFlag} (h : g.bit ≠ EventFlag.quality.bit) (f : Word) :
    (qualityLoad f s).flag g = s.flag g := by
  unfold qualityLoad
  dsimp only
  split
  · exact setQuality_flag_of_ne h 0 .normal
  · rfl

theorem qualityLoad_rated (f : Word) : (qualityLoad f s).quality.rated = f := rfl

/-- No disc identity, or another disc than the one rated: the rating starts anew (R106). -/
theorem qualityLoad_anew (h : f = 0 ∨ f ≠ s.quality.rated) :
    (qualityLoad f s).quality.counter = 0 ∧ (qualityLoad f s).quality.level = .normal := by
  unfold qualityLoad setQuality
  dsimp only
  rw [if_pos h]
  split <;> exact ⟨rfl, rfl⟩

/-! ### A start of either kind (R46, R110, R111, R159) -/

theorem playFrom_touches (x : Nat) : Touches [.play, .map, .ctl] s (playFrom x s) :=
  (((onPlay_touches _).comp leadCheck_touches).comp (onPlay_touches _)).mono rfl

theorem playFrom_play (x : Nat) : (playFrom x s).play = s.play.startsAt x := by
  unfold playFrom setCursor
  rw [State.onPlay_play, leadCheck_touches.play rfl]
  rfl

theorem playFrom_flag_of_ne {g : EventFlag} (h : g.bit ≠ EventFlag.leadLow.bit) (x : Nat) :
    (playFrom x s).flag g = s.flag g := leadCheck_flag_of_ne h

/-- The recovery registers at the start of a RESUME sequence (R46, R54, R159). -/
def Recovery.resumes (r : Recovery) (e : ResumeEntry) (p : Params) : Recovery :=
  ({ r with
    p := e.frame, origin := some .resume, cause := some .resume, retry := 0, bridgePending := false
    seqBroken := false, kEff := min p.matchLen e.tailCount, span := p.span
    tail := resumeTail e (min p.matchLen e.tailCount) } : Recovery).seeks p

theorem beginResume_rc (e : ResumeEntry) : (beginResume e s).rc = s.rc.resumes e s.ctl.params := enterSeeking_rc

theorem beginResume_touches (e : ResumeEntry) : Touches [.map, .slots, .intake, .rc] s (beginResume e s) :=
  ((onRc_touches _ rfl).comp enterSeeking_touches).mono rfl

theorem beginResume_intake (e : ResumeEntry) :
    (beginResume e s).intake = { s.intake with staleHeld := (beginResume e s).intake.staleHeld } :=
  publish_intake _ _

/-- The last k of the saved frames of an entry are k (R159). -/
theorem length_resumeTail {e : ResumeEntry} {k : Nat} (hk : k ≤ e.tailCount) (h : e.tailCount ≤ e.tail.length) :
    (resumeTail e k).length = k := by
  unfold resumeTail
  rw [List.length_drop, List.length_take, Nat.min_eq_left h, Nat.sub_sub_self hk]

/-- A start from `y` at `x` with no beat held: playing from `x`, and the command complete with DONE (R37, R110, R175,
R176). -/
theorem started_spec (code : Word) (x : Nat) (h : y.intake.held = []) :
    let t := settleArbiter (started code (playFrom x y))
    Touches [.play, .map, .ctl, .router, .arb] y t ∧ t.play = y.play.startsAt x ∧
    t.ctl.busy = false ∧ t.ctl.lastCode = code ∧ t.ctl.lastResult = .done ∧ t.flag .cmdDone = true ∧
    t.flag .resume = y.flag .resume := by
  have hp := playFrom_touches (s := y) x
  have hc := complete_touches (s := playFrom x y) code .done
  have hs : started code (playFrom x y) = finishD (complete code .done (playFrom x y)) :=
    drainHeld_of_held_nil (by rw [hc.intake rfl, hp.intake rfl]; exact h)
  have hend : Touches [.router, .arb] (complete code .done (playFrom x y))
      (settleArbiter (finishD (complete code .done (playFrom x y)))) := finishD_touches.comp settleArbiter_touches
  rw [hs]
  refine ⟨((hp.comp hc).comp hend).mono rfl, ?_, ?_, ?_, ?_, ?_, ?_⟩
  · rw [hend.play rfl, hc.play rfl, playFrom_play]
  · rw [hend.ctl rfl]; rfl
  · rw [hend.ctl rfl]; rfl
  · rw [hend.ctl rfl]; rfl
  · rw [hend.flag _ rfl]
    exact completion_flag code .done
  · rw [hend.flag _ rfl]
    exact (raiseFlag_flag_of_ne (by decide)).trans (playFrom_flag_of_ne (by decide) x)

/-! ### LOAD (R106, R158, R176) -/

/-- The state from which a LOAD of `f` starts the stream: the disc loaded and rated (R106, R176). -/
def State.loads (s : State) (f x : Word) : State :=
  qualityLoad f ((s.takes [f, x]).onRc fun r => { r with loaded := some f, started := false })

theorem loads_touches (f x : Word) : Touches [.arb, .ctl, .rc, .quality] s (s.loads f x) :=
  have h : Touches [.arb, .ctl] s (s.takes [f, x]) := fun b hb => by
    cases b <;> first | rfl | exact Bool.noConfusion hb
  ((h.comp (onRc_touches _ rfl)).comp (qualityLoad_touches f)).mono rfl

theorem resumeEntry_loads : resumeEntry (s.loads f x) f = resumeEntry s f := by
  unfold resumeEntry
  rw [loads_touches f x .resume rfl]

theorem resumeAt_loads (n : Nat) : resumeAt (s.loads f x) n = resumeAt s n :=
  congrArg (fun r : ResumeStore => r.entries.getD n ResumeEntry.blank) (loads_touches f x .resume rfl)

theorem loads_rc (f x : Word) : (s.loads f x).rc = { s.rc with loaded := some f, started := false } :=
  (qualityLoad_touches f).rc rfl

theorem loads_params (f x : Word) : (s.loads f x).ctl.params = s.ctl.params := by
  rw [State.loads, flagsOnly_qualityLoad]
  rfl

theorem loads_flag_resume (f x : Word) : (s.loads f x).flag .resume = s.flag .resume :=
  qualityLoad_flag_of_ne (by decide) f

theorem loads_quality (f x : Word) : (s.loads f x).quality.rated = f ∧
    (f = 0 ∨ f ≠ s.quality.rated → (s.loads f x).quality.counter = 0 ∧ (s.loads f x).quality.level = .normal) :=
  ⟨qualityLoad_rated f, fun h => qualityLoad_anew h⟩

/-- The start of a LOAD without a usable entry: at `x` (R158, R176). -/
def State.loadStart (s : State) (f x : Word) : State :=
  beginStart (min x.toNat 264599999) .start (s.loads f x)

/-- The start of a LOAD from the usable entry `e`: a RESUME sequence, or at its frame (R158, R159). -/
def State.loadResume (s : State) (f x : Word) (e : ResumeEntry) : State :=
  if 8 ≤ e.tailCount then beginResume e (raiseFlag .resume (s.loads f x))
  else beginStart e.frame .nominal (raiseFlag .resume (s.loads f x))

section
variable (h : s.idle) (hp : s.rc.phase = .parked) (ht : s.lines.taken = .closed) (he : s.eject = none)
include h hp ht he

/-- In PARKED with the tray closed LOAD is taken, and makes no flush (R68, R158). -/
theorem exec_load : exec (.load f x) s = .next (settleArbiter (loadTaken f (frameArgument x) (s.takes [f, x]))) ∧
    ¬ ((s.takes [f, x]).rc.phase ≠ .parked ∨ (s.takes [f, x]).lines.taken ≠ .closed ∨
      (s.takes [f, x]).eject.isSome = true) ∧ flushStream (s.takes [f, x]) = s.takes [f, x] := by
  refine ⟨issue_takes h (by decide) _, ?_, if_pos hp⟩
  rintro (h | h | h)
  · exact h hp
  · exact h ht
  · rw [show (s.takes [f, x]).eject = none from he] at h
    exact Bool.noConfusion h

theorem exec_load_starts (hn : resumeEntry s f = none) : exec (.load f x) s =
    .next (settleArbiter (started codeLoad (playFrom (min x.toNat 264599999) (s.loadStart f x)))) := by
  obtain ⟨hexec, hgo, hflush⟩ := exec_load (f := f) (x := x) h hp ht he
  have hn' : resumeEntry (s.loads f x) f = none := by
    rw [resumeEntry_loads, hn]
  unfold State.loads at hn'
  rw [hexec]
  unfold loadTaken
  rw [if_neg hgo, hflush]
  dsimp only
  rw [hn']
  rfl

theorem exec_load_resumes {n : Nat} (hn : resumeEntry s f = some n) : exec (.load f x) s =
    .next (settleArbiter (started codeLoad
      (playFrom (resumeAt s n).frame (s.loadResume f x (resumeAt s n))))) := by
  obtain ⟨hexec, hgo, hflush⟩ := exec_load (f := f) (x := x) h hp ht he
  have hn' : resumeEntry (s.loads f x) f = some n := by
    rw [resumeEntry_loads, hn]
  have hat := resumeAt_loads (s := s) (f := f) (x := x) n
  unfold State.loads at hn' hat
  rw [hexec]
  unfold loadTaken
  rw [if_neg hgo, hflush]
  dsimp only
  rw [hn']
  dsimp only
  rw [hat]
  rfl

end

/-! ### What every LOAD has done (R106, R110, R111, R175) -/

/-- What a LOAD of `f` has done in `t` whichever way it starts the stream at `c` (R106, R110, R111, R175, R176). -/
def State.loadedAt (s t : State) (f : Word) (c : Nat) : Prop :=
  t.play.mode = .playing ∧ t.play.cursor = c ∧ t.play.history = [] ∧ t.quality.rated = f ∧
  t.ctl.busy = false ∧ t.ctl.lastCode = 2 ∧ t.ctl.lastResult = .done ∧ t.flag .cmdDone = true ∧
  t.resume = s.resume ∧ t.mem = s.mem ∧
  (f = 0 ∨ f ≠ s.quality.rated → t.quality.counter = 0 ∧ t.quality.level = .normal)

/-- Whatever way a LOAD begins its stream in `y`, no beat being held, it ends with the disc rated, playing, and the
command complete. -/
theorem loadedAt_started (hheld : s.intake.held = []) (c : Nat)
    (hy : Touches [.map, .slots, .intake, .rc, .ctl] (s.loads f x) y) (hin : y.intake.held = s.intake.held) :
    let t := settleArbiter (started codeLoad (playFrom c y))
    s.loadedAt t f c ∧ t.rc = y.rc ∧ t.flag .resume = y.flag .resume := by
  intro t
  obtain ⟨ht, hplay, hbusy, hcode, hresult, hdone, hflag⟩ := started_spec codeLoad c (hin.trans hheld)
  obtain ⟨hrated, hanew⟩ := loads_quality (s := s) f x
  have hq : t.quality = (s.loads f x).quality := (ht.quality rfl).trans (hy.quality rfl)
  have hmem : t.mem = s.mem := ((ht.mem rfl).trans (hy.mem rfl)).trans ((loads_touches f x).mem rfl)
  have hresume : t.resume = s.resume := ((ht .resume rfl).trans (hy .resume rfl)).trans (loads_touches f x .resume rfl)
  unfold State.loadedAt
  rw [hplay, hq]
  exact ⟨⟨rfl, rfl, rfl, hrated, hbusy, hcode, hresult, hdone, hresume, hmem, hanew⟩, ht.rc rfl, hflag⟩

theorem loadStart_touches : Touches [.map, .slots, .intake, .rc, .ctl] (s.loads f x) (s.loadStart f x) :=
  (beginStart_touches _ _).mono rfl

theorem loadResume_touches (e : ResumeEntry) :
    Touches [.map, .slots, .intake, .rc, .ctl] (s.loads f x) (s.loadResume f x e) :=
  (((raiseFlag_touches _).comp (beginResume_touches e)).mono rfl).ite
    (((raiseFlag_touches _).comp (beginStart_touches _ _)).mono rfl)

theorem loadStart_held : (s.loadStart f x).intake.held = s.intake.held := by
  unfold State.loadStart
  rw [beginStart_intake, (loads_touches f x).intake rfl]

theorem loadResume_held (e : ResumeEntry) : (s.loadResume f x e).intake.held = s.intake.held := by
  unfold State.loadResume
  split
  · rw [beginResume_intake, (raiseFlag_touches _).intake rfl, (loads_touches f x).intake rfl]
  · rw [beginStart_intake, (raiseFlag_touches _).intake rfl, (loads_touches f x).intake rfl]

theorem loadStart_rc : (s.loadStart f x).rc =
    ({ s.rc with loaded := some f, started := false } : Recovery).starts (min x.toNat 264599999) .start := by
  unfold State.loadStart
  rw [beginStart_rc, loads_rc]

theorem loadStart_flag : (s.loadStart f x).flag .resume = s.flag .resume :=
  ((beginStart_touches _ _).flag _ rfl).trans (loads_flag_resume f x)

theorem loadResume_flag (e : ResumeEntry) : (s.loadResume f x e).flag .resume = true := by
  unfold State.loadResume
  split
  · rw [(beginResume_touches e).flag _ rfl, raiseFlag_flag]
  · rw [(beginStart_touches _ _).flag _ rfl, raiseFlag_flag]

/-- With fewer than 8 saved frames the stream starts at the entry's frame (R158). -/
theorem loadResume_rc_of_few {e : ResumeEntry} (h : e.tailCount < 8) : (s.loadResume f x e).rc =
    ({ s.rc with loaded := some f, started := false } : Recovery).starts e.frame .nominal := by
  unfold State.loadResume
  rw [if_neg (Nat.not_le.mpr h), beginStart_rc, (raiseFlag_touches _).rc rfl, loads_rc]

/-- With 8 saved frames or more a RESUME sequence begins (R158, R159). -/
theorem loadResume_rc_of_many {e : ResumeEntry} (h : 8 ≤ e.tailCount) : (s.loadResume f x e).rc =
    ({ s.rc with loaded := some f, started := false } : Recovery).resumes e s.ctl.params := by
  unfold State.loadResume
  rw [if_pos h, beginResume_rc, (raiseFlag_touches _).rc rfl, loads_rc]
  exact congrArg _ (loads_params f x)

/-- What a RESUME sequence holds, its tail store being as long as K_eff where the entry saves as many frames as it
counts (R54, R159). -/
theorem resumes_spec (r : Recovery) (e : ResumeEntry) (p : Params) (h : e.tailCount ≤ e.tail.length) :
    (r.resumes e p).tail = (e.tail.take e.tailCount).drop (e.tailCount - (r.resumes e p).kEff) ∧
    (r.resumes e p).tail.length = (r.resumes e p).kEff :=
  ⟨rfl, length_resumeTail (Nat.min_le_right _ _) h⟩

end

/-- Settles O49: what every LOAD has done (`State.loadedAt`), and the start its entry chooses. -/
theorem loadStartsOrResumes : Obligations.LoadStartsOrResumes := by
  intro f x s h hp ht he hheld
  cases hn : resumeEntry s f with
  | none =>
    obtain ⟨⟨hmode, hcursor, hhist, hrated, hbusy, hcode, hresult, hdone, hresume, hmem, hanew⟩, hrc, hflag⟩ :=
      loadedAt_started (f := f) (x := x) hheld (min x.toNat 264599999) loadStart_touches loadStart_held
    refine ⟨_, exec_load_starts h hp ht he hn, ?_⟩
    rw [loadStart_rc] at hrc
    rw [hrc]
    exact ⟨rfl, rfl, rfl, hmode, hhist, hrated, hbusy, hcode, hresult, hdone, hresume, hmem, hanew,
      fun _ => ⟨rfl, rfl, hcursor, rfl, hflag.trans loadStart_flag⟩, nofun, nofun⟩
  | some n =>
    obtain ⟨⟨hmode, hcursor, hhist, hrated, hbusy, hcode, hresult, hdone, hresume, hmem, hanew⟩, hrc, hflag⟩ :=
      loadedAt_started (f := f) (x := x) hheld (resumeAt s n).frame (loadResume_touches (resumeAt s n))
        (loadResume_held _)
    rw [loadResume_flag] at hflag
    refine ⟨_, exec_load_resumes h hp ht he hn, ?_⟩
    by_cases hfew : (resumeAt s n).tailCount < 8
    · rw [loadResume_rc_of_few hfew] at hrc
      rw [hrc]
      refine ⟨rfl, rfl, rfl, hmode, hhist, hrated, hbusy, hcode, hresult, hdone, hresume, hmem, hanew, nofun,
        fun m hm _ => ?_, fun m hm hmany => ?_⟩
      · cases hm
        exact ⟨rfl, rfl, hcursor, rfl, hflag⟩
      · cases hm
        exact absurd hfew (Nat.not_lt.mpr hmany)
    · rw [loadResume_rc_of_many (Nat.not_lt.mp hfew)] at hrc
      rw [hrc]
      refine ⟨rfl, rfl, rfl, hmode, hhist, hrated, hbusy, hcode, hresult, hdone, hresume, hmem, hanew, nofun,
        fun m hm hlt => ?_, fun m hm _ hlen => ?_⟩
      · cases hm
        exact absurd hlt hfew
      · cases hm
        obtain ⟨htail, hlength⟩ := resumes_spec { s.rc with loaded := some f, started := false } _ s.ctl.params hlen
        exact ⟨rfl, rfl, rfl, rfl, hcursor, hflag, rfl, htail, hlength, rfl, rfl⟩

end Sys2Proof.Machine
end

section
/-! PROOFS. Alignment and merge: the frames a merge aims at, an alignment that merges nothing (O38), and the grant
of the merge take (O39). -/
namespace Sys2Proof.Machine

section
variable {a : Align} {d : Int} {m : MatchEngine}

/-! ### The acceptance of an alignment (R84, R85) -/

theorem alignmentOffset_eq_some (h : (a.unscored = true ∧ d = 0) ∨
    (a.unscored = false ∧ ∃ b, a.best = some b ∧ b.mean ≤ a.tol ∧ b.offset = d)) : alignmentOffset a = some d := by
  unfold alignmentOffset
  rcases h with ⟨hu, rfl⟩ | ⟨hu, b, hb, hmean, rfl⟩
  · rw [hu, if_pos rfl]
  · rw [hu, if_neg (by decide), hb]
    exact if_pos hmean

theorem alignmentOffset_eq_none (hu : a.unscored = false) (h : ∀ b, a.best = some b → a.tol < b.mean) :
    alignmentOffset a = none := by
  unfold alignmentOffset
  rw [hu, if_neg (by decide)]
  cases hb : a.best with
  | none => rfl
  | some b => exact if_neg (Nat.not_le.mpr (h b hb))

/-! ### The frames a merge aims at (R83, R86) -/

/-- A staged block holds a position exactly if it is labelled with the position's block (R83). -/
theorem isSome_stagedHolding_iff {run : List StagedBlock} {pos : Int} :
    (stagedHolding run pos).isSome = true ↔ 0 ≤ pos ∧ ∃ b ∈ run, (b.label : Int) = pos / 588 := by
  unfold stagedHolding stagedAt blockOf
  split
  case isTrue hneg => simp [Int.not_le.mpr hneg]
  case isFalse hpos =>
    have hblock (l : Nat) : l = pos.toNat / 588 ↔ (l : Int) = pos / 588 := by omega
    simp [List.find?_isSome, hblock, Int.not_lt.mp hpos]

/-- The erased frames whose aligned frame is present, in ascending order (R86). -/
def mergeTargets (a : Align) (d : Int) : List Nat :=
  (List.range 588).filter fun i => a.marks.getLsbD i && (stagedHolding a.blocks (alignedPos a d i)).isSome

theorem mem_mergeTargets_iff {i : Nat} : i ∈ mergeTargets a d ↔
    i < 588 ∧ a.marks.getLsbD i = true ∧ 0 ≤ (a.label : Int) * 588 + i + d ∧
      ∃ b ∈ a.blocks, (b.label : Int) = ((a.label : Int) * 588 + i + d) / 588 := by
  have hpos : alignedPos a d i = (a.label : Int) * 588 + i + d := by
    unfold alignedPos blockStart
    push_cast
    rfl
  unfold mergeTargets
  rw [List.mem_filter, List.mem_range, Bool.and_eq_true, isSome_stagedHolding_iff, hpos]

theorem pairwise_mergeTargets : (mergeTargets a d).Pairwise (· < ·) := List.pairwise_lt_range.filter _

/-- With no frame to aim at, nothing is to be read or written (R86). -/
theorem beginMerge_of_targets_eq_nil (h : mergeTargets a d = []) : beginMerge d m a =
    { m with
      activity := .merging, fetch := []
      align := some
        { a with
          stage := .mergeWrite, next := d, targets := [], writes := [], replaced := 0
          newMarks := a.marks } } := by
  unfold mergeTargets at h
  unfold beginMerge
  dsimp only
  rw [h]
  rfl

/-- The mark of each aligned frame is read first (R86; log 17). -/
theorem beginMerge_of_targets_ne_nil (h : mergeTargets a d ≠ []) : beginMerge d m a =
    { m with
      activity := .merging
      fetch := (mergeTargets a d).map fun i =>
        markItem a.ring (stagedItem a.ring a.blocks (alignedPos a d i)).slot
          (stagedItem a.ring a.blocks (alignedPos a d i)).index
      align := some { a with stage := .mergeMarks, next := d, targets := mergeTargets a d } } := by
  unfold mergeTargets at h ⊢
  unfold beginMerge
  dsimp only
  split
  case h_1 hnil => exact absurd hnil h
  case h_2 => rfl

end

section
variable {s u : State} {a : Align} {r : FetchRecord} {n : Nat}

/-! ### The end of an alignment (R85, R86) -/

theorem exec_alignmentEnd_accepts {d : Int} (hr : inReset s = false) (ha : s.me.align = some a)
    (hact : s.me.activity = .aligning) (hs : a.stage = .scored) (hd : alignmentOffset a = some d) :
    exec .alignmentEnd s = .next { s with me := beginMerge d s.me a } := by
  refine (next_live hr).trans (congrArg Host.Outcome.next ?_)
  unfold alignmentEnd
  rw [ha]
  dsimp only
  rw [if_pos ⟨hact, hs⟩, hd]
  rfl

theorem exec_alignmentEnd_rejects (hr : inReset s = false) (ha : s.me.align = some a)
    (hact : s.me.activity = .aligning) (hs : a.stage = .scored) (hd : alignmentOffset a = none) :
    exec .alignmentEnd s =
      .next (settleArbiter (tryEvaluate (mergeOutcome (slotAt s a.slot).erasures (endAlignment s)))) := by
  refine (next_live hr).trans (congrArg Host.Outcome.next ?_)
  unfold alignmentEnd
  rw [ha]
  dsimp only
  rw [if_pos ⟨hact, hs⟩, hd]

/-! ### The outcome of a merge above GAP_LIMIT (R100, R102) -/

/-- The entry naming slot n is retried or, at RETRY_LIMIT, removed (R100). -/
def retryOrRemove (n : Nat) (s : State) : State :=
  if gapRetries s n < s.ctl.params.retryLimit then raiseRetries n s else removeGap n s

theorem mergeOutcome_above_limit {count : Nat} (hf : s.gaps.fetch = some r) (hab : r.abandoned = false)
    (hg : gapPresent s r = true) (hc : s.ctl.params.gapLimit < count) :
    mergeOutcome count s = fetchOver (qualityRise (retryOrRemove r.slot s)) := by
  unfold mergeOutcome retryOrRemove
  rw [hf]
  dsimp only
  rw [if_neg (by rw [hg]; decide), if_neg (Nat.not_le.mpr hc), if_neg (by rw [hab]; decide)]
  split <;> rfl

theorem raiseRetries_touches (n : Nat) : Touches [.gaps] s (raiseRetries n s) := onGaps_touches _

theorem retryOrRemove_touches (n : Nat) : Touches [.gaps, .map, .slots] s (retryOrRemove n s) :=
  ((raiseRetries_touches n).mono rfl).ite (removeGap_touches n)

theorem retryOrRemove_fetch (n : Nat) : (retryOrRemove n s).gaps.fetch = s.gaps.fetch := by
  unfold retryOrRemove
  split <;> rfl

theorem slotAt_retryOrRemove_of_ne {k : Nat} (h : k ≠ n) : slotAt (retryOrRemove n s) k = slotAt s k := by
  unfold retryOrRemove
  split
  · exact (raiseRetries_touches n).slotAt k rfl
  · exact slotAt_removeGap_of_ne h

/-- The mark of a removed entry's slot is cleared, past the last slot too, where there is none (R93). -/
theorem slotAt_removeGap_self (n : Nat) : slotAt (removeGap n s) n = { slotAt s n with gapMark := false } := by
  rcases Nat.lt_or_ge n s.map.slots.length with hn | hn
  · exact slotAt_removeGap_same hn
  · rw [slotAt_of_ge hn, slotAt_of_ge (by rw [(removeGap_touches n).ring rfl]; exact hn)]
    rfl

/-- A rise that does not go above 255 leaves the Gap Table alone (R102, R104). -/
theorem qualityRise_touches_of_le (h : s.quality.level = .abandon ∨ s.quality.counter + 8 ≤ 255) :
    Touches [.quality, .ctl] s (qualityRise s) := by
  unfold qualityRise
  split
  case isTrue => exact .refl _ s
  case isFalse hlevel =>
    rw [if_neg (Nat.not_lt.mpr (h.resolve_left hlevel))]
    exact setQuality_touches _ _

/-! ### An alignment that merges nothing (R85, R100) -/

/-- Nothing merged: the engine is idle, the entry retried or removed, and the rating adjusted (R100, R102). -/
def State.unmerged (s : State) (n : Nat) : State := qualityRise (retryOrRemove n (endAlignment s))

theorem unmerged_touches : Touches [.me, .gaps, .map, .slots, .quality, .ctl] s (s.unmerged n) :=
  ((endAlignment_touches.comp (retryOrRemove_touches n)).comp qualityRise_touches).mono rfl

theorem unmerged_me : (s.unmerged n).me = { s.me with activity := .idle, fetch := [], align := none } :=
  ((retryOrRemove_touches n).comp qualityRise_touches).me rfl

/-- The row reports the erasure count as it stood; with no attempt nothing is scored after it (R85, R100). -/
theorem exec_alignmentEnd_merges_nothing (hr : inReset s = false) (ha : s.me.align = some a)
    (hact : s.me.activity = .aligning) (hs : a.stage = .scored) (hd : alignmentOffset a = none)
    (hat : s.me.attempt = none) (hf : s.gaps.fetch = some r) (hslot : r.slot = a.slot) (hab : r.abandoned = false)
    (hg : gapPresent s r = true) (hc : s.ctl.params.gapLimit < (slotAt s a.slot).erasures) :
    exec .alignmentEnd s = .next (settleArbiter (fetchOver (s.unmerged a.slot))) := by
  have hout : mergeOutcome (slotAt s a.slot).erasures (endAlignment s) = fetchOver (s.unmerged a.slot) := by
    rw [mergeOutcome_above_limit (s := endAlignment s) hf hab hg hc, hslot]
    rfl
  have hidle : (fetchOver (s.unmerged a.slot)).me.attempt = none := by
    rw [(endFetch_touches.comp fetchOver_touches).me rfl, unmerged_me]
    exact hat
  rw [exec_alignmentEnd_rejects hr ha hact hs hd, hout, tryEvaluate_of_attempt_none hidle]

section
variable (hq : s.quality.level = .abandon ∨ s.quality.counter + 8 ≤ 255)
include hq

/-- Short of ABANDON the rating leaves slots and Gap Table as the retry or the removal left them. -/
theorem unmerged_rise_touches : Touches [.quality, .ctl] (retryOrRemove n (endAlignment s)) (s.unmerged n) :=
  qualityRise_touches_of_le (by
    rw [(endAlignment_touches.comp (retryOrRemove_touches n)).quality rfl]
    exact hq)

theorem unmerged_fetch : (s.unmerged n).gaps.fetch = s.gaps.fetch :=
  (congrArg GapScheduler.fetch ((unmerged_rise_touches hq).gaps rfl)).trans (retryOrRemove_fetch n)

theorem slotAt_unmerged_of_ne {k : Nat} (h : k ≠ n) : slotAt (s.unmerged n) k = slotAt s k :=
  ((unmerged_rise_touches hq).slotAt k rfl).trans (slotAt_retryOrRemove_of_ne h)

theorem unmerged_of_retried (h : gapRetries s n < s.ctl.params.retryLimit) :
    slotAt (s.unmerged n) n = slotAt s n ∧ (s.unmerged n).gaps.entries = s.gaps.entries.map fun e =>
      if e.slot = n then { e with retries := e.retries + 1 } else e := by
  have hretry : retryOrRemove n (endAlignment s) = raiseRetries n (endAlignment s) := if_pos h
  have hrise := unmerged_rise_touches (n := n) hq
  rw [hretry] at hrise
  rw [hrise.slotAt n rfl, hrise.gaps rfl]
  exact ⟨rfl, rfl⟩

theorem unmerged_of_removed (h : s.ctl.params.retryLimit ≤ gapRetries s n) :
    slotAt (s.unmerged n) n = { slotAt s n with gapMark := false } ∧
      (s.unmerged n).gaps.entries = s.gaps.entries.filter fun e => e.slot != n := by
  have hremove : retryOrRemove n (endAlignment s) = removeGap n (endAlignment s) := if_neg (Nat.not_lt.mpr h)
  have hrise := unmerged_rise_touches (n := n) hq
  rw [hremove] at hrise
  rw [hrise.slotAt n rfl, hrise.gaps rfl]
  exact ⟨slotAt_removeGap_self n, rfl⟩

end

/-- A fetch of unmarked blocks that is over leaves the Gap Table and every slot but the staged ones (R100). -/
theorem settled_fetchOver_keeps (hf : u.gaps.fetch = some r)
    (hstaged : ∀ b ∈ r.staged, b.slot ≠ n ∧ (slotAt u b.slot).gapMark = false) :
    slotAt (settleArbiter (fetchOver u)) n = slotAt u n ∧
      (settleArbiter (fetchOver u)).gaps.entries = u.gaps.entries := by
  have hto : Touches [.map, .segs, .play, .ctl, .rc, .arb] (endFetch u) (settleArbiter (fetchOver u)) :=
    fetchOver_touches.comp settleArbiter_touches
  rw [hto.slotAt n rfl, hto.gaps rfl, endFetch_entries hf fun b hb => (hstaged b hb).2, slotAt_endFetch hf, if_neg]
  · exact ⟨rfl, rfl⟩
  · intro hn
    obtain ⟨b, hb, he⟩ := List.mem_map.mp hn
    exact (hstaged b hb).1 he

end

section
variable {s : State} {a : Align} (hr : inReset s = false) (ha : s.me.align = some a)
  (hact : s.me.activity = .aligning) (hs : a.stage = .scored)
include hr ha hact hs

/-- An accepted alignment begins the merge of the frames of `mergeTargets` (R86). -/
theorem accepted_alignment_begins_merge {d : Int} (hd : alignmentOffset a = some d) :
    ∃ t a', exec .alignmentEnd s = .next t ∧ t = { s with me := t.me } ∧ t.me.activity = .merging ∧
      t.me.attempt = s.me.attempt ∧ t.me.align = some a' ∧ a'.next = d ∧ a'.marks = a.marks ∧
      a'.slot = a.slot ∧ a'.blocks = a.blocks ∧ a'.targets = mergeTargets a d ∧
      (a'.targets = [] → a'.stage = .mergeWrite ∧ a'.writes = [] ∧ a'.replaced = 0) ∧
      (a'.targets ≠ [] → a'.stage = .mergeMarks ∧ t.me.fetch.length = a'.targets.length) := by
  have hexec := exec_alignmentEnd_accepts hr ha hact hs hd
  by_cases hnil : mergeTargets a d = []
  · rw [beginMerge_of_targets_eq_nil hnil] at hexec
    exact ⟨_, _, hexec, rfl, rfl, rfl, rfl, rfl, rfl, rfl, rfl, hnil.symm, fun _ => ⟨rfl, rfl, rfl⟩,
      fun h => absurd rfl h⟩
  · rw [beginMerge_of_targets_ne_nil hnil] at hexec
    generalize mergeTargets a d = targets at hexec hnil ⊢
    exact ⟨_, _, hexec, rfl, rfl, rfl, rfl, rfl, rfl, rfl, rfl, rfl, fun h => absurd h hnil,
      fun _ => ⟨rfl, List.length_map _⟩⟩

end

/-- Settles O38: `alignmentOffset` decides; accepted, the merge aims at `mergeTargets`; otherwise nothing is merged,
the entry is retried or removed, and the fetch is over. -/
theorem alignmentEndBeginsMerge : Obligations.AlignmentEndBeginsMerge := by
  intro s a hr ha hact hs
  refine ⟨fun d hd => ?_, fun r hu hbest hat hf hslot hab hg hstaged hc hq => ?_⟩
  · obtain ⟨t, a', hexec, hframe, hmerging, hattempt, halign, hnext, hmarks, hslot, hblocks, htargets, hnil, hcons⟩ :=
      accepted_alignment_begins_merge hr ha hact hs (alignmentOffset_eq_some hd)
    refine ⟨t, a', hexec, hframe, hmerging, hattempt, halign, hnext, hmarks, hslot, hblocks, ?_, fun i => ?_, hnil,
      hcons⟩
    · rw [htargets]
      exact pairwise_mergeTargets
    · rw [htargets]
      exact mem_mergeTargets_iff
  · have hto : Touches [.map, .segs, .play, .ctl, .rc, .arb] (endFetch (s.unmerged a.slot))
        (settleArbiter (fetchOver (s.unmerged a.slot))) := fetchOver_touches.comp settleArbiter_touches
    have hall := (unmerged_touches.comp endFetch_touches).comp hto
    obtain ⟨hslots, hentries⟩ := settled_fetchOver_keeps (n := a.slot) ((unmerged_fetch hq).trans hf) fun b hb => by
      rw [slotAt_unmerged_of_ne hq (hstaged b hb).1]
      exact hstaged b hb
    refine ⟨_, exec_alignmentEnd_merges_nothing hr ha hact hs (alignmentOffset_eq_none hu hbest) hat hf hslot hab hg
      hc, ?_⟩
    rw [(endFetch_touches.comp hto).me rfl, unmerged_me, hall.mem rfl, hall.count _ rfl, hslots, hentries,
      hto.gaps rfl, endFetch_fetch, settleArbiter_touches.rc rfl]
    refine ⟨rfl, rfl, rfl, rfl, rfl, unmerged_of_retried hq, unmerged_of_removed hq, fun hp => ?_⟩
    obtain ⟨⟨horigin, hpos, hcap⟩, -⟩ :=
      fetchOver_returns (s := s.unmerged a.slot) (by rw [unmerged_touches.rc rfl]; exact hp)
    rw [openEnd_of_touches unmerged_touches rfl rfl] at hpos
    exact ⟨horigin, hpos, hcap⟩

/-! ### The merge take (R87, R99) -/

section
variable {s : State} {a : Align} {r : FetchRecord}

theorem grantsMerge_of_present (hf : s.gaps.fetch = some r) (hlate : r.late = false) (hab : r.abandoned = false)
    (hg : gapPresent s r = true) : grantsMerge s = true := by
  unfold grantsMerge
  rw [hf]
  simp [hlate, hab, hg]

/-- The slot merging, and its new flag map to be written (R87). -/
def State.takesMerge (s : State) (a : Align) : State :=
  (modSlot a.slot (fun d => { d with merging := true }) s).onMe fun m =>
    { m with align := some { a with stage := .flagMap, jobs := flagMapJobs s a.slot a.newMarks } }

theorem exec_mergeFramesWritten_granted (hr : inReset s = false) (ha : s.me.align = some a)
    (hact : s.me.activity = .merging) (hs : a.stage = .mergeWrite) (hw : a.writes = []) (hn : a.replaced ≠ 0)
    (hg : grantsMerge s = true) : exec .mergeFramesWritten s = .next (s.takesMerge a) := by
  refine (next_live hr).trans (congrArg Host.Outcome.next ?_)
  unfold mergeFramesWritten
  rw [ha]
  dsimp only
  rw [if_pos ⟨hact, hs, hw⟩, if_neg hn, if_pos hg]
  rfl

theorem slotAt_takesMerge (h : a.slot < s.map.slots.length) :
    slotAt (s.takesMerge a) a.slot = { slotAt s a.slot with merging := true } :=
  (slotAt_modSlot (f := fun d => { d with merging := true }) h a.slot).trans (if_pos rfl)

end

/-- Settles O39: the scheduler consents, and the row takes the merge (`State.takesMerge`). -/
theorem mergeTakeIsGranted : Obligations.MergeTakeIsGranted := by
  intro s a r hr ha hact hs hw hn hf hlate hab hg hlt
  have hgrant := grantsMerge_of_present hf hlate hab hg
  refine ⟨s.takesMerge a, exec_mergeFramesWritten_granted hr ha hact hs hw hn hgrant, rfl, ?_, rfl⟩
  rw [slotAt_takesMerge hlt]

end Sys2Proof.Machine
end

section
/-! PROOFS. O41: the quality counter and state at block reports and merge outcomes. -/
namespace Sys2Proof.Machine

section
variable {s : State} {erasures : Nat}

/-! ### The pairs of counter and state (R102, R103) -/

/-- A counter within 0 to 255, in the state that follows it below ABANDON. -/
theorem quality_ok_levelOf {n k : Nat} (hn : n ≤ 255) (hk : k < 128) (f : Word) :
    Quality.ok { counter := n, level := levelOf n, cleanRun := k, rated := f } :=
  let ⟨hcounter, hlevel, hfull⟩ := levelOf_ok n hn
  ⟨hcounter, hk, hlevel, hfull⟩

/-- ABANDON holds 255, at any clean run short of 128. -/
theorem quality_ok_abandon {k : Nat} (hk : k < 128) (f : Word) :
    Quality.ok { counter := 255, level := .abandon, cleanRun := k, rated := f } :=
  ⟨le_refl _, hk, rfl, fun _ => rfl⟩

theorem setQuality_quality (counter : Nat) (level : QualityLevel) :
    (setQuality counter level s).quality = { s.quality with counter := counter, level := level } := by
  unfold setQuality
  dsimp only
  split <;> rfl

/-- From `s` to `t`, QUALITY is raised exactly when the quality state changes (R103). -/
def State.raisesQuality (s t : State) : Prop :=
  t.flag .quality = (s.flag .quality || t.quality.level != s.quality.level)

theorem raisesQuality_refl (s : State) : s.raisesQuality s := by
  unfold State.raisesQuality
  rw [bne_self_eq_false, Bool.or_false]

theorem raisesQuality_setQuality (counter : Nat) (level : QualityLevel) :
    s.raisesQuality (setQuality counter level s) := by
  unfold State.raisesQuality
  rw [setQuality_quality]
  unfold setQuality
  dsimp only
  split
  case isTrue hne =>
    rw [raiseFlag_flag, bne_comm, hne, Bool.or_true]
  case isFalse heq =>
    rw [bne_comm, Bool.eq_false_iff.mpr heq, Bool.or_false]
    rfl

/-! ### The increment (R102) -/

/-- What an increment outside ABANDON makes of the rating: 8 more, DEGRADED at exactly 255, ABANDON above. -/
structure Quality.rises (q q' : Quality) : Prop where
  within : q.counter + 8 ≤ 255 → q'.counter = q.counter + 8
  full : q.counter + 8 = 255 → q'.level = .degraded
  above : 255 < q.counter + 8 → q'.level = .abandon ∧ q'.counter = 255

theorem qualityRise_of_abandon (hl : s.quality.level = .abandon) : qualityRise s = s := if_pos hl

theorem qualityRise_of_le (hl : s.quality.level ≠ .abandon) (hc : s.quality.counter + 8 ≤ 255) :
    qualityRise s = setQuality (s.quality.counter + 8) (levelOf (s.quality.counter + 8)) s :=
  (if_neg hl).trans (if_neg (Nat.not_lt.mpr hc))

theorem qualityRise_of_gt (hl : s.quality.level ≠ .abandon) (hc : 255 < s.quality.counter + 8) :
    qualityRise s = enterAbandon s := (if_neg hl).trans (if_pos hc)

theorem enterAbandon_quality :
    (enterAbandon s).quality = { s.quality with counter := 255, level := .abandon, cleanRun := 0 } := by
  unfold enterAbandon
  rw [emptyGaps_touches.quality rfl]
  exact congrArg (fun q : Quality => { q with cleanRun := 0 }) (setQuality_quality 255 .abandon)

theorem raisesQuality_enterAbandon : s.raisesQuality (enterAbandon s) := by
  have hset := raisesQuality_setQuality (s := s) 255 .abandon
  unfold State.raisesQuality at hset ⊢
  rw [setQuality_quality] at hset
  rw [enterAbandon_quality, ← hset]
  exact ((onQuality_touches _).comp emptyGaps_touches).flag .quality rfl

theorem qualityRise_rises (hl : s.quality.level ≠ .abandon) : s.quality.rises (qualityRise s).quality := by
  rcases Nat.lt_or_ge 255 (s.quality.counter + 8) with hgt | hle
  · rw [qualityRise_of_gt hl hgt, enterAbandon_quality]
    exact ⟨fun h => absurd hgt (Nat.not_lt.mpr h), fun h => absurd hgt (by rw [h]; decide), fun _ => ⟨rfl, rfl⟩⟩
  · rw [qualityRise_of_le hl hle, setQuality_quality]
    exact ⟨fun _ => rfl, fun h => by rw [h]; rfl, fun h => absurd h (Nat.not_lt.mpr hle)⟩

theorem qualityRise_ok (h : s.quality.ok) : (qualityRise s).quality.ok := by
  by_cases hl : s.quality.level = .abandon
  · rw [qualityRise_of_abandon hl]
    exact h
  · rcases Nat.lt_or_ge 255 (s.quality.counter + 8) with hgt | hle
    · rw [qualityRise_of_gt hl hgt, enterAbandon_quality]
      exact quality_ok_abandon (by decide) _
    · rw [qualityRise_of_le hl hle, setQuality_quality]
      exact quality_ok_levelOf hle h.2.1 _

theorem raisesQuality_qualityRise : s.raisesQuality (qualityRise s) := by
  by_cases hl : s.quality.level = .abandon
  · rw [qualityRise_of_abandon hl]
    exact raisesQuality_refl s
  · rcases Nat.lt_or_ge 255 (s.quality.counter + 8) with hgt | hle
    · rw [qualityRise_of_gt hl hgt]
      exact raisesQuality_enterAbandon
    · rw [qualityRise_of_le hl hle]
      exact raisesQuality_setQuality _ _

/-! ### A block report outside ABANDON (R102) -/

theorem qualityReport_of_scratch (hl : s.quality.level ≠ .abandon) (he : s.ctl.params.gapLimit < erasures) :
    qualityReport erasures s = qualityRise s := (if_neg hl).trans (if_pos (decide_eq_true he))

/-- A block with 1 to GAP_LIMIT marks changes nothing. -/
theorem qualityReport_of_few (hl : s.quality.level ≠ .abandon) (hpos : 0 < erasures)
    (hle : erasures ≤ s.ctl.params.gapLimit) : qualityReport erasures s = s := by
  unfold qualityReport isScratch
  rw [if_neg hl, if_neg (by simpa using hle), if_neg fun h => hpos.ne' h.1]

theorem qualityReport_of_clean (hl : s.quality.level ≠ .abandon) :
    qualityReport 0 s = if 0 < s.quality.counter then
      setQuality (s.quality.counter - 1) (levelOf (s.quality.counter - 1)) s else s := by
  unfold qualityReport isScratch
  rw [if_neg hl, if_neg (by simp)]
  simp only [true_and]

/-- A block with no mark takes 1 off the counter, unless it is 0. -/
theorem clean_report_lowers (h : s.quality.ok) (hl : s.quality.level ≠ .abandon) :
    (qualityReport 0 s).quality.ok ∧ (qualityReport 0 s).quality.counter = s.quality.counter - 1 ∧
      s.raisesQuality (qualityReport 0 s) := by
  obtain ⟨hcounter, hrun, hlevel, hfull⟩ := h
  rw [qualityReport_of_clean hl]
  split
  case isTrue =>
    rw [setQuality_quality]
    exact ⟨quality_ok_levelOf (by omega) hrun _, rfl, raisesQuality_setQuality _ _⟩
  case isFalse hzero => exact ⟨⟨hcounter, hrun, hlevel, hfull⟩, by omega, raisesQuality_refl s⟩

/-! ### A block report in ABANDON (R105) -/

/-- The clean run alone moves, short of 128, or the block with no mark that makes it 128 leaves ABANDON. -/
theorem abandoned_report_cases (h : s.quality.ok) (hl : s.quality.level = .abandon) :
    (∃ k < 128, (qualityReport erasures s).quality = { s.quality with cleanRun := k }) ∨
      erasures = 0 ∧ s.quality.cleanRun = 127 ∧ (qualityReport erasures s).quality =
        { s.quality with counter := 0, level := .normal, cleanRun := 0 } := by
  obtain ⟨-, hrun, -, -⟩ := h
  unfold qualityReport
  rw [if_pos hl]
  split
  case isFalse => exact .inl ⟨0, by decide, rfl⟩
  case isTrue hclean =>
    split
    case isTrue hlast =>
      exact .inr ⟨hclean, by omega,
        congrArg (fun q : Quality => { q with cleanRun := 0 }) (setQuality_quality 0 .normal)⟩
    case isFalse hshort => exact .inl ⟨s.quality.cleanRun + 1, by omega, rfl⟩

/-- In ABANDON the counter stands, and only the end of the clean run leaves it. -/
theorem abandoned_report (h : s.quality.ok) (hl : s.quality.level = .abandon) :
    (qualityReport erasures s).quality.ok ∧
      ((qualityReport erasures s).quality.level = .abandon →
        (qualityReport erasures s).quality.counter = s.quality.counter) ∧
      ((qualityReport erasures s).quality.level ≠ .abandon → erasures = 0 ∧ s.quality.cleanRun = 127) := by
  rcases abandoned_report_cases h hl with ⟨k, hk, hq⟩ | ⟨hclean, hrun, hq⟩
  · rw [hq]
    obtain ⟨hcounter, -, hlevel, hfull⟩ := h
    exact ⟨⟨hcounter, hk, hlevel, hfull⟩, fun _ => rfl, fun hne => absurd hl hne⟩
  · rw [hq]
    exact ⟨quality_ok_levelOf (n := 0) (by decide) (by decide) _, fun hab => QualityLevel.noConfusion hab,
      fun _ => ⟨hclean, hrun⟩⟩

/-! ### A merge outcome above GAP_LIMIT (R100, R102) -/

/-- The rating after the outcome is the one that the increment makes of it. -/
theorem mergeOutcome_quality {count : Nat} {r : FetchRecord} (hf : s.gaps.fetch = some r) (hab : r.abandoned = false)
    (hg : gapPresent s r = true) (hc : s.ctl.params.gapLimit < count) :
    ∃ u, u.quality = s.quality ∧ (mergeOutcome count s).quality = (qualityRise u).quality := by
  refine ⟨retryOrRemove r.slot s, (retryOrRemove_touches r.slot).quality rfl, ?_⟩
  rw [mergeOutcome_above_limit hf hab hg hc]
  exact (endFetch_touches.comp fetchOver_touches).quality rfl

end

/-- Settles O41: a scratch block and a merge above GAP_LIMIT are one increment (`qualityRise_rises`); a clean block
lowers the counter, a block with few marks changes nothing, and in ABANDON only the clean run counts. -/
theorem qualityFollowsReports : Obligations.QualityFollowsReports := by
  refine ⟨fun erasures s hok hl => ?_, fun count s r hok hf hab hg hc => ?_, fun erasures s => abandoned_report⟩
  · dsimp only
    rcases Nat.lt_or_ge s.ctl.params.gapLimit erasures with hscratch | hfew
    · rw [qualityReport_of_scratch hl hscratch]
      obtain ⟨hwithin, hfull, habove⟩ := qualityRise_rises hl
      exact ⟨qualityRise_ok hok, fun _ => hwithin, fun _ => hfull, fun _ => habove, fun hclean => by omega,
        fun _ hle => by omega, raisesQuality_qualityRise⟩
    · have hnot : ¬ s.ctl.params.gapLimit < erasures := Nat.not_lt.mpr hfew
      rcases Nat.eq_zero_or_pos erasures with rfl | hpos
      · obtain ⟨hok', hlowers, hraises⟩ := clean_report_lowers hok hl
        exact ⟨hok', (absurd · hnot), (absurd · hnot), (absurd · hnot), fun _ => hlowers,
          (absurd · (lt_irrefl 0)), hraises⟩
      · rw [qualityReport_of_few hl hpos hfew]
        exact ⟨hok, (absurd · hnot), (absurd · hnot), (absurd · hnot), (absurd · hpos.ne'), fun _ _ => rfl,
          raisesQuality_refl s⟩
  · obtain ⟨u, hu, hrise⟩ := mergeOutcome_quality hf hab hg hc
    dsimp only
    rw [hrise, ← hu]
    rw [← hu] at hok
    refine ⟨qualityRise_ok hok, fun hl => (qualityRise_rises hl).within, fun hl => (qualityRise_rises hl).full,
      fun hl => (qualityRise_rises hl).above, fun hl => ?_⟩
    rw [qualityRise_of_abandon hl]

end Sys2Proof.Machine
end

section
/-! PROOFS. Samples of a frame word: fades never grow a sample (O45), and an interpolated sample lies between its
bounds (O46). -/
namespace Sys2Proof.Machine

section
variable {l r v a b : Int} {k m n i : Nat}

/-! ### The samples of a frame word (R185) -/

/-- A value that a signed 16-bit sample can take (R185). -/
def isSample (v : Int) : Prop := -32768 ≤ v ∧ v ≤ 32767

theorem isSample_toInt (x : BitVec 16) : isSample x.toInt := by
  have h1 := x.le_toInt
  have h2 := x.toInt_lt
  unfold isSample
  omega

theorem isSample_leftOf (w : Word) : isSample (leftOf w) := isSample_toInt _

theorem isSample_rightOf (w : Word) : isSample (rightOf w) := isSample_toInt _

theorem toInt_ofInt_of_isSample (h : isSample v) : (BitVec.ofInt 16 v).toInt = v := by
  obtain ⟨h1, h2⟩ := h
  rw [BitVec.toInt_ofInt]
  exact Int.bmod_eq_of_le (by omega) (by omega)

theorem leftOf_frameOf (h : isSample l) : leftOf (frameOf l r) = l := by
  unfold leftOf frameOf
  rw [BitVec.extractLsb'_append_eq_left]
  exact toInt_ofInt_of_isSample h

theorem rightOf_frameOf (h : isSample r) : rightOf (frameOf l r) = r := by
  unfold rightOf frameOf
  rw [BitVec.extractLsb'_append_eq_right]
  exact toInt_ofInt_of_isSample h

theorem frameOf_leftOf_rightOf (w : Word) : frameOf (leftOf w) (rightOf w) = w := by
  unfold frameOf leftOf rightOf
  rw [BitVec.ofInt_toInt, BitVec.ofInt_toInt]
  exact BitVec.extractLsb'_append_extractLsb'

/-! ### Parts of a value, truncated toward zero (R126) -/

/-- A part `k` of `m` of a value is no larger than the value. -/
theorem natAbs_mul_tdiv_le (v : Int) (hk : k ≤ m) : ((v * k).tdiv m).natAbs ≤ v.natAbs := by
  rw [Int.natAbs_tdiv, Int.natAbs_mul, Int.natAbs_natCast, Int.natAbs_natCast]
  exact Nat.div_le_of_le_mul (by rw [Nat.mul_comm m]; exact Nat.mul_le_mul_left _ hk)

theorem mul_tdiv_nonneg (h : 0 ≤ v) (k m : Nat) : 0 ≤ (v * k).tdiv m :=
  Int.tdiv_nonneg (Int.mul_nonneg h (Int.natCast_nonneg k)) (Int.natCast_nonneg m)

theorem mul_tdiv_nonpos (h : v ≤ 0) (k m : Nat) : (v * k).tdiv m ≤ 0 := by
  have hneg := mul_tdiv_nonneg (Int.neg_nonneg_of_nonpos h) k m
  rw [Int.neg_mul, Int.neg_tdiv] at hneg
  exact Int.nonpos_of_neg_nonneg hneg

/-- A part of a sample is a sample. -/
theorem isSample_mul_tdiv (h : isSample v) (hk : k ≤ m) : isSample ((v * k).tdiv m) := by
  have hle := natAbs_mul_tdiv_le v hk
  have hneg : v ≤ 0 → (v * k).tdiv m ≤ 0 := fun hv => mul_tdiv_nonpos hv k m
  unfold isSample at *
  omega

/-! ### Fades (R118, R119) -/

/-- A frame word with each sample scaled by `k` of 64. -/
def scaleFrame (w : Word) (k : Nat) : Word := mapFrame (fun v => (v * (k : Int)).tdiv ((64 : Nat) : Int)) w

theorem fadeOutFrame_eq_scaleFrame (w : Word) (h : k < 64) : fadeOutFrame w k = scaleFrame w (64 - k) := by
  unfold fadeOutFrame scaleFrame
  rw [if_pos h, Int.ofNat_sub (Nat.le_of_lt h)]
  rfl

theorem fadeOutFrame_of_le (w : Word) (h : 64 ≤ k) : fadeOutFrame w k = 0 := if_neg (Nat.not_lt.mpr h)

theorem fadeInFrame_zero (w : Word) : fadeInFrame w 0 = w := if_pos rfl

theorem fadeInFrame_eq_scaleFrame (w : Word) (h : k ≠ 0) : fadeInFrame w k = scaleFrame w k := if_neg h

theorem scaleFrame_full (w : Word) : scaleFrame w 64 = w := by
  have h : ∀ v : Int, (v * ((64 : Nat) : Int)).tdiv ((64 : Nat) : Int) = v := fun v =>
    Int.mul_tdiv_cancel v (by decide)
  unfold scaleFrame mapFrame
  dsimp only
  rw [h, h]
  exact frameOf_leftOf_rightOf w

/-- The samples of `x` have magnitudes at most those of `w`. -/
def noLouder (x w : Word) : Prop :=
  (leftOf x).natAbs ≤ (leftOf w).natAbs ∧ (rightOf x).natAbs ≤ (rightOf w).natAbs

theorem noLouder_refl (w : Word) : noLouder w w := ⟨le_rfl, le_rfl⟩

theorem noLouder_zero (w : Word) : noLouder 0 w := ⟨Nat.zero_le _, Nat.zero_le _⟩

theorem noLouder_scaleFrame (w : Word) (h : k ≤ 64) : noLouder (scaleFrame w k) w := by
  unfold noLouder scaleFrame mapFrame
  rw [leftOf_frameOf (isSample_mul_tdiv (isSample_leftOf w) h),
    rightOf_frameOf (isSample_mul_tdiv (isSample_rightOf w) h)]
  exact ⟨natAbs_mul_tdiv_le _ h, natAbs_mul_tdiv_le _ h⟩

theorem noLouder_fadeOutFrame (w : Word) (k : Nat) : noLouder (fadeOutFrame w k) w := by
  rcases Nat.lt_or_ge k 64 with h | h
  · rw [fadeOutFrame_eq_scaleFrame w h]
    exact noLouder_scaleFrame w (Nat.sub_le 64 k)
  · rw [fadeOutFrame_of_le w h]
    exact noLouder_zero w

theorem noLouder_fadeInFrame (w : Word) (h : k ≤ 64) : noLouder (fadeInFrame w k) w := by
  rcases Nat.eq_zero_or_pos k with rfl | hk
  · rw [fadeInFrame_zero]
    exact noLouder_refl w
  · rw [fadeInFrame_eq_scaleFrame w (Nat.ne_of_gt hk)]
    exact noLouder_scaleFrame w h

/-! ### Interpolation (R117) -/

/-- The step from `a` towards `b` goes the way of `b - a` and no further. -/
theorem interpSample_between (a b : Int) (h : i ≤ n) :
    min a b ≤ interpSample a b n i ∧ interpSample a b n i ≤ max a b := by
  have hstep : (((b - a) * (i : Int)).tdiv ((n + 1 : Nat) : Int)).natAbs ≤ (b - a).natAbs :=
    natAbs_mul_tdiv_le _ (Nat.le_succ_of_le h)
  have hdown : b ≤ a → ((b - a) * (i : Int)).tdiv ((n + 1 : Nat) : Int) ≤ 0 := fun hba =>
    mul_tdiv_nonpos (Int.sub_nonpos_of_le hba) i (n + 1)
  have hup : a ≤ b → 0 ≤ ((b - a) * (i : Int)).tdiv ((n + 1 : Nat) : Int) := fun hab =>
    mul_tdiv_nonneg (Int.sub_nonneg_of_le hab) i (n + 1)
  unfold interpSample
  rw [show (n : Int) + 1 = ((n + 1 : Nat) : Int) from rfl]
  generalize ((b - a) * (i : Int)).tdiv ((n + 1 : Nat) : Int) = q at hstep hdown hup
  omega

/-- Between two samples lie only samples. -/
theorem isSample_interpSample (ha : isSample a) (hb : isSample b) (h : i ≤ n) : isSample (interpSample a b n i) := by
  obtain ⟨hlow, hhigh⟩ := interpSample_between a b h
  unfold isSample at *
  omega

end

/-- Settles O45: a faded frame is a scaled one (`scaleFrame`), or 0 at the end of a fade-out. -/
theorem fadedSamplesNeverGrow : Obligations.FadedSamplesNeverGrow := fun w k =>
  have hout := noLouder_fadeOutFrame w k
  ⟨hout.1, hout.2, fadeOutFrame_of_le w, noLouder_fadeInFrame w,
    (fadeInFrame_eq_scaleFrame w (by decide)).trans (scaleFrame_full w)⟩

/-- Settles O46: each channel separately, by `interpSample_between`. -/
theorem interpolatedSamplesLieBetween : Obligations.InterpolatedSamplesLieBetween := by
  intro a b n i h f
  have hl : leftOf f = interpSample (leftOf a) (leftOf b) n i :=
    leftOf_frameOf (isSample_interpSample (isSample_leftOf a) (isSample_leftOf b) h)
  have hr : rightOf f = interpSample (rightOf a) (rightOf b) n i :=
    rightOf_frameOf (isSample_interpSample (isSample_rightOf a) (isSample_rightOf b) h)
  obtain ⟨hllow, hlhigh⟩ := interpSample_between (leftOf a) (leftOf b) h
  obtain ⟨hrlow, hrhigh⟩ := interpSample_between (rightOf a) (rightOf b) h
  rw [hl, hr]
  exact ⟨hllow, hlhigh, hrlow, hrhigh⟩

end Sys2Proof.Machine
end

section
/-! PROOFS. What a pending APPLY leaves of the play window, whenever it takes effect (R173, R177), and PAUSE and PLAY
(O51). -/
namespace Sys2Proof.Machine

section
variable {s t u : State}

/-! ### What an APPLY that takes effect leaves of the play window (R15, R18, R173) -/

/-- `t` follows from `s` by operations that touch the play window by no more than the retirement of a segment: of the
Play Server only the cursor may move, and it stands where the list holds at most one segment. -/
structure State.retiresOnly (s t : State) : Prop where
  play : t.play = { s.play with cursor := t.play.cursor }
  underrun : t.flag .underrun = s.flag .underrun
  short : s.map.segs.length ≤ 1 →
    t.map.segs.length ≤ 1 ∧ t.play.cursor = s.play.cursor ∧ t.lead = s.lead

theorem State.retiresOnly.trans (h : s.retiresOnly t) (h' : t.retiresOnly u) : s.retiresOnly u where
  play := by rw [h'.play, h.play]
  underrun := h'.underrun.trans h.underrun
  short hs := by
    obtain ⟨ht, hcur, hlead⟩ := h.short hs
    obtain ⟨hu, hcur', hlead'⟩ := h'.short ht
    exact ⟨hu, hcur'.trans hcur, hlead'.trans hlead⟩

theorem State.retiresOnly.of_touches {l : List Part} (h : Touches l s t) (hp : l.contains .play = false)
    (hs : l.contains .segs = false) (hf : t.flag .underrun = s.flag .underrun) : s.retiresOnly t where
  play := by rw [h.play hp]
  underrun := hf
  short hone := ⟨by rw [h.segs hs]; exact hone, by rw [h.play hp], h.lead hs hp⟩

theorem State.retiresOnly.refl (s : State) : s.retiresOnly s := .of_touches (.refl [] s) rfl rfl rfl

theorem retiresOnly_leadCheck : s.retiresOnly (leadCheck s) :=
  .of_touches leadCheck_touches rfl rfl (leadCheck_flag_of_ne (by decide))

/-- The closing of the last segment moves no end. -/
theorem retiresOnly_modLastSeg_close : s.retiresOnly (modLastSeg (fun g => { g with isOpen := false }) s) where
  play := rfl
  underrun := rfl
  short hone := by
    unfold State.lead
    rw [modLastSeg_segs]
    match hs : s.map.segs with
    | [] => exact ⟨Nat.zero_le 1, rfl, rfl⟩
    | [g] => exact ⟨le_rfl, rfl, rfl⟩
    | g :: h :: rest =>
      rw [hs] at hone
      exact absurd hone (by simp)

/-- A single segment that retires held nothing ahead of the cursor (R18, R20). -/
theorem retiresOnly_retireFront : s.retiresOnly (retireFront s) := by
  match hs : s.map.segs with
  | [] =>
    rw [show retireFront s = s by unfold retireFront; rw [hs]]
    exact .refl s
  | g :: rest =>
    by_cases hc : s.play.cursor = g.stop ∧ (g.isOpen = false ∨ rest ≠ [])
    · rw [retireFront_retires hs hc.1 hc.2]
      refine ⟨rfl, rfl, fun hone => ?_⟩
      obtain rfl : rest = [] := by
        rw [hs, List.length_cons] at hone
        exact List.eq_nil_of_length_eq_zero (by omega)
      refine ⟨Nat.zero_le 1, rfl, ?_⟩
      unfold State.lead leadOf
      rw [hs, hc.1, List.map_singleton, List.sum_singleton, Nat.sub_eq_zero_of_le (Nat.le_max_right ..)]
      rfl
    · rw [show retireFront s = s by unfold retireFront; rw [hs]; exact if_neg hc]
      exact .refl s

theorem retiresOnly_closeOpen : s.retiresOnly (closeOpen s) := by
  unfold closeOpen
  split
  · exact (retiresOnly_modLastSeg_close.trans retiresOnly_retireFront).trans retiresOnly_leadCheck
  · exact .refl s

theorem retiresOnly_holdReturn : s.retiresOnly (holdReturn s) :=
  (State.retiresOnly.of_touches (onIntake_touches_hold fun i => { i with hold := false }) rfl rfl rfl).trans
    (retiresOnly_closeOpen.trans
      (.of_touches ((onRc_touches _ rfl).comp (startCapture_touches true)) rfl rfl rfl))

theorem retiresOnly_newHoldMargin : s.retiresOnly (newHoldMargin s) := by
  unfold newHoldMargin holdRelease
  split
  · split
    · exact retiresOnly_holdReturn
    · exact .refl s
  · exact .of_touches holdTest_touches rfl rfl (holdTest_touches.flag _ rfl)

theorem State.retiresOnly.ite {p : Prop} [Decidable p] (h : s.retiresOnly t) :
    s.retiresOnly (if p then s else t) := by
  split
  · exact .refl s
  · exact h

/-- The effects of a new parameter set close a segment at most (R15, R173). -/
theorem retiresOnly_applyEffects (old new : Params) : s.retiresOnly (applyEffects old new s) := by
  have hlower : s.retiresOnly (lowerRetries new.retryLimit (rebuildRing old new s)) :=
    .of_touches lowerRebuild_touches rfl rfl (lowerRebuild_touches.flag _ rfl)
  have hfetch : ∀ u : State, u.retiresOnly (fetchTest u) := fun u =>
    .of_touches fetchTest_touches rfl rfl (fetchTest_touches.flag _ rfl)
  exact ((hlower.trans retiresOnly_leadCheck.ite).trans retiresOnly_newHoldMargin.ite).trans (hfetch _).ite

theorem retiresOnly_raiseFlag {f : EventFlag} (h : EventFlag.underrun.bit ≠ f.bit) : s.retiresOnly (raiseFlag f s) :=
  .of_touches (raiseFlag_touches f) rfl rfl (raiseFlag_flag_of_ne h)

theorem retiresOnly_onCtl (f : Control → Control) (h : (f s.ctl).flags = s.ctl.flags) :
    s.retiresOnly (s.onCtl f) where
  play := rfl
  underrun := congrArg (BitVec.getLsbD · 3) h
  short hone := ⟨hone, rfl, rfl⟩

theorem retiresOnly_completion (code : Word) (r : CmdResult) : s.retiresOnly (completion code r s) :=
  (retiresOnly_onCtl (fun c => { c with lastCode := code, lastResult := r }) rfl).trans
    (retiresOnly_raiseFlag (by decide))

theorem retiresOnly_applyNow : s.retiresOnly (applyNow s) := by
  cases hp : applyPasses s with
  | true =>
    rw [applyNow_passes hp]
    exact ((retiresOnly_onCtl _ rfl).trans (retiresOnly_applyEffects _ _)).trans (retiresOnly_completion _ _)
  | false =>
    rw [applyNow_refused hp]
    exact ((retiresOnly_onCtl _ rfl).trans (retiresOnly_raiseFlag (by decide))).trans (retiresOnly_completion _ _)

/-- An APPLY that takes effect leaves the command word's copy and its zero-write alone. -/
theorem applyNow_command : (applyNow s).ctl.latch = s.ctl.latch ∧ (applyNow s).ctl.zeroWrite = s.ctl.zeroWrite := by
  cases hp : applyPasses s with
  | true =>
    rw [applyNow_passes hp, completion_ctl, applyEffects_keeps.1]
    exact ⟨rfl, rfl⟩
  | false =>
    rw [applyNow_refused hp]
    exact ⟨rfl, rfl⟩

theorem applyIfPending_of_pending (h : s.ctl.applyPending = true) : applyIfPending s = applyNow s := if_pos h

theorem applyIfPending_of_not_pending (h : s.ctl.applyPending = false) : applyIfPending s = s :=
  if_neg (by rw [h]; decide)

/-! ### PAUSE and PLAY taken (R110, R119, R122) -/

/-- What PAUSE makes of the Play Server in PLAYING: the run ends at once, or with the burst in flight (R110, R122). -/
def PlayServer.pauses (p : PlayServer) : PlayServer :=
  if p.burst.isSome then { p with endRun := true, mode := .paused, underrun := false }
  else { p with run := .none, mode := .paused, underrun := false }

theorem PlayServer.pauses_of_burst {p : PlayServer} (h : p.burst.isSome = true) :
    p.pauses = { p with endRun := true, mode := .paused, underrun := false } := if_pos h

theorem PlayServer.pauses_of_no_burst {p : PlayServer} (h : p.burst = none) :
    p.pauses = { p with run := .none, mode := .paused, underrun := false } := if_neg (by rw [h]; decide)

theorem PlayServer.pauses_mode (p : PlayServer) : p.pauses.mode = .paused ∧ p.pauses.underrun = false := by
  unfold PlayServer.pauses
  split <;> exact ⟨rfl, rfl⟩

theorem pauseTaken_playing (hl : s.rc.loaded ≠ none) (hm : s.play.mode = .playing) :
    pauseTaken s = complete codePause .done (applyIfPending (s.onPlay PlayServer.pauses)) := by
  have hleave : leavePlaying .paused (s.onPlay fun p =>
      if p.burst.isSome then { p with endRun := true } else { p with run := .none }) =
      applyIfPending (s.onPlay PlayServer.pauses) := by
    unfold leavePlaying State.onPlay PlayServer.pauses
    dsimp only
    cases s.play.burst <;> exact if_pos hm
  unfold pauseTaken
  rw [if_neg hl, if_pos hm]
  exact congrArg (complete codePause .done) hleave

theorem pauseTaken_not_playing (hl : s.rc.loaded ≠ none) (hm : s.play.mode ≠ .playing) :
    pauseTaken s = complete codePause .done s := by
  unfold pauseTaken
  rw [if_neg hl, if_neg hm]

theorem playTaken_paused (hl : s.rc.loaded ≠ none) (hm : s.play.mode = .paused) :
    playTaken s = complete codePlay .done (s.onPlay fun p => { p with mode := .playing, fadeIn := 1 }) := by
  unfold playTaken
  rw [if_neg hl, if_pos hm]

theorem playTaken_not_paused (hl : s.rc.loaded ≠ none) (hm : s.play.mode ≠ .paused) :
    playTaken s = complete codePlay .done s := by
  unfold playTaken
  rw [if_neg hl, if_neg hm]

/-- A command that changes the Play Server and completes as it is taken (R174, R175). -/
theorem issue_completes_onPlay {code : Word} (h : s.idle) (hc : code ≠ 0) {effect : State → State}
    (f : PlayServer → PlayServer) (he : effect (s.takes []) = complete code .done ((s.takes []).onPlay f)) :
    (.next (live (issue code [] effect) s) : Host.Outcome State Fault Refusal) = .next { s with
      arb := s.arbiterAtTake
      ctl := { s.ctl with
        latch := 0, zeroWrite := true, lastCode := code, lastResult := .done
        flags := s.ctl.flags ||| BitVec.twoPow 16 12 }
      play := f s.play } := by
  have hdone := settleArbiter_complete_takes (code := code) (arguments := []) h .done
  rw [settleArbiter_zeroWrite _ rfl] at hdone
  have hplay : complete code .done ((s.takes []).onPlay f) = (complete code .done (s.takes [])).onPlay f := rfl
  rw [issue_takes h hc, he, settleArbiter_zeroWrite _ rfl, hplay, hdone]
  rfl

end

/-- Settles O51: the take of the command (`State.takes`), its change of the Play Server, the pending APPLY that it
brings into effect, and its completion. -/
theorem pauseAndPlay : Obligations.PauseAndPlay := by
  intro s h hl
  have hloaded : s.rc.loaded ≠ none := Option.isSome_iff_ne_none.mp hl
  refine ⟨fun hpend hm => ?_, fun hpend => ?_⟩
  · let w := (s.takes []).onPlay PlayServer.pauses
    have hexec : exec .pause s = .next (settleArbiter (complete codePause .done (applyNow w))) := by
      refine (issue_takes h (by decide) pauseTaken).trans ?_
      rw [pauseTaken_playing (s := s.takes []) hloaded hm, applyIfPending_of_pending (s := w) hpend]
    obtain ⟨hmode, hunder⟩ := s.play.pauses_mode
    obtain ⟨heffect, -, -, hmem, -⟩ := applyNow_spec (s := w)
    obtain ⟨hlatch, hzero⟩ := applyNow_command (s := w)
    have hplay : (applyNow w).play = { s.play.pauses with cursor := (applyNow w).play.cursor } :=
      (retiresOnly_applyNow (s := w)).play
    generalize applyNow w = v at hexec heffect hmem hlatch hzero hplay
    have hend : Touches [.arb] (complete codePause .done v) (settleArbiter (complete codePause .done v)) :=
      settleArbiter_touches
    refine ⟨_, hexec, ?_⟩
    unfold State.applyTookEffect State.flag at heffect ⊢
    rw [hend.play rfl, hend.ctl rfl, hend.mem rfl]
    obtain ⟨hp, hstaged, hdone, hpass, hfail⟩ := heffect
    refine ⟨?_, ?_, rfl, hlatch, hzero, rfl, rfl, hmem, hp, hstaged, flag_of_or hdone, hpass, fun hf => ?_⟩
    · show v.play.mode = _
      rw [hplay]
      exact hmode
    · show v.play.underrun = _
      rw [hplay]
      exact hunder
    · obtain ⟨hparams, hind, hconfig⟩ := hfail hf
      exact ⟨hparams, hind, flag_of_or hconfig⟩
  · have hpauses : s.play.mode = .playing → pauseTaken (s.takes []) =
        complete codePause .done ((s.takes []).onPlay PlayServer.pauses) := fun hm => by
      rw [pauseTaken_playing (s := s.takes []) hloaded hm,
        applyIfPending_of_not_pending (s := (s.takes []).onPlay PlayServer.pauses) hpend]
    refine ⟨fun hm hb => ?_, fun hm hb => ?_, fun hm => ?_, fun hm => ?_, fun hm => ?_⟩
    · rw [← PlayServer.pauses_of_no_burst hb]
      exact issue_completes_onPlay h (by decide) PlayServer.pauses (hpauses hm)
    · rw [← PlayServer.pauses_of_burst hb]
      exact issue_completes_onPlay h (by decide) PlayServer.pauses (hpauses hm)
    · exact issue_completes h (by decide)
        (pauseTaken_not_playing (s := s.takes []) hloaded (by rw [show (s.takes []).play.mode = _ from hm]; decide))
    · exact issue_completes_onPlay h (by decide) _ (playTaken_paused (s := s.takes []) hloaded hm)
    · exact issue_completes h (by decide)
        (playTaken_not_paused (s := s.takes []) hloaded (by rw [show (s.takes []).play.mode = _ from hm]; decide))

end Sys2Proof.Machine
end

section
/-! PROOFS. O42: a burst planned without a serve. -/
namespace Sys2Proof.Machine

section
variable {s v : State} {b : Burst} {w : BurstWord} {n k : Nat} {p : PlayServer} {ahead : List AheadItem}

/-! ### A burst that needs no look-ahead (R115, R116) -/

theorem addAhead_of_composed {c : Composed} (hb : s.play.burst = some b)
    (h : composeWords b.ahead b.words s.play = .done c) (fuel : Nat) : addAhead fuel s = s := by
  cases fuel with
  | zero => rfl
  | succ fuel =>
    unfold addAhead
    rw [hb]
    dsimp only
    rw [h]

/-- A burst that composes from what is known adds no look-ahead position. -/
theorem settleAhead_of_composed {c : Composed} (hb : s.play.burst = some b)
    (h : composeWords b.ahead b.words s.play = .done c) : settleAhead s = s := by
  unfold settleAhead
  split
  · exact addAhead_of_composed hb h _
  · rfl

/-! ### Words that serve nothing (R114) -/

/-- The word a burst returns where it serves nothing, by the play state at its take (R114). -/
def fillerWord : PlayMode → BurstWord
  | .stopped => .zero
  | .paused => .pause
  | .playing => .fill

theorem composeWords_zero (rest : List BurstWord) : composeWords ahead (.zero :: rest) p =
    (composeWords ahead rest { p with
      run := .none, fadeOut := some { source := 0, step := 64 }, fadeIn := 1, lastWord := 0, lastKind := .zero }).add
      0 none false := rfl

theorem composeWords_pause (rest : List BurstWord) : composeWords ahead (.pause :: rest) p =
    (composeWords ahead rest { (fadeStep { p with run := .none }).1 with lastKind := .pause }).add
      (fadeStep { p with run := .none }).2 none false := rfl

theorem composeWords_fill (rest : List BurstWord) : composeWords ahead (.fill :: rest) p =
    (composeWords ahead rest { (fadeStep { p with run := .none }).1 with lastKind := .fill }).add
      (fadeStep { p with run := .none }).2 none true := rfl

theorem Composing.add_done (out : Word) (value : Option (Nat × TailFrame)) (fill : Bool) {x : Composing Composed}
    (h : ∃ c, x = .done c) : ∃ c, x.add out value fill = .done c := by
  obtain ⟨c, rfl⟩ := h
  exact ⟨_, rfl⟩

/-- Such words are composed from the Play Server alone. -/
theorem composeWords_filler (mode : PlayMode) (n : Nat) (p : PlayServer) :
    ∃ c, composeWords ahead (List.replicate n (fillerWord mode)) p = .done c := by
  induction n generalizing p with
  | zero => exact ⟨_, rfl⟩
  | succ n ih =>
    rw [List.replicate_succ]
    cases mode with
    | stopped => exact composeWords_zero (p := p) _ ▸ Composing.add_done _ _ _ (ih _)
    | paused => exact composeWords_pause (p := p) _ ▸ Composing.add_done _ _ _ (ih _)
    | playing => exact composeWords_fill (p := p) _ ▸ Composing.add_done _ _ _ (ih _)

/-- The burst of `s`, of n words in all, stands planned with n filler words (R114). -/
def State.takenFillers (s : State) (mode : PlayMode) (n : Nat) : State :=
  s.onPlay fun p =>
    { p with burst := some { mode := mode, todo := 0, words := List.replicate n (fillerWord mode) } }

/-- Where each word is planned as `w` and leaves the state as it is, the take only adds words (R114). -/
theorem planWords_same {mode : PlayMode} {P : State → Prop} (hplan : ∀ u, P u → planWord mode u = some (u, w))
    (hadd : ∀ u, P u → P (addWord w u)) (hs : P s) (hb : s.play.burst = some b) :
    planWords mode n s = s.onPlay fun p =>
      { p with burst := some { b with todo := b.todo - n, words := b.words ++ List.replicate n w } } := by
  induction n generalizing s b with
  | zero =>
    rw [List.replicate_zero, List.append_nil]
    show s = { s with play := { s.play with burst := some b } }
    rw [← hb]
  | succ n ih =>
    have hb' : (addWord w s).play.burst = some { b with todo := b.todo - 1, words := b.words ++ [w] } := by
      show s.play.burst.map _ = _
      rw [hb]
      rfl
    unfold planWords
    rw [hplan s hs]
    dsimp only
    rw [ih (hadd s hs) hb', List.append_assoc, List.replicate_succ, Nat.sub_sub, Nat.add_comm 1 n]
    rfl

/-! ### Fill frames (R120) -/

/-- The underrun of a fill frame: the first one raises UNDERRUN (R120). -/
def State.underruns (s : State) : State :=
  if s.play.underrun then s else raiseFlag .underrun (s.onPlay fun p => { p with underrun := true })

theorem planFill_eq : planFill s = applyIfPending s.underruns := rfl

theorem underruns_touches : Touches [.play, .ctl] s s.underruns :=
  .ite (.refl _ s) ((onPlay_touches _).comp (raiseFlag_touches _))

theorem underruns_play : s.underruns.play = { s.play with underrun := true } := by
  unfold State.underruns
  split
  case isTrue h => rw [← h]
  case isFalse => rfl

theorem flagsOnly_underruns : s.flagsOnly s.underruns := by
  unfold State.underruns
  split <;> rfl

theorem underruns_flag : s.underruns.flag .underrun = (s.flag .underrun || !s.play.underrun) := by
  unfold State.underruns
  split
  case isTrue h => rw [h, Bool.not_true, Bool.or_false]
  case isFalse h =>
    rw [raiseFlag_flag, Bool.eq_false_iff.mpr h, Bool.not_false, Bool.or_true]

theorem underruns_lead : s.underruns.lead = s.lead := by
  unfold State.lead
  rw [underruns_touches.segs rfl, underruns_play]

/-- An underrun has been reported, lead is 0 and no APPLY waits: a further fill frame changes nothing (R120). -/
structure State.underrunning (s : State) : Prop where
  lead : s.lead = 0
  reported : s.play.underrun = true
  settled : s.ctl.applyPending = false

theorem planWord_of_lead (h : s.lead = 0) : planWord .playing s = some (planFill s, .fill) := if_pos h

theorem State.underrunning.planWord (h : s.underrunning) : planWord .playing s = some (s, .fill) := by
  have hu : s.underruns = s := if_pos h.reported
  rw [planWord_of_lead h.lead, planFill_eq, hu, applyIfPending_of_not_pending h.settled]

theorem State.underrunning.addWord (h : s.underrunning) (w : BurstWord) : (addWord w s).underrunning :=
  ⟨h.lead, h.reported, h.settled⟩

/-- Planned with lead 0, every word is a fill frame; only the first changes the state (R114, R120). -/
theorem planWords_fill {mode : PlayMode} (hlead : s.lead = 0)
    (hb : s.play.burst = some { mode := mode, todo := n + 1, words := [] }) (hv : planFill s = v)
    (hplay : v.play.burst = s.play.burst) (hu : v.underrunning) :
    planWords .playing (n + 1) s = v.onPlay fun p => { p with
      burst := some { mode := mode, todo := 0, words := List.replicate (n + 1) .fill } } := by
  have hb' : (addWord .fill v).play.burst = some { mode := mode, todo := n, words := [.fill] } := by
    show v.play.burst.map _ = _
    rw [hplay, hb]
    rfl
  unfold planWords
  rw [planWord_of_lead hlead, hv]
  dsimp only
  rw [planWords_same (fun u (h : u.underrunning) => h.planWord) (fun u h => h.addWord .fill) (hu.addWord .fill) hb',
    Nat.sub_self]
  rfl

/-! ### The take of such a burst (R114) -/

/-- The burst taken, planned with filler words from `v`. -/
theorem exec_burstTake_fillers {r : ActiveRequest} (hr : inReset s = false) (hw : s.router.waiting = [])
    (hp : s.router.reqP = some r) (hk : r.plays ≠ []) (hb : s.play.burst = none)
    (hv : planWords s.play.mode r.plays.length (openBurst r.plays.length s) =
      v.takenFillers s.play.mode r.plays.length) :
    exec .burstTake s = .next (settleArbiter (v.takenFillers s.play.mode r.plays.length)) := by
  have htake : burstToTake s = true := by
    unfold burstToTake
    rw [hp, hb]
    exact bne_iff_ne.mpr hk
  obtain ⟨c, hc⟩ := composeWords_filler (ahead := []) s.play.mode r.plays.length
    (v.takenFillers s.play.mode r.plays.length).play
  have hsettle : settleAhead (v.takenFillers s.play.mode r.plays.length) =
      v.takenFillers s.play.mode r.plays.length := settleAhead_of_composed rfl hc
  have hplan : planBurst (openBurst r.plays.length s) = v.takenFillers s.play.mode r.plays.length := hv
  refine (next_live hr).trans (congrArg Host.Outcome.next ?_)
  unfold burstTake
  rw [admitWaiting_of_waiting_nil hw]
  dsimp only
  rw [hp]
  dsimp only
  rw [if_pos htake, hb, if_neg (by decide), hplan, hsettle]

theorem takenFillers_touches (mode : PlayMode) (n : Nat) :
    Touches [.play, .arb] s (settleArbiter (s.takenFillers mode n)) :=
  (onPlay_touches _).comp settleArbiter_touches

theorem takenFillers_play (mode : PlayMode) (n : Nat) : (settleArbiter (s.takenFillers mode n)).play =
    { s.play with burst := some { mode := mode, todo := 0, words := List.replicate n (fillerWord mode) } } :=
  settleArbiter_touches.play rfl

/-- The burst of `s` of n words has been taken in `t` without a serve: the cursor stands, and in PLAYING the underrun
is reported (R114, R120). -/
def State.takesFillers (s t : State) (n : Nat) : Prop :=
  exec .burstTake s = .next t ∧ t.play.cursor = s.play.cursor ∧ t.mem = s.mem ∧ t.play.history = s.play.history ∧
  t.play.burst = some { mode := s.play.mode, todo := 0, words := List.replicate n (fillerWord s.play.mode) } ∧
  (t.flag .underrun = (s.flag .underrun || (s.play.mode == .playing && !s.play.underrun))) ∧
  (t.play.underrun = (s.play.underrun || s.play.mode == .playing))

section
variable {r : ActiveRequest} (hr : inReset s = false) (hw : s.router.waiting = []) (hp : s.router.reqP = some r)
  (hk : r.plays ≠ []) (hb : s.play.burst = none)
include hr hw hp hk hb

/-- In STOPPED and PAUSED the take changes the burst alone (R114). -/
theorem takesFillers_not_playing (hm : s.play.mode ≠ .playing) :
    ∃ t, s.takesFillers t r.plays.length ∧ t.map = s.map := by
  have hone : ∀ u, planWord s.play.mode u = some (u, fillerWord s.play.mode) := fun u => by
    cases h : s.play.mode with
    | stopped => rfl
    | paused => rfl
    | playing => exact absurd h hm
  have hplan : planWords s.play.mode r.plays.length (openBurst r.plays.length s) =
      s.takenFillers s.play.mode r.plays.length := by
    rw [planWords_same (P := fun _ => True) (fun u _ => hone u) (fun _ _ => trivial) trivial rfl, Nat.sub_self]
    rfl
  have ht := takenFillers_touches (s := s) s.play.mode r.plays.length
  have hq := takenFillers_play (s := s) s.play.mode r.plays.length
  have hf : (s.play.mode == .playing) = false := beq_false_of_ne hm
  refine ⟨_, ⟨exec_burstTake_fillers hr hw hp hk hb hplan, ?_, ht.mem rfl, ?_, ?_, ?_, ?_⟩, ht.map rfl⟩
  · rw [hq]
  · rw [hq]
  · rw [hq]
  · rw [hf, Bool.false_and, Bool.or_false]
    exact ht.flag _ rfl
  · rw [hf, Bool.or_false, hq]

/-- In PLAYING with lead 0 the first fill frame reports the underrun, and then `v` stands (R114, R120). -/
theorem takesFillers_playing (hm : s.play.mode = .playing) (hlead : s.lead = 0)
    (hv : planFill (openBurst r.plays.length s) = v)
    (hplay : v.play = { (openBurst r.plays.length s).play with underrun := true })
    (hflag : v.flag .underrun = (s.flag .underrun || !s.play.underrun)) (hmem : v.mem = s.mem) (hvlead : v.lead = 0)
    (hvp : v.ctl.applyPending = false) :
    ∃ t, s.takesFillers t r.plays.length ∧ Touches [.play, .arb] v t := by
  obtain ⟨n, hn⟩ : ∃ n, r.plays.length = n + 1 :=
    Nat.exists_eq_succ_of_ne_zero fun h => hk (List.eq_nil_of_length_eq_zero h)
  have hplan : planWords s.play.mode r.plays.length (openBurst r.plays.length s) =
      v.takenFillers s.play.mode r.plays.length := by
    rw [hn] at hv hplay ⊢
    rw [hm]
    exact planWords_fill (s := openBurst (n + 1) s) hlead (by rw [← hm]; rfl) hv (by rw [hplay])
      ⟨hvlead, by rw [hplay], hvp⟩
  have ht := takenFillers_touches (s := v) s.play.mode r.plays.length
  have hq := takenFillers_play (s := v) s.play.mode r.plays.length
  rw [hplay] at hq
  have hf : (s.play.mode == .playing) = true := beq_iff_eq.mpr hm
  refine ⟨_, ⟨exec_burstTake_fillers hr hw hp hk hb hplan, ?_, (ht.mem rfl).trans hmem, ?_, ?_, ?_, ?_⟩, ht⟩
  · rw [hq]
    rfl
  · rw [hq]
    rfl
  · rw [hq]
  · rw [hf, Bool.true_and, ht.flag _ rfl, hflag]
  · rw [hf, Bool.or_true, hq]

end

end

/-- Settles O42: filler words change nothing but the burst (`planWords_same`), except the first fill frame, which
reports the underrun and brings a pending APPLY into effect. -/
theorem burstTakenWithoutServes : Obligations.BurstTakenWithoutServes := by
  intro s r hr hw hp hk hb hmode word planned
  have hplanned : ∀ t, s.takesFillers t r.plays.length → planned t := fun t h => h
  let o := openBurst r.plays.length s
  have holead : o.underruns.lead = s.lead := underruns_lead
  have hoplay : o.underruns.play = { o.play with underrun := true } := underruns_play
  have hoflag : o.underruns.flag .underrun = (s.flag .underrun || !s.play.underrun) := underruns_flag
  have hot : Touches [.play, .ctl] s o.underruns := ((onPlay_touches _).comp underruns_touches).mono rfl
  have hoctl : s.flagsOnly o.underruns := flagsOnly_underruns (s := o)
  have hlead : s.play.mode = .playing → s.lead = 0 := fun hm => by
    rcases hmode with h | h | h
    · rw [h] at hm; exact PlayMode.noConfusion hm
    · rw [h] at hm; exact PlayMode.noConfusion hm
    · exact h.2
  refine ⟨fun hc => ?_, fun hpend hm hone => ?_⟩
  · by_cases hm : s.play.mode = .playing
    · have hnot : o.underruns.ctl.applyPending = false := by
        rw [hoctl]
        exact hc.resolve_right (absurd hm)
      obtain ⟨t, ht, hto⟩ := takesFillers_playing hr hw hp hk hb hm (hlead hm)
        (planFill_eq.trans (applyIfPending_of_not_pending hnot)) hoplay hoflag (hot.mem rfl)
        (holead.trans (hlead hm)) hnot
      exact ⟨t, hplanned t ht, (hto.map rfl).trans (hot.map rfl)⟩
    · obtain ⟨t, ht, hmap⟩ := takesFillers_not_playing hr hw hp hk hb hm
      exact ⟨t, hplanned t ht, hmap⟩
  · have hpo : o.underruns.ctl.applyPending = true := by
      rw [hoctl]
      exact hpend
    have hpass : applyPasses o.underruns = applyPasses s := by
      unfold applyPasses
      rw [hoctl, hot.rc rfl, hot.router rfl]
    obtain ⟨heffect, hcode, hres, hmem, -⟩ := applyNow_spec (s := o.underruns)
    obtain ⟨hplay, hflag, hshort⟩ := retiresOnly_applyNow (s := o.underruns)
    obtain ⟨-, hcur, hvlead⟩ := hshort (by rw [hot.segs rfl]; exact hone)
    have hfill : planFill o = applyNow o.underruns := planFill_eq.trans (applyIfPending_of_pending hpo)
    rw [hpass] at heffect hres
    generalize applyNow o.underruns = v at *
    obtain ⟨t, ht, hto⟩ := takesFillers_playing hr hw hp hk hb hm (hlead hm) hfill
      (by rw [hplay, hcur, hoplay]) (hflag.trans hoflag) (hmem.trans (hot.mem rfl))
      (hvlead.trans (holead.trans (hlead hm))) heffect.1
    refine ⟨t, hplanned t ht, hoctl.applyTookEffect ?_, ?_, ?_⟩
    · unfold State.applyTookEffect State.flag at heffect ⊢
      rw [hto.ctl rfl]
      exact heffect
    · rw [hto.ctl rfl]
      exact hcode
    · rw [hto.ctl rfl]
      exact hres

end Sys2Proof.Machine
end

section
/-! PROOFS. O44: what composing gives for one word, and the return of the burst. -/
namespace Sys2Proof.Machine

section
variable {s : State} {p : PlayServer} {ahead : List AheadItem} {pos seg start m n d room : Nat} {kind : HeadKind}
  {it f : FetchItem}

/-! ### Frames that have been read (R74) -/

theorem itemRead_iff : itemRead it = true ↔ it.word ≠ none ∧ it.mark ≠ none := by
  rw [itemRead, Bool.and_eq_true, Option.isSome_iff_ne_none, Option.isSome_iff_ne_none]

/-- With every frame read no piece is due. -/
theorem nextPiece_of_read {items : List FetchItem} (h : ∀ it ∈ items, itemRead it = true) : nextPiece items = none := by
  have hwords : nextFramePiece items = none := by
    induction items with
    | nil => rfl
    | cons it rest ih =>
      unfold nextFramePiece
      rw [if_neg (itemRead_iff.mp (h it List.mem_cons_self)).1]
      exact ih fun x hx => h x (List.mem_cons_of_mem it hx)
  have hmarks : items.find? (fun it => it.mark = none) = none := by
    rw [List.find?_eq_none]
    exact fun it hit => by simpa using (itemRead_iff.mp (h it hit)).2
  unfold nextPiece nextFlagPiece
  rw [hwords, hmarks]

theorem mem_aheadItems {b : Burst} (h : f ∈ aheadItems b) : ∃ a ∈ b.ahead, a.place = .frame f := by
  obtain ⟨a, ha, hf⟩ := List.mem_filterMap.mp h
  refine ⟨a, List.mem_of_mem_filter ha, ?_⟩
  unfold aheadItemOf at hf
  split at hf
  case h_1 x hx =>
    cases hf
    exact hx
  case h_2 => exact nomatch hf
  case h_3 => exact nomatch hf

/-! ### The decision of a new run (R116, R117) -/

/-- What a look-ahead lookup of position `q` of a segment answered (R116). -/
def placeAt (ahead : List AheadItem) (seg q : Nat) : Option AheadPlace :=
  (ahead.find? fun x => x.pos == q && x.seg == seg).map AheadItem.place

/-- A look-ahead position is without a slot, or its frame is marked (R116). -/
def badAt (ahead : List AheadItem) (seg q : Nat) : Prop :=
  placeAt ahead seg q = some .missing ∨ ∃ f, placeAt ahead seg q = some (.frame f) ∧ (itemFrame f).erased = true

/-- The frames of all look-ahead positions have been read. -/
def allRead (ahead : List AheadItem) : Prop := ∀ x ∈ ahead, ∀ f, x.place = .frame f → itemRead f = true

/-- What a look-ahead lookup has told of its position (R116). -/
def AheadPlace.known : AheadPlace → Ahead
  | .outside => .outside
  | .missing => .erased
  | .frame it => readAs it

theorem lookAhead_of_place {x : AheadPlace} (h : placeAt ahead seg pos = some x) :
    lookAhead [] ahead pos seg = x.known := by
  obtain ⟨a, ha, rfl⟩ := Option.map_eq_some_iff.mp h
  unfold lookAhead plannedAt
  dsimp only
  rw [ha]
  dsimp only
  cases a.place <;> rfl

theorem allRead.frame (hr : allRead ahead) (h : placeAt ahead seg pos = some (.frame f)) : itemRead f = true := by
  obtain ⟨a, ha, hp⟩ := Option.map_eq_some_iff.mp h
  exact hr a (List.mem_of_find?_eq_some ha) f hp

theorem readAs_erased (hr : itemRead f = true) (h : (itemFrame f).erased = true) : readAs f = .erased := by
  unfold readAs
  rw [if_neg (by rw [hr]; decide), if_pos h]

theorem readAs_good (hr : itemRead f = true) (h : (itemFrame f).erased = false) :
    readAs f = .good (itemFrame f).word := by
  unfold readAs
  rw [if_neg (by rw [hr]; decide), if_neg (by rw [h]; decide)]

theorem lookAhead_bad (hr : allRead ahead) (h : badAt ahead seg pos) : lookAhead [] ahead pos seg = .erased := by
  obtain hm | ⟨f, hf, he⟩ := h
  · exact lookAhead_of_place hm
  · exact (lookAhead_of_place hf).trans (readAs_erased (hr.frame hf) he)

theorem findBound_bad (hr : allRead ahead) (h : badAt ahead seg pos) :
    findBound [] ahead seg (room + 1) pos n = findBound [] ahead seg room (pos + 1) (n + 1) := by
  rw [findBound, lookAhead_bad hr h]

/-- The search passes over the positions that are marked or without a slot (R116). -/
theorem findBound_skip (hr : allRead ahead) (h : ∀ j < d, badAt ahead seg (pos + j)) :
    findBound [] ahead seg (room + d) pos n = findBound [] ahead seg room (pos + d) (n + d) := by
  induction d generalizing room with
  | zero => rfl
  | succ d ih =>
    have hfirst := ih (room := room + 1) fun j hj => h j (Nat.lt_succ_of_lt hj)
    rw [Nat.add_right_comm] at hfirst
    exact hfirst.trans (findBound_bad hr (h d (Nat.lt_succ_self d)))

theorem findBound_good (hr : allRead ahead) (hf : placeAt ahead seg pos = some (.frame f))
    (hg : (itemFrame f).erased = false) : findBound [] ahead seg (room + 1) pos n = .found n (itemFrame f).word := by
  rw [findBound, (lookAhead_of_place hf).trans (readAs_good (hr.frame hf) hg)]

theorem findBound_outside (h : placeAt ahead seg pos = some .outside) :
    findBound [] ahead seg (room + 1) pos n = .absent := by
  rw [findBound, lookAhead_of_place h]
  rfl

/-- The bound of the run is the first good position among the INTERP_MAX after it (R116). -/
theorem findBound_found (hr : allRead ahead) (hn : 1 ≤ n) (hm : n ≤ m)
    (hbad : ∀ j, 1 ≤ j → j < n → badAt ahead seg (pos + j)) (hf : placeAt ahead seg (pos + n) = some (.frame f))
    (hg : (itemFrame f).erased = false) : findBound [] ahead seg m (pos + 1) 1 = .found n (itemFrame f).word := by
  obtain ⟨d, rfl⟩ := Nat.exists_eq_add_of_le hn
  obtain ⟨room, rfl⟩ := Nat.exists_eq_add_of_le hm
  rw [show 1 + d + room = room + 1 + d by omega, findBound_skip hr fun j hj => by
    rw [Nat.add_assoc]
    exact hbad (1 + j) (Nat.le_add_right 1 j) (Nat.add_lt_add_left hj 1)]
  exact findBound_good hr (by rw [Nat.add_assoc]; exact hf) hg

/-- There is no bound with none good among them, or where the segment ends first (R116). -/
theorem findBound_absent (hr : allRead ahead) (hm : n ≤ m) (hbad : ∀ j, 1 ≤ j → j ≤ n → badAt ahead seg (pos + j))
    (hend : n = m ∨ placeAt ahead seg (pos + (n + 1)) = some .outside) :
    findBound [] ahead seg m (pos + 1) 1 = .absent := by
  obtain ⟨room, rfl⟩ := Nat.exists_eq_add_of_le hm
  rw [Nat.add_comm n room, findBound_skip hr fun j hj => by
    rw [Nat.add_assoc]
    exact hbad (1 + j) (Nat.le_add_right 1 j) (by omega)]
  cases room with
  | zero => rfl
  | succ room =>
    refine findBound_outside ?_
    rw [Nat.add_assoc, Nat.add_comm 1 n]
    exact hend.resolve_left (by omega)

/-- After no real serve just before it in its segment, or at the segment's start, a run fades (R116). -/
theorem decideRun_unbounded (h : p.lastKind ≠ .real (pos - 1) seg ∨ pos = start) :
    decideRun [] ahead p pos seg start m = .decided (.fade pos seg) :=
  if_neg fun hc => h.elim (· hc.1) hc.2.1

section
variable (hk : p.lastKind = .real pos seg) (hs : pos + 1 ≠ start)
include hk hs

theorem decideRun_found {w : Word} (h : findBound [] ahead seg m (pos + 1 + 1) 1 = .found n w) :
    decideRun [] ahead p (pos + 1) seg start m =
      .decided (.interp p.lastWord (fadeInFrame w p.fadeIn) n 1 (pos + 1) seg) := by
  unfold decideRun
  rw [if_pos ⟨hk, hs, Nat.succ_ne_zero pos⟩, h]

theorem decideRun_absent (h : findBound [] ahead seg m (pos + 1 + 1) 1 = .absent) :
    decideRun [] ahead p (pos + 1) seg start m = .decided (.fade (pos + 1) seg) := by
  unfold decideRun
  rw [if_pos ⟨hk, hs, Nat.succ_ne_zero pos⟩, h]

end

/-! ### Composing one serve (R115 to R119) -/

/-- The fade-out that a faded word goes on with, or begins (R118). -/
def PlayServer.nextFade (p : PlayServer) : Fade := p.fadeOut.getD { source := p.lastWord, step := 1 }

/-- The word of a fade at its step (R118). -/
def Fade.word (x : Fade) : Word := fadeOutFrame x.source x.step

/-- The fade after one more word: from step 64 on it stays there (R118). -/
def Fade.next (x : Fade) : Fade := { x with step := min (x.step + 1) 64 }

/-- The Play Server after a faded word: the fade has gone on, and a fade-in is pending (R118, R119). -/
def PlayServer.fades (p : PlayServer) : PlayServer :=
  { p with fadeOut := some p.nextFade.next, fadeIn := 1, lastWord := p.nextFade.word }

theorem fadeStep_eq : fadeStep p = (p.fades, p.nextFade.word) := rfl

/-- The Play Server after a faded serve of `pos` (R118). -/
def PlayServer.servesFaded (p : PlayServer) (pos seg : Nat) : PlayServer :=
  { p.fades with run := .fade (pos + 1) seg, lastKind := .concealed }

/-- The Play Server after frame `i` of an interpolated run of `n` between `a` and `z`, served at `pos` (R117). -/
def PlayServer.servesInterp (p : PlayServer) (a z : Word) (n i pos seg : Nat) : PlayServer :=
  { p with
    run := if i < n then .interp a z n (i + 1) (pos + 1) seg else .none
    fadeOut := none, lastWord := interpFrame a z n i, lastKind := .concealed }

/-- A head begins a fade-in and changes nothing else (R119). -/
theorem headFade_eq : headFade p pos start kind = { p with fadeIn := (headFade p pos start kind).fadeIn } := by
  unfold headFade
  split <;> rfl

theorem headFade_of_ne (h : pos ≠ start) : headFade p pos start kind = p := if_neg fun hc => h hc.1

theorem headFade_fadeIn {x : Nat}
    (h : (pos = start ∧ (kind = .bridged ∨ kind = .nominal)) ∧ x = 1 ∨
      ¬ (pos = start ∧ (kind = .bridged ∨ kind = .nominal)) ∧ x = p.fadeIn) :
    headFade p pos start kind = { p with fadeIn := x } := by
  obtain ⟨hb, rfl⟩ | ⟨hb, rfl⟩ := h
  · exact if_pos hb
  · exact if_neg hb

/-- A good position with no interpolated run going on at it is served as it is (R115, R119). -/
theorem composeServe_real (he : (itemFrame it).erased = false) (hi : interpContinues p.run pos seg = false) :
    composeServe [] ahead p pos seg start kind m (some it) =
      .done (serveReal (headFade p pos start kind) pos seg (itemFrame it).word) := by
  unfold composeServe
  dsimp only
  rw [headFade_eq]
  exact if_pos ⟨he, hi⟩

/-- An interpolated run goes on, whatever the frame (R116, R117). -/
theorem composeServe_interp {a z : Word} {i : Nat} (h : p.run = .interp a z n i pos seg) :
    composeServe [] ahead p pos seg start kind m (some it) =
      .done (serveConcealed (headFade p pos start kind) pos seg) := by
  have hi : interpContinues p.run pos seg = true := by
    rw [h]
    unfold interpContinues runContinues
    simp
  have hr : runContinues p.run pos seg = true := by
    rw [h] at hi ⊢
    exact hi
  unfold composeServe
  dsimp only
  rw [headFade_eq]
  dsimp only
  rw [if_neg (by rw [hi]; exact fun hc => Bool.noConfusion hc.2), if_pos hr]

/-- A marked position with no run in progress begins the run that is decided (R116). -/
theorem composeServe_begins {run : ConcealRun} (he : (itemFrame it).erased = true) (hr : p.run = .none)
    (hd : decideRun [] ahead (headFade p pos start kind) pos seg start m = .decided run) :
    composeServe [] ahead p pos seg start kind m (some it) =
      .done (serveConcealed { headFade p pos start kind with run := run } pos seg) := by
  have hrun : runContinues (headFade p pos start kind).run pos seg = false := by
    rw [headFade_eq]
    dsimp only
    rw [hr]
    rfl
  unfold composeServe
  dsimp only
  rw [if_neg (by rw [he]; exact fun hc => Bool.noConfusion hc.1), hrun, if_neg (by decide), hd]

theorem serveConcealed_interp {a z : Word} {i x : Nat} (h : p.run = .interp a z n i x seg) :
    serveConcealed p pos seg =
      (p.servesInterp a z n i pos seg, interpFrame a z n i, { word := interpFrame a z n i, erased := true }) := by
  unfold serveConcealed
  rw [h]
  rfl

theorem serveConcealed_fade {x : Nat} (h : p.run = .fade x seg) : serveConcealed p pos seg =
    (p.servesFaded pos seg, p.nextFade.word, { word := p.nextFade.word, erased := true }) := by
  unfold serveConcealed
  rw [h]
  dsimp only
  rw [fadeStep_eq]
  rfl

end
end Sys2Proof.Machine
end

section
/-! PROOFS. O44: the completion of a burst of one word. -/
namespace Sys2Proof.Machine

/-- The burst `b` of the request `r` at port P may return: taken whole, the main piece done, and all its frames read;
no tail capture and no snapshot waits for its values (R115, R138). -/
structure State.returning (s : State) (r : ActiveRequest) (b : Burst) (k : Nat) : Prop where
  live : inReset s = false
  request : s.router.reqP = some r
  main : r.main = []
  plays : r.plays = [k]
  read : r.isWrite = false
  burst : s.play.burst = some b
  todo : b.todo = 0
  capture : s.rc.capture = none
  snap : s.resume.snap = none
  items : nextPiece (burstItems b) = none
  ahead : nextPiece (aheadItems b) = none

/-- The history after a serve's value has been received (R123). -/
def receivedHistory (h : List HistoryEntry) (pos : Nat) (v : TailFrame) : List HistoryEntry :=
  h.map fun e => if e.pos = pos ∧ e.value = none then { e with value := some v } else e

theorem map_receiveValue_single (h : List HistoryEntry) (pos : Nat) (v : TailFrame) :
    h.map (receiveValue [(pos, v)]) = receivedHistory h pos v := by
  refine List.map_congr_left fun e _ => ?_
  unfold receiveValue
  by_cases hp : pos = e.pos
  · rw [List.find?_cons_of_pos (by simpa using hp)]
    cases hv : e.value with
    | none => rw [if_pos ⟨hp.symm, rfl⟩]
    | some x => rw [if_neg fun hc => nomatch hc.2]
  · rw [List.find?_cons_of_neg (by simpa using hp), List.find?_nil, if_neg fun hc => hp hc.1.symm]
    cases e.value <;> rfl

section
variable {s : State} {r : ActiveRequest} {b : Burst} {k : Nat} {c : Composed}

theorem settleCapture_of_none (h : s.rc.capture = none) : settleCapture s = s := by
  show ({ s with rc := { s.rc with capture := s.rc.capture.map _ } } : State) = s
  rw [h, Option.map_none, ← h]

/-- With no snapshot in flight a change of its contents changes nothing. -/
theorem onResume_of_snap_none (h : s.resume.snap = none) (f : Snapshot → Snapshot) :
    (s.onResume fun t => { t with snap := t.snap.map f }) = s := by
  show ({ s with resume := { s.resume with snap := s.resume.snap.map f } } : State) = s
  rw [h, Option.map_none, ← h]

theorem snapshotReceives_of_none (h : s.resume.snap = none) (values : List (Nat × TailFrame)) :
    snapshotReceives values s = s := by
  unfold snapshotReceives
  rw [onResume_of_snap_none h]
  unfold beginWrite
  rw [h]

/-- What a composed burst makes of the Play Server (R122, R123). -/
def Composed.playAfter (c : Composed) (h : List HistoryEntry) : PlayServer :=
  { c.play with
    history := h.map (receiveValue c.values), run := if c.play.endRun then .none else c.play.run
    endRun := false, burst := none }

/-- What a composed burst adds to the counters (R124). -/
def Composed.counts (c : Composed) (k : Counters) : Counters :=
  { k with
    framesServed := k.framesServed + BitVec.ofNat 32 c.values.length
    concealed := k.concealed + BitVec.ofNat 32 (c.values.countP fun v => v.2.erased)
    fill := k.fill + BitVec.ofNat 32 c.fills }

theorem burstComposed_eq (hc : s.rc.capture = none) (hs : s.resume.snap = none) : burstComposed c s =
    { s with
      play := c.playAfter s.play.history, ctl := { s.ctl with counters := c.counts s.ctl.counters } } := by
  unfold burstComposed
  dsimp only
  rw [settleCapture_of_none (by exact hc), snapshotReceives_of_none (by exact hs)]
  rfl

/-- The completion of a burst that composes to one word (R115, R122, R123, R124, R138). -/
theorem exec_burstComplete {w : Word} (h : s.returning r b k)
    (hcomp : composeWords b.ahead b.words s.play = .done c) (hw : c.words = [w]) :
    exec .burstComplete s = .next { s with
      router := { s.router with reqP := none, returnP := r.buffer.set k w }
      play := c.playAfter s.play.history, ctl := { s.ctl with counters := c.counts s.ctl.counters } } := by
  have hready : burstReady s = some (b, r) := by
    unfold burstReady
    rw [h.burst, h.request]
    exact if_pos ⟨h.todo, h.items, h.ahead, h.main⟩
  have hreturn : returnBurst c r s = { s with
      router := { s.router with reqP := none, returnP := r.buffer.set k w }
      play := c.playAfter s.play.history, ctl := { s.ctl with counters := c.counts s.ctl.counters } } := by
    unfold returnBurst
    rw [burstComposed_eq h.capture h.snap, h.plays, hw, finishP_completes (q :=
      { r with buffer := r.buffer.set k w, plays := [] }) rfl h.main rfl]
    dsimp only
    rw [h.read]
    rfl
  refine (next_live h.live).trans (congrArg Host.Outcome.next ?_)
  unfold burstComplete
  rw [settleAhead_of_composed h.burst hcomp]
  dsimp only
  rw [hready]
  dsimp only
  rw [hcomp]
  exact hreturn

/-! ### What composing gives for one word (R115, R123, R124) -/

/-- In `t` the burst of one word has returned: `w` stands in the assembly buffer, and port P's request is complete
(R115, R138). -/
def State.returns (s t : State) (r : ActiveRequest) (k : Nat) (w : Word) : Prop :=
  exec .burstComplete s = .next t ∧ t.router.returnP = r.buffer.set k w ∧ t.router.reqP = none ∧
  t.play.burst = none ∧ t.mem = s.mem ∧ t.map = s.map

/-- A burst of one word has returned, with all that composing gives. -/
theorem State.returning.returns {w : Word} (h : s.returning r b k)
    (hcomp : composeWords b.ahead b.words s.play = .done c) (hw : c.words = [w]) :
    ∃ t, s.returns t r k w ∧ t.play = c.playAfter s.play.history ∧ t.ctl.counters = c.counts s.ctl.counters :=
  ⟨_, ⟨exec_burstComplete h hcomp hw, rfl, rfl, rfl, rfl, rfl⟩, rfl, rfl⟩

/-- What composing gives for one word that serves nothing, with the Play Server `p` after it. -/
def Composed.filler (p : PlayServer) (w : Word) (fills : Nat) : Composed :=
  { play := p, words := [w], values := [], fills := fills }

/-- What composing gives for one serve, with the Play Server `p` after it. -/
def Composed.serve (p : PlayServer) (w : Word) (pos : Nat) (v : TailFrame) : Composed :=
  { play := p, words := [w], values := [(pos, v)], fills := 0 }

/-- The Play Server after a faded word that is no serve (R118, R121). -/
def PlayServer.fadesIdle (p : PlayServer) (x : LastKind) : PlayServer := { p.fades with run := .none, lastKind := x }

theorem composeWords_one_zero (ahead : List AheadItem) (p : PlayServer) : composeWords ahead [.zero] p =
    .done (.filler { p with
      run := .none, fadeOut := some { source := 0, step := 64 }, fadeIn := 1, lastWord := 0, lastKind := .zero } 0 0) :=
  rfl

theorem composeWords_one_fill (ahead : List AheadItem) (p : PlayServer) : composeWords ahead [.fill] p =
    .done (.filler (p.fadesIdle .fill) p.nextFade.word 1) := rfl

theorem composeWords_one_pause (ahead : List AheadItem) (p : PlayServer) : composeWords ahead [.pause] p =
    .done (.filler (p.fadesIdle .pause) p.nextFade.word 0) := rfl

theorem composeWords_one_serve {ahead : List AheadItem} {p q : PlayServer} {pos seg start m : Nat} {kind : HeadKind}
    {item : Option FetchItem} {w : Word} {v : TailFrame}
    (h : composeServe [] ahead p pos seg start kind m item = .done (q, w, v)) :
    composeWords ahead [.serve pos seg start kind m item] p = .done (.serve q w pos v) := by
  unfold composeWords
  rw [h]
  rfl

theorem Composed.filler_counts (p : PlayServer) (w : Word) (n : Nat) (k : Counters) :
    (Composed.filler p w n).counts k = { k with fill := k.fill + BitVec.ofNat 32 n } := by
  unfold Composed.counts Composed.filler
  dsimp only
  rw [List.length_nil, List.countP_nil, BitVec.add_zero, BitVec.add_zero]

theorem Composed.serve_counts (p : PlayServer) (w : Word) (pos : Nat) (v : TailFrame) (k : Counters) :
    (Composed.serve p w pos v).counts k = { k with
      framesServed := k.framesServed + 1, concealed := k.concealed + if v.erased then 1 else 0 } := by
  unfold Composed.counts Composed.serve
  dsimp only
  rw [List.countP_singleton, BitVec.add_zero]
  cases v.erased <;> rfl

theorem Composed.serve_playAfter {p : PlayServer} (hp : p.endRun = false) (w : Word) (pos : Nat) (v : TailFrame)
    (h : List HistoryEntry) : (Composed.serve p w pos v).playAfter h =
      { p with history := receivedHistory h pos v, burst := none } := by
  unfold Composed.playAfter Composed.serve
  dsimp only
  rw [map_receiveValue_single, hp]
  rfl

/-! ### Words that serve nothing (R118, R121, R124) -/

/-- A faded word that is no serve has returned (R118, R121). -/
theorem State.returning.fades {x : LastKind} {n : Nat} (h : s.returning r b k)
    (hcomp : composeWords b.ahead b.words s.play =
      .done (.filler (s.play.fadesIdle x) s.play.nextFade.word n)) :
    ∃ t, s.returns t r k s.play.nextFade.word ∧ t.play.lastWord = s.play.nextFade.word ∧ t.play.fadeIn = 1 ∧
      t.play.fadeOut = some s.play.nextFade.next ∧
      t.count .framesServed = s.count .framesServed ∧ t.count .fill = s.count .fill + BitVec.ofNat 32 n := by
  obtain ⟨t, ht, hplay, hcount⟩ := h.returns hcomp rfl
  rw [Composed.filler_counts] at hcount
  refine ⟨t, ht, ?_⟩
  unfold State.count
  rw [hplay, hcount]
  exact ⟨rfl, rfl, rfl, rfl, rfl⟩

/-! ### One serve (R115 to R119, R123, R124) -/

/-- A serve has returned: `w` is its word, `q` the Play Server it leaves, and `v` its value (R123, R124). -/
def State.serves (s t : State) (r : ActiveRequest) (k : Nat) (q : PlayServer) (w : Word) (pos : Nat) (v : TailFrame) :
    Prop :=
  s.returns t r k w ∧ t.play = { q with history := receivedHistory s.play.history pos v, burst := none } ∧
  t.count .framesServed = s.count .framesServed + 1 ∧
  t.count .concealed = s.count .concealed + if v.erased then 1 else 0

theorem State.returning.serves {q : PlayServer} {w : Word} {pos seg start m : Nat} {kind : HeadKind}
    {item : Option FetchItem} {v : TailFrame} (h : s.returning r b k)
    (hw : b.words = [.serve pos seg start kind m item])
    (hcomp : composeServe [] b.ahead s.play pos seg start kind m item = .done (q, w, v)) (hq : q.endRun = false) :
    ∃ t, s.serves t r k q w pos v := by
  obtain ⟨t, ht, hplay, hcount⟩ := h.returns (by rw [hw]; exact composeWords_one_serve hcomp) rfl
  rw [Composed.serve_playAfter hq] at hplay
  rw [Composed.serve_counts] at hcount
  refine ⟨t, ht, hplay, ?_, ?_⟩ <;>
  · unfold State.count
    rw [hcount]

section
variable {pos seg start m : Nat} {kind : HeadKind} {it : FetchItem} (h : s.returning r b k)
  (hw : b.words = [.serve pos seg start kind m (some it)]) (hend : s.play.endRun = false)
include h hw hend

/-- The interpolated run in progress goes on (R116, R117). -/
theorem State.returning.serves_interp {a z : Word} {n i : Nat} (hrun : s.play.run = .interp a z n i pos seg) :
    ∃ x t, s.serves t r k (({ s.play with fadeIn := x } : PlayServer).servesInterp a z n i pos seg)
      (interpFrame a z n i) pos { word := interpFrame a z n i, erased := true } := by
  have hcomp := composeServe_interp (ahead := b.ahead) (p := s.play) (it := it) (start := start) (m := m)
    (kind := kind) hrun
  rw [headFade_eq, serveConcealed_interp (p := { s.play with fadeIn := (headFade s.play pos start kind).fadeIn })
    hrun] at hcomp
  exact ⟨_, h.serves hw hcomp hend⟩

section
variable (he : (itemFrame it).erased = true) (hrun : s.play.run = .none)
include he hrun

/-- A new run that is decided as faded (R116, R118). -/
theorem State.returning.serves_faded
    (hd : decideRun [] b.ahead (headFade s.play pos start kind) pos seg start m = .decided (.fade pos seg)) :
    ∃ t, s.serves t r k (s.play.servesFaded pos seg) s.play.nextFade.word pos
      { word := s.play.nextFade.word, erased := true } := by
  have hcomp := composeServe_begins he hrun hd
  rw [headFade_eq, serveConcealed_fade rfl] at hcomp
  exact h.serves hw hcomp hend

/-- A new run that is decided as interpolated, past its segment's start (R116, R117). -/
theorem State.returning.serves_begun {a z : Word} {n : Nat} (hs : pos ≠ start)
    (hd : decideRun [] b.ahead s.play pos seg start m = .decided (.interp a z n 1 pos seg)) :
    ∃ t, s.serves t r k (s.play.servesInterp a z n 1 pos seg) (interpFrame a z n 1) pos
      { word := interpFrame a z n 1, erased := true } := by
  have hhead := headFade_of_ne (p := s.play) (kind := kind) hs
  have hcomp := composeServe_begins (kind := kind) he hrun (by rw [hhead]; exact hd)
  rw [hhead, serveConcealed_interp rfl] at hcomp
  exact h.serves hw hcomp hend

end
end

/-! ### When every piece of a burst of one word has been read (R115, R116, R138) -/

theorem nextPiece_burstItems_serve {pos seg start m : Nat} {kind : HeadKind} {it : FetchItem}
    (hw : b.words = [.serve pos seg start kind m (some it)]) (hit : itemRead it = true) :
    nextPiece (burstItems b) = none := by
  refine nextPiece_of_read ?_
  unfold burstItems
  rw [hw]
  exact fun x hx => List.mem_singleton.mp hx ▸ hit

theorem nextPiece_aheadItems (h : allRead b.ahead) : nextPiece (aheadItems b) = none :=
  nextPiece_of_read fun f hf => by
    obtain ⟨a, hmem, hplace⟩ := mem_aheadItems hf
    exact h a hmem f hplace

theorem nextPiece_burstItems_filler {w : BurstWord} (hw : b.words = [w]) (hi : wordItemOf w = none) :
    nextPiece (burstItems b) = none := by
  unfold burstItems
  rw [hw, List.filterMap_cons_none hi]
  rfl

/-- A burst that serves nothing reads no look-ahead position (R116). -/
theorem nextPiece_aheadItems_filler {w : BurstWord} (hw : b.words = [w]) (hs : ∀ seg, servesSegment [w] seg = false) :
    nextPiece (aheadItems b) = none := by
  unfold aheadItems
  rw [List.filter_eq_nil_iff.mpr fun a _ => by rw [hw, hs]; decide]
  rfl

end

/-- Settles O44: each clause names what composing the word gives (`composeWords_one_zero` and the lemmas beside it,
`composeServe_real`, `composeServe_interp`, `composeServe_begins`), which the burst then returns. -/
theorem burstReturnsFadeAndZeros : Obligations.BurstReturnsFadeAndZeros := by
  intro s r b k hr hreq hmain hplays hread hb htodo hcap hsnap step
  have hstep : s.play.nextFade = step := by
    show s.play.fadeOut.getD _ = (match s.play.fadeOut with
      | some f => f
      | none => _)
    cases s.play.fadeOut <;> rfl
  clear_value step
  subst hstep
  have returning : nextPiece (burstItems b) = none → nextPiece (aheadItems b) = none → s.returning r b k :=
    fun hi ha => ⟨hr, hreq, hmain, hplays, hread, hb, htodo, hcap, hsnap, hi, ha⟩
  have filler : ∀ w, wordItemOf w = none → (∀ seg, servesSegment [w] seg = false) → b.words = [w] →
      s.returning r b k := fun w hi hs hw =>
    returning (nextPiece_burstItems_filler hw hi) (nextPiece_aheadItems_filler hw hs)
  refine ⟨fun hw => ?_, fun hw => ?_, ?_, ?_⟩
  · obtain ⟨t, ⟨hexec, hret, hreq', hburst, hmem, hmap⟩, hplay, hcount⟩ :=
      (filler .zero rfl (fun _ => rfl) hw).returns (by rw [hw]; exact composeWords_one_zero _ _) rfl
    rw [Composed.filler_counts, BitVec.add_zero] at hcount
    refine ⟨t, hexec, hret, hreq', ?_, ?_, ?_, hburst, hcount, hmem, hmap⟩
    all_goals rw [hplay]; rfl
  · have hfaded : ∃ x n, s.returning r b k ∧ (BitVec.ofNat 32 n = if b.words = [.fill] then 1 else 0) ∧
        composeWords b.ahead b.words s.play =
          .done (.filler (s.play.fadesIdle x) s.play.nextFade.word n) := by
      obtain hw | hw := hw
      · refine ⟨.fill, 1, filler .fill rfl (fun _ => rfl) hw, (if_pos hw).symm, ?_⟩
        rw [hw]
        exact composeWords_one_fill _ _
      · refine ⟨.pause, 0, filler .pause rfl (fun _ => rfl) hw, (if_neg (by rw [hw]; decide)).symm, ?_⟩
        rw [hw]
        exact composeWords_one_pause _ _
    obtain ⟨x, n, h, hn, hcomp⟩ := hfaded
    obtain ⟨t, ⟨hexec, hret, hreq', hburst, hmem, hmap⟩, hword, hin, hout, hserved, hfill⟩ := h.fades hcomp
    exact ⟨t, hexec, hret, hreq', hword, hin, hout, hburst, hmem, hmap, hserved, by rw [hfill, hn]⟩
  · intro pos seg start kind m it hw hahead hit hend received begins
    have h := returning (nextPiece_burstItems_serve hw hit) (nextPiece_aheadItems (by
      rw [hahead]
      exact fun x hx => nomatch hx))
    refine ⟨fun fadeIn hfade he hi => ?_, fun a z n i hrun => ?_, fun he hrun hlast => ?_⟩
    · have hcomp := composeServe_real (ahead := b.ahead) (p := s.play) (start := start) (m := m) (kind := kind) he hi
      rw [headFade_fadeIn hfade] at hcomp
      obtain ⟨t, ⟨hexec, hret, hreq', hburst, hmem, hmap⟩, hplay, hserved, hconc⟩ := h.serves hw hcomp hend
      have hnone : t.count .concealed = s.count .concealed := hconc.trans (BitVec.add_zero _)
      refine ⟨t, hexec, hret, hreq', hburst, ?_, ?_, ?_, ?_, ?_, ?_, hserved, hnone, hmem, hmap⟩
      all_goals rw [hplay]
      rfl
    · obtain ⟨x, t, ⟨hexec, hret, hreq', hburst, hmem, hmap⟩, hplay, hserved, hconc⟩ := h.serves_interp hw hend hrun
      refine ⟨t, hexec, hret, hreq', hburst, ?_, ?_, ?_, ?_, hserved, hconc, hmem, hmap⟩
      all_goals rw [hplay]; rfl
    · obtain ⟨t, ⟨hexec, hret, hreq', hburst, hmem, hmap⟩, hplay, hserved, hconc⟩ :=
        h.serves_faded hw hend he hrun (decideRun_unbounded (by rw [headFade_eq]; exact hlast))
      refine ⟨t, hexec, hret, hreq', hburst, ?_, ?_, ?_, ?_, ?_, hserved, hconc, hmem, hmap⟩
      all_goals rw [hplay]; rfl
  · intro pos seg start kind m it hw hit he hend hrun hlast hne hread place bad
    have h := returning (nextPiece_burstItems_serve hw hit) (nextPiece_aheadItems hread)
    refine ⟨fun n f hn hm hbad hf hg => ?_, fun n hm hbad hstop => ?_⟩
    · obtain ⟨t, ⟨hexec, hret, hreq', hburst, hmem, hmap⟩, hplay, hserved, hconc⟩ :=
        h.serves_begun hw hend he hrun hne (decideRun_found hlast hne (findBound_found hread hn hm hbad hf hg))
      refine ⟨t, hexec, hret, hreq', hburst, ?_, ?_, ?_, ?_, ?_, hserved, hconc, hmem, hmap⟩
      all_goals rw [hplay]; rfl
    · obtain ⟨t, ⟨hexec, hret, hreq', hburst, hmem, hmap⟩, hplay, -, hconc⟩ :=
        h.serves_faded hw hend he hrun (by
          rw [headFade_of_ne hne]
          exact decideRun_absent hlast hne (findBound_absent hread hm hbad hstop))
      refine ⟨t, hexec, hret, hreq', hburst, ?_, ?_, hconc, hmem, hmap⟩
      all_goals rw [hplay]; rfl

end Sys2Proof.Machine
end

section
/-! PROOFS. Writes of the parameter area: the enable and acknowledge words (O10), a parameter word (O11), and the
command and argument words (O12). -/
namespace Sys2Proof.Machine

section
variable {s : State} {offset : Nat} {data : Word} {en : BitVec 4}

/-! ### A beat of the parameter area (R134, R135, R172) -/

theorem parameterBeat_no_enable : parameterBeat offset data 0 s = s := if_pos rfl

theorem parameterBeat_enabled (h : en ≠ 0) : parameterBeat offset data en s =
    copyBeat offset data en (s.onMem fun m => Memory.writeWord m (parameterAddr s offset) data en) := if_neg h

/-- Off the enable and acknowledge words the Control Unit copies the beat as a parameter, command or argument word. -/
theorem copyBeat_eq_copyParameter (h : offset < 0x090) : copyBeat offset data en s =
    copyParameter offset data en s := by
  unfold copyBeat
  rw [if_neg (by show offset ≠ 0x090; omega), if_neg (by show offset ≠ 0x094; omega)]

/-- A word of the parameter area up to the last argument word, by its own row (R172; log 2). -/
theorem exec_parameterWordWrite {o : BitVec 10} (hr : inReset s = false) (he : en ≠ 0)
    (ho : isParameterOffset o = true) (hlt : o.toNat < 0x090) : exec (.parameterWordWrite o data en) s =
      .next (settleArbiter (copyParameter o.toNat data en
        (s.onMem fun m => Memory.writeWord m (parameterAddr s o.toNat) data en))) := by
  refine (next_live hr).trans (congrArg Host.Outcome.next ((if_pos ho).trans (congrArg settleArbiter ?_)))
  rw [parameterBeat_enabled he, copyBeat_eq_copyParameter hlt]

/-! ### A whole word (R134, R185) -/

/-- A word is its four bytes. -/
theorem wordOfBytes_byteOf (w : Word) : wordOfBytes (byteOf w 0) (byteOf w 1) (byteOf w 2) (byteOf w 3) = w := by
  unfold wordOfBytes byteOf
  ext i hi
  simp only [BitVec.getElem_append, BitVec.getElem_extractLsb']
  grind

theorem mergeBytes_all (old new : Word) : mergeBytes old new 15 = new := wordOfBytes_byteOf new

/-- A whole word written is the word read. -/
theorem readWord_writeWord {m : List Host.Cell} (h : Memory.wf m = true) (a : Nat) (w : Word) :
    Memory.readWord (Memory.writeWord m a w 15) a = w := by
  have hlane := fun k hk => read_writeWord_lane h a k hk w 15
  unfold Memory.readWord
  rw [show Memory.read (Memory.writeWord m a w 15) a = byteOf w 0 from hlane 0 (by decide), hlane 1 (by decide),
    hlane 2 (by decide), hlane 3 (by decide)]
  exact wordOfBytes_byteOf w

end

/-- Settles O10: each word is memory's and then its copy's; without an enabled byte it is neither's. -/
theorem enableAndAcknowledgeWords : Obligations.EnableAndAcknowledgeWords := by
  intro data en s hr
  refine ⟨fun he => ?_, fun he => ?_⟩
  · subst he
    exact ⟨(next_live hr).trans (congrArg _ parameterBeat_no_enable),
      (next_live hr).trans (congrArg _ parameterBeat_no_enable)⟩
  · exact ⟨(next_live hr).trans (congrArg _ (parameterBeat_enabled he)),
      (next_live hr).trans (congrArg _ (parameterBeat_enabled he))⟩

/-- Settles O11: the copy of a parameter word changes one staged word, and only the arbiter is settled after it. -/
theorem parameterWordIsOnlyStaged : Obligations.ParameterWordIsOnlyStaged := by
  intro offset data en s hr he hmod hle
  have ho : isParameterOffset offset = true := by simp [isParameterOffset, hmod, hle]
  refine ⟨_, exec_parameterWordWrite hr he ho (by omega), ?_⟩
  rw [settleArbiter_eq]
  unfold copyParameter
  rw [if_pos hle]
  refine ⟨rfl, rfl, List.length_modify .., fun i => ?_⟩
  by_cases hi : i = offset.toNat / 4
  · rw [if_pos hi, hi]
    exact List.getElem?_modify_eq ..
  · rw [if_neg hi]
    exact List.getElem?_modify_ne _ _ (Ne.symm hi)

/-- Settles O12: each word stands in memory and in its copy, and only the arbiter is settled after it. -/
theorem commandAndArgumentWords : Obligations.CommandAndArgumentWords := by
  intro data s hr hwf
  have written := fun (o : BitVec 10) ho hlt =>
    exec_parameterWordWrite (s := s) (o := o) (data := data) hr (by decide : (15 : BitVec 4) ≠ 0) ho hlt
  refine ⟨⟨_, written 0x080 (by decide) (by decide), ?_⟩, ⟨_, written 0x084 (by decide) (by decide), ?_⟩,
    ⟨_, written 0x088 (by decide) (by decide), ?_⟩, ⟨_, written 0x08C (by decide) (by decide), ?_⟩⟩
  · refine ⟨(settleArbiter_touches.ctl rfl).trans ?_, by rw [settleArbiter_eq]; rfl,
      (congrArg (Memory.readWord · _) (settleArbiter_touches.mem rfl)).trans (readWord_writeWord hwf _ data)⟩
    exact congrArg (fun w => { s.ctl with latch := w, zeroWrite := s.ctl.zeroWrite && w == 0 }) (mergeBytes_all _ data)
  · exact (settleArbiter_touches.ctl rfl).trans (congrArg (fun w => { s.ctl with arg0 := w }) (mergeBytes_all _ data))
  · exact (settleArbiter_touches.ctl rfl).trans (congrArg (fun w => { s.ctl with arg1 := w }) (mergeBytes_all _ data))
  · exact (settleArbiter_touches.ctl rfl).trans (congrArg (fun w => { s.ctl with arg2 := w }) (mergeBytes_all _ data))

end Sys2Proof.Machine
end

section
/-! PROOFS. The Port Router: regions (O15), the arrival of a request (O16), and a protected beat (O17). -/
namespace Sys2Proof.Machine

section
variable {s : State}

/-! ### Regions (R130, R178) -/

theorem inRange_iff {b n a : Nat} : inRange b n a = true ↔ b ≤ a ∧ a < b + n := by
  simp [inRange]

theorem apart_iff {x y : Nat × Nat} : apart x y = true ↔ x.1 + x.2 ≤ y.1 ∨ y.1 + y.2 ≤ x.1 := by
  simp [apart]

theorem alignedBase_of_aligned {b : Nat} (h : b % 4096 = 0) : alignedBase b = b := by
  unfold alignedBase
  omega

/-- With the bases in range and aligned, the region is the first range that the address meets (R130). -/
theorem regionOf_of_inRange (h : s.ctl.params.inRange) (a : Nat) : regionOf s a =
    let p := s.ctl.params
    let base := blockBase s.router.pblk
    if p.ringBase ≤ a ∧ a < p.ringBase + p.ringSlots * 2432 then .ring
    else if p.playBase ≤ a ∧ a < p.playBase + 4096 then .play
    else if p.intakeBase ≤ a ∧ a < p.intakeBase + 4096 then .intake
    else if base ≤ a ∧ a < base + 1024 then .parameter
    else if base + 1024 ≤ a ∧ a < base + 1024 + 1024 then .status
    else .elsewhere := by
  obtain ⟨⟨-, hring⟩, -, ⟨-, hintake⟩, ⟨-, hplay⟩, -⟩ := h
  unfold regionOf
  simp only [inRange_iff, alignedBase_of_aligned hring, alignedBase_of_aligned hplay, alignedBase_of_aligned hintake]

/-- The placement check as bounds: the four areas lie pairwise apart (R178). -/
theorem placementOk_apart {straps : BitVec 2} {p : Params} (h : placementOk straps p = true) :
    let ringEnd := p.ringBase + p.ringSlots * 2432
    let base := blockBase straps
    (ringEnd ≤ p.playBase ∨ p.playBase + 4096 ≤ p.ringBase) ∧
    (ringEnd ≤ p.intakeBase ∨ p.intakeBase + 4096 ≤ p.ringBase) ∧
    (ringEnd ≤ base ∨ base + 2048 ≤ p.ringBase) ∧
    (p.playBase + 4096 ≤ p.intakeBase ∨ p.intakeBase + 4096 ≤ p.playBase) ∧
    (p.playBase + 4096 ≤ base ∨ base + 2048 ≤ p.playBase) ∧
    (p.intakeBase + 4096 ≤ base ∨ base + 2048 ≤ p.intakeBase) := by
  unfold placementOk at h
  simp only [Bool.and_eq_true, apart_iff, and_assoc] at h
  obtain ⟨h1, h2, h3, h4, h5, h6, -⟩ := h
  exact ⟨h1, h2, h3, h4, h5, h6⟩

end

/-- Settles O15: an address meets one of the ranges at most, so that the first one it meets is the one it lies in. -/
theorem regionsAreTheirBounds : Obligations.RegionsAreTheirBounds := by
  rintro s a ⟨hin, hplace⟩
  obtain ⟨h1, h2, h3, h4, h5, h6⟩ := placementOk_apart hplace
  rw [regionOf_of_inRange hin]
  dsimp only
  split_ifs with hring hplay hintake hparameter hstatus
  all_goals
    simp only [true_iff, false_iff]
    omega

section
variable {s : State} {r : PortRequest} {b : Beat}

/-! ### The arrival of a request (R129, R130, R132) -/

/-- A list numbered from 0 on. -/
theorem mem_zip_range_iff {α : Type} {l : List α} {i : Nat} {x : α} :
    (i, x) ∈ (List.range l.length).zip l ↔ l[i]? = some x := by
  rw [List.mem_iff_getElem?]
  simp only [List.getElem?_zip_eq_some]
  constructor
  · rintro ⟨k, hk, hx⟩
    obtain ⟨hlt, rfl⟩ := List.getElem?_eq_some_iff.mp hk
    rwa [List.getElem_range]
  · intro h
    obtain ⟨hlt, -⟩ := List.getElem?_eq_some_iff.mp h
    exact ⟨i, List.getElem?_range hlt, h⟩

/-- The classified beats are those of the request at their places, each in the region of its address (R129, R130). -/
theorem mem_classify_iff : b ∈ classify s r ↔ (transferBeats r.transfer)[b.place]? = some b.data ∧
    b.addr = beatAddr r.addr b.place ∧ b.region = regionOf s b.addr := by
  unfold classify
  rw [List.mem_map]
  constructor
  · rintro ⟨⟨i, d⟩, hmem, rfl⟩
    exact ⟨mem_zip_range_iff.mp hmem, rfl, rfl⟩
  · rintro ⟨hdata, haddr, hregion⟩
    refine ⟨(b.place, b.data), mem_zip_range_iff.mpr hdata, ?_⟩
    dsimp only
    rw [← haddr, ← hregion]

theorem map_place_classify : (classify s r).map Beat.place = List.range (transferBeats r.transfer).length := by
  unfold classify
  rw [List.map_map]
  exact List.map_fst_zip (by simp)

/-- A request at a free port with no other waiting is served as classified (R129, R130). -/
theorem exec_portRequestArrive_free (hr : inReset s = false) (hw : r.transfer.wellFormed = true)
    (hfree : requestAt s r.port = none) (hnil : s.router.waiting = []) :
    exec (.portRequestArrive r) s = .next (setRequest r.port (some (arrivedRequest s r)) s) := by
  let u := s.onRouter fun k => { k with waiting := k.waiting ++ [r] }
  have hback : u.onRouter (fun k => { k with waiting := [] }) = s := by
    show ({ s with router := { s.router with waiting := [] } } : State) = s
    rw [← hnil]
  have hadmit : admitWaiting u = setRequest r.port (some (arrivedRequest s r)) s := by
    unfold admitWaiting
    rw [hback, show u.router.waiting = [r] from congrArg (· ++ [r]) hnil]
    unfold admitEach
    rw [hfree]
    rfl
  have harrive : requestArrives r s = admitWaiting u := by
    unfold requestArrives
    rw [if_pos hw]
    exact if_neg (by show ¬ inReset s = true; rw [hr]; decide)
  exact congrArg Host.Outcome.next (harrive.trans hadmit)

/-- In reset the request waits at its master (R143). -/
theorem exec_portRequestArrive_reset (hr : inReset s = true) (hw : r.transfer.wellFormed = true) :
    exec (.portRequestArrive r) s =
      .next { s with router := { s.router with waiting := s.router.waiting ++ [r] } } :=
  congrArg Host.Outcome.next ((if_pos hw).trans (if_pos hr))

theorem requestAt_setRequest (port : Port) (q : Option ActiveRequest) : requestAt (setRequest port q s) port = q := by
  cases port <;> rfl

/-- Only a port P read of the play window is left out of the main piece (R132, R138). -/
theorem isPlayBeat_iff : isPlayBeat r b = true ↔
    r.port = .p ∧ transferIsWrite r.transfer = false ∧ b.region = .play := by
  simp [isPlayBeat, and_assoc]

end

/-- Settles O16: main piece and play places part the classified beats, whose places count up from 0. -/
theorem arrivingRequestIsClassified : Obligations.ArrivingRequestIsClassified := by
  refine ⟨fun r s hr hw hfree hnil => ⟨_, arrivedRequest s r, exec_portRequestArrive_free hr hw hfree hnil,
    requestAt_setRequest .., ?_⟩, fun r s => exec_portRequestArrive_reset⟩
  have hplaces := map_place_classify (s := s) (r := r)
  have hascending : ((classify s r).map Beat.place).Pairwise (· < ·) := by
    rw [hplaces]
    exact List.pairwise_lt_range
  have hparts : ((arrivedRequest s r).main.map Beat.place ++ (arrivedRequest s r).plays).Perm
      (List.range (transferBeats r.transfer).length) := by
    rw [← hplaces]
    unfold arrivedRequest
    dsimp only
    rw [← List.map_append]
    refine List.Perm.map _ ?_
    exact List.perm_append_comm.trans (List.filter_append_perm (isPlayBeat r) (classify s r))
  refine ⟨setRequest_eq_onRouter _ _ _, rfl, ?_, hparts, ?_, ?_, fun b hb => ?_, fun k hk => ?_, fun h => ?_⟩
  · simpa using hparts.length_eq
  · exact hascending.sublist (List.filter_sublist.map _)
  · exact hascending.sublist (List.filter_sublist.map _)
  · obtain ⟨hmem, hplay⟩ := List.mem_filter.mp hb
    obtain ⟨hdata, haddr, hregion⟩ := mem_classify_iff.mp hmem
    exact ⟨hdata, haddr, hregion, by simpa using hplay⟩
  · obtain ⟨b, hb, rfl⟩ := List.mem_map.mp hk
    obtain ⟨hmem, hplay⟩ := List.mem_filter.mp hb
    obtain ⟨-, haddr, hregion⟩ := mem_classify_iff.mp hmem
    obtain ⟨-, -, hp⟩ := isPlayBeat_iff.mp hplay
    exact (congrArg (regionOf s) haddr.symm).trans (hregion.symm.trans hp)
  · refine List.map_eq_nil_iff.mpr (List.filter_eq_nil_iff.mpr fun b _ hplay => ?_)
    obtain ⟨hport, hread, -⟩ := isPlayBeat_iff.mp hplay
    rw [hport, hread] at h
    simp at h

section
variable {s : State} {port : Port} {w : Bool} {addr : BitVec 24}

/-! ### A protected beat (R131, R137) -/

theorem exec_protectedBeat (hr : inReset s = false) (h : isProtected port w (regionOf s (addr.toNat / 4 * 4)) = true) :
    exec (.protectedBeat port w addr) s = .next (if w then accessDrop s else
      (accessDrop s).onRouter fun k => { k with returnD := [0] }) :=
  (next_live hr).trans (congrArg Host.Outcome.next (if_pos h))

end

/-- Settles O17: the beat is one of those that R131 protects, a write or a read. -/
theorem protectedBeatIsDropped : Obligations.ProtectedBeatIsDropped := by
  rintro port w addr s hr (⟨rfl, hregion⟩ | ⟨rfl, hregion, rfl⟩)
  · have hprotected : isProtected port true (regionOf s (addr.toNat / 4 * 4)) = true := by
      rcases hregion with h | h | h | ⟨h, rfl⟩ <;> rw [h] <;> rfl
    exact ⟨_, exec_protectedBeat hr hprotected, rfl, rfl, nofun, fun _ => rfl⟩
  · have hprotected : isProtected .d false (regionOf s (addr.toNat / 4 * 4)) = true := by rw [hregion]; rfl
    exact ⟨_, exec_protectedBeat hr hprotected, rfl, rfl, fun _ => rfl, nofun⟩

end Sys2Proof.Machine
end

section
/-! PROOFS. The Memory Arbiter: its order, its wait count and the engine requester's choice (O20), and the grant of
one word to a port P read (O18). -/
namespace Sys2Proof.Machine

section
variable {s : State}

/-! ### The order of the requesters (R139, R140) -/

/-- The engine comes first once it has waited for four grants (R140). -/
theorem chooseGrant_engine_due (he : enginePresents s = true) (hw : s.arb.waitCount = 4) :
    chooseGrant s = some .engine := if_pos (by rw [he, hw]; rfl)

/-- Before that the ports come first, port P before port D, and port D never while port P is requesting (R139, R140). -/
theorem chooseGrant_not_due (h : enginePresents s = false ∨ s.arb.waitCount ≠ 4) : chooseGrant s =
    if portPPresents s = true then some .portP
    else if portPRequesting s = true then (if enginePresents s = true then some .engine else none)
    else if portDPresents s = true then some .portD
    else if enginePresents s = true then some .engine
    else none := if_neg (by simpa [imp_iff_not_or] using h)

/-- With no port presenting the engine is granted, whether port P is requesting or not (R139, R140). -/
theorem chooseGrant_engine_alone (hp : portPPresents s = false) (hd : portDPresents s = false)
    (he : enginePresents s = true) : chooseGrant s = some .engine := by
  by_cases hw : s.arb.waitCount = 4
  · exact chooseGrant_engine_due he hw
  · rw [chooseGrant_not_due (.inr hw), hp, hd, he]
    exact ite_self _

/-- A grant to a port counts one more wait of a presenting engine, up to four (R140). -/
theorem countWait_waitCount (he : enginePresents s = true) :
    (countWait s).arb.waitCount = min (s.arb.waitCount + 1) 4 := if_pos he

/-! ### The engine requester's cyclic choice (R141) -/

/-- The element that `find?` answers comes before every other one that meets the test. -/
theorem idxOf_find?_le {α : Type} [BEq α] [LawfulBEq α] {l : List α} {p : α → Bool} {x y : α}
    (h : l.find? p = some x) (hy : p y = true) : l.idxOf x ≤ l.idxOf y := by
  obtain ⟨-, front, rest, rfl, hfront⟩ := List.find?_eq_some_iff_append.mp h
  have hny : y ∉ front := fun hm => by
    have := hfront y hm
    rw [hy] at this
    exact Bool.false_ne_true this
  have hnx : List.idxOf x (front ++ x :: rest) ≤ front.length := by
    rw [List.idxOf_append]
    split
    · exact List.idxOf_le_length
    · rw [List.idxOf_cons_self]
      exact (Nat.zero_add _).le
  refine hnx.trans ?_
  rw [List.idxOf_append, if_neg hny]
  exact Nat.le_add_left ..

theorem mem_clientOrder (last c : EngineClient) : c ∈ clientOrder last := by
  cases last <;> cases c <;> decide

/-- A presenting engine has a next client, which waits (R141). -/
theorem exists_nextClient (he : enginePresents s = true) : ∃ c, nextClient s = some c ∧ c ∈ engineClients s := by
  obtain ⟨d, hd⟩ := List.exists_mem_of_ne_nil (engineClients s) (by simpa [enginePresents] using he)
  have hsome : (nextClient s).isSome = true :=
    List.find?_isSome.mpr ⟨d, mem_clientOrder _ d, List.contains_iff_mem.mpr hd⟩
  obtain ⟨c, hc⟩ := Option.isSome_iff_exists.mp hsome
  exact ⟨c, hc, List.contains_iff_mem.mp (List.find?_some hc)⟩

end

/-- Settles O20: the order by the branches of `chooseGrant`, the choice by the first waiting client in the order. -/
theorem arbiterOrder : Obligations.ArbiterOrder := by
  refine ⟨fun s => chooseGrant_engine_due, fun s h => ?order, fun s => chooseGrant_engine_alone,
    fun s hw he => ?count, fun s he => ?client⟩
  case order =>
    rw [chooseGrant_not_due h]
    refine ⟨fun hp => ?_, fun hp hr he => ?_, fun hp hr he => ?_, fun hp hr hd => ?_⟩
    · rw [hp]; rfl
    · rw [hp, hr, he]; rfl
    · rw [hp, hr, he]; rfl
    · rw [hp, hr, hd]; rfl
  case count =>
    rw [countWait_waitCount he]
    split <;> omega
  case client =>
    obtain ⟨c, hc, hmem⟩ := exists_nextClient he
    exact ⟨c, hc, hmem, fun d hd => idxOf_find?_le hc (List.contains_iff_mem.mpr hd)⟩

section
variable {s : State} {r : ActiveRequest} {b : Beat} {w : Word}

/-- A grant has answered port P's request of one word (R129, R132, R140). -/
def State.answersP (s : State) (x : Word) : State :=
  { s with arb := (countWait s).arb, router := { s.router with reqP := none, returnP := [x] } }

/-- A word that port P reads is memory's, left as the request's one word (R132, R134). -/
theorem memoryGrant_readsP (hr : inReset s = false) (hw : s.router.waiting = [])
    (he : enginePresents s = false ∨ s.arb.waitCount ≠ 4) (hm : r.main = [b]) (hq : s.router.reqP = some r)
    (hp : r.plays = []) (hrd : r.isWrite = false) (hbuf : r.buffer = [w]) (hplace : b.place = 0)
    (hplay : b.region ≠ .play) (hstatus : b.region ≠ .status) :
    exec .memoryGrant s = .next (s.answersP (Memory.readWord s.mem b.addr)) := by
  let q : ActiveRequest := { r.taken false with buffer := [Memory.readWord s.mem b.addr] }
  have hbuf' : ({ r.taken false with buffer := r.buffer.set b.place (Memory.readWord s.mem b.addr) } : ActiveRequest) =
      q := by
    rw [hbuf, hplace]
    rfl
  have ht : takeMain .p r (countWait s) = s.answersP (Memory.readWord s.mem b.addr) := by
    rw [takeMain_completesP (s := countWait s) (q := q) hm hrd (takeBeats_reads hplay hstatus)
      (congrArg some hbuf') hp, show q.isWrite = false from hrd]
    dsimp only [putWord, setRequest, State.onRouter, countWait, State.onArb, State.answersP]
    rfl
  exact memoryGrant_portP hr hw he (by simp [hm]) rfl rfl hq ht

end

/-- Settles O18: the grant is port P's, and its one beat reads memory. -/
theorem grantReadsMemoryForPortP : Obligations.GrantReadsMemoryForPortP := by
  intro s r b w hr hw hq hrd hm hp hbuf hplace hplay hstatus he
  exact ⟨_, memoryGrant_readsP hr hw he hm hq hp hrd hbuf hplace hplay hstatus, rfl, rfl⟩

end Sys2Proof.Machine
end

section
/-! PROOFS. APPLY (O52), FORGET and unassigned codes (O53). -/
namespace Sys2Proof.Machine

section
variable {s : State} {f : Word}

/-- A command taken that leaves the unit IDLE at once (R174, R175). -/
theorem unitIdle_takes (h : s.idle) (arguments : List Word) : unitIdle (s.takes arguments) = { s with
    arb := s.arbiterAtTake, ctl := { setArguments arguments s.ctl with latch := 0, zeroWrite := true } } :=
  congrArg (fun b => ({ s with
      arb := s.arbiterAtTake
      ctl := { setArguments arguments s.ctl with latch := 0, zeroWrite := true, busy := b } } : State))
    ((setArguments_busy _).trans h.2).symm

/-! ### APPLY taken (R173, R177, R178) -/

theorem applyTaken_waits (hm : s.play.mode = .playing) (hl : 0 < s.lead) : applyTaken s =
    (unitIdle s).onCtl fun c => { c with applyPending := true, applyInd := .pending } := if_pos ⟨hm, hl⟩

theorem applyTaken_now (h : s.play.mode ≠ .playing ∨ s.lead = 0) : applyTaken s = unitIdle (applyNow s) := by
  refine if_neg ?_
  rintro ⟨hm, hl⟩
  rcases h with h | h
  · exact h hm
  · omega

/-- An APPLY refused by R178 leaves only its completion and CONFIG. -/
theorem unitIdle_applyNow_refused (h : applyPasses s = false) : unitIdle (applyNow s) =
    (unitIdle s).onCtl fun c => { c with
      applyPending := false, applyInd := .refusedConfig, lastCode := 6, lastResult := .refusedConfig
      flags := c.flags ||| BitVec.twoPow 16 14 ||| BitVec.twoPow 16 12 } := by
  rw [applyNow_refused h]
  dsimp only [completion, raiseFlag, EventFlag.bit, unitIdle, State.onCtl]

/-! ### FORGET taken (R160) -/

theorem forgetTaken_waits (h : writingFor s f = true) :
    forgetTaken f s = s.onCtl fun c => { c with forgetWait := some f } := if_pos h

theorem forgetTaken_found {n : Nat} (h : writingFor s f = false) (hn : resumeEntry s f = some n) :
    forgetTaken f s = complete codeForget .done (forgetEntry n s) := by
  unfold forgetTaken forgetNow
  rw [if_neg (by rw [h]; decide), hn]

theorem forgetTaken_notFound (h : writingFor s f = false) (hn : resumeEntry s f = none) :
    forgetTaken f s = complete codeForget .notFound s := by
  unfold forgetTaken forgetNow
  rw [if_neg (by rw [h]; decide), hn]

/-! ### Unassigned codes (R175) -/

theorem exec_badCommand {code : Word} (h : s.idle) (hc : 8 ≤ code.toNat) : exec (.badCommand code) s =
    .next (live (issue code [] (complete code .badCommand)) s) := by
  have hcode : ¬ (code = 0 ∨ isCommandCode code = true) := by
    rintro (rfl | hcommand)
    · exact absurd hc (by decide)
    · simp only [isCommandCode, Bool.and_eq_true, decide_eq_true_eq] at hcommand
      omega
  rw [next_live h.1]
  exact (next_live h.1).trans (congrArg Host.Outcome.next (if_neg hcode))

end

/-- Settles O52: the take of the command, then the deferral, the new set in effect, or the refusal. -/
theorem applyTakesEffectOrWaits : Obligations.ApplyTakesEffectOrWaits := by
  intro s h u
  have htake := issue_takes (arguments := []) h (by decide : codeApply ≠ 0) applyTaken
  refine ⟨fun hm hl => ?waits, fun hnow hp => ?passes, fun hnow hp => ?refused, clampParams_inRange _⟩
  case waits =>
    refine htake.trans (congrArg Host.Outcome.next ?_)
    rw [applyTaken_waits (s := s.takes []) hm hl, settleArbiter_zeroWrite _ rfl, unitIdle_takes h]
    rfl
  case passes =>
    rw [applyTaken_now (s := s.takes []) hnow] at htake
    obtain ⟨heffect, hcode, hresult, hmem, -⟩ := applyNow_spec (s := s.takes [])
    rw [show applyPasses (s.takes []) = true from hp] at heffect hresult
    obtain ⟨hpending, hstaged, hdone, hpass, -⟩ := heffect
    obtain ⟨hparams, hind⟩ := hpass rfl
    refine ⟨_, htake, ?_⟩
    rw [settleArbiter_touches.ctl rfl, settleArbiter_touches.mem rfl, settleArbiter_touches.flag _ rfl]
    exact ⟨hparams, hstaged, hind, hcode, hresult, hpending, hdone, hmem⟩
  case refused =>
    refine htake.trans (congrArg Host.Outcome.next ?_)
    rw [applyTaken_now (s := s.takes []) hnow, unitIdle_applyNow_refused (s := s.takes []) hp,
      settleArbiter_zeroWrite _ rfl, unitIdle_takes h]
    rfl

/-- Settles O53: the take of the command, then the wait, or the completion that the table gives. -/
theorem forgetAndBadCommand : Obligations.ForgetAndBadCommand := by
  intro f s h u ended
  have htake := issue_takes (arguments := [f]) h (by decide : codeForget ≠ 0) (forgetTaken f)
  refine ⟨fun n hw hn => ?found, fun hw hn => ?notFound, fun hw => ?waits, fun hc => ?bad⟩
  case found =>
    have hdone := settleArbiter_complete_takes (code := codeForget) (arguments := [f]) h .done
    rw [settleArbiter_zeroWrite _ rfl] at hdone
    refine htake.trans (congrArg Host.Outcome.next ?_)
    rw [forgetTaken_found (s := s.takes [f]) hw hn, settleArbiter_zeroWrite _ rfl]
    exact congrArg (forgetEntry n) hdone
  case notFound => exact issue_completes h (by decide) (forgetTaken_notFound (s := s.takes [f]) hw hn)
  case waits =>
    refine htake.trans (congrArg Host.Outcome.next ?_)
    rw [forgetTaken_waits (s := s.takes [f]) hw, settleArbiter_zeroWrite _ rfl]
    rfl
  case bad =>
    rw [exec_badCommand h hc]
    exact issue_completes h (by rintro rfl; exact absurd hc (by decide)) rfl

end Sys2Proof.Machine
end

section
/-! PROOFS. The two resets (O58). -/
namespace Sys2Proof.Machine

section
variable {s : State} {v b : Nat}

/-- On VBAK a level below 2.0 V clears the retention latch (R168). -/
theorem watchVbak_onVbak (h : s.resume.onVbak = true) : watchVbak b s = { s with
    pins := { s.pins with vbak := b }
    resume := { s.resume with latch := s.resume.latch && decide (2000 ≤ b) } } := by
  unfold watchVbak State.onResume
  dsimp only [State.onPins]
  by_cases hb : b < 2000
  · rw [if_pos ⟨h, hb⟩, decide_eq_false (Nat.not_le.mpr hb), Bool.and_false]
  · rw [if_neg fun hc => hb hc.2, decide_eq_true (Nat.not_lt.mp hb), Bool.and_true]

/-- VMAIN falls below 3.9 V out of the held reset (R165, R167, R168). -/
theorem exec_powerOnThresholdFall (hv : v < 3900) (hheld : s.supply.held = false) :
    exec (.powerOnThresholdFall v b) s = .next (watchVbak b (enterHeld (driveVmain v s))) := by
  refine congrArg Host.Outcome.next ((if_pos hv).trans (congrArg (watchVbak b) (if_neg ?_)))
  show ¬ s.supply.held = true
  rw [hheld]
  decide

/-- RSTn is asserted out of the held reset (R143). -/
theorem exec_rstnAssert (hrst : s.pins.rstn = false) (hheld : s.supply.held = false) : exec .rstnAssert s =
    .next ((resetBlocks s.router.pblk s).onPins fun p => { p with rstn := true }) := by
  refine congrArg Host.Outcome.next ?_
  unfold rstnAssert
  rw [if_neg (by rw [hrst]; decide), if_neg (by rw [hheld]; decide)]

theorem endedWords_read {r : ActiveRequest} (old : List Word) (h : r.isWrite = false) :
    endedWords (some r) old = List.replicate r.buffer.length 0 := if_neg (by rw [h]; decide)

end

/-- Settles O58: both leave `resetBlocks`, with the requests that were in progress gone. -/
theorem resetsEmptyEveryBlock : Obligations.ResetsEmptyEveryBlock := by
  intro s emptied
  have hread : ∀ r, s.router.reqP = some r → r.isWrite = false →
      endedWords s.router.reqP s.router.returnP = List.replicate r.buffer.length 0 := fun r hq hr => by
    rw [hq]
    exact endedWords_read _ hr
  refine ⟨fun v b hv hheld => ⟨_, exec_powerOnThresholdFall hv hheld, ?_⟩,
    fun hrst hheld => ⟨_, exec_rstnAssert hrst hheld, ?_⟩⟩
  · rw [watchVbak_onVbak rfl]
    exact ⟨rfl, rfl, rfl, rfl, rfl, rfl, rfl, rfl, rfl, rfl, rfl, rfl, rfl, rfl, rfl, rfl, rfl, rfl, rfl, rfl, rfl,
      hread⟩
  · exact ⟨Bool.or_true _, rfl, congrArg (fun d => ({ Supply.reset with held := d } : Supply)) hheld, rfl, rfl, rfl,
      rfl, rfl, rfl, rfl, rfl, rfl, rfl, rfl, rfl, rfl, rfl, rfl, hread⟩

end Sys2Proof.Machine
end

section
/-! PROOFS. What each command keeps beside the queue and the invariant, and O7. -/
namespace Sys2Proof.Machine

/-- What a command keeps of the flags, the Resume Table and the retention latch: flags are cleared by an acknowledge
write, by itself or as a beat of a grant, and by a reset (R180, R184); an entry becomes valid at the end of a
snapshot write (R156); the latch is set by the retention check (R169). -/
def maskOf : Instr → Mask
  | .acknowledgeWordWrite .. | .memoryGrant | .rstnAssert | .powerOnThresholdFall .. => ⟨false, true, true, true⟩
  | .powerOnDelayEnd .. => ⟨false, true, false, true⟩
  | .snapshotWriteEnd => ⟨true, false, true, true⟩
  | _ => ⟨true, true, true, true⟩

theorem maskOf_entries {c : Instr} (h : c ≠ .snapshotWriteEnd) : (maskOf c).entries = true := by
  cases c
  case snapshotWriteEnd => exact absurd rfl h
  all_goals rfl

/-- No parameter, command or argument word lies at the acknowledge word (R186). -/
theorem toNat_ne_acknowledgeOffset {offset : BitVec 10} (h : isParameterOffset offset = true) :
    offset.toNat ≠ acknowledgeOffset := by
  simp only [isParameterOffset, Bool.and_eq_true, Bool.or_eq_true, decide_eq_true_eq] at h
  unfold acknowledgeOffset
  omega

/-- Every command keeps what its mask names. -/
theorem exec_kept_maskOf (c : Instr) {s t : State} (ht : exec c s = .next t) : Kept (maskOf c) s t := by
  have h : Kept (maskOf c) s s := .refl _ s
  cases c <;> cases ht
  case start x => exact live_kept (issue_kept _ _ _ one_le_two fun _ => startTaken_kept _) h
  case load f x => exact live_kept (issue_kept _ _ _ le_rfl fun _ => loadTaken_kept _ _) h
  case eject => exact live_kept (issue_kept _ _ _ (Nat.zero_le _) fun _ => ejectTaken_kept) h
  case pause => exact live_kept (issue_kept _ _ _ (Nat.zero_le _) fun _ => pauseTaken_kept) h
  case play => exact live_kept (issue_kept _ _ _ (Nat.zero_le _) fun _ => playTaken_kept) h
  case apply => exact live_kept (issue_kept _ _ _ (Nat.zero_le _) fun _ => applyTaken_kept) h
  case forget f => exact live_kept (issue_kept _ _ _ one_le_two fun _ => forgetTaken_kept _) h
  case badCommand code =>
    exact live_kept (fun k => k.ite (issue_kept _ _ _ (Nat.zero_le _) (fun _ => complete_kept _ _) k)) h
  case parameterWordWrite offset data enables =>
    refine live_kept (fun k => ?_) h
    split
    case isTrue ho =>
      exact settleArbiter_kept (parameterBeat_kept _ _ _ (fun he => absurd he (toNat_ne_acknowledgeOffset ho)) k)
    case isFalse => exact k
  case enableWordWrite => exact live_kept (parameterBeat_kept _ _ _ fun he => absurd he (by decide)) h
  case acknowledgeWordWrite => exact live_kept (parameterBeat_kept _ _ _ fun _ => rfl) h
  case captureFirstWordRead => exact live_kept (readCaptureWord_kept _) h
  case captureLastWordRead => exact live_kept (readCaptureWord_kept _) h
  case portRequestArrive r => exact requestArrives_kept r h
  case memoryGrant => exact live_kept (memoryGrant_kept rfl) h
  case protectedBeat => exact live_kept (protectedBeat_kept _ _ _) h
  case intakeHeader => exact live_kept (intakeBeat_kept _) h
  case intakeFrame => exact live_kept (fun k => (intakeBeat_kept _ k).ite k) h
  case intakeUnusedBeat => exact live_kept (fun k => (intakeBeat_kept _ k).ite k) h
  case blockReport => exact live_kept blockReport_kept h
  case shockEvent => exact live_kept shockEvent_kept h
  case shkFall => exact live_kept shkFall_kept h
  case trackLostEvent => exact live_kept trackLost_kept h
  case trackRegainedEvent => exact live_kept trackRegained_kept h
  case tailCaptureEnd => exact live_kept tailCaptureEnd_kept h
  case blockPeriodBoundary => exact live_kept blockPeriodBoundary_kept h
  case deadlineExpiry => exact live_kept deadlineExpiry_kept h
  case evaluationEnd => exact live_kept evaluationEnd_kept h
  case spliceRetry => exact live_kept (fun k => settleArbiter_kept (spliceRetry_kept k)) h
  case bridgeRetry => exact live_kept (fun k => settleArbiter_kept (bridgeRetry_kept k)) h
  case alignmentEnd => exact live_kept alignmentEnd_kept h
  case mergeFramesWritten => exact live_kept mergeFramesWritten_kept h
  case mergeFlagMapWritten => exact live_kept mergeFlagMapWritten_kept h
  case burstTake => exact live_kept burstTake_kept h
  case burstComplete => exact live_kept burstComplete_kept h
  case tick => exact live_kept (tickTaken_kept _) h
  case trayOpen => exact live_kept trayOpenTaken_kept h
  case trayClose => exact live_kept (edgeActs_kept _) h
  case snapshotWriteEnd => exact live_kept (snapshotWriteEnd_kept rfl) h
  case supplyFallTaken => exact live_kept (supplyFall_kept _) h
  case supplyRiseTaken => exact live_kept (supplyRise_kept _) h
  case firstSupplyCompare => exact live_kept (firstCompare_kept _) h
  case powerOnThresholdFall => exact thresholdFall_kept _ _ rfl h
  case powerOnDelayEnd => exact powerOnDelayEnd_kept _ _ rfl rfl h
  case vbakLow => exact (watchVbak_kept _ h).ite h
  case rstnAssert => exact rstnAssert_kept rfl h
  case rstnRelease => exact rstnRelease_kept _ h

/-- Settles O7: the mask of every command but the end of a snapshot write names the resume entries. -/
theorem entriesValidOnlyByWriteEnd : Obligations.EntriesValidOnlyByWriteEnd :=
  fun c _ _ hc ht => (exec_kept_maskOf c ht).entries (maskOf_entries hc)

end Sys2Proof.Machine
end

section
/-! PROOFS. The tray logic at a tick (O54), snapshot requests, and the eject action up to its wait (O55). -/
namespace Sys2Proof.Machine

section
variable {s : State} {f : Word} {tray : TrayLevel} {deb : Nat} {l : Lines}

/-! ### The tray logic (R145 to R148) -/

/-- The quiet count at a tick (R146). -/
def Lines.nextQuiet (l : Lines) : Nat := if l.shk = true ∨ l.riseLatch = true then 0 else min (l.quiet + 1) 64

/-- The debounce count at a tick (R145). -/
def Lines.nextDebounce (l : Lines) (tray : TrayLevel) : Nat :=
  if tray = l.taken then 0 else min (l.debounce + 1) 64

theorem quietUpdate_eq : quietUpdate l = { l with quiet := l.nextQuiet, riseLatch := false } := by
  unfold quietUpdate Lines.nextQuiet
  simp only [Bool.or_eq_true]

/-- The first sample after a reset (R148). -/
theorem trayTick_first (h : l.sampled = false) : trayTick deb tray l =
    { l with quiet := l.nextQuiet, riseLatch := false, taken := tray, sampled := true, debounce := 0 } := by
  unfold trayTick
  rw [quietUpdate_eq]
  exact if_neg (by show ¬ l.sampled = true; rw [h]; decide)

theorem trayTick_sampled (h : l.sampled = true) : trayTick deb tray l = takeEdge deb tray
    { l with quiet := l.nextQuiet, riseLatch := false, debounce := l.nextDebounce tray } := by
  unfold trayTick
  rw [quietUpdate_eq]
  exact if_pos h

/-- Both counts have reached DEB (R147). -/
theorem trayTick_edge (h : l.sampled = true) (hd : deb ≤ l.nextDebounce tray) (hq : deb ≤ l.nextQuiet) :
    trayTick deb tray l =
      { l with quiet := l.nextQuiet, riseLatch := false, taken := tray, debounce := 0, edge := some tray } := by
  rw [trayTick_sampled h]
  exact if_pos ⟨hd, hq⟩

theorem trayTick_no_edge (h : l.sampled = true) (hn : l.nextDebounce tray < deb ∨ l.nextQuiet < deb) :
    trayTick deb tray l =
      { l with quiet := l.nextQuiet, riseLatch := false, debounce := l.nextDebounce tray } := by
  rw [trayTick_sampled h]
  exact if_neg fun ⟨hd, hq⟩ => hn.elim (Nat.not_lt.mpr hd) (Nat.not_lt.mpr hq)

end

/-- Settles O54: the first sample, and after it whether both counts have reached DEB. -/
theorem tickUpdatesTrayLogic : Obligations.TickUpdatesTrayLogic := by
  intro tray s hr l quiet bounce deb
  have ht : (tickTaken tray s).lines = trayTick deb tray l := rfl
  refine ⟨_, next_live hr, rfl, ?_⟩
  rw [ht]
  cases hs : l.sampled with
  | false =>
    rw [trayTick_first hs]
    exact ⟨rfl, rfl, rfl, fun _ => ⟨rfl, rfl, rfl⟩, nofun, nofun⟩
  | true =>
    by_cases hedge : deb ≤ bounce ∧ deb ≤ quiet
    · rw [trayTick_edge hs hedge.1 hedge.2]
      exact ⟨rfl, rfl, hs, nofun, fun _ _ _ => ⟨rfl, rfl, rfl⟩, fun _ hn => absurd hedge (by omega)⟩
    · rw [trayTick_no_edge hs (show bounce < deb ∨ quiet < deb by omega)]
      exact ⟨rfl, rfl, hs, nofun, fun _ hd hq => absurd ⟨hd, hq⟩ hedge, fun _ _ => ⟨rfl, rfl, rfl⟩⟩

section
variable {s : State} {f : Word} {byCommand : Bool}

/-! ### Snapshot requests (R153, R154) -/

theorem onResume_touches (f : ResumeStore → ResumeStore) : Touches [.resume] s (s.onResume f) := fun b hb => by
  cases b <;> first | rfl | exact Bool.noConfusion hb

theorem onEject_touches (f : Option EjectAction → Option EjectAction) : Touches [.eject] s (s.onEject f) :=
  fun b hb => by cases b <;> first | rfl | exact Bool.noConfusion hb

theorem snapshotDisc_of_started (hl : s.rc.loaded = some f) (hf : f ≠ 0) (hs : s.rc.started = true) :
    snapshotDisc s = some f := by
  unfold snapshotDisc
  rw [hl]
  exact if_pos ⟨hf, hs⟩

theorem snapshotDisc_of_not_loaded (hl : s.rc.loaded = none) : snapshotDisc s = none := by
  unfold snapshotDisc
  rw [hl]

theorem snapshotDisc_of_not_started (hl : s.rc.loaded = some f) (hn : f = 0 ∨ s.rc.started = false) :
    snapshotDisc s = none := by
  unfold snapshotDisc
  rw [hl]
  refine if_neg fun ⟨hf, hs⟩ => hn.elim hf fun h => ?_
  rw [h] at hs
  exact Bool.noConfusion hs

/-- At most `room` history entries are gathered (R154). -/
theorem length_tailBehind_le (room frame : Nat) : (tailBehind s room frame).length ≤ room := by
  induction room generalizing frame with
  | zero => exact le_rfl
  | succ room ih =>
    unfold tailBehind
    split
    · exact Nat.zero_le _
    · split
      · rw [List.length_append]
        exact Nat.succ_le_succ (ih _)
      · exact Nat.zero_le _

theorem beginWrite_touches : Touches [.resume] s (beginWrite s) := by
  unfold beginWrite
  split
  · exact .refl _ s
  · exact (((onResume_touches _).comp (onResume_touches _)).mono rfl).ite (.refl _ s)

/-- The beginning of the write chooses the entry and starts the timer; the gathered contents stand (R155, R156). -/
theorem beginWrite_snap {p : Snapshot} (h : s.resume.snap = some p) : ∃ q, (beginWrite s).resume.snap = some q ∧
    q.fingerprint = p.fingerprint ∧ q.frame = p.frame ∧ q.tail = p.tail := by
  unfold beginWrite
  rw [h]
  dsimp only
  split
  · exact ⟨_, rfl, rfl, rfl, rfl⟩
  · exact ⟨p, h, rfl, rfl, rfl⟩

theorem requestSnapshot_touches : Touches [.resume] s (requestSnapshot s) := by
  unfold requestSnapshot
  split
  · exact .refl _ s
  · exact (Touches.refl _ s).ite (((onResume_touches _).comp beginWrite_touches).mono rfl)

/-- A request taken with no snapshot in flight gathers the cursor and at most 32 frames (R153, R154). -/
theorem requestSnapshot_snap (hd : snapshotDisc s = some f) (hs : s.resume.snap = none) :
    ∃ p, (requestSnapshot s).resume.snap = some p ∧ p.fingerprint = f ∧
      p.frame = min s.play.cursor 264599999 ∧ p.tail.length ≤ 32 := by
  unfold requestSnapshot
  rw [hd, hs]
  obtain ⟨q, hq, hfinger, hframe, htail⟩ := beginWrite_snap (s := s.onResume fun t => { t with
    snap := some ⟨f, min s.play.cursor Config.lastFrame, tailBehind s 32 (min s.play.cursor Config.lastFrame),
      none, 0⟩ }) rfl
  exact ⟨q, hq, hfinger, hframe, htail ▸ length_tailBehind_le _ _⟩

/-! ### The eject action up to its wait (R150) -/

theorem ejectBegin_waits (hd : snapshotDisc s = some f) : ejectBegin byCommand s =
    (requestSnapshot s).onEject fun _ => some { byCommand := byCommand } := if_pos (by rw [hd]; rfl)

theorem ejectBegin_finishes (hd : snapshotDisc s = none) : ejectBegin byCommand s = ejectFinish byCommand s :=
  if_neg (by rw [hd]; decide)

/-- An eject action that requests its snapshot waits for it and touches nothing of the stream (R150, R154). -/
theorem ejectBegin_requests (hd : snapshotDisc s = some f) (hs : s.resume.snap = none) :
    let t := settleArbiter (ejectBegin byCommand s)
    Touches [.resume, .eject, .arb] s t ∧ t.eject = some { byCommand := byCommand } ∧
    ∃ p, t.resume.snap = some p ∧ p.fingerprint = f ∧ p.frame = min s.play.cursor 264599999 ∧
      p.tail.length ≤ 32 := by
  obtain ⟨p, hp, hrest⟩ := requestSnapshot_snap hd hs
  rw [ejectBegin_waits hd]
  refine ⟨(requestSnapshot_touches.comp (onEject_touches _)).comp settleArbiter_touches,
    settleArbiter_touches .eject rfl, p, ?_, hrest⟩
  rw [settleArbiter_touches .resume rfl]
  exact hp

/-! ### Tray edges (R149) -/

theorem trayOpenTaken_of_not_loaded (h : s.rc.loaded = none) : trayOpenTaken s = edgeActs .opened s :=
  if_neg fun ⟨hl, _⟩ => by
    rw [show (edgeActs .opened s).rc.loaded = none from h] at hl
    exact Bool.noConfusion hl

theorem trayOpenTaken_of_loaded (hl : s.rc.loaded = some f) (he : s.eject = none) :
    trayOpenTaken s = settleArbiter (ejectBegin false (edgeActs .opened s)) :=
  if_pos ⟨by rw [show (edgeActs .opened s).rc.loaded = some f from hl]; rfl, he⟩

end

/-- Settles O55: the edge's own effect (`edgeActs`), and with a started disc the eject action that it begins. -/
theorem trayEdgesAct : Obligations.TrayEdgesAct := by
  intro s hr
  refine ⟨⟨_, next_live hr, rfl, rfl, rfl⟩, fun hl => ?_, fun f hl hf hs he hsnap => ?_⟩
  · refine ⟨edgeActs .opened s, ?_, rfl, rfl, rfl⟩
    rw [← trayOpenTaken_of_not_loaded hl]
    exact next_live hr
  · obtain ⟨ht, heject, p, hp, -⟩ := ejectBegin_requests (byCommand := false)
      (snapshotDisc_of_started (s := edgeActs .opened s) hl hf hs) hsnap
    refine ⟨_, (next_live hr).trans (congrArg _ (trayOpenTaken_of_loaded hl he)), heject, by rw [hp]; rfl, ?_,
      ht.rc rfl, ht.map rfl⟩
    rw [ht.flag _ rfl]
    exact raiseFlag_flag .tray

end Sys2Proof.Machine
end

section
/-! PROOFS. The eject action from its flush on, and EJECT (O50). -/
namespace Sys2Proof.Machine

section
variable {s w : State} {byCommand : Bool}

/-! ### The disc is unloaded (R150) -/

theorem leavePlaying_of_not_pending (mode : PlayMode) (h : s.ctl.applyPending = false) :
    leavePlaying mode s = s.onPlay fun p => { p with mode := mode, underrun := false } := by
  unfold leavePlaying
  dsimp only
  rw [applyIfPending_of_not_pending (s := s.onPlay _) h, ite_self]

/-- Steps 3 and 4 of the eject action, but for the completion of its command (R150). -/
def State.unloads (s : State) : State :=
  ((s.onRc fun r => { r with loaded := none, started := false }).onPlay fun p =>
    { p with mode := .stopped, underrun := false }).onEject fun _ => none

/-- What the unloading makes of the Control Unit: an EJECT completes with DONE (R150, R175). -/
def Control.ejects (c : Control) (byCommand : Bool) : Control := if byCommand then c.completes codeEject else c

theorem unloads_touches : Touches [.rc, .play, .eject] s s.unloads :=
  ((onRc_touches _ rfl).comp (onPlay_touches _)).comp (onEject_touches _)

/-- The unloading with no beat held and no APPLY pending (R37, R150). -/
theorem ejectUnload_spec (hheld : s.intake.held = []) (hpend : s.ctl.applyPending = false) :
    let t := settleArbiter (ejectUnload byCommand s)
    Touches [.rc, .play, .eject, .ctl, .router, .arb] s t ∧
    t.rc = { s.rc with loaded := none, started := false } ∧
    t.play = { s.play with mode := .stopped, underrun := false } ∧ t.eject = none ∧
    t.ctl = s.ctl.ejects byCommand := by
  let v := if byCommand then complete codeEject .done s.unloads else s.unloads
  have hv : Touches [.ctl] s.unloads v := (complete_touches _ _).ite (.refl _ _)
  have hctl : v.ctl = s.ctl.ejects byCommand := by cases byCommand <;> rfl
  have he : ejectUnload byCommand s = finishD v := by
    unfold ejectUnload
    dsimp only
    rw [leavePlaying_of_not_pending (s := s.onRc fun r => { r with loaded := none, started := false }) .stopped hpend]
    refine drainHeld_of_held_nil ?_
    show v.intake.held = []
    rw [hv.intake rfl]
    exact hheld
  have hend : Touches [.router, .arb] v (settleArbiter (finishD v)) := finishD_touches.comp settleArbiter_touches
  have ht := hv.comp hend
  rw [he]
  exact ⟨unloads_touches.comp ht, ht.rc rfl, ht.play rfl, ht .eject rfl, (hend.ctl rfl).trans hctl⟩

/-- In `t` the stream of `s` has been flushed and its disc unloaded (R22, R37, R68, R107, R127, R150). -/
structure State.ejected (s t : State) : Prop where
  rc : t.rc = { (flushRecovery s).rc with loaded := none, started := false }
  map : t.map = StreamMap.reset s.map.slots.length
  gaps : t.gaps = GapScheduler.reset
  intake : t.intake = (flushIntake s).intake
  play : t.play = { (flushPlay s).play with mode := .stopped, underrun := false }
  eject : t.eject = none
  mem : t.mem = s.mem
  quality : t.quality = s.quality

/-- The unloading after a flush, and after a supply fall in between that touches no block of the stream
(R150, R151). -/
theorem ejected_ejectUnload (h : Touches [.arb, .pins, .supply, .resume, .ctl] s.flushed w)
    (hheld : s.intake.held = []) (hpend : w.ctl.applyPending = false) :
    let t := settleArbiter (ejectUnload byCommand w)
    s.ejected t ∧ t.ctl = w.ctl.ejects byCommand ∧ t.resume = w.resume ∧ t.supply = w.supply := by
  have hwheld : w.intake.held = [] := by
    rw [h.intake rfl]
    exact hheld
  obtain ⟨ht, hrc, hplay, heject, hctl⟩ := ejectUnload_spec (byCommand := byCommand) hwheld hpend
  have hall := h.comp ht
  rw [h.rc rfl] at hrc
  rw [h.play rfl] at hplay
  exact ⟨⟨hrc, hall.map rfl, hall.gaps rfl, hall.intake rfl, hplay, heject,
    (hall.mem rfl).trans (flushed_touches.mem rfl), (hall.quality rfl).trans (flushed_touches.quality rfl)⟩,
    hctl, ht .resume rfl, ht .supply rfl⟩

/-! ### The eject action that takes no snapshot (R150) -/

theorem flushStream_of_parked (h : s.rc.phase = .parked) : flushStream s = s := if_pos h

theorem flushStream_of_not_pending (hp : s.rc.phase ≠ .parked) (hpend : s.ctl.applyPending = false) :
    flushStream s = settleArbiter s.flushed := by
  unfold flushStream
  rw [if_neg hp, flush_eq]
  refine applyIfPending_of_not_pending ?_
  rw [settleArbiter_touches.ctl rfl, flushed_touches.ctl rfl]
  exact hpend

/-- EJECT taken in IDLE with no eject action in progress (R150, R174). -/
theorem exec_eject (h : s.idle) (he : s.eject = none) :
    exec .eject s = .next (settleArbiter (ejectBegin true (s.takes []))) := by
  refine (issue_takes h (by decide) ejectTaken).trans ?_
  unfold ejectTaken
  rw [if_neg (by show ¬ s.eject.isSome = true; rw [he]; decide)]

theorem ejects_flag (c : Control) : (c.ejects true).flags.getLsbD EventFlag.cmdDone.bit = true := by
  show (c.flags ||| BitVec.twoPow 16 12).getLsbD 12 = true
  simp

end

/-- Settles O50: what an unloading without a flush, a wait for the snapshot, and an unloading after a flush leave. -/
theorem ejectBegins : Obligations.EjectBegins := by
  intro s h he
  have hexec := exec_eject h he
  refine ⟨fun hl hp hheld hpend => ?empty, fun f hl hf hs hsnap => ?waits, fun f hl hn hp hheld hpend => ?flushes⟩
  case empty =>
    obtain ⟨ht, hrc, hplay, heject, hctl⟩ := ejectUnload_spec (s := s.takes []) (byCommand := true) hheld hpend
    rw [ejectBegin_finishes (snapshotDisc_of_not_loaded (s := s.takes []) hl), ejectFinish,
      flushStream_of_parked (s := s.takes []) hp] at hexec
    refine ⟨_, hexec, ?_⟩
    unfold State.flag
    rw [hrc, hplay, hctl]
    exact ⟨rfl, heject, rfl, hp, rfl, rfl, rfl, rfl, rfl, ejects_flag _, ht.mem rfl, ht .resume rfl⟩
  case waits =>
    obtain ⟨ht, heject, p, hp, hfinger, hframe, hlen⟩ := ejectBegin_requests (byCommand := true)
      (snapshotDisc_of_started (s := s.takes []) hl hf hs) hsnap
    refine ⟨_, p, hexec, heject, ?_, hp, hfinger, hframe, hlen, ht.rc rfl, ht.play rfl, ht.map rfl, ht.mem rfl, ?_⟩
    · rw [ht.ctl rfl]
      rfl
    · rw [ht.ctl rfl]
      rfl
  case flushes =>
    rw [ejectBegin_finishes (snapshotDisc_of_not_started (s := s.takes []) hl hn), ejectFinish,
      flushStream_of_not_pending (s := s.takes []) hp hpend] at hexec
    obtain ⟨hej, hctl, hresume, -⟩ := ejected_ejectUnload (s := s.takes []) (byCommand := true)
      (settleArbiter_touches.mono rfl) hheld (by
        rw [settleArbiter_touches.ctl rfl, flushed_touches.ctl rfl]
        exact hpend)
    refine ⟨_, hexec, ?_⟩
    unfold State.flag
    rw [hej.rc, hej.map, hej.gaps, hej.intake, hej.play, hctl, hresume]
    exact ⟨rfl, rfl, rfl, rfl, rfl, rfl, rfl, rfl, rfl, rfl, rfl, rfl, rfl, rfl, hej.eject, rfl, rfl, rfl,
      ejects_flag _, hej.mem,
      (settleArbiter_touches .resume rfl).trans (flushed_touches .resume rfl), hej.quality⟩

end Sys2Proof.Machine
end

section
/-! PROOFS. The end of a snapshot write (O56). -/
namespace Sys2Proof.Machine

section
variable {s t u : State} {p : Snapshot} {n k : Nat}

/-- A frame of three blocks, as a record. -/
theorem Touches.eq_with (h : Touches [.resume, .arb, .ctl] s t) :
    t = { s with resume := t.resume, arb := t.arb, ctl := t.ctl } := by
  obtain ⟨⟩ := t
  rw [State.mk.injEq]
  exact ⟨h .pending rfl, h .pins rfl, h .clock rfl, h .mem rfl, h .router rfl, rfl, h .intake rfl,
    h .map rfl, h .rc rfl, h .me rfl, h .gaps rfl, h .quality rfl, h .play rfl, h .lines rfl, rfl, h .supply rfl, rfl,
    h .eject rfl⟩

/-! ### The table after the write (R156) -/

/-- What the end of another entry's write makes of an entry (R156). -/
def ResumeEntry.aged (e : ResumeEntry) : ResumeEntry := if e.valid then { e with age := min (e.age + 1) 255 } else e

theorem aged_keeps (e : ResumeEntry) :
    e.aged.valid = e.valid ∧ e.aged.fingerprint = e.fingerprint ∧ e.aged.tail = e.tail := by
  unfold ResumeEntry.aged
  split <;> exact ⟨rfl, rfl, rfl⟩

/-- The entry that a snapshot's write leaves, over the saved frames it found (R156). -/
def Snapshot.entry (p : Snapshot) (old : List TailFrame) : ResumeEntry :=
  { valid := true, fingerprint := p.fingerprint, frame := p.frame, tailCount := p.tail.length
    tail := savedTail old p.tail, age := 0 }

theorem endWrite_eq_onResume : endWrite p n s = s.onResume fun t => { t with
    entries := (t.entries.map ResumeEntry.aged).modify n fun e => p.entry e.tail, snap := none } := rfl

theorem endWrite_touches : Touches [.resume] s (endWrite p n s) := by
  rw [endWrite_eq_onResume]
  exact onResume_touches _

theorem length_endWrite : (endWrite p n s).resume.entries.length = s.resume.entries.length := by
  rw [endWrite_eq_onResume]
  exact (List.length_modify ..).trans (List.length_map ..)

theorem getElem?_endWrite_of_ne (h : k ≠ n) :
    (endWrite p n s).resume.entries[k]? = s.resume.entries[k]?.map ResumeEntry.aged := by
  rw [endWrite_eq_onResume]
  show ((s.resume.entries.map ResumeEntry.aged).modify n fun e => p.entry e.tail)[k]? = _
  rw [List.getElem?_modify_ne _ _ (Ne.symm h), List.getElem?_map]

theorem getElem?_endWrite_same : (endWrite p n s).resume.entries[n]? =
    s.resume.entries[n]?.map fun e => p.entry e.tail := by
  rw [endWrite_eq_onResume]
  show ((s.resume.entries.map ResumeEntry.aged).modify n fun e => p.entry e.tail)[n]? = _
  rw [List.getElem?_modify_eq, List.getElem?_map]
  refine (Option.map_map ..).trans ?_
  exact congrArg (Option.map · _) (funext fun e => congrArg p.entry (aged_keeps e).2.2)

theorem resumeAt_endWrite_of_ne (h : k ≠ n) : resumeAt (endWrite p n s) k = (resumeAt s k).aged := by
  unfold resumeAt
  rw [List.getD_eq_getElem?_getD, List.getD_eq_getElem?_getD, getElem?_endWrite_of_ne h]
  cases s.resume.entries[k]? <;> rfl

theorem resumeAt_endWrite_same (h : n < s.resume.entries.length) :
    resumeAt (endWrite p n s) n = p.entry (resumeAt s n).tail := by
  unfold resumeAt
  rw [List.getD_eq_getElem?_getD, List.getD_eq_getElem?_getD, getElem?_endWrite_same,
    List.getElem?_eq_getElem h]
  rfl

/-- With every gathered frame there, the saved frames are the gathered ones and then the rest of the old. -/
theorem map_some_savedTail {old : List TailFrame} {new : List HistoryEntry} (h : ∀ e ∈ new, e.value.isSome = true) :
    (savedTail old new).map some = new.map HistoryEntry.value ++ (old.drop new.length).map some := by
  unfold savedTail
  rw [List.map_append, List.map_map]
  refine congrArg (· ++ _) (List.map_congr_left fun e he => ?_)
  obtain ⟨x, hx⟩ := Option.isSome_iff_exists.mp (h e he)
  show some (e.value.getD noSource) = e.value
  rw [hx]
  rfl

/-- In `t` entry n of `s` is that of the snapshot `p`, and every other has aged (R156). -/
def State.entryWritten (s t : State) (p : Snapshot) (n : Nat) : Prop :=
  resumeAt t n = p.entry (resumeAt s n).tail ∧ ∀ k, k ≠ n → resumeAt t k = (resumeAt s k).aged

theorem entryWritten_endWrite (h : n < s.resume.entries.length) : s.entryWritten (endWrite p n s) p n :=
  ⟨resumeAt_endWrite_same h, fun _ hk => resumeAt_endWrite_of_ne hk⟩

theorem resumeAt_congr (h : t.resume = u.resume) (n : Nat) : resumeAt t n = resumeAt u n :=
  congrArg (fun r : ResumeStore => r.entries.getD n ResumeEntry.blank) h

theorem State.entryWritten.congr (h : s.entryWritten t p n) (hu : u.resume = t.resume) : s.entryWritten u p n :=
  ⟨(resumeAt_congr hu n).trans h.1, fun k hk => (resumeAt_congr hu k).trans (h.2 k hk)⟩

/-- The entry written, field by field (R156). -/
theorem State.entryWritten.fields (h : s.entryWritten t p n) :
    (resumeAt t n).valid = true ∧ (resumeAt t n).fingerprint = p.fingerprint ∧ (resumeAt t n).frame = p.frame ∧
    (resumeAt t n).tailCount = p.tail.length ∧ (resumeAt t n).age = 0 ∧
    ((∀ e ∈ p.tail, e.value.isSome = true) → (resumeAt t n).tail.map some =
      p.tail.map HistoryEntry.value ++ ((resumeAt s n).tail.drop p.tail.length).map some) ∧
    ∀ k, k ≠ n → resumeAt t k = (resumeAt s k).aged := by
  obtain ⟨hn, hk⟩ := h
  rw [hn]
  exact ⟨rfl, rfl, rfl, rfl, rfl, map_some_savedTail, hk⟩

/-- Of the entries after the write only the one written holds the snapshot's fingerprint (R152, R155). -/
theorem resumeEntry_endWrite (hd : s.resume.distinct) (hs : s.resume.snap = some p) (hn : p.target = some n)
    (hlt : n < s.resume.entries.length) : resumeEntry (endWrite p n s) p.fingerprint = some n := by
  obtain ⟨hne, hother⟩ := hd.2 p hs
  have hsame := getElem?_endWrite_same (s := s) (p := p) (n := n)
  rw [List.getElem?_eq_getElem hlt] at hsame
  obtain ⟨hlt', hget⟩ := List.getElem?_eq_some_iff.mp hsame
  unfold resumeEntry
  rw [if_neg hne, List.findIdx?_eq_some_iff_getElem]
  refine ⟨hlt', ?_, fun j hj => ?_⟩
  · rw [hget]
    exact beq_self_eq_true p.fingerprint
  · have hjlt : j < s.resume.entries.length := hj.trans hlt
    have hold := getElem?_endWrite_of_ne (s := s) (p := p) hj.ne
    rw [List.getElem?_eq_getElem hjlt] at hold
    obtain ⟨hjlt', hget⟩ := List.getElem?_eq_some_iff.mp hold
    rw [hget]
    obtain ⟨hvalid, hfinger, -⟩ := aged_keeps s.resume.entries[j]
    rw [hvalid, hfinger, Bool.and_eq_true, beq_iff_eq]
    exact fun ⟨hv, hf⟩ => hother n hn j _ (List.getElem?_eq_getElem hjlt) hj.ne hv hf

/-! ### Those that waited for the write (R150, R160) -/

/-- The end of a write in progress (R156). -/
theorem exec_snapshotWriteEnd (hr : inReset s = false) (hs : s.resume.snap = some p) (hn : p.target = some n) :
    exec .snapshotWriteEnd s =
      .next (settleArbiter (ejectContinues (forgetContinues (endWrite p n s)))) := by
  refine (next_live hr).trans (congrArg Host.Outcome.next ?_)
  unfold snapshotWriteEnd
  rw [hs]
  dsimp only
  rw [hn]

theorem forgetContinues_of_none (h : s.ctl.forgetWait = none) : forgetContinues s = s := by
  unfold forgetContinues
  rw [h]

/-- What a FORGET that waited makes of the Control Unit as it completes with DONE (R160, R175). -/
def Control.forgets (c : Control) : Control :=
  { c with
    forgetWait := none, busy := false, lastCode := 7, lastResult := .done
    flags := c.flags ||| BitVec.twoPow 16 12 }

/-- A FORGET that waited finds the entry of its disc, makes it invalid and completes (R160). -/
theorem forgetContinues_found {f : Word} (h : s.ctl.forgetWait = some f) (hn : resumeEntry s f = some n) :
    forgetContinues s = (forgetEntry n s).onCtl Control.forgets := by
  unfold forgetContinues
  rw [h]
  show forgetNow f _ = _
  unfold forgetNow
  rw [show resumeEntry (s.onCtl fun c => { c with forgetWait := none }) f = some n from hn]
  dsimp only [complete, unitIdle, completion, raiseFlag, EventFlag.bit, forgetEntry, modResume, State.onResume,
    State.onCtl, Control.forgets]

theorem ejectContinues_of_none (h : s.eject = none) : ejectContinues s = s := by
  unfold ejectContinues
  rw [h]

theorem ejectContinues_of_some {a : EjectAction} (h : s.eject = some a) :
    ejectContinues s = ejectUnload a.byCommand (takeDueFall (flushStream s)) := by
  unfold ejectContinues
  rw [h]

theorem resumeAt_forgetEntry (h : n < s.resume.entries.length) :
    resumeAt (forgetEntry n s) k = if k = n then { resumeAt s k with valid := false } else resumeAt s k := by
  unfold forgetEntry
  rw [modResume_at]
  simp only [h, and_true]

/-! ### A supply fall before the disc is unloaded (R151, R162, R163) -/

theorem takeDueFall_of_not_due (h : fallDue s = false) : takeDueFall s = s := if_neg (by rw [h]; decide)

/-- A fall that is due finds the indication clear and VMAIN below the fall level (R162). -/
theorem below_of_fallDue (h : fallDue s = true) : s.supply.first = false ∧ s.supply.low = false ∧
    conditionAt s s.pins.vmain = .below := by
  unfold fallDue supplyElapsed at h
  simp only [Bool.and_eq_true, Bool.not_eq_true'] at h
  obtain ⟨⟨⟨htimes, -⟩, hfirst⟩, hlow⟩ := h
  refine ⟨hfirst, hlow, ?_⟩
  unfold supplyTimes at htimes
  rw [hfirst, hlow] at htimes
  exact eq_of_beq htimes

theorem takeDueFall_of_due (h : fallDue s = true) (hv : 3900 ≤ s.pins.vmain) :
    takeDueFall s = fallActs (setLow true (driveVmain s.pins.vmain s)) := by
  obtain ⟨hfirst, hlow, hbelow⟩ := below_of_fallDue h
  exact (if_pos h).trans (if_pos ⟨hv, hfirst, hlow, hbelow⟩)

theorem fallDue_congr (h : Touches [.map, .segs, .slots, .play, .rc, .gaps, .intake, .hold, .me, .arb, .resume] s t) :
    fallDue t = fallDue s := by
  unfold fallDue supplyElapsed conditionAt
  rw [h .supply rfl, h .pins rfl, h.params rfl]

/-- A fall touches no block of the stream (R163). -/
theorem fallActs_touches (v : Nat) :
    Touches [.pins, .supply, .ctl, .resume] s (fallActs (setLow true (driveVmain v s))) := by
  have hset : Touches [.supply] (driveVmain v s) (setLow true (driveVmain v s)) := fun b hb => by
    cases b <;> first | rfl | exact Bool.noConfusion hb
  exact (((onPins_touches _).comp hset).comp ((raiseFlag_touches _).comp requestSnapshot_touches)).mono rfl

theorem fallActs_low (v : Nat) : (fallActs (setLow true (driveVmain v s))).supply.low = true := by
  unfold fallActs
  rw [requestSnapshot_touches .supply rfl]
  rfl

theorem fallActs_flag (v : Nat) : (fallActs (setLow true (driveVmain v s))).flag .supply = true :=
  (requestSnapshot_touches.flag _ rfl).trans (raiseFlag_flag .supply)

/-- Of the Control Unit a fall touches the flags alone (R163). -/
theorem fallActs_ctl (v : Nat) : ∃ flags,
    (fallActs (setLow true (driveVmain v s))).ctl = { s.ctl with flags := flags } :=
  ⟨_, requestSnapshot_touches.ctl rfl⟩

theorem ejects_keeps_flag {c : Control} {byCommand : Bool} {i : Nat} (h : c.flags.getLsbD i = true) :
    (c.ejects byCommand).flags.getLsbD i = true := by
  cases byCommand with
  | false => exact h
  | true => exact flag_of_or h

/-- With no snapshot in flight a fall requests a fresh one (R153, R163). -/
theorem fallActs_snap {f : Word} (v : Nat) (hd : snapshotDisc s = some f) (hs : s.resume.snap = none) :
    ∃ q, (fallActs (setLow true (driveVmain v s))).resume.snap = some q ∧ q.fingerprint = f ∧
      q.frame = min s.play.cursor 264599999 := by
  obtain ⟨q, hq, hfinger, hframe, -⟩ :=
    requestSnapshot_snap (s := raiseFlag .supply (setLow true (driveVmain v s))) hd hs
  exact ⟨q, hq, hfinger, hframe⟩

/-! ### The eject action that waited (R150, R151) -/

theorem snapshotDisc_congr (h : t.rc = s.rc) : snapshotDisc t = snapshotDisc s := by
  unfold snapshotDisc
  rw [h]

/-- A flush leaves the disc loaded and its stream started (R68, R151). -/
theorem snapshotDisc_flushed : snapshotDisc (settleArbiter s.flushed) = snapshotDisc s :=
  snapshotDisc_congr (t := settleArbiter s.flushed) (s := flushRecovery s) (settleArbiter_touches.rc rfl)

theorem takeDueFall_touches : Touches [.pins, .supply, .ctl, .resume] s (takeDueFall s) := by
  unfold takeDueFall supplyFall
  exact ((fallActs_touches _).ite (.refl _ s)).ite (.refl _ s)

theorem takeDueFall_ctl : ∃ flags, (takeDueFall s).ctl = { s.ctl with flags := flags } := by
  unfold takeDueFall supplyFall
  split
  · split
    · exact fallActs_ctl _
    · exact ⟨_, rfl⟩
  · exact ⟨_, rfl⟩

section
variable {a : EjectAction} (he : s.eject = some a) (hp : s.rc.phase ≠ .parked) (hheld : s.intake.held = [])
  (hpend : s.ctl.applyPending = false)
include he hp hheld hpend

/-- The eject action goes on from the flush, and takes a due fall before the disc is unloaded (R150, R151). -/
theorem ejectContinues_spec :
    let w := takeDueFall (settleArbiter s.flushed)
    let t := settleArbiter (ejectContinues s)
    s.ejected t ∧ t.ctl = w.ctl.ejects a.byCommand ∧ t.resume = w.resume ∧ t.supply = w.supply := by
  have hw : Touches [.arb, .pins, .supply, .resume, .ctl] s.flushed (takeDueFall (settleArbiter s.flushed)) :=
    (settleArbiter_touches.comp takeDueFall_touches).mono rfl
  rw [ejectContinues_of_some he, flushStream_of_not_pending hp hpend]
  refine ejected_ejectUnload hw hheld ?_
  obtain ⟨flags, hflags⟩ := takeDueFall_ctl (s := settleArbiter s.flushed)
  rw [hflags, settleArbiter_touches.ctl rfl, flushed_touches.ctl rfl]
  exact hpend

/-- An EJECT that waited completes; a tray-open leaves the command unit alone (R150, R175). -/
theorem ejectContinues_ctl :
    let t := settleArbiter (ejectContinues s)
    (a.byCommand = true → t.ctl.busy = false ∧ t.ctl.lastCode = 3 ∧ t.ctl.lastResult = .done ∧
      t.flag .cmdDone = true) ∧
    (a.byCommand = false → t.ctl.busy = s.ctl.busy ∧ t.ctl.lastCode = s.ctl.lastCode) := by
  obtain ⟨-, hctl, -, -⟩ := ejectContinues_spec he hp hheld hpend
  obtain ⟨flags, hflags⟩ := takeDueFall_ctl (s := settleArbiter s.flushed)
  rw [settleArbiter_touches.ctl rfl, flushed_touches.ctl rfl] at hflags
  dsimp only [State.flag]
  rw [hctl, hflags]
  refine ⟨fun hb => ?_, fun hb => ?_⟩ <;> rw [hb]
  · exact ⟨rfl, rfl, rfl, ejects_flag _⟩
  · exact ⟨rfl, rfl⟩

/-- With no fall due the Resume Store and the Supply Monitor stand (R150). -/
theorem ejectContinues_of_not_due (hd : fallDue s = false) :
    let t := settleArbiter (ejectContinues s)
    t.resume = s.resume ∧ t.supply = s.supply := by
  obtain ⟨-, -, hresume, hsupply⟩ := ejectContinues_spec he hp hheld hpend
  have hall := flushed_touches.comp (settleArbiter_touches (s := s.flushed))
  rw [takeDueFall_of_not_due ((fallDue_congr (hall.mono rfl)).trans hd)] at hresume hsupply
  exact ⟨hresume.trans (hall .resume rfl), hsupply.trans (hall .supply rfl)⟩

/-- A fall that is due is taken and requests a fresh snapshot (R151, R163; logs 15 and 30). -/
theorem ejectContinues_of_due (hd : fallDue s = true) (hv : 3900 ≤ s.pins.vmain) (hs : s.resume.snap = none) :
    let t := settleArbiter (ejectContinues s)
    t.supply.low = true ∧ t.flag .supply = true ∧ ∀ f, snapshotDisc s = some f →
      ∃ q, t.resume.snap = some q ∧ q.fingerprint = f ∧ q.frame = min s.play.cursor 264599999 := by
  obtain ⟨-, hctl, hresume, hsupply⟩ := ejectContinues_spec he hp hheld hpend
  have hall := flushed_touches.comp (settleArbiter_touches (s := s.flushed))
  have hpins : (settleArbiter s.flushed).pins = s.pins := hall .pins rfl
  have hcursor : (settleArbiter s.flushed).play.cursor = s.play.cursor := by
    rw [settleArbiter_touches.play rfl]
    rfl
  rw [takeDueFall_of_due ((fallDue_congr (hall.mono rfl)).trans hd) (by rw [hpins]; exact hv)]
    at hctl hresume hsupply
  dsimp only [State.flag]
  rw [hctl, hresume, hsupply, ← hcursor]
  exact ⟨fallActs_low _, ejects_keeps_flag (fallActs_flag _), fun f hf => fallActs_snap _
    (snapshotDisc_flushed.trans hf) ((congrArg ResumeStore.snap (hall .resume rfl)).trans hs)⟩

end

/-- A FORGET that waited, with no eject action waiting, leaves its entry invalid and completes (R160). -/
theorem forgetContinues_spec {f : Word} (hf : s.ctl.forgetWait = some f) (hn : resumeEntry s f = some n)
    (he : s.eject = none) :
    let t := settleArbiter (ejectContinues (forgetContinues s))
    Touches [.resume, .ctl, .arb] s t ∧ t.resume = (forgetEntry n s).resume ∧ t.ctl = s.ctl.forgets := by
  have hforget : Touches [.resume] s (forgetEntry n s) := onResume_touches _
  have hctl : Touches [.ctl] (forgetEntry n s) ((forgetEntry n s).onCtl Control.forgets) := fun b hb => by
    cases b <;> first | rfl | exact Bool.noConfusion hb
  rw [forgetContinues_found hf hn, ejectContinues_of_none (s := (forgetEntry n s).onCtl _) he]
  exact ⟨(hforget.comp hctl).comp settleArbiter_touches, settleArbiter_touches .resume rfl,
    settleArbiter_touches.ctl rfl⟩

end

/-- Settles O56: the entry written, and then what the FORGET or the eject action that waited goes on to do. -/
theorem snapshotWriteMakesEntryValid : Obligations.SnapshotWriteMakesEntryValid := by
  intro s p n hr hs hn hlt aged entryWritten
  have hexec := exec_snapshotWriteEnd hr hs hn
  have hwritten := entryWritten_endWrite (p := p) hlt
  have hv := endWrite_touches (s := s) (p := p) (n := n)
  have hfind := fun hd => resumeEntry_endWrite hd hs hn hlt
  have hlen := length_endWrite (s := s) (p := p) (n := n)
  have hsnap : (endWrite p n s).resume.snap = none := rfl
  have hlatch : (endWrite p n s).resume.latch = s.resume.latch := rfl
  generalize endWrite p n s = v at hexec hwritten hv hfind hlen hsnap hlatch
  have hwait : v.ctl.forgetWait = s.ctl.forgetWait := congrArg Control.forgetWait (hv.ctl rfl)
  have heject : v.eject = s.eject := hv .eject rfl
  refine ⟨fun hf he => ?alone, fun hf he hd => ?forget, fun a hf he hp hheld hpend _ => ?ejects⟩
  case alone =>
    rw [forgetContinues_of_none (hwait.trans hf), ejectContinues_of_none (heject.trans he)] at hexec
    have ht := hv.comp (settleArbiter_touches (s := v))
    have hresume : (settleArbiter v).resume = v.resume := settleArbiter_touches .resume rfl
    refine ⟨_, hexec, ?_, by rw [hresume, hsnap], by rw [hresume, hlatch], (hwritten.congr hresume).fields⟩
    rw [← ht.ctl rfl]
    exact (ht.mono rfl).eq_with
  case forget =>
    obtain ⟨ht, hresume, hctl⟩ := forgetContinues_spec (hwait.trans hf) (hfind hd) (heject.trans he)
    have hentry := fun k => (resumeAt_congr hresume k).trans (resumeAt_forgetEntry (hlen.symm ▸ hlt))
    refine ⟨_, hexec, (congrArg ResumeStore.snap hresume).trans hsnap, ?_, fun k hk => ?_, ?_,
      ((hv.comp ht).mono rfl).eq_with⟩
    · rw [hentry, if_pos rfl]
    · rw [hentry, if_neg hk]
      exact hwritten.2 k hk
    · exact hctl.trans (congrArg Control.forgets (hv.ctl rfl))
  case ejects =>
    rw [forgetContinues_of_none (hwait.trans hf)] at hexec
    rw [← heject] at he
    rw [← hv.rc rfl] at hp
    rw [← hv.intake rfl] at hheld
    rw [← hv.ctl rfl] at hpend
    obtain ⟨hej, -, -, -⟩ := ejectContinues_spec he hp hheld hpend
    obtain ⟨hcommand, htray⟩ := ejectContinues_ctl he hp hheld hpend
    have hfall : fallDue v = fallDue s := fallDue_congr (hv.mono rfl)
    have hpins : v.pins = s.pins := hv .pins rfl
    refine ⟨_, hexec, hej.eject, ?_⟩
    rw [hej.rc, hej.map, hej.gaps, hej.play, ← hv.map rfl, ← hv.play rfl, ← hv.mem rfl, ← hv.ctl rfl, ← hpins,
      ← hfall, ← snapshotDisc_congr (hv.rc rfl)]
    refine ⟨rfl, rfl, rfl, rfl, rfl, rfl, rfl, rfl, rfl, rfl, hej.mem, hcommand, htray, fun hd => ?_,
      fun hd hmain => ejectContinues_of_due he hp hheld hpend hd hmain hsnap⟩
    obtain ⟨hresume, hsupply⟩ := ejectContinues_of_not_due he hp hheld hpend hd
    exact ⟨(congrArg ResumeStore.snap hresume).trans hsnap, (hwritten.congr hresume).fields,
      hsupply.trans (hv .supply rfl)⟩

end Sys2Proof.Machine
end

section
/-! PROOFS. The power-on retention check (O59). -/
namespace Sys2Proof.Machine

section
variable {s t u : State} {f : Word} {v : Nat} {straps : BitVec 2}

/-! ### RSTn makes no check (R143, R157) -/

/-- `t` keeps the Resume Table and the latch of `s`, and has raised no RETAIN_LOST. -/
structure State.retains (s t : State) : Prop where
  entries : t.resume.entries = s.resume.entries
  latch : t.resume.latch = s.resume.latch
  lost : t.flag .retainLost = true → s.flag .retainLost = true

theorem State.retains.refl (s : State) : s.retains s := ⟨rfl, rfl, id⟩

theorem State.retains.trans (h : s.retains t) (h' : t.retains u) : s.retains u :=
  ⟨h'.entries.trans h.entries, h'.latch.trans h.latch, h.lost ∘ h'.lost⟩

theorem retains_onPins (f : Pins → Pins) : s.retains (s.onPins f) := ⟨rfl, rfl, id⟩

theorem retains_resetBlocks : s.retains (resetBlocks straps s) := ⟨rfl, rfl, fun h =>
  absurd (show (0 : BitVec 16).getLsbD 15 = true from h) (by decide)⟩

theorem retains_sampleStraps : s.retains (sampleStraps straps s) := ⟨rfl, rfl, id⟩

theorem retains_resetEnds : s.retains (resetEnds s) := by
  unfold resetEnds
  split
  · exact .refl s
  · rw [admitWaiting_eq_onRouter]
    exact ⟨rfl, rfl, id⟩

theorem retains_rstnAssert : s.retains (rstnAssert s) := by
  unfold rstnAssert
  split
  · exact .refl s
  · split
    · exact retains_onPins _
    · exact retains_resetBlocks.trans (retains_onPins _)

theorem retains_rstnRelease : s.retains (rstnRelease straps s) := by
  unfold rstnRelease
  split
  · dsimp only
    split
    · exact retains_onPins _
    · exact ((retains_onPins _).trans retains_sampleStraps).trans retains_resetEnds
  · exact .refl s

/-! ### The retention check (R155, R169) -/

theorem retentionCheck_of_latch (h : s.resume.latch = true) : retentionCheck s = s := if_pos h

theorem retentionCheck_of_clear (h : s.resume.latch = false) : retentionCheck s =
    raiseFlag .retainLost (s.onResume fun t =>
      { t with entries := t.entries.map (fun e => { e with valid := false }), latch := true }) :=
  if_neg (by rw [h]; decide)

/-- In a table with no valid entry the next snapshot takes entry 0 (R155). -/
theorem targetEntry_of_none_valid (h : ∀ e ∈ s.resume.entries, e.valid = false) (hne : s.resume.entries ≠ []) :
    targetEntry s f = 0 := by
  have hown : resumeEntry s f = none := by
    unfold resumeEntry
    split
    · rfl
    · rw [List.findIdx?_eq_none_iff]
      intro e he
      rw [h e he]
      rfl
  have hfree : freeEntry s = some 0 := by
    unfold freeEntry
    obtain ⟨e, rest, hes⟩ := List.exists_cons_of_ne_nil hne
    rw [hes] at h ⊢
    rw [List.findIdx?_cons, h e List.mem_cons_self]
    rfl
  unfold targetEntry
  rw [hown, hfree]

/-- The power-on values that the end of the delay gives the blocks, before the check (R166). -/
def State.poweredOn (s : State) (v : Nat) (straps : BitVec 2) : State :=
  ((resetBlocks straps (driveVmain v s)).onPins fun p => { p with pblk := straps }).onResume
    fun t => { t with onVbak := false }

/-- The end of the power-on delay with no request waiting (R143, R166). -/
theorem exec_powerOnDelayEnd (hheld : s.supply.held = true) (hv : 3900 ≤ v) (hw : s.router.waiting = []) :
    exec (.powerOnDelayEnd v straps) s =
      .next ((retentionCheck (s.poweredOn v straps)).onSupply fun u => { u with held := false }) := by
  refine congrArg Host.Outcome.next ((if_pos ⟨hheld, hv⟩).trans (resetEnds_of_waiting_nil ?_))
  show (retentionCheck (s.poweredOn v straps)).router.waiting = []
  unfold retentionCheck
  split <;> exact hw

end

/-- Settles O59: RSTn keeps table and latch (`State.retains`), and the check follows the latch. -/
theorem powerOnChecksRetention : Obligations.PowerOnChecksRetention := by
  refine ⟨fun straps s t ht => ?rstn, ⟨by decide, by decide⟩, fun v straps s hheld hv hw => ?powerOn⟩
  case rstn =>
    have hret : s.retains t := by
      rcases ht with ht | ht <;> cases ht
      · exact retains_rstnAssert
      · exact retains_rstnRelease
    exact ⟨hret.entries, hret.latch, hret.lost⟩
  case powerOn =>
    refine ⟨_, exec_powerOnDelayEnd hheld hv hw, ?_⟩
    cases hlatch : s.resume.latch with
    | true =>
      rw [retentionCheck_of_latch (s := s.poweredOn v straps) hlatch]
      exact ⟨rfl, rfl, rfl, rfl, hlatch, rfl, rfl, rfl, rfl, fun _ => ⟨rfl, rfl⟩, nofun⟩
    | false =>
      rw [retentionCheck_of_clear (s := s.poweredOn v straps) hlatch]
      refine ⟨rfl, rfl, rfl, rfl, rfl, rfl, rfl, rfl, rfl, nofun,
        fun _ => ⟨BitVec.zero_or, rfl, fun hne f => ?_⟩⟩
      refine targetEntry_of_none_valid (fun e he => ?_) fun hnil => hne (List.map_eq_nil_iff.mp hnil)
      obtain ⟨x, -, rfl⟩ := List.mem_map.mp he
      rfl

end Sys2Proof.Machine
end

section
/-! PROOFS. The retention latch on VBAK (O8) and the supply-low comparator (O57). -/
namespace Sys2Proof.Machine

section
variable {s : State} {v b : Nat}

/-! ### The watch on VBAK (R167, R168) -/

theorem watchVbak_low (hon : s.resume.onVbak = true) (hb : b < 2000) : watchVbak b s = { s with
    pins := { s.pins with vbak := b }, resume := { s.resume with latch := false } } := by
  rw [watchVbak_onVbak hon, decide_eq_false (Nat.not_le.mpr hb), Bool.and_false]

theorem exec_vbakLow (hon : s.resume.onVbak = true) (hb : b < 2000) :
    exec (.vbakLow b) s = .next (watchVbak b s) := congrArg Host.Outcome.next (if_pos ⟨hon, hb⟩)

/-- On VMAIN the level of VBAK is not watched (R167). -/
theorem exec_vbakLow_on_vmain (hoff : s.resume.onVbak = false) : exec (.vbakLow b) s = .next s :=
  congrArg Host.Outcome.next (if_neg fun hc => Bool.eq_false_iff.mp hoff hc.1)

/-- The retention check of a power-on alone sets the latch (R169). -/
theorem maskOf_latch {c : Instr} (h : ∀ vmain straps, c ≠ .powerOnDelayEnd vmain straps) :
    (maskOf c).latch = true := by
  cases c
  case powerOnDelayEnd vmain straps => exact absurd rfl (h vmain straps)
  all_goals rfl

/-! ### The raw condition (R161) -/

theorem conditionAt_below (h : v < 4300 + 50 * s.ctl.params.supplyLevel) : conditionAt s v = .below := if_pos h

theorem conditionAt_above (h : 4300 + 50 * s.ctl.params.supplyLevel + 50 ≤ v) : conditionAt s v = .above :=
  (if_neg (Nat.not_lt.mpr ((Nat.le_add_right _ 50).trans h))).trans (if_pos h)

/-! ### Falls and rises (R162, R163) -/

/-- A request with no disc to save is ended at once (R153). -/
theorem requestSnapshot_of_no_disc (hd : snapshotDisc s = none) : requestSnapshot s = s := by
  unfold requestSnapshot
  rw [hd]

theorem fallActs_of_no_disc (hd : snapshotDisc s = none) : fallActs s = raiseFlag .supply s :=
  requestSnapshot_of_no_disc (s := raiseFlag .supply s) hd

theorem fallActs_supply : (fallActs s).supply = s.supply :=
  requestSnapshot_touches (s := raiseFlag .supply s) .supply rfl

theorem exec_supplyFallTaken (hr : inReset s = false) (hv : 3900 ≤ v) (hfirst : s.supply.first = false)
    (hlow : s.supply.low = false) (hfall : v < 4300 + 50 * s.ctl.params.supplyLevel) :
    exec (.supplyFallTaken v) s = .next (fallActs (setLow true (driveVmain v s))) :=
  (next_live hr).trans (congrArg _ (if_pos ⟨hv, hfirst, hlow, conditionAt_below hfall⟩))

theorem exec_supplyRiseTaken (hr : inReset s = false) (hv : 3900 ≤ v) (hfirst : s.supply.first = false)
    (hlow : s.supply.low = true) (hrise : 4300 + 50 * s.ctl.params.supplyLevel + 50 ≤ v) :
    exec (.supplyRiseTaken v) s = .next (setLow false (driveVmain v s)) :=
  (next_live hr).trans (congrArg _ (if_pos ⟨hv, hfirst, hlow, conditionAt_above hrise⟩))

/-! ### The first comparison (R170) -/

theorem firstCompare_below (hfirst : s.supply.first = true) (hv : 3900 ≤ v)
    (hfall : v < 4300 + 50 * s.ctl.params.supplyLevel) : firstCompare v s =
      if s.rc.loaded.isSome then fallActs (setLow true (driveVmain v s)) else setLow true (driveVmain v s) := by
  unfold firstCompare
  rw [if_pos ⟨hfirst, hv⟩, conditionAt_below hfall]
  rfl

theorem firstCompare_above (hfirst : s.supply.first = true) (hv : 3900 ≤ v)
    (hrise : 4300 + 50 * s.ctl.params.supplyLevel + 50 ≤ v) :
    firstCompare v s = setLow false (driveVmain v s) := by
  unfold firstCompare
  rw [if_pos ⟨hfirst, hv⟩, conditionAt_above hrise]

end

/-- Settles O8: the watch of VBAK clears the latch, and the mask of every command but the end of the power-on delay
names it. -/
theorem latchClearsOnLowVbak : Obligations.LatchClearsOnLowVbak := by
  refine ⟨fun b s hb => ⟨fun hon => ?low, exec_vbakLow_on_vmain⟩, fun v b s hv hheld => ?threshold,
    fun c s t ht hs hset => ?stays⟩
  case low => rw [exec_vbakLow hon hb, watchVbak_low hon hb]
  case threshold =>
    refine ⟨_, exec_powerOnThresholdFall hv hheld, ?_⟩
    rw [watchVbak_onVbak rfl]
    exact ⟨rfl, rfl⟩
  case stays =>
    by_contra hnot
    have hmask : (maskOf c).latch = true := maskOf_latch fun v p hc => hnot ⟨v, p, hc⟩
    exact Bool.eq_false_iff.mp hs ((exec_kept_maskOf c ht).latch hmask hset)

/-- Settles O57: a fall is `fallActs` with the indication set, which takes a snapshot where there is a disc to save;
the first comparison is a fall only with a disc loaded. -/
theorem supplyComparisons : Obligations.SupplyComparisons := by
  intro v s hr hv fall at'
  refine ⟨fun hfirst hlow hfall hd => ?noDisc, fun hfirst hlow hfall hd hsnap => ?saves,
    fun hfirst hlow hrise => exec_supplyRiseTaken hr hv hfirst hlow hrise,
    fun hfirst hrise => (next_live hr).trans (congrArg _ (firstCompare_above hfirst hv hrise)),
    fun hfirst hfall hl => ?firstUnloaded, fun hfirst hfall hl => ?firstLoaded⟩
  case noDisc =>
    have hact : fallActs (setLow true (driveVmain v s)) = raiseFlag .supply (setLow true (driveVmain v s)) :=
      fallActs_of_no_disc hd
    rw [exec_supplyFallTaken hr hv hfirst hlow hfall, hact]
    rfl
  case saves =>
    obtain ⟨f, hf⟩ := Option.isSome_iff_exists.mp hd
    obtain ⟨q, hq, -⟩ := fallActs_snap v hf hsnap
    have hto := fallActs_touches (s := s) v
    exact ⟨_, exec_supplyFallTaken hr hv hfirst hlow hfall, fallActs_low v, fallActs_flag v,
      Option.isSome_of_eq_some hq, hto.rc rfl, hto.play rfl, hto.map rfl⟩
  case firstUnloaded =>
    have hnot : ¬ s.rc.loaded.isSome = true := by rw [hl]; decide
    exact (next_live hr).trans (congrArg _ ((firstCompare_below hfirst hv hfall).trans (if_neg hnot)))
  case firstLoaded =>
    exact ⟨_, (next_live hr).trans (congrArg _ ((firstCompare_below hfirst hv hfall).trans (if_pos hl))),
      fallActs_low v, congrArg Supply.first fallActs_supply, fallActs_flag v⟩

end Sys2Proof.Machine
end

section
/-! PROOFS. Event flags: a set flag stays set (O6), and ATTN (O9). -/
namespace Sys2Proof.Machine

/-! ### Set flags (R180) -/

theorem maskOf_flags {c : Instr} (hack : ∀ d e, c ≠ .acknowledgeWordWrite d e) (hgrant : c ≠ .memoryGrant)
    (hrstn : c ≠ .rstnAssert) (hfall : ∀ v b, c ≠ .powerOnThresholdFall v b)
    (hdelay : ∀ v p, c ≠ .powerOnDelayEnd v p) : (maskOf c).flags = true := by
  cases c
  case acknowledgeWordWrite d e => exact absurd rfl (hack d e)
  case memoryGrant => exact absurd rfl hgrant
  case rstnAssert => exact absurd rfl hrstn
  case powerOnThresholdFall v b => exact absurd rfl (hfall v b)
  case powerOnDelayEnd v p => exact absurd rfl (hdelay v p)
  all_goals rfl

/-- Settles O6: the mask of every command but those excepted names the flags. -/
theorem flagsStayThroughOtherCommands : Obligations.FlagsStayThroughOtherCommands :=
  fun c _ _ hack hgrant hrstn hfall hdelay ht =>
    (exec_kept_maskOf c ht).flags (maskOf_flags hack hgrant hrstn hfall hdelay)

/-! ### ATTN (R179, R181) -/

theorem EventFlag.bit_lt (f : EventFlag) : f.bit < 16 := by cases f <;> decide

/-- The sixteen flags fill the flags word: each of its bits is the bit of one. -/
theorem EventFlag.exists_bit_eq : ∀ i < 16, ∃ f : EventFlag, f.bit = i
  | 0, _ => ⟨.breakTaken, rfl⟩
  | 1, _ => ⟨.rejoin, rfl⟩
  | 2, _ => ⟨.bridge, rfl⟩
  | 3, _ => ⟨.underrun, rfl⟩
  | 4, _ => ⟨.leadLow, rfl⟩
  | 5, _ => ⟨.overflow, rfl⟩
  | 6, _ => ⟨.gapFilled, rfl⟩
  | 7, _ => ⟨.gapLate, rfl⟩
  | 8, _ => ⟨.quality, rfl⟩
  | 9, _ => ⟨.tray, rfl⟩
  | 10, _ => ⟨.resume, rfl⟩
  | 11, _ => ⟨.supply, rfl⟩
  | 12, _ => ⟨.cmdDone, rfl⟩
  | 13, _ => ⟨.access, rfl⟩
  | 14, _ => ⟨.config, rfl⟩
  | 15, _ => ⟨.retainLost, rfl⟩
  | _ + 16, h => absurd h (by omega)

theorem ne_zero_iff_exists_getLsbD {w : Nat} (x : BitVec w) : x ≠ 0 ↔ ∃ i < w, x.getLsbD i = true := by
  refine ⟨fun hx => ?_, fun ⟨i, _, hi⟩ h0 => by simp [h0] at hi⟩
  by_contra hno
  exact hx (BitVec.eq_of_getLsbD_eq fun i hi => by simpa using fun h => hno ⟨i, hi, h⟩)

/-- The bit of a flag under the enable word is the flag and its enable bit. -/
theorem getLsbD_enabled (s : State) (f : EventFlag) :
    (s.ctl.flags &&& s.ctl.enable.setWidth 16).getLsbD f.bit = true ↔
      s.flag f = true ∧ s.ctl.enable.getLsbD f.bit = true := by
  simp [State.flag, f.bit_lt]

theorem attn_iff (s : State) :
    s.attn = true ↔ ∃ f : EventFlag, s.flag f = true ∧ s.ctl.enable.getLsbD f.bit = true := by
  simp only [State.attn, bne_iff_ne, ne_zero_iff_exists_getLsbD, ← getLsbD_enabled]
  constructor
  · rintro ⟨i, hi, hbit⟩
    obtain ⟨f, rfl⟩ := EventFlag.exists_bit_eq i hi
    exact ⟨f, hbit⟩
  · rintro ⟨f, hbit⟩
    exact ⟨f.bit, f.bit_lt, hbit⟩

theorem attn_eq_false_of_enable {s : State} (h : s.ctl.enable = 0) : s.attn = false := by
  simp [State.attn, h]

/-- Settles O9: each bit of the flags word is a flag's, and the enable word is 0 at reset. -/
theorem attnFollowsEnabledFlags : Obligations.AttnFollowsEnabledFlags :=
  ⟨attn_iff, fun _ _ => attn_eq_false_of_enable rfl, attn_eq_false_of_enable rfl⟩

end Sys2Proof.Machine
end

section
/-! PROOFS. The words of the status area (O14). Each word is its fields packed from bit 0 up, unused bits among
them; one lemma reads any field of a packed word. -/
namespace Sys2Proof.Machine

/-! ### Packed fields -/

/-- The number of the fields given, each a width and a value, from bit 0 up. -/
def packed : List (Nat × Nat) → Nat
  | [] => 0
  | (width, v) :: l => v % 2 ^ width + 2 ^ width * packed l

/-- The lowest bit of field `i`: the widths of the fields below it, and of all the fields where `i` is their
number. -/
def fieldStart : List (Nat × Nat) → Nat → Nat
  | (width, _) :: l, i + 1 => width + fieldStart l i
  | _, _ => 0

theorem packed_div_mod (l : List (Nat × Nat)) (i : Nat) (h : i < l.length) :
    packed l / 2 ^ fieldStart l i % 2 ^ l[i].1 = l[i].2 % 2 ^ l[i].1 := by
  induction l generalizing i with
  | nil => exact absurd h (Nat.not_lt_zero i)
  | cons p l ih =>
    obtain ⟨width, v⟩ := p
    cases i with
    | zero => simp [packed, fieldStart]
    | succ i =>
      have hhead : (v % 2 ^ width + 2 ^ width * packed l) / 2 ^ width = packed l := by
        rw [Nat.add_mul_div_left _ _ (Nat.two_pow_pos width),
          Nat.div_eq_of_lt (Nat.mod_lt _ (Nat.two_pow_pos width)), Nat.zero_add]
      simp only [packed, fieldStart, List.getElem_cons_succ, Nat.pow_add, ← Nat.div_div_eq_div_mul, hhead]
      exact ih i (by simpa using h)

theorem fieldStart_add_le (l : List (Nat × Nat)) (i : Nat) (h : i < l.length) :
    fieldStart l i + l[i].1 ≤ fieldStart l l.length := by
  induction l generalizing i with
  | nil => exact absurd h (Nat.not_lt_zero i)
  | cons p l ih =>
    cases i with
    | zero => simp [fieldStart]
    | succ i =>
      have hrest := ih i (Nat.lt_of_succ_lt_succ h)
      simp only [fieldStart, List.length_cons, List.getElem_cons_succ]
      omega

/-- The word is made of these fields, from bit 0 up to bit 31. -/
def Layout (w : Word) (l : List (Nat × Nat)) : Prop :=
  w = BitVec.ofNat 32 (packed l) ∧ fieldStart l l.length = 32

section
variable {w : Word} {l : List (Nat × Nat)}

theorem Layout.field (hw : Layout w l) (i : Nat) {low width v : Nat} (hlow : fieldStart l i = low)
    (hi : l[i]? = some (width, v)) : w.extractLsb' low width = BitVec.ofNat width v := by
  obtain ⟨rfl, hfull⟩ := hw
  obtain ⟨h, hget⟩ := List.getElem?_eq_some_iff.mp hi
  have hfit := fieldStart_add_le l i h
  have hfield := packed_div_mod l i h
  rw [hget, hlow] at hfit hfield
  refine BitVec.eq_of_getLsbD_eq fun j hj => ?_
  have hbit := congrArg (Nat.testBit · j) hfield
  simp only [Nat.testBit_mod_two_pow, Nat.testBit_div_two_pow, hj, decide_true, Bool.true_and] at hbit
  have hlt : low + j < 32 := by omega
  rw [BitVec.getLsbD_extractLsb', BitVec.getLsbD_ofNat, BitVec.getLsbD_ofNat, ← hbit, Nat.add_comm j]
  simp [hj, hlt]

/-- A field of one bit is that bit of the word. -/
theorem Layout.bit (hw : Layout w l) (i : Nat) {low : Nat} {b : Bool} (hlow : fieldStart l i = low)
    (hi : l[i]? = some (1, b.toNat)) : w.getLsbD low = b := by
  have hbit := congrArg (BitVec.getLsbD · 0) (hw.field i hlow hi)
  cases b <;> simpa using hbit

end

/-! ### The model's fields -/

/-- A bit is a field of width 1. -/
theorem bitAt_eq_fieldAt (low : Nat) (b : Bool) : bitAt low b = fieldAt low 1 b.toNat := by
  cases b <;> simp [bitAt, fieldAt]

/-- A word of one field at bit 0 is the field's value. -/
theorem ofNat_fieldAt_zero (width v : Nat) :
    BitVec.ofNat 32 (fieldAt 0 width v) = (BitVec.ofNat width v).setWidth 32 :=
  BitVec.eq_of_toNat_eq (by simp [fieldAt])

theorem statusWord_modes (s : State) : Layout (statusWord s 0x008)
    [(4, s.rc.phase.code), (2, s.play.mode.code), (2, 0), (2, s.quality.level.code), (6, 0),
      (8, s.quality.counter), (1, s.supply.low.toNat), (1, (s.lines.taken == .closed).toNat), (6, 0)] := by
  refine ⟨congrArg (BitVec.ofNat 32) (show modesWord s = _ from ?_), rfl⟩
  simp only [modesWord, bitAt_eq_fieldAt, fieldAt, packed]
  omega

theorem statusWord_unit (s : State) : Layout (statusWord s 0x004)
    [(1, s.ctl.busy.toNat), (1, (s.ctl.latch != 0).toNat), (2, 0), (2, s.ctl.applyInd.code), (2, 0),
      (8, codeField s.ctl.lastCode), (3, s.ctl.lastResult.code), (13, 0)] := by
  refine ⟨congrArg (BitVec.ofNat 32) (show unitWord s.ctl = _ from ?_), rfl⟩
  simp only [unitWord, bitAt_eq_fieldAt, fieldAt, packed]
  omega

theorem statusWord_counts (s : State) : Layout (statusWord s 0x018)
    [(5, s.map.segs.length), (11, 0), (11, freeCount s), (5, 0)] := by
  refine ⟨congrArg (BitVec.ofNat 32)
    (show fieldAt 0 5 s.map.segs.length + fieldAt 16 11 (freeCount s) = _ from ?_), rfl⟩
  simp only [fieldAt, packed]
  omega

theorem statusWord_record (s : State) : Layout (statusWord s 0x020)
    [(2, causeCode s.rc.record.cause), (6, 0), (1, s.rc.record.pending.toNat), (1, s.rc.record.renewed.toNat),
      (22, 0)] := by
  refine ⟨congrArg (BitVec.ofNat 32) (show fieldAt 0 2 (causeCode s.rc.record.cause) +
    bitAt 8 s.rc.record.pending + bitAt 9 s.rc.record.renewed = _ from ?_), rfl⟩
  simp only [bitAt_eq_fieldAt, fieldAt, packed]
  omega

theorem ofNat_toNat_word (w : Word) : BitVec.ofNat 32 w.toNat = w := by simp

/-- The code of the last completed command, where it fits its field (log 21). -/
theorem ofNat_codeField {code : Word} (h : code.toNat < 256) :
    BitVec.ofNat 8 (codeField code) = code.extractLsb' 0 8 := by
  rw [codeField, if_pos h]
  exact BitVec.eq_of_toNat_eq (by simp)

/-! ### The areas of the status area (R186) -/

section
variable {s : State}

theorem statusNumber_gaps {n : Nat} (h : 16 ≤ n) (h' : n < 32) :
    statusNumber s n = gapView s ((n - 16) / 2) ((n - 16) % 2) :=
  (if_neg (by omega)).trans (if_pos h')

theorem statusNumber_above_gaps {n : Nat} (h : 32 ≤ n) : statusNumber s n =
    if n < 50 then resumeView s ((n - 32) / 3) ((n - 32) % 3)
    else if n < 64 then 0
    else if n < 85 then s.ctl.params.toList.getD (n - 64) 0
    else if n < 96 then 0
    else if n < 108 then (s.ctl.counters.toList.getD (n - 96) 0).toNat
    else 0 :=
  (if_neg (by omega)).trans (if_neg (by omega))

theorem statusNumber_resume {n : Nat} (h : 32 ≤ n) (h' : n < 50) :
    statusNumber s n = resumeView s ((n - 32) / 3) ((n - 32) % 3) := by
  rw [statusNumber_above_gaps h, if_pos h']

theorem statusNumber_parameters {n : Nat} (h : 64 ≤ n) (h' : n < 85) :
    statusNumber s n = s.ctl.params.toList.getD (n - 64) 0 := by
  rw [statusNumber_above_gaps (by omega), if_neg (by omega), if_neg (by omega), if_pos h']

theorem statusNumber_counters {n : Nat} (h : 96 ≤ n) (h' : n < 108) :
    statusNumber s n = (s.ctl.counters.toList.getD (n - 96) 0).toNat := by
  rw [statusNumber_above_gaps (by omega), if_neg (by omega), if_neg (by omega), if_neg (by omega),
    if_neg (by omega), if_pos h']

theorem statusNumber_below_gaps {n : Nat} (h : 12 ≤ n) (h' : n < 16) : statusNumber s n = 0 := by
  interval_cases n <;> rfl

theorem statusNumber_between {n : Nat} (h : (50 ≤ n ∧ n < 64) ∨ (85 ≤ n ∧ n < 96) ∨ 108 ≤ n) :
    statusNumber s n = 0 := by
  rw [statusNumber_above_gaps (by omega), if_neg (by omega)]
  rcases h with ⟨_, h⟩ | ⟨_, h⟩ | h
  · rw [if_pos h]
  · rw [if_neg (by omega), if_neg (by omega), if_pos h]
  · rw [if_neg (by omega), if_neg (by omega), if_neg (by omega), if_neg (by omega)]

theorem statusWord_eq {offset n : Nat} (h : offset / 4 = n) :
    statusWord s offset = BitVec.ofNat 32 (statusNumber s n) := by
  rw [statusWord, h]

theorem statusWord_unlisted {offset : Nat} (h : (0x030 ≤ offset ∧ offset < 0x040) ∨
    (0x0C8 ≤ offset ∧ offset < 0x100) ∨ (0x154 ≤ offset ∧ offset < 0x180) ∨ 0x1B0 ≤ offset) :
    statusWord s offset = 0 := by
  refine congrArg (BitVec.ofNat 32) ?_
  rcases h with h | h
  · exact statusNumber_below_gaps (by omega) (by omega)
  · exact statusNumber_between (by omega)

/-! ### Gap Table views -/

/-- View `n` is the two words at 0x040 + 8n. -/
theorem statusWord_gapView {n offset : Nat} (half : Nat) (hn : n < 8) (hhalf : half < 2)
    (ho : offset = 0x040 + 8 * n + 4 * half) : statusWord s offset = BitVec.ofNat 32 (gapView s n half) := by
  rw [statusWord_eq (n := 16 + 2 * n + half) (by omega), statusNumber_gaps (by omega) (by omega),
    show (16 + 2 * n + half - 16) / 2 = n by omega, show (16 + 2 * n + half - 16) % 2 = half by omega]

theorem gapView_none {n : Nat} (h : s.gaps.entries[n]? = none) (half : Nat) : gapView s n half = 0 := by
  rw [gapView, h]

theorem statusWord_gapFirst {n : Nat} {e : GapEntry} (hn : n < 8) (h : s.gaps.entries[n]? = some e) :
    Layout (statusWord s (0x040 + 8 * n)) [(19, e.label), (11, 0), (1, (isFetching s e).toNat), (1, 1)] := by
  refine ⟨(statusWord_gapView 0 hn (by decide) rfl).trans (congrArg (BitVec.ofNat 32) ?_), rfl⟩
  simp only [gapView, h, if_pos, bitAt_eq_fieldAt, fieldAt, packed, Bool.toNat_true]
  omega

theorem statusWord_gapSecond {n : Nat} {e : GapEntry} (hn : n < 8) (h : s.gaps.entries[n]? = some e) :
    Layout (statusWord s (0x044 + 8 * n)) [(10, e.slot), (6, 0), (3, e.retries), (13, 0)] := by
  refine ⟨(statusWord_gapView 1 hn (by decide) (by omega)).trans (congrArg (BitVec.ofNat 32) ?_), rfl⟩
  simp only [gapView, h, Nat.one_ne_zero, if_false, fieldAt, packed]
  omega

theorem isFetching_iff (e : GapEntry) : isFetching s e = true ↔
    ∃ r, s.gaps.fetch = some r ∧ r.label = e.label ∧ r.slot = e.slot := by
  unfold isFetching
  cases s.gaps.fetch <;> simp

/-! ### Resume Table views (R152) -/

/-- View `n` is the three words at 0x080 + 12n. -/
theorem statusWord_resumeView {n offset : Nat} (part : Nat) (hn : n < 6) (hpart : part < 3)
    (ho : offset = 0x080 + 12 * n + 4 * part) : statusWord s offset = BitVec.ofNat 32 (resumeView s n part) := by
  rw [statusWord_eq (n := 32 + 3 * n + part) (by omega), statusNumber_resume (by omega) (by omega),
    show (32 + 3 * n + part - 32) / 3 = n by omega, show (32 + 3 * n + part - 32) % 3 = part by omega]

theorem resumeView_invalid {n : Nat} (h : (resumeAt s n).valid = false) (part : Nat) :
    resumeView s n part = 0 := by
  simp [resumeView, h]

theorem statusWord_resumeFirst {n : Nat} (hn : n < 6) (h : (resumeAt s n).valid = true) :
    Layout (statusWord s (0x080 + 12 * n))
      [(8, (resumeAt s n).age), (6, (resumeAt s n).tailCount), (17, 0), (1, 1)] := by
  refine ⟨(statusWord_resumeView 0 hn (by decide) rfl).trans (congrArg (BitVec.ofNat 32) ?_), rfl⟩
  simp only [resumeView, h, if_pos, bitAt_eq_fieldAt, fieldAt, packed, Bool.toNat_true]
  omega

theorem statusWord_resumeFingerprint {n : Nat} (hn : n < 6) (h : (resumeAt s n).valid = true) :
    statusWord s (0x084 + 12 * n) = (resumeAt s n).fingerprint := by
  rw [statusWord_resumeView 1 hn (by decide) (by omega)]
  simp [resumeView, h]

theorem statusWord_resumeFrame {n : Nat} (hn : n < 6) (h : (resumeAt s n).valid = true) :
    statusWord s (0x088 + 12 * n) = (BitVec.ofNat 28 (resumeAt s n).frame).setWidth 32 := by
  rw [statusWord_resumeView 2 hn (by decide) (by omega), ← ofNat_fieldAt_zero]
  simp [resumeView, h]

end

/-! ### Parameters and counters -/

/-- Reading a list place by place gives the list. -/
theorem map_range_getD {α β : Type} (l : List α) (d : α) (f : α → β) :
    (List.range l.length).map (fun i => f (l.getD i d)) = l.map f :=
  List.ext_getElem (by simp) fun i h _ => by
    have hi : i < l.length := by simpa using h
    simp [hi]

theorem statusWords_parameters (s : State) :
    (List.range 21).map (fun i => statusWord s (0x100 + 4 * i)) =
      s.ctl.params.toList.map (BitVec.ofNat 32) := by
  refine (List.map_congr_left fun i hi => ?_).trans (map_range_getD s.ctl.params.toList 0 (BitVec.ofNat 32))
  have hlt : i < 21 := List.mem_range.mp hi
  rw [statusWord_eq (n := 64 + i) (by omega), statusNumber_parameters (by omega) (by omega), Nat.add_sub_cancel_left]

theorem statusWords_counters (s : State) :
    (List.range 12).map (fun i => statusWord s (0x180 + 4 * i)) = s.ctl.counters.toList := by
  refine (List.map_congr_left fun i hi => ?_).trans
    ((map_range_getD s.ctl.counters.toList 0 id).trans (List.map_id _))
  have hlt : i < 12 := List.mem_range.mp hi
  rw [statusWord_eq (n := 96 + i) (by omega), statusNumber_counters (by omega) (by omega), Nat.add_sub_cancel_left]
  exact ofNat_toNat_word _

/-! ### All of them -/

/-- Settles O14: every word by its packed fields, its one field, or its area. -/
theorem modesWordFields : Obligations.ModesWordFields := by
  intro s
  have modes := statusWord_modes s
  have unit := statusWord_unit s
  have counts := statusWord_counts s
  have record := statusWord_record s
  refine ⟨⟨modes.field 0 rfl rfl, modes.field 1 rfl rfl, modes.field 2 rfl rfl, modes.field 3 rfl rfl,
      modes.field 4 rfl rfl, modes.field 5 rfl rfl, modes.bit 6 rfl rfl, modes.bit 7 rfl rfl,
      modes.field 8 rfl rfl⟩,
    BitVec.ofNat_toNat ..,
    ⟨unit.bit 0 rfl rfl, unit.bit 1 rfl rfl, unit.field 2 rfl rfl, unit.field 3 rfl rfl, unit.field 4 rfl rfl,
      fun h => (unit.field 5 rfl rfl).trans (ofNat_codeField h), unit.field 6 rfl rfl, unit.field 7 rfl rfl⟩,
    ofNat_fieldAt_zero _ _, ofNat_fieldAt_zero _ _, ofNat_fieldAt_zero _ _,
    ⟨counts.field 0 rfl rfl, counts.field 1 rfl rfl, counts.field 2 rfl rfl, counts.field 3 rfl rfl⟩,
    ofNat_toNat_word _,
    ⟨record.field 0 rfl rfl, record.field 1 rfl rfl, record.bit 2 rfl rfl, record.bit 3 rfl rfl,
      record.field 4 rfl rfl⟩,
    ofNat_fieldAt_zero _ _, ofNat_fieldAt_zero _ _, ofNat_fieldAt_zero _ _,
    fun n hn => ?_, fun n hn => ⟨fun hv => ?_, fun hv => ?_⟩,
    statusWords_parameters s, statusWords_counters s, fun _ => statusWord_unlisted⟩
  · split
    case h_1 he =>
      exact ⟨(statusWord_gapView 0 hn (by decide) rfl).trans (congrArg _ (gapView_none he 0)),
        (statusWord_gapView 1 hn (by decide) (by omega)).trans (congrArg _ (gapView_none he 1))⟩
    case h_2 e he =>
      have first := statusWord_gapFirst hn he
      have second := statusWord_gapSecond hn he
      exact ⟨first.field 0 rfl rfl, first.field 1 rfl rfl, by rw [first.bit (low := 30) 2 rfl rfl, isFetching_iff],
        first.bit 3 rfl rfl, second.field 0 rfl rfl, second.field 1 rfl rfl, second.field 2 rfl rfl,
        second.field 3 rfl rfl⟩
  · exact ⟨(statusWord_resumeView 0 hn (by decide) rfl).trans (congrArg _ (resumeView_invalid hv 0)),
      (statusWord_resumeView 1 hn (by decide) (by omega)).trans (congrArg _ (resumeView_invalid hv 1)),
      (statusWord_resumeView 2 hn (by decide) (by omega)).trans (congrArg _ (resumeView_invalid hv 2))⟩
  · have first := statusWord_resumeFirst hn hv
    exact ⟨first.field 0 rfl rfl, first.field 1 rfl rfl, first.field 2 rfl rfl, first.bit 3 rfl rfl,
      statusWord_resumeFingerprint hn hv, statusWord_resumeFrame hn hv⟩

end Sys2Proof.Machine
end

section
/-! PROOFS. A step and the queue: the front command runs (O1), and no command changes the queue (O3). -/
namespace Sys2Proof.Machine

section
variable {s : State}

theorem step_of_pending_cons {c : Instr} {rest : List Instr} (hq : s.pending = c :: rest) :
    step s = exec c { s with pending := rest } := by
  unfold step
  rw [hq]

/-- The part of the common relation that speaks of the queue: it is asked for whatever the mask. -/
theorem exec_pending {c : Instr} {t : State} (ht : exec c s = .next t) : t.pending = s.pending :=
  (exec_kept rfl rfl rfl c (.refl .invariant s) ht).queue

end

/-- Settles O1: taking the front command off gives back the state it was put in front of. -/
theorem stepRunsFrontCommand : Obligations.StepRunsFrontCommand :=
  fun _ _ => step_of_pending_cons rfl

/-- Settles O3: every command is made of operations that keep the queue. -/
theorem execKeepsQueue : Obligations.ExecKeepsQueue :=
  fun _ _ _ => exec_pending

end Sys2Proof.Machine
end
